-- ==== Sys2Proof/Word.lean ====
section
/-!
DEFINITION. The words of the machine (spec 00_scope.md R9, R10, R16; 10_state.md R31): what the spec treats as bits.
-/

namespace Sys2Proof

/-- A 32-bit word: a command word, a `u32` operand or a REV register (R9, R31, R35). -/
abbrev Word := BitVec 32

/-- A byte: an error code (R32) or a byte of IOBUF (R74). -/
abbrev Byte := BitVec 8

/-- A sample: the bit pattern of an IEEE 754 binary32 value (R10). -/
abbrev F32 := BitVec 32

/-- One value of a random-draw stream, an integer in `[0, 2^24)` (R16). -/
abbrev Draw := BitVec 24

end Sys2Proof
end

