-- ==== Sys2Proof/Config.lean ====
section
/-!
DEFINITION. What an implementation fixes: the parameters of 00_scope.md R8 (the fixed ones as constants, the OPEN ones as
the plain data `Params`), and the free values: what the spec leaves unconstrained, as constants with no body.
-/

namespace Sys2Proof

namespace Config

/-! The parameters whose value R8 states. -/

/-- `N_INT`, the internal channel count of REV. -/
def nInt : Nat := 8
/-- `C_MAX`, the largest host channel count. -/
def cMax : Nat := 8
/-- `MAXBLK_CAP`, the largest block length, and the samples of one IOBUF channel (20_memory.md R73). -/
def maxblkCap : Nat := 4096
/-- `FS_MAX`, the largest sample rate REV.SETUP accepts, in Hz. -/
def fsMax : Nat := 192000
/-- `DL_CAP`, the largest `M + MAXBLK` of a delay line. -/
def dlCap : Nat := 2 ^ 20
/-- `HAD_NMAX`, the largest frame of a stand-alone HAD. -/
def hadNmax : Nat := 64
/-- `P_MAX`, the largest pulse count of a DVN. -/
def pMax : Nat := 4096
/-- `TD_MAX`, the largest DVN grid spacing. -/
def tdMax : Nat := 4096
/-- `DIFF_NMAX`, the largest channel count of a DIFF. -/
def diffNmax : Nat := 64
/-- `FDN_NMAX`, the largest line count of an FDN. -/
def fdnNmax : Nat := 64
/-- `L_MAX`, the largest FDN line length. -/
def lMax : Nat := 2 ^ 19
/-- `RRS_EPS`, 2^-12 exactly. -/
def rrsEps : F32 := 0x39800000
/-- `PREDELAY_MAX`, `b32(0.1)` seconds. -/
def predelayMax : F32 := 0x3DCCCCCD
/-- `SEED0`, the PRNG state taken when SEED is 0. -/
def seed0 : Word := 0x9E3779B9

end Config

/-- `FDN_LINE0` (44_fdn.md R236). -/
inductive Line0Mode where
  | active | zero
  deriving DecidableEq, Repr

/-- Pulse count and density of one diffuser stage of REV (R8 `DIFF_P[s]`, `DIFF_RHO[s]`). -/
structure StageParams where
  p : Nat
  rho : Nat
  deriving DecidableEq, Repr

/-- The OPEN parameters of R8 and `REV_BASE` (20_memory.md R71), as plain data. The three that are functions are given as
a list of the arguments at which they differ from the spec's default; since their arguments range over finite sets, every
such function is one of these lists. -/
structure Params where
  /-- `DIFF_P[s]`, `DIFF_RHO[s]` of the stages 1 to 3. -/
  diff1 : StageParams
  diff2 : StageParams
  diff3 : StageParams
  /-- `FDN_BASE_MS[s]` of the stages 1 and 2, milliseconds. -/
  fdnBaseMs1 : Rat
  fdnBaseMs2 : Rat
  /-- `FDN_JIT_LO`, `FDN_JIT_HI`. -/
  jitLo : Rat
  jitHi : Rat
  /-- `FDN_GAIN_LO`, `FDN_GAIN_HI`. -/
  gainLo : Rat
  gainHi : Rat
  /-- `FDN_LINE0`. -/
  line0 : Line0Mode
  /-- `FDN_LINE0_LEN`: pairs (base length, length of line 0). -/
  line0Len : List (Nat × Nat)
  /-- `DVN_NORM`: pairs ((P, Nw), factor). -/
  dvnNorm : List ((Nat × Nat) × F32)
  /-- `ONEPOLE_ALPHA`: pairs ((fc, fs), coefficient). -/
  onepoleAlpha : List ((F32 × Nat) × F32)
  /-- `REV_BASE`, a multiple of `0x40000`. -/
  revBase : Word
  deriving DecidableEq, Repr

/-- The defaults R8 gives. `REV_BASE` has none in the spec: 0 is the model's (DESIGN CHOICE, log 13). -/
def Params.default : Params where
  diff1 := { p := 16, rho := 1000 }
  diff2 := { p := 16, rho := 1000 }
  diff3 := { p := 16, rho := 1000 }
  fdnBaseMs1 := 40
  fdnBaseMs2 := 80
  jitLo := 3 / 4
  jitHi := 5 / 4
  gainLo := 4 / 5
  gainHi := 9 / 10
  line0 := .active
  line0Len := []
  dvnNorm := []
  onepoleAlpha := []
  revBase := 0

/-- The binary32 operations of R10, as arguments of the free NaN. -/
inductive FloatOp where
  | add | sub | mul
  deriving DecidableEq, Repr

namespace Config

/-! The free values. Each takes `n`, the value of `State.draws` when the command or access begins, so that two commands
draw independently. -/

/-- The pattern an operation gives where IEEE 754 gives a NaN, by operation and operands (93_implementation_defined.md
U21, U22; log 7). -/
opaque freeNaN : (n : Nat) → FloatOp → F32 → F32 → F32

/-- A scalar sample result field that the command does not return (10_state.md R32, U8; log 6). -/
opaque freeSample : (n : Nat) → F32

/-- A vector result field that the command does not return (R32, U8; log 6). -/
opaque freeBlock : (n : Nat) → List F32

/-- A multichannel result field that the command does not return (R32, U8; log 6). -/
opaque freeChannels : (n : Nat) → List (List F32)

/-- DVN's result `K` where the command does not return it (R32, U8; log 6). -/
opaque freeK : (n : Nat) → Word

/-- DVN's result `WID` where the command does not return it (R32, U8; log 6). -/
opaque freeWid : (n : Nat) → Word

/-- DVN's result `SGN` where the command does not return it (R32, U8; log 6). -/
opaque freeSgn : (n : Nat) → BitVec 1

/-- Sample `i` of channel `c` of a vector operand, where the issuer supplies fewer samples than the command's rule reads
(R31; log 15). -/
opaque freeOperand : (n : Nat) → (c i : Nat) → F32

/-- What the byte of IOBUF at an offset holds after reset number `epoch`, before anything writes it (10_state.md R59, U11;
log 8). -/
opaque iobufPowerOn : (epoch offset : Nat) → Byte

/-- What a host read of an IOBUF word returns while BUSY is 1 (20_memory.md R80, U12; log 9). -/
opaque busyRead : (n : Nat) → Word

/-- Which of two neighbouring binary32 values the default `ONEPOLE_ALPHA` takes where the model's 256-bit bounds do not
decide its rounding (44_fdn.md R231; log 16). -/
opaque onepoleUpper : F32 → Nat → Bool

end Config

end Sys2Proof
end

