-- ==== Sys2Proof/Machine/Exact.lean ====
section
/-!
DEFINITION. Exact evaluation and its one rounding: binary32 values as exact rationals (00_scope.md R10), `rne32` (R11),
`round` (R12), `clamp` (R13), and the correctly rounded coefficient functions of 42_hadamard_mixer.md R182,
43_dvn_convolver.md R196 and 44_fdn.md R231.
-/

namespace Sys2Proof

/-- The magnitude bits of a binary32 pattern: all but the sign bit. -/
def F32.mag (x : F32) : Nat := x.toNat % 2 ^ 31

/-- The sign bit is set. -/
def F32.neg (x : F32) : Bool := 2 ^ 31 ≤ x.toNat

/-- The magnitude bits of infinity. -/
def F32.infMag : Nat := 0x7F800000

/-- A NaN. -/
def F32.isNaN (x : F32) : Bool := F32.infMag < F32.mag x

/-- An infinity. -/
def F32.isInf (x : F32) : Bool := F32.mag x = F32.infMag

/-- Neither NaN nor infinity. -/
def F32.isFinite (x : F32) : Bool := F32.mag x < F32.infMag

/-- The magnitude of a finite value in units of `2^-149`, the smallest subnormal. -/
def F32.units (x : F32) : Nat :=
  if F32.mag x / 2 ^ 23 = 0 then F32.mag x else (2 ^ 23 + F32.mag x % 2 ^ 23) <<< (F32.mag x / 2 ^ 23 - 1)

/-- A finite value in units of `2^-149`. -/
def F32.signedUnits (x : F32) : Int := if F32.neg x then -(F32.units x : Int) else F32.units x

/-- The exact value of a finite binary32 pattern (R10, R11). -/
def F32.toRat (x : F32) : Rat := (F32.signedUnits x : Rat) / 2 ^ 149

/-- The binary32 pattern of a sign and magnitude bits. -/
def F32.pack (neg : Bool) (mag : Nat) : F32 := BitVec.ofNat 32 (if neg then mag + 2 ^ 31 else mag)

/-- `neg32`: flip the sign bit (R10). -/
def F32.negate (x : F32) : F32 := x ^^^ 0x80000000

/-- A key that orders the values that are not NaN as the reals and the infinities are ordered; the two zeros have one key. -/
def F32.key (x : F32) : Int := if F32.neg x then -(F32.mag x : Int) else F32.mag x

/-- `x < y` on binary32 values; false where one is a NaN. -/
def F32.lt (x y : F32) : Bool := !F32.isNaN x && !F32.isNaN y && decide (F32.key x < F32.key y)

namespace Machine

/-- The magnitude bits of the binary32 value nearest to `n / d` units of `2^-149`, ties to even, infinity on overflow
(R11). In the binade of `n / d` the values are `2^s` units apart and the pattern of `k · 2^s` units is `k + s · 2^23`. -/
def roundMag (n d : Nat) : Nat :=
  let s := Nat.log2 (n / d) - 23
  let ulp := d <<< s
  let k := n / ulp
  let r := n % ulp
  let k' := if ulp < 2 * r ∨ (2 * r = ulp ∧ k % 2 = 1) then k + 1 else k
  min (k' + s * 2 ^ 23) F32.infMag

/-- `rne32(q)` (R11). DESIGN CHOICE (log 30): R11 does not say which zero a result of zero is. Here a negative `q` that rounds
to zero gives `-0.0`, and `q = 0` gives `+0.0`, so that `b32` of a decimal zero is `+0.0` however the decimal is signed. For
the operations of R10 the first is IEEE 754's own rule, and an exact zero does not come here. -/
def rne32 (q : Rat) : F32 := F32.pack (decide (q < 0)) (roundMag (q.num.natAbs * 2 ^ 149) q.den)

/-- `round(q)`: to the nearest integer, halves away from zero (R12). -/
def roundAway (q : Rat) : Int := if 0 ≤ q then (q + 1 / 2).floor else -(-q + 1 / 2).floor

/-- `clamp(x, lo, hi)`; a NaN goes to `lo` (R13). -/
def clamp (x lo hi : F32) : F32 :=
  if F32.isNaN x || F32.lt x lo then lo else if F32.lt hi x then hi else x

/-- `rne32(q ^ w)` for the exact `w`-th power of a rational `q ≥ 0` (41_rrs_filter.md R161). -/
def rnePow (q : Rat) (w : Nat) : F32 := F32.pack false (roundMag (q.num.natAbs ^ w * 2 ^ 149) (q.den ^ w))

/-- The integer square root of `n`, bit by bit from `2^(k-1)` down, on top of `r`. -/
def isqrtFrom : (k : Nat) → (n r : Nat) → Nat
  | 0, _, r => r
  | k + 1, n, r => isqrtFrom k n (if (r + 2 ^ k) * (r + 2 ^ k) ≤ n then r + 2 ^ k else r)

/-- `rne32(1 / √q)` for `1 ≤ q < 2^40` (42_hadamard_mixer.md R182, 43_dvn_convolver.md R196). If `q` is no square,
`1 / √q` is irrational: it lies strictly between `f / 2^80` and `(f + 1) / 2^80`, which no boundary between two roundings
separates, so the midpoint of the two rounds as it does. -/
def rneInvSqrt (q : Nat) : F32 :=
  let r := isqrtFrom 20 q 0
  if r * r = q then F32.pack false (roundMag (2 ^ 149) r)
  else
    let f := isqrtFrom 80 (2 ^ 160 / q) 0
    F32.pack false (roundMag ((2 * f + 1) * 2 ^ 149) (2 ^ 81))

/-- The scale of the fixed-point numbers below. -/
def fxOne : Nat := 2 ^ 256

/-- The integer part of `π · 2^256`. -/
def fxPi : Nat := 0x3243F6A8885A308D313198A2E03707344A4093822299F31D0082EFA98EC4E6C89

/-- A lower bound of the first terms of the series of `exp(x / fxOne) · fxOne`, from term `n`, whose lower bound is `t`. -/
def fxExpLower (x : Nat) : (fuel n t acc : Nat) → Nat
  | 0, _, _, acc => acc
  | k + 1, n, t, acc =>
    let t' := t * x / ((n + 1) * fxOne)
    fxExpLower x k (n + 1) t' (acc + t')

/-- An upper bound of `exp(x / fxOne) · fxOne` for `x ≤ 33 · fxOne`, from term `n`, whose upper bound is `t`; after the last
term computed, each term is at most half the one before. -/
def fxExpUpper (x : Nat) : (fuel n t acc : Nat) → Nat
  | 0, _, t, acc => acc + 2 * t
  | k + 1, n, t, acc =>
    let t' := t * x / ((n + 1) * fxOne) + 1
    fxExpUpper x k (n + 1) t' (acc + t')

/-- A lower and an upper bound of `(1 - exp(-2π·fc/fs)) · fxOne` (44_fdn.md R231). Where the exponent is 32 or more, `exp`
of its negative is below `2^-46`. -/
def onepoleBounds (fc : F32) (fs : Nat) : Nat × Nat :=
  let xLo := 2 * fxPi * F32.units fc / (2 ^ 149 * fs)
  let xHi := 2 * (fxPi + 1) * F32.units fc / (2 ^ 149 * fs) + 1
  if 32 * fxOne ≤ xLo then (fxOne - 2 ^ 210, fxOne)
  else
    (fxOne - (fxOne * fxOne / fxExpLower xLo 240 0 fxOne fxOne + 1),
     fxOne - fxOne * fxOne / fxExpUpper xHi 240 0 fxOne fxOne)

/-- A fixed-point number rounded to binary32 (R11). -/
def rneFx (v : Nat) : F32 := F32.pack false (roundMag (v * 2 ^ 149) fxOne)

/-- The spec's default of `ONEPOLE_ALPHA`, `rne32(1 - exp(-2π·fc/fs))` (44_fdn.md R231). Where the two bounds round apart,
the free `Config.onepoleUpper` chooses (log 16). -/
def onepoleDefault (fc : F32) (fs : Nat) : F32 :=
  let bounds := onepoleBounds fc fs
  let lo := rneFx bounds.1
  let hi := rneFx bounds.2
  if lo = hi then lo else if Config.onepoleUpper fc fs then hi else lo

/-- `ONEPOLE_ALPHA(fc, fs)`, an OPEN parameter (00_scope.md R8, 44_fdn.md R231). -/
def onepoleAlpha (p : Params) (fc : F32) (fs : Nat) : F32 :=
  (p.onepoleAlpha.lookup (fc, fs)).getD (onepoleDefault fc fs)

/-- `DVN_NORM(P, Nw)`, an OPEN parameter; its default is `rne32(1 / √(P·Nw))`, and 1.0 for `P = 0` (43_dvn_convolver.md
R196). -/
def dvnNorm (p : Params) (pulses nw : Nat) : F32 :=
  (p.dvnNorm.lookup (pulses, nw)).getD (if pulses = 0 then 0x3F800000 else rneInvSqrt (pulses * nw))

/-- `FDN_LINE0_LEN(Lb)`, an OPEN parameter whose default is `Lb` (44_fdn.md R233, R236). -/
def line0Len (p : Params) (lb : Nat) : Nat := (p.line0Len.lookup lb).getD lb

/-- `HADSCALE(N) = rne32(1 / √N)` (42_hadamard_mixer.md R182). -/
def hadScale (n : Nat) : F32 := rneInvSqrt n

end Machine

end Sys2Proof
end

