-- ==== Sys2Proof/Machine/Float.lean ====
section
/-!
DEFINITION. Binary32 arithmetic (00_scope.md R10): each operation rounded once to nearest, ties to even, subnormals kept,
no fusion. `n` numbers the command, for the free NaN it may give (93_implementation_defined.md U21, U22; log 7).
-/

namespace Sys2Proof.Machine

/-- The result where IEEE 754 gives a NaN: any NaN (U21; log 7). -/
def nanResult (n : Nat) (op : FloatOp) (a b : F32) : F32 :=
  if F32.isNaN (Config.freeNaN n op a b) then Config.freeNaN n op a b else 0x7FC00000

/-- The rounded sum of two finite values; an exact zero is `-0.0` only where both operands are negative zeros (R10). -/
def addFinite (a b : F32) : F32 :=
  let z := F32.signedUnits a + F32.signedUnits b
  if z = 0 then F32.pack (F32.neg a && F32.neg b) 0 else F32.pack (decide (z < 0)) (roundMag z.natAbs 1)

/-- The sum of `a` and `b`, whose NaN is that of the operation `op` on `a` and `b'`. -/
def addAs (n : Nat) (op : FloatOp) (a b b' : F32) : F32 :=
  if F32.isNaN a || F32.isNaN b then nanResult n op a b'
  else if F32.isInf a then
    if F32.isInf b && F32.neg a != F32.neg b then nanResult n op a b' else a
  else if F32.isInf b then b
  else addFinite a b

/-- `add32` (R10). -/
def add32 (n : Nat) (a b : F32) : F32 := addAs n .add a b b

/-- `sub32` (R10). -/
def sub32 (n : Nat) (a b : F32) : F32 := addAs n .sub a (F32.negate b) b

/-- `mul32` (R10). -/
def mul32 (n : Nat) (a b : F32) : F32 :=
  if F32.isNaN a || F32.isNaN b then nanResult n .mul a b
  else if F32.isInf a || F32.isInf b then
    if F32.mag a = 0 || F32.mag b = 0 then nanResult n .mul a b else F32.pack (F32.neg a != F32.neg b) F32.infMag
  else F32.pack (F32.neg a != F32.neg b) (roundMag (F32.units a * F32.units b) (2 ^ 149))

end Sys2Proof.Machine
end

