-- ==== Sys2Proof/Syntax.lean ====
section
/-!
DEFINITION. The syntax of the machine: the 23 commands of the UMBRA-CORE command set (30_encoding.md R103), the command
word's format (R100), the operand fields of the module ports (10_state.md R31), the names of the REV registers (R35) and
the statements of the host's program (30_encoding.md R109).
-/

namespace Sys2Proof

/-- The module classes, each with its own command port (00_scope.md R2, 30_encoding.md R102). -/
inductive Class where
  | dl | rrs | had | dvn | diff | fdn | rev
  deriving DecidableEq, Repr

/-- The stand-alone module ports: every class but REV, whose port is the register CMD (R104). -/
inductive ModPort where
  | dl | rrs | had | dvn | diff | fdn
  deriving DecidableEq, Repr

/-- The class a module port decodes (R104: "each module port is its own class"). -/
def ModPort.cls : ModPort → Class
  | .dl => .dl
  | .rrs => .rrs
  | .had => .had
  | .dvn => .dvn
  | .diff => .diff
  | .fdn => .fdn

/-- The three fields of a command word, format `CMD32` (R100). -/
structure Cmd32 where
  cls : BitVec 4
  op : BitVec 4
  res0 : BitVec 24
  deriving DecidableEq, Repr

/-- The commands, one constructor per row of spec/opcode_table.json. A command word carries no operand (R101). -/
inductive Instr where
  /-- DL.CFG, 40_delay_line.md R132. -/
  | dlCfg
  /-- DL.RD, R133. -/
  | dlRd
  /-- DL.RDM, R134. -/
  | dlRdm
  /-- DL.WR, R135. -/
  | dlWr
  /-- DL.PROC, R136. -/
  | dlProc
  /-- DL.RDB, R137. -/
  | dlRdb
  /-- DL.WRB, R138. -/
  | dlWrb
  /-- DL.PROCB, R139. -/
  | dlProcb
  /-- RRS.CFG, 41_rrs_filter.md R162. -/
  | rrsCfg
  /-- RRS.SETEPS, R163. -/
  | rrsSeteps
  /-- RRS.PROC, R164. -/
  | rrsProc
  /-- RRS.PROCB, R165. -/
  | rrsProcb
  /-- HAD.MIX, 42_hadamard_mixer.md R180. -/
  | hadMix
  /-- DVN.CFG, 43_dvn_convolver.md R195. -/
  | dvnCfg
  /-- DVN.PROCB, R197. -/
  | dvnProcb
  /-- DVN.PULSE, R198. -/
  | dvnPulse
  /-- DIFF.CFG, R210. -/
  | diffCfg
  /-- DIFF.PROCB, R212. -/
  | diffProcb
  /-- FDN.CFG, 44_fdn.md R237. -/
  | fdnCfg
  /-- FDN.PROCB, R239. -/
  | fdnProcb
  /-- REV.NOP, 45_reverb_top.md R261. -/
  | revNop
  /-- REV.SETUP, R263. -/
  | revSetup
  /-- REV.PROCESS, R265. -/
  | revProcess
  deriving DecidableEq, Repr

/-- Operand fields of the DL port (10_state.md R31). `g = none` is an omitted `G` (40_delay_line.md R132). -/
structure DlOperands where
  m : Word
  maxblk : Word
  g : Option F32
  tau : Word
  n : Word
  x : F32
  blk : List F32
  deriving DecidableEq, Repr

/-- Operand fields of the RRS port (R31). `eps = none` is an omitted `EPS` (41_rrs_filter.md R162). -/
structure RrsOperands where
  w : Word
  eps : Option F32
  x : F32
  n : Word
  blk : List F32
  deriving DecidableEq, Repr

/-- Operand fields of the HAD port (R31). -/
structure HadOperands where
  n : Word
  frame : List F32
  deriving DecidableEq, Repr

/-- Operand fields of the DVN port (R31). `eps = none` is an omitted `EPS` (43_dvn_convolver.md R195). -/
structure DvnOperands where
  p : Word
  rho : Word
  fs : Word
  maxblk : Word
  eps : Option F32
  rnd : List Draw
  n : Word
  blk : List F32
  i : Word
  deriving DecidableEq, Repr

/-- Operand fields of the DIFF port (R31). `blk` is a list of channels. -/
structure DiffOperands where
  ch : Word
  p : Word
  rho : Word
  fs : Word
  maxblk : Word
  eps : Option F32
  rnd : List Draw
  n : Word
  blk : List (List F32)
  deriving DecidableEq, Repr

/-- Operand fields of the FDN port (R31). `blk` is a list of channels. -/
structure FdnOperands where
  lines : Word
  lbase : Word
  fs : Word
  maxblk : Word
  rnd : List Draw
  n : Word
  blk : List (List F32)
  damp : F32
  room : F32
  deriving DecidableEq, Repr

/-- The operand values presented at one module port. -/
inductive Operands where
  | dl (o : DlOperands)
  | rrs (o : RrsOperands)
  | had (o : HadOperands)
  | dvn (o : DvnOperands)
  | diff (o : DiffOperands)
  | fdn (o : FdnOperands)
  deriving DecidableEq, Repr

/-- The registers of the REV block, by name, in the order of their offsets (10_state.md R35). -/
inductive RevReg where
  | id | version | cmd | status | seed | fs | maxblk | nch | nlen
  | mix | width | lowpass | highpass | dampening | roomsize | initdelay
  | cfgFs | cfgMaxblk | nchActive
  deriving DecidableEq, Repr

/-- The width of a host access in bits (20_memory.md R75). -/
inductive BusWidth where
  | w8 | w16 | w32 | w64
  deriving DecidableEq, Repr

/-- What the outside world does next: a statement of the host's program (30_encoding.md R109, R110), a command presented
at a module port (10_state.md R31), or the platform's reset (70_reset_and_hazards.md R330). -/
inductive HostStmt where
  /-- A bus read of a width at a bus address (20_memory.md R71). -/
  | read (width : BusWidth) (addr : Word)
  /-- A bus write. `data` is what a 32-bit access carries; another width is refused whatever it carries (R75). -/
  | write (width : BusWidth) (addr : Word) (data : Word)
  /-- `WAIT`: repeat `READ STATUS` until BUSY reads 0 (R109). -/
  | wait
  /-- `CHECK`: `READ STATUS`, and stop the program if ERR is 1 (R110). -/
  | check
  /-- Put operand values on a module port. -/
  | operands (o : Operands)
  /-- Present a command word at a module port, with the operand values that stand there. -/
  | issue (p : ModPort) (word : Word)
  /-- The platform asserts the reset. -/
  | reset
  deriving DecidableEq, Repr

end Sys2Proof
end

