-- ==== Sys2Proof/Machine/State.lean ====
section
/-!
DEFINITION. The state of the machine (10_state.md), as plain data, and the state right after reset (70_reset_and_hazards.md
R330). INVENTORY.md lists each field with the rule that names it.
-/

namespace Sys2Proof.Machine

/-- Words of a delay line's ring by slot: slots strictly rising, no word `+0.0`; a slot that is not listed holds `+0.0`,
which is what a CFG writes into it (10_state.md R60; log 17). -/
abbrev Ring := List (Nat × F32)

/-- Bytes of IOBUF by offset in the host window (20_memory.md R73, R74): offsets strictly rising. An offset that is not
listed has not been written since reset (10_state.md R59; log 8). -/
abbrev Memory := List Host.Cell

/-- A DL instance (10_state.md R45). -/
structure Dl where
  cfg : Bool
  m : Nat
  maxblk : Nat
  b : Nat
  g : F32
  w : Nat
  ring : Ring
  deriving DecidableEq, Repr

/-- An RRS instance (R46). -/
structure Rrs where
  cfg : Bool
  width : Nat
  eps : F32
  a : F32
  c : F32
  xl : Dl
  yl : Dl
  deriving DecidableEq, Repr

/-- The sign of a DVN pulse (R48). -/
inductive Sign where
  | plus | minus
  deriving DecidableEq, Repr

/-- A DVN pulse: position, width and sign (R48). -/
structure Pulse where
  k : Nat
  w : Nat
  s : Sign
  deriving DecidableEq, Repr

/-- A DVN instance (R48). -/
structure Dvn where
  cfg : Bool
  p : Nat
  rho : Nat
  fs : Nat
  td : Nat
  wmin : Nat
  wmax : Nat
  nw : Nat
  maxblk : Nat
  eps : F32
  pulses : List Pulse
  sd : Dl
  rrs : List Rrs
  nrm : F32
  deriving DecidableEq, Repr

/-- A DIFF instance (R49). -/
structure Diff where
  cfg : Bool
  ch : Nat
  maxblk : Nat
  conv : List Dvn
  deriving DecidableEq, Repr

/-- What an FDN holds for line `i`: `L[i]`, `g[i]`, `line[i]`, `z[i]` (R50). -/
structure FdnLine where
  len : Nat
  gain : F32
  line : Dl
  z : F32
  deriving DecidableEq, Repr

/-- An FDN instance (R50). -/
structure Fdn where
  cfg : Bool
  n : Nat
  lb : Nat
  fs : Nat
  maxblk : Nat
  lines : List FdnLine
  deriving DecidableEq, Repr

/-- The REV block: its registers (R35, R36) and its other state (R51). STATUS.BUSY is `pending.isSome`, STATUS.CONFIGURED is
`configured`, NCH_ACTIVE is `cprev`: what two names share is held once. -/
structure Rev where
  err : Bool
  errcode : Byte
  seed : Word
  fs : Word
  maxblk : Word
  nch : Word
  nlen : Word
  mix : F32
  width : F32
  lowpass : F32
  highpass : F32
  dampening : F32
  roomsize : F32
  initdelay : F32
  cfgFs : Word
  cfgMaxblk : Word
  configured : Bool
  rng : Word
  cprev : Nat
  mpd : Nat
  pd : List Dl
  hs : List F32
  ls : List F32
  d1 : Diff
  d2 : Diff
  d3 : Diff
  f1 : Fdn
  f2 : Fdn
  pending : Option Word
  deriving DecidableEq, Repr

/-- Result fields of the DL and RRS ports (R32). -/
structure SampleResult where
  err : Byte
  y : F32
  blkOut : List F32
  deriving DecidableEq, Repr

/-- Result fields of the HAD port (R32). -/
structure FrameResult where
  err : Byte
  frameOut : List F32
  deriving DecidableEq, Repr

/-- Result fields of the DVN port (R32). -/
structure DvnResult where
  err : Byte
  blkOut : List F32
  k : Word
  wid : Word
  sgn : BitVec 1
  deriving DecidableEq, Repr

/-- Result fields of the DIFF and FDN ports (R32). -/
structure BlockResult where
  err : Byte
  blkOut : List (List F32)
  deriving DecidableEq, Repr

/-- The bus response of a host access (20_memory.md R75, R76, R79). -/
inductive BusResp where
  | okay | slverr | decerr
  deriving DecidableEq, Repr

/-- What the host last saw on the bus. -/
inductive Reply where
  /-- no access since reset -/
  | none
  /-- a read, its response and the data it returned -/
  | read (resp : BusResp) (data : Word)
  /-- a write and its response -/
  | write (resp : BusResp)
  deriving DecidableEq, Repr

/-- The machine. The first group is the spec's state; the second is the model's own. -/
structure State where
  /-- the stand-alone modules (00_scope.md R2, R3) -/
  dl : Dl
  rrs : Rrs
  dvn : Dvn
  diff : Diff
  fdn : Fdn
  /-- operand fields of the module ports (10_state.md R31) -/
  dlIn : DlOperands
  rrsIn : RrsOperands
  hadIn : HadOperands
  dvnIn : DvnOperands
  diffIn : DiffOperands
  fdnIn : FdnOperands
  /-- result fields of the module ports (R32) -/
  dlOut : SampleResult
  rrsOut : SampleResult
  hadOut : FrameResult
  dvnOut : DvnResult
  diffOut : BlockResult
  fdnOut : BlockResult
  /-- the REV block and its sample memory (R35, R51, 20_memory.md R73) -/
  rev : Rev
  iobuf : Memory
  /-- what the host last saw on the bus -/
  reply : Reply
  /-- the parameters of the machine (00_scope.md R8); no step changes them -/
  params : Params
  /-- what the host still issues, in order (30_encoding.md R109) -/
  program : List HostStmt
  /-- a CHECK has stopped the host's program (R110) -/
  stopped : Bool
  /-- for each coming REV command, the host-observable steps from its acceptance to its completion (45_reverb_top.md R260) -/
  latencies : List Nat
  /-- the host-observable steps left before the pending command runs -/
  busyLeft : Nat
  /-- the counter that makes free values fresh -/
  draws : Nat
  /-- the number of resets so far -/
  epoch : Nat
  deriving DecidableEq, Repr

/-- Why the machine stops. -/
inductive Fault where
  /-- A host access whose address is outside the window of the block at `REV_BASE` (20_memory.md R71, R72): the spec gives
  nothing there. Raised by a bus read or write of the host's program, by no command. Safe: the model stops where the
  platform goes on (log 14). -/
  | outsideWindow
  deriving DecidableEq, Repr

/-- Why the machine has no meaning for an instruction. -/
inductive Refusal where
  /-- An instruction that is not modelled yet, by its mnemonic. Raised by `exec` alone; no arm of it does. Safe. -/
  | notModelled (mnemonic : String)
  deriving DecidableEq, Repr

/-- The outcome of a step. -/
abbrev Out := Host.Outcome State Fault Refusal

/-- A delay line before its CFG: `cfg = false` (R57); the other fields are unspecified, 0 here (DESIGN CHOICE, log 3). -/
def Dl.unconfigured : Dl where
  cfg := false
  m := 0
  maxblk := 0
  b := 0
  g := 0
  w := 0
  ring := []

/-- An RRS before its CFG (R57; log 3). -/
def Rrs.unconfigured : Rrs where
  cfg := false
  width := 0
  eps := 0
  a := 0
  c := 0
  xl := .unconfigured
  yl := .unconfigured

/-- A DVN before its CFG (R57; log 3). -/
def Dvn.unconfigured : Dvn where
  cfg := false
  p := 0
  rho := 0
  fs := 0
  td := 0
  wmin := 0
  wmax := 0
  nw := 0
  maxblk := 0
  eps := 0
  pulses := []
  sd := .unconfigured
  rrs := []
  nrm := 0

/-- A DIFF before its CFG (R57; log 3). -/
def Diff.unconfigured : Diff where
  cfg := false
  ch := 0
  maxblk := 0
  conv := []

/-- An FDN before its CFG (R57; log 3). -/
def Fdn.unconfigured : Fdn where
  cfg := false
  n := 0
  lb := 0
  fs := 0
  maxblk := 0
  lines := []

/-- REV after reset: the register values of R35, `configured = false`, `pending = none`, `Cprev = 0` and the latched setup
values 0 (R58); what R58 leaves unspecified is 0 or unconfigured (DESIGN CHOICE, log 4). -/
def Rev.reset : Rev where
  err := false
  errcode := 0
  seed := 0x00000001
  fs := 0x0000BB80
  maxblk := 0x00000200
  nch := 0x00000002
  nlen := 0x00000000
  mix := 0x3F000000
  width := 0x3F800000
  lowpass := 0x469C4000
  highpass := 0x41A00000
  dampening := 0x459C4000
  roomsize := 0x3F800000
  initdelay := 0x00000000
  cfgFs := 0
  cfgMaxblk := 0
  configured := false
  rng := 0
  cprev := 0
  mpd := 0
  pd := []
  hs := [0, 0, 0, 0, 0, 0, 0, 0]
  ls := [0, 0, 0, 0, 0, 0, 0, 0]
  d1 := .unconfigured
  d2 := .unconfigured
  d3 := .unconfigured
  f1 := .unconfigured
  f2 := .unconfigured
  pending := none

/-- The machine right after reset (70_reset_and_hazards.md R330). The values of the operand and result fields are the
model's (DESIGN CHOICE, log 2, log 5), and so are those of its own fields (log 10-13, 21, 22). -/
def State.reset : State where
  dl := .unconfigured
  rrs := .unconfigured
  dvn := .unconfigured
  diff := .unconfigured
  fdn := .unconfigured
  dlIn := { m := 0, maxblk := 0, g := none, tau := 0, n := 0, x := 0, blk := [] }
  rrsIn := { w := 0, eps := none, x := 0, n := 0, blk := [] }
  hadIn := { n := 0, frame := [] }
  dvnIn := { p := 0, rho := 0, fs := 0, maxblk := 0, eps := none, rnd := [], n := 0, blk := [], i := 0 }
  diffIn := { ch := 0, p := 0, rho := 0, fs := 0, maxblk := 0, eps := none, rnd := [], n := 0, blk := [] }
  fdnIn := { lines := 0, lbase := 0, fs := 0, maxblk := 0, rnd := [], n := 0, blk := [], damp := 0, room := 0 }
  dlOut := { err := 0, y := 0, blkOut := [] }
  rrsOut := { err := 0, y := 0, blkOut := [] }
  hadOut := { err := 0, frameOut := [] }
  dvnOut := { err := 0, blkOut := [], k := 0, wid := 0, sgn := 0 }
  diffOut := { err := 0, blkOut := [] }
  fdnOut := { err := 0, blkOut := [] }
  rev := .reset
  iobuf := []
  reply := .none
  params := .default
  program := []
  stopped := false
  latencies := []
  busyLeft := 0
  draws := 0
  epoch := 0

end Sys2Proof.Machine
end

