-- ==== Sys2Proof/Machine/Operands.lean ====
section
/-!
DEFINITION. Reading the operand fields of a command port (10_state.md R31, 30_encoding.md R101): vectors of the length the
rule states, and the values of omitted operands.
-/

namespace Sys2Proof.Machine

/-- The `n` samples of channel `c` that a command reads from a `vec` operand, from sample `i` up. Samples the issuer did
not supply are free values (log 15); samples beyond the `n` are ignored. -/
def takeVec (draw c : Nat) : (i n : Nat) → List F32 → List F32
  | _, 0, _ => []
  | i, n + 1, x :: xs => x :: takeVec draw c (i + 1) n xs
  | i, n + 1, [] => Config.freeOperand draw c i :: takeVec draw c (i + 1) n []

/-- The channels `c, c+1, ...` of a multichannel operand, `chans` of them with `n` samples each. -/
def takeChannels (draw n : Nat) : (c chans : Nat) → List (List F32) → List (List F32)
  | _, 0, _ => []
  | c, k + 1, b :: bs => takeVec draw c 0 n b :: takeChannels draw n (c + 1) k bs
  | c, k + 1, [] => takeVec draw c 0 n [] :: takeChannels draw n (c + 1) k []

/-- `G` omitted means `+0.0` (40_delay_line.md R132). -/
def gainOperand (g : Option F32) : F32 := g.getD 0

/-- `EPS` omitted means `RRS_EPS` (41_rrs_filter.md R162, 43_dvn_convolver.md R195, R210). -/
def epsOperand (eps : Option F32) : F32 := eps.getD Config.rrsEps

end Sys2Proof.Machine
end

