-- ==== Sys2Proof/WellFormed.lean ====
section
/-!
DEFINITION. Which terms are well formed: the fields of a command word (30_encoding.md R100, R102, R103), the length of a
vector operand (10_state.md R31), and the constraints the spec puts on the OPEN parameters (00_scope.md R8, 20_memory.md
R71, 44_fdn.md R233, R234, R237). A command itself carries no operand (R101), so every `Instr` is well formed.
-/

namespace Sys2Proof

/-- How many OPs R103 assigns to each CLASS; OPs are assigned from 0 up. 0 for a reserved CLASS (R102, R105). -/
def Cmd32.opsOfClass (cls : BitVec 4) : Nat :=
  match cls.toNat with
  | 1 => 8
  | 2 => 4
  | 3 => 1
  | 4 => 3
  | 5 => 2
  | 6 => 2
  | 7 => 3
  | _ => 0

/-- RES0 must be zero (R100). -/
def Cmd32.res0Zero (f : Cmd32) : Bool := f.res0 == 0

/-- CLASS is one of R102. -/
def Cmd32.classAssigned (f : Cmd32) : Bool := 0 < Cmd32.opsOfClass f.cls

/-- OP is assigned to the CLASS (R103). -/
def Cmd32.opAssigned (f : Cmd32) : Bool := f.op.toNat < Cmd32.opsOfClass f.cls

/-- The fields are those of one of the 23 command words (R104). -/
def Cmd32.wf (f : Cmd32) : Bool := f.res0Zero && f.classAssigned && f.opAssigned

/-- A `vec[N]` operand has `N` samples (R31). -/
def DlOperands.wf (o : DlOperands) : Bool := o.blk.length == o.n.toNat

/-- A `vec[N]` operand has `N` samples (R31). -/
def RrsOperands.wf (o : RrsOperands) : Bool := o.blk.length == o.n.toNat

/-- A frame has `N` samples (R31). -/
def HadOperands.wf (o : HadOperands) : Bool := o.frame.length == o.n.toNat

/-- A `vec[N]` operand has `N` samples (R31). -/
def DvnOperands.wf (o : DvnOperands) : Bool := o.blk.length == o.n.toNat

/-- Every channel of the block has `N` samples (R31). -/
def DiffOperands.wf (o : DiffOperands) : Bool := o.blk.all (fun c => c.length == o.n.toNat)

/-- Every channel of the block has `N` samples (R31). -/
def FdnOperands.wf (o : FdnOperands) : Bool := o.blk.all (fun c => c.length == o.n.toNat)

/-- `REV_BASE` is a multiple of `0x40000` (R71). -/
def Params.revBaseAligned (p : Params) : Bool := p.revBase.toNat % 0x40000 == 0

/-- `0 < FDN_JIT_LO ≤ FDN_JIT_HI` (R233). -/
def Params.jitterOk (p : Params) : Bool := decide (0 < p.jitLo) && decide (p.jitLo ≤ p.jitHi)

/-- `FDN_GAIN_LO ≤ FDN_GAIN_HI` (R234). -/
def Params.gainOk (p : Params) : Bool := decide (p.gainLo ≤ p.gainHi)

/-- `FDN_LINE0_LEN` gives line lengths, which are at least 1 (10_state.md R50; log 12). -/
def Params.line0LenOk (p : Params) : Bool := p.line0Len.all (fun e => 0 < e.2)

/-- The density of REV's diffusers divides a sample rate (R263), so it is not 0 (log 12). -/
def StageParams.wf (s : StageParams) : Bool := 0 < s.rho

/-- The parameters are ones the spec allows. -/
def Params.wf (p : Params) : Bool :=
  p.revBaseAligned && p.jitterOk && p.gainOk && p.line0LenOk && p.diff1.wf && p.diff2.wf && p.diff3.wf

end Sys2Proof
end

