-- ==== Sys2Proof/Decode.lean ====
section
/-!
DEFINITION. Decoding (30_encoding.md R100-R107) and the encoder. Decoding is total: a word is one of the 23 commands or is
rejected by name, in the order of R104.
-/

namespace Sys2Proof

/-- Why a word is not a command at a port (R104, R105). -/
inductive Reject where
  /-- fewer than the four bytes of a command word -/
  | truncated
  /-- a nonzero bit in 23:0 (R104 (1)) -/
  | reservedBits (res0 : BitVec 24)
  /-- CLASS is not the class of the port, or is reserved (R104 (2), R102) -/
  | wrongClass (cls : BitVec 4)
  /-- OP is not assigned to the class (R104 (3), R105) -/
  | unassignedOp (cls : BitVec 4) (op : BitVec 4)
  deriving DecidableEq, Repr

/-- The outcome of decoding. -/
inductive Decoded where
  | ok (i : Instr)
  | illegal (r : Reject)
  deriving DecidableEq, Repr

/-- CLASS values (R102). -/
def Class.code : Class → BitVec 4
  | .dl => 0x1
  | .rrs => 0x2
  | .had => 0x3
  | .dvn => 0x4
  | .diff => 0x5
  | .fdn => 0x6
  | .rev => 0x7

/-- The class of a CLASS value; none for `0x0` and `0x8`-`0xF`, which are reserved (R102). -/
def Class.ofCode (c : BitVec 4) : Option Class :=
  match c.toNat with
  | 1 => some .dl
  | 2 => some .rrs
  | 3 => some .had
  | 4 => some .dvn
  | 5 => some .diff
  | 6 => some .fdn
  | 7 => some .rev
  | _ => none

/-- The fields of a command word (R100). -/
def Cmd32.ofWord (w : Word) : Cmd32 where
  cls := w.extractLsb' 28 4
  op := w.extractLsb' 24 4
  res0 := w.extractLsb' 0 24

/-- The command word of three fields (R100). -/
def Cmd32.toWord (f : Cmd32) : Word := f.cls ++ f.op ++ f.res0

/-- The operation OP selects within a class (R103). -/
def decodeOp (c : Class) (op : BitVec 4) : Option Instr :=
  match c, op.toNat with
  | .dl, 0 => some .dlCfg
  | .dl, 1 => some .dlRd
  | .dl, 2 => some .dlRdm
  | .dl, 3 => some .dlWr
  | .dl, 4 => some .dlProc
  | .dl, 5 => some .dlRdb
  | .dl, 6 => some .dlWrb
  | .dl, 7 => some .dlProcb
  | .rrs, 0 => some .rrsCfg
  | .rrs, 1 => some .rrsSeteps
  | .rrs, 2 => some .rrsProc
  | .rrs, 3 => some .rrsProcb
  | .had, 0 => some .hadMix
  | .dvn, 0 => some .dvnCfg
  | .dvn, 1 => some .dvnProcb
  | .dvn, 2 => some .dvnPulse
  | .diff, 0 => some .diffCfg
  | .diff, 1 => some .diffProcb
  | .fdn, 0 => some .fdnCfg
  | .fdn, 1 => some .fdnProcb
  | .rev, 0 => some .revNop
  | .rev, 1 => some .revSetup
  | .rev, 2 => some .revProcess
  | _, _ => none

/-- The decode of a word at the port of class `c`, in the order of R104: RES0, CLASS, OP. -/
def decodeAt (c : Class) (w : Word) : Decoded :=
  if (Cmd32.ofWord w).res0 ≠ 0 then .illegal (.reservedBits (Cmd32.ofWord w).res0)
  else if (Cmd32.ofWord w).cls ≠ c.code then .illegal (.wrongClass (Cmd32.ofWord w).cls)
  else
    match decodeOp c (Cmd32.ofWord w).op with
    | some i => .ok i
    | none => .illegal (.unassignedOp (Cmd32.ofWord w).cls (Cmd32.ofWord w).op)

/-- The decode of a word at the port its own CLASS names. -/
def decode (w : Word) : Decoded :=
  match Class.ofCode (Cmd32.ofWord w).cls with
  | some c => decodeAt c w
  | none =>
    if (Cmd32.ofWord w).res0 ≠ 0 then .illegal (.reservedBits (Cmd32.ofWord w).res0)
    else .illegal (.wrongClass (Cmd32.ofWord w).cls)

/-- The little-endian bytes of a word, the first at the lowest offset (20_memory.md R74). -/
def wordBytes (w : Word) : List Byte :=
  [w.extractLsb' 0 8, w.extractLsb' 8 8, w.extractLsb' 16 8, w.extractLsb' 24 8]

/-- The word of four little-endian bytes (R74). -/
def wordOfBytes (b0 b1 b2 b3 : Byte) : Word := b3 ++ b2 ++ b1 ++ b0

/-- Decoding from bytes: the command in the first four, and the bytes that follow. Every command word is 32 bits (R107). -/
def decodeBytes : List Byte → Decoded × List Byte
  | b0 :: b1 :: b2 :: b3 :: rest => (decode (wordOfBytes b0 b1 b2 b3), rest)
  | bs => (.illegal .truncated, bs)

/-- The instruction the decoder reads from an instruction whose bits are `w`; only its low `nbits` bits count, and the
bits above them are 0. -/
def decodeTableWord (nbits w : Nat) : Option Instr :=
  match (decodeBytes (wordBytes (BitVec.ofNat 32 (w % 2 ^ nbits)))).1 with
  | .ok i => some i
  | .illegal _ => none

/-- The class of a command (R103). -/
def Instr.cls : Instr → Class
  | .dlCfg | .dlRd | .dlRdm | .dlWr | .dlProc | .dlRdb | .dlWrb | .dlProcb => .dl
  | .rrsCfg | .rrsSeteps | .rrsProc | .rrsProcb => .rrs
  | .hadMix => .had
  | .dvnCfg | .dvnProcb | .dvnPulse => .dvn
  | .diffCfg | .diffProcb => .diff
  | .fdnCfg | .fdnProcb => .fdn
  | .revNop | .revSetup | .revProcess => .rev

/-- The OP of a command (R103). -/
def Instr.op : Instr → BitVec 4
  | .dlCfg => 0
  | .dlRd => 1
  | .dlRdm => 2
  | .dlWr => 3
  | .dlProc => 4
  | .dlRdb => 5
  | .dlWrb => 6
  | .dlProcb => 7
  | .rrsCfg => 0
  | .rrsSeteps => 1
  | .rrsProc => 2
  | .rrsProcb => 3
  | .hadMix => 0
  | .dvnCfg => 0
  | .dvnProcb => 1
  | .dvnPulse => 2
  | .diffCfg => 0
  | .diffProcb => 1
  | .fdnCfg => 0
  | .fdnProcb => 1
  | .revNop => 0
  | .revSetup => 1
  | .revProcess => 2

/-- The fields of a command's word (R103). -/
def Instr.fields (i : Instr) : Cmd32 where
  cls := i.cls.code
  op := i.op
  res0 := 0

/-- The command word of a command (R103). -/
def encode (i : Instr) : Word := i.fields.toWord

end Sys2Proof
end

