-- ==== Sys2Proof/Machine/Store.lean ====
section
/-!
DEFINITION. Sparse storage: a list of (key, value) pairs with strictly rising keys. The rings of the delay lines and IOBUF
are held so (log 8, log 17).
-/

namespace Sys2Proof.Machine

/-- The value at a key, if one is listed. -/
def storeFind {α : Type} (k : Nat) : List (Nat × α) → Option α
  | [] => none
  | e :: t => if k = e.1 then some e.2 else storeFind k t

/-- Put a value at a key, in its place in the rising order. -/
def storeInsert {α : Type} (k : Nat) (v : α) : List (Nat × α) → List (Nat × α)
  | [] => [(k, v)]
  | e :: t => if k < e.1 then (k, v) :: e :: t else if k = e.1 then (k, v) :: t else e :: storeInsert k v t

/-- Take a key out. -/
def storeErase {α : Type} (k : Nat) (l : List (Nat × α)) : List (Nat × α) := l.filter (fun e => e.1 ≠ k)

/-- The keys rise strictly. -/
abbrev storeSorted {α : Type} (l : List (Nat × α)) : Prop := (l.map Prod.fst).Pairwise (· < ·)

/-- Slot `j` of a ring (10_state.md R45). -/
def Ring.read (r : Ring) (j : Nat) : F32 := (storeFind j r).getD 0

/-- Write slot `j` of a ring; a word `+0.0` is not listed. -/
def Ring.write (r : Ring) (j : Nat) (x : F32) : Ring := if x = 0 then storeErase j r else storeInsert j x r

/-- The canonical form of a ring of `b` slots: slots strictly rising and below `b`, no word `+0.0`. -/
abbrev Ring.wf (b : Nat) (r : Ring) : Prop := storeSorted r ∧ ∀ e ∈ r, e.1 < b ∧ e.2 ≠ 0

/-- The byte at an offset of IOBUF: what was written last, or the free power-on contents (10_state.md R59; log 8). -/
def Memory.readByte (epoch : Nat) (m : Memory) (a : Nat) : Byte := (storeFind a m).getD (Config.iobufPowerOn epoch a)

/-- Write the byte at an offset of IOBUF. -/
def Memory.writeByte (m : Memory) (a : Nat) (b : Byte) : Memory := storeInsert a b m

/-- The canonical form of IOBUF: offsets strictly rising. What is listed is what has been written, so no entry equals what
an unlisted offset holds, which is no value. -/
abbrev Memory.wf (m : Memory) : Prop := storeSorted m

end Sys2Proof.Machine
end

