-- ==== Sys2Proof/Machine/Ops.lean ====
section
/-!
DEFINITION. The named operations over IOBUF, the command ports and STATUS: reading and writing a sample word, returning
from a command, and REPORTING AN ERROR, which is this hardware's only exception (60_exceptions.md R300-R308): a module
command returns the code at its port, a REV command records it in STATUS, and nothing else changes.
-/

namespace Sys2Proof.Machine

/-- The error causes (60_exceptions.md R301). -/
inductive Err where
  | invalidArg | bounds | notPow2 | notConfigured | capacity | illegalCmd | busy
  deriving DecidableEq, Repr

/-- The error codes (R301). -/
def Err.code : Err → Byte
  | .invalidArg => 1
  | .bounds => 2
  | .notPow2 => 3
  | .notConfigured => 4
  | .capacity => 5
  | .illegalCmd => 6
  | .busy => 7

/-! ## IOBUF words -/

/-- The offset of `IOBUF[c][i]` in the host window (20_memory.md R73). -/
def iobufOffset (c i : Nat) : Nat := 0x10000 + 4 * (c * Config.maxblkCap + i)

/-- The word at an offset: its byte at `a + k` is bits `8k+7:8k` (20_memory.md R74). -/
def Memory.readWord (epoch : Nat) (m : Memory) (a : Nat) : Word :=
  wordOfBytes (m.readByte epoch a) (m.readByte epoch (a + 1)) (m.readByte epoch (a + 2)) (m.readByte epoch (a + 3))

/-- Write bytes from an offset up. -/
def Memory.writeBytes (m : Memory) (a : Nat) : List Byte → Memory
  | [] => m
  | b :: bs => Memory.writeBytes (m.writeByte a b) (a + 1) bs

/-- Write the word at an offset, little-endian (R74). -/
def Memory.writeWord (m : Memory) (a : Nat) (v : Word) : Memory := m.writeBytes a (wordBytes v)

/-- `IOBUF[c][i .. i+n-1]` (R73). -/
def Memory.readSamples (epoch : Nat) (m : Memory) (c : Nat) : (i n : Nat) → List F32
  | _, 0 => []
  | i, n + 1 => m.readWord epoch (iobufOffset c i) :: Memory.readSamples epoch m c (i + 1) n

/-- Write samples to `IOBUF[c]` from sample `i` up (R73). -/
def Memory.writeSamples (m : Memory) (c : Nat) : (i : Nat) → List F32 → Memory
  | _, [] => m
  | i, x :: xs => Memory.writeSamples (m.writeWord (iobufOffset c i) x) c (i + 1) xs

/-- Write channel blocks to `IOBUF[c]`, `IOBUF[c+1]`, and so on, each from sample 0. -/
def Memory.writeChannels (m : Memory) : (c : Nat) → List (List F32) → Memory
  | _, [] => m
  | c, xs :: rest => Memory.writeChannels (m.writeSamples c 0 xs) (c + 1) rest

/-! ## Result fields (10_state.md R32). A field the command does not return is a free value (U8; log 6). -/

/-- A DL or RRS command fails with a code (60_exceptions.md R300). -/
def SampleResult.failed (n : Nat) (e : Err) : SampleResult where
  err := e.code
  y := Config.freeSample n
  blkOut := Config.freeBlock n

/-- A DL or RRS command succeeds and returns no value. -/
def SampleResult.done (n : Nat) : SampleResult where
  err := 0
  y := Config.freeSample n
  blkOut := Config.freeBlock n

/-- A DL or RRS command succeeds and returns `Y`. -/
def SampleResult.sample (n : Nat) (y : F32) : SampleResult where
  err := 0
  y := y
  blkOut := Config.freeBlock n

/-- A DL or RRS command succeeds and returns `BLK_OUT`. -/
def SampleResult.block (n : Nat) (b : List F32) : SampleResult where
  err := 0
  y := Config.freeSample n
  blkOut := b

/-- HAD.MIX fails with a code. -/
def FrameResult.failed (n : Nat) (e : Err) : FrameResult where
  err := e.code
  frameOut := Config.freeBlock n

/-- HAD.MIX succeeds and returns `FRAME_OUT`. -/
def FrameResult.frame (f : List F32) : FrameResult where
  err := 0
  frameOut := f

/-- A DVN command fails with a code. -/
def DvnResult.failed (n : Nat) (e : Err) : DvnResult where
  err := e.code
  blkOut := Config.freeBlock n
  k := Config.freeK n
  wid := Config.freeWid n
  sgn := Config.freeSgn n

/-- A DVN command succeeds and returns no value. -/
def DvnResult.done (n : Nat) : DvnResult where
  err := 0
  blkOut := Config.freeBlock n
  k := Config.freeK n
  wid := Config.freeWid n
  sgn := Config.freeSgn n

/-- A DVN command succeeds and returns `BLK_OUT`. -/
def DvnResult.block (n : Nat) (b : List F32) : DvnResult where
  err := 0
  blkOut := b
  k := Config.freeK n
  wid := Config.freeWid n
  sgn := Config.freeSgn n

/-- DVN.PULSE succeeds and returns `K`, `WID` and `SGN`, which is 1 for the sign -1 (R32). -/
def DvnResult.pulse (n : Nat) (q : Pulse) : DvnResult where
  err := 0
  blkOut := Config.freeBlock n
  k := BitVec.ofNat 32 q.k
  wid := BitVec.ofNat 32 q.w
  sgn := if q.s = .minus then 1 else 0

/-- A DIFF or FDN command fails with a code. -/
def BlockResult.failed (n : Nat) (e : Err) : BlockResult where
  err := e.code
  blkOut := Config.freeChannels n

/-- A DIFF or FDN command succeeds and returns no value. -/
def BlockResult.done (n : Nat) : BlockResult where
  err := 0
  blkOut := Config.freeChannels n

/-- A DIFF or FDN command succeeds and returns `BLK_OUT`. -/
def BlockResult.block (b : List (List F32)) : BlockResult where
  err := 0
  blkOut := b

/-! ## Ending a command -/

/-- A DL command ends with an instance and a result; the free values it drew are used up. -/
def State.putDl (s : State) (d : Dl) (r : SampleResult) : State := { s with dl := d, dlOut := r, draws := s.draws + 1 }

/-- An RRS command ends. -/
def State.putRrs (s : State) (f : Rrs) (r : SampleResult) : State := { s with rrs := f, rrsOut := r, draws := s.draws + 1 }

/-- HAD.MIX ends; HAD holds no state (10_state.md R47). -/
def State.putHad (s : State) (r : FrameResult) : State := { s with hadOut := r, draws := s.draws + 1 }

/-- A DVN command ends. -/
def State.putDvn (s : State) (d : Dvn) (r : DvnResult) : State := { s with dvn := d, dvnOut := r, draws := s.draws + 1 }

/-- A DIFF command ends. -/
def State.putDiff (s : State) (d : Diff) (r : BlockResult) : State :=
  { s with diff := d, diffOut := r, draws := s.draws + 1 }

/-- An FDN command ends. -/
def State.putFdn (s : State) (f : Fdn) (r : BlockResult) : State := { s with fdn := f, fdnOut := r, draws := s.draws + 1 }

/-- REV holds these registers, this state and this IOBUF. -/
def State.putRev (s : State) (r : Rev) (m : Memory) : State := { s with rev := r, iobuf := m }

/-- The pending REV command has ended: BUSY clears (45_reverb_top.md R260). -/
def State.finishRev (s : State) (r : Rev) (m : Memory) : State :=
  { s with rev := { r with pending := none }, iobuf := m, busyLeft := 0, draws := s.draws + 1 }

/-! ## Reporting an error: what takes the place of an exception (60_exceptions.md R300, R302, R307) -/

/-- A DL command fails: its code stands at the port, the instance is as it was (00_scope.md R15). -/
def State.failDl (s : State) (e : Err) : State := s.putDl s.dl (.failed s.draws e)

/-- An RRS command fails. -/
def State.failRrs (s : State) (e : Err) : State := s.putRrs s.rrs (.failed s.draws e)

/-- HAD.MIX fails. -/
def State.failHad (s : State) (e : Err) : State := s.putHad (.failed s.draws e)

/-- A DVN command fails. -/
def State.failDvn (s : State) (e : Err) : State := s.putDvn s.dvn (.failed s.draws e)

/-- A DIFF command fails. -/
def State.failDiff (s : State) (e : Err) : State := s.putDiff s.diff (.failed s.draws e)

/-- An FDN command fails. -/
def State.failFdn (s : State) (e : Err) : State := s.putFdn s.fdn (.failed s.draws e)

/-- Record a failure in STATUS: `ERR <- 1`, `ERRCODE <- e`, over an earlier code (R302). -/
def Rev.setErr (r : Rev) (e : Err) : Rev := { r with err := true, errcode := e.code }

/-- The host's acknowledgement, 1 written to STATUS bit 2: `ERR <- 0`, `ERRCODE <- 0` (R302, R308; 10_state.md R36). -/
def Rev.clearErr (r : Rev) : Rev := { r with err := false, errcode := 0 }

/-- A REV command fails: STATUS records the code, BUSY clears and nothing else changes (45_reverb_top.md R260). -/
def State.failRev (s : State) (e : Err) : State := s.finishRev (s.rev.setErr e) s.iobuf

end Sys2Proof.Machine
end

