-- ==== Sys2Proof/Machine/Dl.lean ====
section
/-!
DEFINITION. DL, the circular delay line (40_delay_line.md): its operations, which the other modules use too, and the
meanings of the DL commands.
-/

namespace Sys2Proof.Machine

/-- Slot `j mod B` (R130). -/
def Dl.slot (d : Dl) (j : Int) : Nat := (j % (d.b : Int)).toNat

/-- `ring(dl, j)` (R130). -/
def Dl.at (d : Dl) (j : Int) : F32 := d.ring.read (d.slot j)

/-- The age-`a` sample (R130); a read at delay `tau` returns the sample of age `tau` (R131). -/
def Dl.age (d : Dl) (a : Nat) : F32 := d.at ((d.w : Int) - 1 - a)

/-- A delay line as a successful CFG leaves it: every word `+0.0`, the cursor 0 (R132, 10_state.md R60). -/
def Dl.build (m maxblk : Nat) (g : F32) : Dl where
  cfg := true
  m := m
  maxblk := maxblk
  b := m + maxblk
  g := g
  w := 0
  ring := []

/-- Fill slot `w` and advance the cursor (R130, R135). -/
def Dl.push (d : Dl) (x : F32) : Dl := { d with ring := d.ring.write d.w x, w := d.slot (d.w + 1) }

/-- `n` samples whose newest has age `tau`, oldest first (R131, R137). -/
def Dl.readBlock (d : Dl) (tau n : Nat) : List F32 :=
  (List.range n).map (fun j : Nat => d.at ((d.slot ((d.w : Int) - tau - n) : Nat) + j))

/-- Write samples to the slots `w + j`, `w + j + 1`, and so on, modulo `B` (R138). -/
def Dl.writeSlots (d : Dl) : (j : Nat) → List F32 → Ring → Ring
  | _, [], r => r
  | j, x :: xs, r => Dl.writeSlots d (j + 1) xs (r.write (d.slot ((d.w : Int) + j)) x)

/-- Write a block and advance the cursor by its length (R138). -/
def Dl.writeBlock (d : Dl) (xs : List F32) : Dl :=
  { d with ring := d.writeSlots 0 xs d.ring, w := d.slot ((d.w : Int) + xs.length) }

/-- The comb form's output, `x + g · y[n-M]` (R136). -/
def Dl.combOut (draw : Nat) (d : Dl) (x : F32) : F32 := add32 draw x (mul32 draw d.g (d.at ((d.w : Int) - d.m)))

/-- The comb form over a block, in order: the outputs and the delay line after (R136, R139). -/
def Dl.combBlock (draw : Nat) : Dl → List F32 → List F32 × Dl
  | d, [] => ([], d)
  | d, x :: xs =>
    let y := d.combOut draw x
    let rest := Dl.combBlock draw (d.push y) xs
    (y :: rest.1, rest.2)

/-- The checks of DL.CFG, in order (R132). -/
def Dl.cfgError (m maxblk : Nat) : Option Err :=
  if m = 0 ∨ maxblk = 0 then some .invalidArg
  else if maxblk > Config.maxblkCap ∨ m + maxblk > Config.dlCap then some .capacity
  else none

/-- DL.CFG (R132). -/
def execDlCfg (s : State) : Out :=
  match Dl.cfgError s.dlIn.m.toNat s.dlIn.maxblk.toNat with
  | some e => .next (s.failDl e)
  | none => .next (s.putDl (.build s.dlIn.m.toNat s.dlIn.maxblk.toNat (gainOperand s.dlIn.g)) (.done s.draws))

/-- DL.RD (R133). -/
def execDlRd (s : State) : Out :=
  if s.dl.cfg = false then .next (s.failDl .notConfigured)
  else if s.dlIn.tau.toNat > s.dl.m then .next (s.failDl .bounds)
  else .next (s.putDl s.dl (.sample s.draws (s.dl.age s.dlIn.tau.toNat)))

/-- DL.RDM (R134). -/
def execDlRdm (s : State) : Out :=
  if s.dl.cfg = false then .next (s.failDl .notConfigured)
  else .next (s.putDl s.dl (.sample s.draws (s.dl.age s.dl.m)))

/-- DL.WR (R135). -/
def execDlWr (s : State) : Out :=
  if s.dl.cfg = false then .next (s.failDl .notConfigured)
  else .next (s.putDl (s.dl.push s.dlIn.x) (.done s.draws))

/-- DL.PROC (R136). -/
def execDlProc (s : State) : Out :=
  if s.dl.cfg = false then .next (s.failDl .notConfigured)
  else
    let y := s.dl.combOut s.draws s.dlIn.x
    .next (s.putDl (s.dl.push y) (.sample s.draws y))

/-- DL.RDB (R137). -/
def execDlRdb (s : State) : Out :=
  if s.dl.cfg = false then .next (s.failDl .notConfigured)
  else if s.dlIn.tau.toNat > s.dl.m then .next (s.failDl .bounds)
  else if s.dlIn.n.toNat > s.dl.maxblk then .next (s.failDl .bounds)
  else .next (s.putDl s.dl (.block s.draws (s.dl.readBlock s.dlIn.tau.toNat s.dlIn.n.toNat)))

/-- DL.WRB (R138). -/
def execDlWrb (s : State) : Out :=
  if s.dl.cfg = false then .next (s.failDl .notConfigured)
  else if s.dlIn.n.toNat > s.dl.maxblk then .next (s.failDl .bounds)
  else .next (s.putDl (s.dl.writeBlock (takeVec s.draws 0 0 s.dlIn.n.toNat s.dlIn.blk)) (.done s.draws))

/-- DL.PROCB (R139). -/
def execDlProcb (s : State) : Out :=
  if s.dl.cfg = false then .next (s.failDl .notConfigured)
  else if s.dlIn.n.toNat > s.dl.maxblk then .next (s.failDl .bounds)
  else
    let out := s.dl.combBlock s.draws (takeVec s.draws 0 0 s.dlIn.n.toNat s.dlIn.blk)
    .next (s.putDl out.2 (.block s.draws out.1))

end Sys2Proof.Machine
end

