-- ==== Sys2Proof/Machine/Rrs.lean ====
section
/-!
DEFINITION. RRS, the recursive running-sum filter (41_rrs_filter.md): its operations, which the DVN uses, and the meanings
of the RRS commands.
-/

namespace Sys2Proof.Machine

/-- `0 < ε < 1`; a NaN fails (R162). -/
def epsOk (eps : F32) : Bool := F32.lt 0 eps && F32.lt eps 0x3F800000

/-- `a = rne32(1 - ε)` (R161). -/
def rrsCoeffA (eps : F32) : F32 := rne32 (1 - F32.toRat eps)

/-- `c = rne32(a^W)`, the exact power rounded once (R161). -/
def rrsCoeffC (a : F32) (width : Nat) : F32 := rnePow (F32.toRat a) width

/-- A filter as a successful CFG leaves it (R162). -/
def Rrs.build (width : Nat) (eps : F32) : Rrs where
  cfg := true
  width := width
  eps := eps
  a := rrsCoeffA eps
  c := rrsCoeffC (rrsCoeffA eps) width
  xl := .build width 1 0
  yl := .build 1 1 0

/-- A filter with another leakage: new coefficients, the same history (R163). -/
def Rrs.setEps (f : Rrs) (eps : F32) : Rrs :=
  { f with eps := eps, a := rrsCoeffA eps, c := rrsCoeffC (rrsCoeffA eps) f.width }

/-- The output for the input `x`, with `x` already written to the x line: `y = a·y[n-1] + (x - c·x[n-W])` (R160, R164). -/
def Rrs.out (draw : Nat) (f : Rrs) (x : F32) : F32 :=
  add32 draw (mul32 draw f.a (f.yl.age 0)) (sub32 draw x (mul32 draw f.c ((f.xl.push x).age f.width)))

/-- The filter after the input `x` (R164). -/
def Rrs.push (draw : Nat) (f : Rrs) (x : F32) : Rrs := { f with xl := f.xl.push x, yl := f.yl.push (f.out draw x) }

/-- The recurrence over a block, in order: the outputs and the filter after (R165). -/
def Rrs.block (draw : Nat) : Rrs → List F32 → List F32 × Rrs
  | f, [] => ([], f)
  | f, x :: xs =>
    let rest := Rrs.block draw (f.push draw x) xs
    (f.out draw x :: rest.1, rest.2)

/-- The checks of RRS.CFG, in order (R162). -/
def Rrs.cfgError (width : Nat) (eps : F32) : Option Err :=
  if width = 0 then some .invalidArg
  else if epsOk eps = false then some .invalidArg
  else if width + 1 > Config.dlCap then some .capacity
  else none

/-- RRS.CFG (R162). -/
def execRrsCfg (s : State) : Out :=
  match Rrs.cfgError s.rrsIn.w.toNat (epsOperand s.rrsIn.eps) with
  | some e => .next (s.failRrs e)
  | none => .next (s.putRrs (.build s.rrsIn.w.toNat (epsOperand s.rrsIn.eps)) (.done s.draws))

/-- The `EPS` of RRS.SETEPS (R163), which has no value for an omitted operand: a free value then (log 15). -/
def setepsOperand (draw : Nat) (eps : Option F32) : F32 := eps.getD (Config.freeOperand draw 0 0)

/-- RRS.SETEPS (R163). -/
def execRrsSeteps (s : State) : Out :=
  if s.rrs.cfg = false then .next (s.failRrs .notConfigured)
  else if epsOk (setepsOperand s.draws s.rrsIn.eps) = false then .next (s.failRrs .invalidArg)
  else .next (s.putRrs (s.rrs.setEps (setepsOperand s.draws s.rrsIn.eps)) (.done s.draws))

/-- RRS.PROC (R164). -/
def execRrsProc (s : State) : Out :=
  if s.rrs.cfg = false then .next (s.failRrs .notConfigured)
  else .next (s.putRrs (s.rrs.push s.draws s.rrsIn.x) (.sample s.draws (s.rrs.out s.draws s.rrsIn.x)))

/-- RRS.PROCB (R165). -/
def execRrsProcb (s : State) : Out :=
  if s.rrs.cfg = false then .next (s.failRrs .notConfigured)
  else if s.rrsIn.n.toNat > Config.maxblkCap then .next (s.failRrs .bounds)
  else
    let out := s.rrs.block s.draws (takeVec s.draws 0 0 s.rrsIn.n.toNat s.rrsIn.blk)
    .next (s.putRrs out.2 (.block s.draws out.1))

end Sys2Proof.Machine
end

