-- ==== Sys2Proof/Machine/Dvn.lean ====
section
/-!
DEFINITION. DVN, the dark-velvet-noise convolver, and DIFF, the diffuser of one DVN per channel (43_dvn_convolver.md): their
operations, which REV uses, and the meanings of their commands.
-/

namespace Sys2Proof.Machine

/-- The arguments that build a convolver (R195). -/
structure DvnArgs where
  p : Nat
  rho : Nat
  fs : Nat
  maxblk : Nat
  eps : F32
  deriving DecidableEq, Repr

/-- `Td = floor(fs / rho)` (R190). -/
def DvnArgs.td (a : DvnArgs) : Nat := a.fs / a.rho

/-- The real value of a draw, in `[0, 1)` (00_scope.md R16). -/
def drawRat (u : Draw) : Rat := (u.toNat : Rat) / 2 ^ 24

/-- `w(m) = round(r1·(wmax - wmin) + wmin)` (R191). -/
def pulseWidth (wmin wmax : Nat) (u1 : Draw) : Nat :=
  (roundAway (drawRat u1 * ((wmax : Rat) - wmin) + wmin)).toNat

/-- `k(m) = round(m·Td + r2·(Td - w(m)))` (R191). -/
def pulsePos (td m w : Nat) (u2 : Draw) : Nat := (roundAway ((m : Rat) * td + drawRat u2 * ((td : Rat) - w))).toNat

/-- `s(m) = 2·round(r3) - 1`, which is +1 or -1 (R191, R192). -/
def pulseSign (u3 : Draw) : Sign := if 2 * roundAway (drawRat u3) - 1 = 1 then .plus else .minus

/-- Pulse `m`, from its three draws (R191). -/
def genPulse (td m : Nat) (u1 u2 u3 : Draw) : Pulse :=
  let w := pulseWidth (td / 2) td u1
  { k := pulsePos td m w u2, w := w, s := pulseSign u3 }

/-- The pulses `m, m+1, ...`, `count` of them, three draws each (R191). -/
def genPulses (td : Nat) : (m count : Nat) → List Draw → List Pulse
  | m, k + 1, u1 :: u2 :: u3 :: rest => genPulse td m u1 u2 u3 :: genPulses td (m + 1) k rest
  | _, _, _ => []

/-- The largest position of a pulse, 0 without pulses (R194). -/
def kmax (ps : List Pulse) : Nat := ps.foldr (fun q n => max q.k n) 0

/-- A convolver as a successful CFG leaves it, from the first `3·P` draws (R195). -/
def Dvn.build (prm : Params) (a : DvnArgs) (rnd : List Draw) : Dvn :=
  let wmin := a.td / 2
  let nw := a.td - wmin + 1
  let pulses := genPulses a.td 0 a.p rnd
  { cfg := true
    p := a.p
    rho := a.rho
    fs := a.fs
    td := a.td
    wmin := wmin
    wmax := a.td
    nw := nw
    maxblk := a.maxblk
    eps := a.eps
    pulses := pulses
    sd := .build (max 1 (kmax pulses)) a.maxblk 0
    rrs := (List.range nw).map (fun b => .build (wmin + b) a.eps)
    nrm := dvnNorm prm a.p nw }

/-- The checks of DVN.CFG, in order, with `draws` the length of the stream and `need` the draws construction takes (R195;
DIFF.CFG takes more, R210). -/
def DvnArgs.error (a : DvnArgs) (draws need : Nat) : Option Err :=
  if a.rho = 0 ∨ a.fs = 0 ∨ a.maxblk = 0 then some .invalidArg
  else if epsOk a.eps = false then some .invalidArg
  else if a.td < 2 then some .invalidArg
  else if draws < need then some .invalidArg
  else if a.p > Config.pMax ∨ a.td > Config.tdMax ∨ a.maxblk > Config.maxblkCap
      ∨ a.p * a.td + a.maxblk > Config.dlCap then some .capacity
  else none

/-- Add a pulse's delayed block into a scratch block, by its sign (R197). -/
def addPulse (draw : Nat) (s : Sign) (scr d : List F32) : List F32 :=
  match s with
  | .plus => List.zipWith (add32 draw) scr d
  | .minus => List.zipWith (sub32 draw) scr d

/-- The scratch block of bucket `b`: the delayed blocks of its pulses, in ascending index (R197). -/
def Dvn.scratch (draw : Nat) (d : Dvn) (sd : Dl) (n b : Nat) : List F32 :=
  (d.pulses.filter (fun q => q.w = d.wmin + b)).foldl
    (fun scr q => addPulse draw q.s scr (sd.readBlock q.k n)) (List.replicate n 0)

/-- The buckets `b, b+1, ...`, whose filters are given: each filter runs on its scratch block and its output is added into
the accumulator (R197). The result is the accumulator and the filters after. -/
def Dvn.buckets (draw : Nat) (d : Dvn) (sd : Dl) (n : Nat) : (b : Nat) → List Rrs → List F32 → List F32 × List Rrs
  | _, [], acc => (acc, [])
  | b, f :: fs, acc =>
    let o := f.block draw (d.scratch draw sd n b)
    let rest := Dvn.buckets draw d sd n (b + 1) fs (List.zipWith (add32 draw) acc o.1)
    (rest.1, o.2 :: rest.2)

/-- The normalised output for the accumulated sample `v` (R197). A convolver without pulses returns `+0.0` for every factor,
as R196 and R199 say; where the product of R197 would be `-0.0` or a NaN they win (DEDUCED, log 31). -/
def Dvn.scaled (draw : Nat) (d : Dvn) (v : F32) : F32 := if d.p = 0 then 0 else mul32 draw v d.nrm

/-- Convolve one block of `n` samples: the output and the convolver after (R197). -/
def Dvn.block (draw : Nat) (d : Dvn) (n : Nat) (xs : List F32) : List F32 × Dvn :=
  let sd := d.sd.writeBlock xs
  let res := d.buckets draw sd n 0 d.rrs (List.replicate n 0)
  (res.1.map (d.scaled draw), { d with sd := sd, rrs := res.2 })

/-- The arguments on the DVN port (10_state.md R31). -/
def dvnPortArgs (o : DvnOperands) : DvnArgs where
  p := o.p.toNat
  rho := o.rho.toNat
  fs := o.fs.toNat
  maxblk := o.maxblk.toNat
  eps := epsOperand o.eps

/-- DVN.CFG (R195). -/
def execDvnCfg (s : State) : Out :=
  match (dvnPortArgs s.dvnIn).error s.dvnIn.rnd.length (3 * s.dvnIn.p.toNat) with
  | some e => .next (s.failDvn e)
  | none => .next (s.putDvn (.build s.params (dvnPortArgs s.dvnIn) s.dvnIn.rnd) (.done s.draws))

/-- DVN.PROCB (R197). -/
def execDvnProcb (s : State) : Out :=
  if s.dvn.cfg = false then .next (s.failDvn .notConfigured)
  else if s.dvnIn.n.toNat > s.dvn.maxblk then .next (s.failDvn .bounds)
  else
    let out := s.dvn.block s.draws s.dvnIn.n.toNat (takeVec s.draws 0 0 s.dvnIn.n.toNat s.dvnIn.blk)
    .next (s.putDvn out.2 (.block s.draws out.1))

/-- What DVN.PULSE returns for pulse `i` (R198). A configured convolver holds `P` pulses, so that `i < P` names one. -/
def Dvn.pulseResult (draw : Nat) (d : Dvn) (i : Nat) : DvnResult :=
  match d.pulses[i]? with
  | some q => .pulse draw q
  | none => .done draw

/-- DVN.PULSE (R198). -/
def execDvnPulse (s : State) : Out :=
  if s.dvn.cfg = false then .next (s.failDvn .notConfigured)
  else if s.dvnIn.i.toNat ≥ s.dvn.p then .next (s.failDvn .bounds)
  else .next (s.putDvn s.dvn (s.dvn.pulseResult s.draws s.dvnIn.i.toNat))

/-- The convolvers of a diffuser, channel 0 first, each with its `3·P` draws of the one stream (R210). -/
def buildConvs (prm : Params) (a : DvnArgs) : (ch : Nat) → List Draw → List Dvn
  | 0, _ => []
  | k + 1, rnd => .build prm a (rnd.take (3 * a.p)) :: buildConvs prm a k (rnd.drop (3 * a.p))

/-- A diffuser as a successful CFG leaves it (R210). -/
def Diff.build (prm : Params) (ch : Nat) (a : DvnArgs) (rnd : List Draw) : Diff where
  cfg := true
  ch := ch
  maxblk := a.maxblk
  conv := buildConvs prm a ch rnd

/-- The checks of DIFF.CFG, in order (R210). -/
def Diff.cfgError (ch : Nat) (a : DvnArgs) (draws : Nat) : Option Err :=
  if ch = 0 then some .invalidArg
  else if ch > Config.diffNmax then some .capacity
  else a.error draws (3 * a.p * ch)

/-- Convolve a block on every channel: the outputs and the diffuser after (R212). -/
def Diff.block (draw : Nat) (d : Diff) (n : Nat) (chans : List (List F32)) : List (List F32) × Diff :=
  let res := List.zipWith (fun c xs => Dvn.block draw c n xs) d.conv chans
  (res.map Prod.fst, { d with conv := res.map Prod.snd })

/-- The arguments on the DIFF port (10_state.md R31). -/
def diffPortArgs (o : DiffOperands) : DvnArgs where
  p := o.p.toNat
  rho := o.rho.toNat
  fs := o.fs.toNat
  maxblk := o.maxblk.toNat
  eps := epsOperand o.eps

/-- DIFF.CFG (R210). -/
def execDiffCfg (s : State) : Out :=
  match Diff.cfgError s.diffIn.ch.toNat (diffPortArgs s.diffIn) s.diffIn.rnd.length with
  | some e => .next (s.failDiff e)
  | none =>
    .next (s.putDiff (.build s.params s.diffIn.ch.toNat (diffPortArgs s.diffIn) s.diffIn.rnd) (.done s.draws))

/-- DIFF.PROCB (R212). -/
def execDiffProcb (s : State) : Out :=
  if s.diff.cfg = false then .next (s.failDiff .notConfigured)
  else if s.diffIn.n.toNat > s.diff.maxblk then .next (s.failDiff .bounds)
  else
    let out := s.diff.block s.draws s.diffIn.n.toNat
      (takeChannels s.draws s.diffIn.n.toNat 0 s.diff.ch s.diffIn.blk)
    .next (s.putDiff out.2 (.block out.1))

end Sys2Proof.Machine
end

