-- ==== Sys2Proof/Machine/Had.lean ====
section
/-!
DEFINITION. HAD, the orthogonal Hadamard mixer (42_hadamard_mixer.md): the transform, which the FDN uses, and the meaning
of HAD.MIX.
-/

namespace Sys2Proof.Machine

/-- One stage of butterflies at distance `h`, over `blocks` groups of `2h` values: the sums, then the differences of each
group's halves (R180). -/
def butterflyStage {α : Type} (add sub : α → α → α) (h : Nat) : (blocks : Nat) → List α → List α
  | 0, v => v
  | k + 1, v =>
    List.zipWith add (v.take h) ((v.drop h).take h)
      ++ List.zipWith sub (v.take h) ((v.drop h).take h)
      ++ butterflyStage add sub h k (v.drop (2 * h))

/-- The stages at the distances `h, 2h, 4h, ...`, `stages` of them, on a frame of `n` values (R180). The machine adds and
subtracts with `add32` and `sub32`; with exact operations this is the linear map of R181. -/
def butterflies {α : Type} (add sub : α → α → α) (n : Nat) : (stages h : Nat) → List α → List α
  | 0, _, v => v
  | k + 1, h, v => butterflies add sub n k (2 * h) (butterflyStage add sub h (n / (2 * h)) v)

/-- The fast Hadamard transform of a frame of `n` values, `n` a power of two, and its scale (R180). -/
def hadamard (draw n : Nat) (frame : List F32) : List F32 :=
  let sc := hadScale n
  (butterflies (add32 draw) (sub32 draw) n (Nat.log2 n) 1 frame).map (fun v => mul32 draw v sc)

/-- The test of R180 and 44_fdn.md R237 for a power of two: `N ≠ 0` and `N AND (N - 1) = 0`. -/
def isPow2 (n : Nat) : Bool := n ≠ 0 && n &&& (n - 1) = 0

/-- The checks of HAD.MIX, in order (R180). -/
def hadError (n : Nat) : Option Err :=
  if isPow2 n = false then some .notPow2
  else if n > Config.hadNmax then some .capacity
  else none

/-- HAD.MIX (R180). -/
def execHadMix (s : State) : Out :=
  match hadError s.hadIn.n.toNat with
  | some e => .next (s.failHad e)
  | none => .next (s.putHad (.frame (hadamard s.draws s.hadIn.n.toNat (takeVec s.draws 0 0 s.hadIn.n.toNat s.hadIn.frame))))

end Sys2Proof.Machine
end

