-- ==== Sys2Proof/Machine/Fdn.lean ====
section
/-!
DEFINITION. FDN, the feedback delay network with damping (44_fdn.md): its operations, which REV uses, and the meanings of
its commands.
-/

namespace Sys2Proof.Machine

/-- One step of the one-pole low-pass: the state after, which is also the output (R230). -/
def onepole (draw : Nat) (alpha z x : F32) : F32 := add32 draw z (mul32 draw alpha (sub32 draw x z))

/-- The bounds of a cutoff, 20.0 and 20000.0 Hz (R232). -/
def cutoffLo : F32 := 0x41A00000
/-- The upper bound of a cutoff (R232). -/
def cutoffHi : F32 := 0x469C4000
/-- `b32(0.1)`, the lower bound of the room size (R232). -/
def roomLo : F32 := 0x3DCCCCCD
/-- 2.0, the upper bound of the room size (R232). -/
def roomHi : F32 := 0x40000000

/-- A line length from a jitter draw (R233). -/
def lineLength (prm : Params) (lb : Nat) (u : Draw) : Nat :=
  (max 1 (roundAway ((lb : Rat) * (prm.jitLo + drawRat u * (prm.jitHi - prm.jitLo))))).toNat

/-- The largest length of a jittered line, `Lhi` (R233). -/
def lineLengthMax (prm : Params) (lb : Nat) : Nat := (max 1 (roundAway ((lb : Rat) * prm.jitHi))).toNat

/-- A feedback gain from a gain draw (R234). -/
def lineGain (prm : Params) (u : Draw) : F32 := rne32 (prm.gainLo + drawRat u * (prm.gainHi - prm.gainLo))

/-- A line as a successful CFG leaves it (R237). -/
def FdnLine.build (maxblk len : Nat) (gain : F32) : FdnLine where
  len := len
  gain := gain
  line := .build (2 * len) maxblk 0
  z := 0

/-- The lines `i = 1, 2, ...`: `count` of them, a jitter draw and then a gain draw each (R235). -/
def jitteredLines (prm : Params) (lb maxblk : Nat) : (count : Nat) → List Draw → List FdnLine
  | k + 1, uj :: ug :: rest =>
    .build maxblk (lineLength prm lb uj) (lineGain prm ug) :: jitteredLines prm lb maxblk k rest
  | _, _ => []

/-- The lines of a network: line 0 with its gain draw, then the jittered lines (R233-R237). -/
def buildLines (prm : Params) (n lb maxblk : Nat) : List Draw → List FdnLine
  | u :: rest => .build maxblk (line0Len prm lb) (lineGain prm u) :: jitteredLines prm lb maxblk (n - 1) rest
  | [] => []

/-- A network as a successful CFG leaves it (R237). -/
def Fdn.build (prm : Params) (n lb fs maxblk : Nat) (rnd : List Draw) : Fdn where
  cfg := true
  n := n
  lb := lb
  fs := fs
  maxblk := maxblk
  lines := buildLines prm n lb maxblk rnd

/-- The checks of FDN.CFG, in order (R237). -/
def Fdn.cfgError (prm : Params) (n lb fs maxblk draws : Nat) : Option Err :=
  if n = 0 ∨ lb = 0 ∨ fs = 0 ∨ maxblk = 0 then some .invalidArg
  else if n &&& (n - 1) ≠ 0 then some .notPow2
  else if draws < 2 * n - 1 then some .invalidArg
  else if n > Config.fdnNmax ∨ maxblk > Config.maxblkCap ∨ lineLengthMax prm lb > Config.lMax
      ∨ line0Len prm lb > Config.lMax
      ∨ 2 * max (lineLengthMax prm lb) (line0Len prm lb) + maxblk > Config.dlCap then some .capacity
  else none

/-- `tau[i] = round(L[i] × room)` (R238). -/
def roomDelay (len : Nat) (room : F32) : Nat := (roundAway ((len : Rat) * F32.toRat room)).toNat

/-- What line `i` delivers at one step, read at the delay `tau`: its delayed sample, or `+0.0` for line 0 in mode ZERO
(R239 (b)). -/
def lineRead (mode : Line0Mode) (i : Nat) (l : FdnLine) (tau : Nat) : F32 :=
  if i = 0 ∧ mode = .zero then 0 else l.line.age tau

/-- The delayed samples of the lines `i, i+1, ...` (R239 (b)). -/
def readLines (mode : Line0Mode) : (i : Nat) → List FdnLine → (taus : List Nat) → List F32
  | i, l :: ls, tau :: taus => lineRead mode i l tau :: readLines mode (i + 1) ls taus
  | _, _, _ => []

/-- Line `i` after one step: the mixed sample damped and scaled, the input added, the result written; line 0 is left alone
in mode ZERO (R239 (e)-(g)). -/
def lineFeed (draw : Nat) (mode : Line0Mode) (alpha : F32) (i : Nat) (l : FdnLine) (mixed input : F32) : FdnLine :=
  if i = 0 ∧ mode = .zero then l
  else
    let z := onepole draw alpha l.z mixed
    { l with z := z, line := l.line.push (add32 draw (mul32 draw z l.gain) input) }

/-- The lines `i, i+1, ...` after one step, by their mixed samples and inputs (R239 (e)-(g)). -/
def feedLines (draw : Nat) (mode : Line0Mode) (alpha : F32) :
    (i : Nat) → List FdnLine → (mixed input : List F32) → List FdnLine
  | i, l :: ls, m :: ms, x :: xs => lineFeed draw mode alpha i l m x :: feedLines draw mode alpha (i + 1) ls ms xs
  | _, _, _, _ => []

/-- The per-sample loop, over the frames of the input in order: the output frames and the lines after (R239). -/
def fdnLoop (draw : Nat) (mode : Line0Mode) (alpha : F32) (n : Nat) (taus : List Nat) :
    List FdnLine → List (List F32) → List (List F32) × List FdnLine
  | ls, [] => ([], ls)
  | ls, x :: xs =>
    let d := readLines mode 0 ls taus
    let rest := fdnLoop draw mode alpha n taus (feedLines draw mode alpha 0 ls (hadamard draw n d) x) xs
    (d :: rest.1, rest.2)

/-- The `n` frames of a block given by channel: frame `t` holds sample `t` of every channel. -/
def framesOf : (n : Nat) → List (List F32) → List (List F32)
  | 0, _ => []
  | n + 1, chans => chans.map (fun c => c.headD 0) :: framesOf n (chans.map List.tail)

/-- The `chans` channels of a block given by frame. -/
def channelsOf (chans : Nat) (frames : List (List F32)) : List (List F32) :=
  (List.range chans).map (fun i => frames.map (fun f => f.getD i 0))

/-- Run one block of `n` samples: the output and the network after (R239). The controls are clamped first (R232); the
coefficient and the delays are constant within the block (R238). -/
def Fdn.block (draw : Nat) (prm : Params) (f : Fdn) (n : Nat) (chans : List (List F32)) (damp room : F32) :
    List (List F32) × Fdn :=
  let alpha := onepoleAlpha prm (clamp damp cutoffLo cutoffHi) f.fs
  let taus := f.lines.map (fun l => roomDelay l.len (clamp room roomLo roomHi))
  let res := fdnLoop draw prm.line0 alpha f.n taus f.lines (framesOf n chans)
  (channelsOf f.n res.1, { f with lines := res.2 })

/-- FDN.CFG (R237). -/
def execFdnCfg (s : State) : Out :=
  match Fdn.cfgError s.params s.fdnIn.lines.toNat s.fdnIn.lbase.toNat s.fdnIn.fs.toNat s.fdnIn.maxblk.toNat
      s.fdnIn.rnd.length with
  | some e => .next (s.failFdn e)
  | none =>
    .next (s.putFdn
      (.build s.params s.fdnIn.lines.toNat s.fdnIn.lbase.toNat s.fdnIn.fs.toNat s.fdnIn.maxblk.toNat s.fdnIn.rnd)
      (.done s.draws))

/-- FDN.PROCB (R239). -/
def execFdnProcb (s : State) : Out :=
  if s.fdn.cfg = false then .next (s.failFdn .notConfigured)
  else if s.fdnIn.n.toNat > s.fdn.maxblk then .next (s.failFdn .bounds)
  else
    let out := s.fdn.block s.draws s.params s.fdnIn.n.toNat
      (takeChannels s.draws s.fdnIn.n.toNat 0 s.fdn.n s.fdnIn.blk) s.fdnIn.damp s.fdnIn.room
    .next (s.putFdn out.2 (.block out.1))

end Sys2Proof.Machine
end

