-- ==== Sys2Proof/Machine/Flags.lean ====
section
/-!
DEFINITION. The STATUS register (10_state.md R36), the only flags of the hardware: no command sets a condition flag.
-/

namespace Sys2Proof.Machine

/-- BUSY: a command is in flight (R36, R51, 45_reverb_top.md R260). -/
def Rev.busy (r : Rev) : Bool := r.pending.isSome

/-- The word STATUS reads as: BUSY, CONFIGURED, ERR in bits 0 to 2, ERRCODE in 15:8, the rest zero (R36). -/
def Rev.statusWord (r : Rev) : Word :=
  0#16 ++ r.errcode ++ 0#5 ++ BitVec.ofBool r.err ++ BitVec.ofBool r.configured ++ BitVec.ofBool r.busy

/-- A write to STATUS: bit 2 is write-1-to-clear, the other bits are read-only or ignored (R36, 20_memory.md R78). -/
def Rev.writeStatus (r : Rev) (v : Word) : Rev := if v.getLsbD 2 then r.clearErr else r

end Sys2Proof.Machine
end

