-- ==== Sys2Proof/Machine/Rev.lean ====
section
/-!
DEFINITION. REV, the reverb orchestrator (45_reverb_top.md): its random source, the setup and processing calls, and the
meanings of the REV commands. `exec` of a REV command is the one atomic step in which the pending command executes and BUSY
clears (R260).
-/

namespace Sys2Proof.Machine

/-! ## The random source (R262) -/

/-- The next state of the xorshift32 generator (R262). -/
def xorshift (x : Word) : Word :=
  let x1 := x ^^^ (x <<< 13)
  let x2 := x1 ^^^ (x1 >>> 17)
  x2 ^^^ (x2 <<< 5)

/-- The draw a generator state gives: its top 24 bits (R262). -/
def rngDraw (x : Word) : Draw := x.extractLsb' 8 24

/-- The state that SEED gives (R262). -/
def rngSeed (seed : Word) : Word := if seed = 0 then Config.seed0 else seed

/-- `n` draws from a generator state, and the state after (R262). -/
def rngDraws : (n : Nat) → Word → List Draw × Word
  | 0, x => ([], x)
  | n + 1, x =>
    let x' := xorshift x
    let rest := rngDraws n x'
    (rngDraw x' :: rest.1, rest.2)

/-! ## Setup (R263, R264) -/

/-- The arguments of a diffuser stage (R264). -/
def stageArgs (sp : StageParams) (fs mb : Nat) : DvnArgs where
  p := sp.p
  rho := sp.rho
  fs := fs
  maxblk := mb
  eps := Config.rrsEps

/-- `Lb[st] = round(FDN_BASE_MS[st] · fs / 1000)` (R264). -/
def baseLength (ms : Rat) (fs : Nat) : Int := roundAway (ms * fs / 1000)

/-- The draws a diffuser stage takes, `3·8·DIFF_P[s]` (R264). -/
def diffDraws (sp : StageParams) : Nat := 3 * sp.p * Config.nInt

/-- The draws an FDN stage takes, 15 (R264). -/
def fdnDraws : Nat := 2 * Config.nInt - 1

/-- The checks of a diffuser stage, which draws from an endless source (R263). -/
def stageDiffError (sp : StageParams) (fs mb : Nat) : Option Err :=
  Diff.cfgError Config.nInt (stageArgs sp fs mb) (diffDraws sp)

/-- The checks of an FDN stage (R263). -/
def stageFdnError (prm : Params) (ms : Rat) (fs mb : Nat) : Option Err :=
  Fdn.cfgError prm Config.nInt (baseLength ms fs).toNat fs mb fdnDraws

/-- The checks of REV.SETUP, in order; the inner ones in construction order (R263). -/
def Rev.setupError (prm : Params) (fs mb : Nat) : Option Err :=
  if fs = 0 ∨ mb = 0 then some .invalidArg
  else if fs > Config.fsMax ∨ mb > Config.maxblkCap then some .capacity
  else if fs / prm.diff1.rho < 2 ∨ fs / prm.diff2.rho < 2 ∨ fs / prm.diff3.rho < 2 then some .invalidArg
  else if baseLength prm.fdnBaseMs1 fs < 1 ∨ baseLength prm.fdnBaseMs2 fs < 1 then some .invalidArg
  else
    (stageDiffError prm.diff1 fs mb).or
      ((stageFdnError prm prm.fdnBaseMs1 fs mb).or
        ((stageDiffError prm.diff2 fs mb).or
          ((stageFdnError prm prm.fdnBaseMs2 fs mb).or (stageDiffError prm.diff3 fs mb))))

/-- `Mpd = max(1, round(b32(0.1) · fs))` (R263). -/
def predelayMaxSamples (fs : Nat) : Nat := (max 1 (roundAway (F32.toRat Config.predelayMax * fs))).toNat

/-- REV after a successful setup (R263): the five stages built in processing order from the one source (R264), the
pre-delay lines gone, the tone filters cleared, the setup values latched. -/
def Rev.setup (prm : Params) (r : Rev) : Rev :=
  let fs := r.fs.toNat
  let mb := r.maxblk.toNat
  let u1 := rngDraws (diffDraws prm.diff1) (rngSeed r.seed)
  let u2 := rngDraws fdnDraws u1.2
  let u3 := rngDraws (diffDraws prm.diff2) u2.2
  let u4 := rngDraws fdnDraws u3.2
  let u5 := rngDraws (diffDraws prm.diff3) u4.2
  { r with
    d1 := .build prm Config.nInt (stageArgs prm.diff1 fs mb) u1.1
    f1 := .build prm Config.nInt (baseLength prm.fdnBaseMs1 fs).toNat fs mb u2.1
    d2 := .build prm Config.nInt (stageArgs prm.diff2 fs mb) u3.1
    f2 := .build prm Config.nInt (baseLength prm.fdnBaseMs2 fs).toNat fs mb u4.1
    d3 := .build prm Config.nInt (stageArgs prm.diff3 fs mb) u5.1
    rng := u5.2
    mpd := predelayMaxSamples fs
    cprev := 0
    pd := []
    hs := List.replicate Config.nInt 0
    ls := List.replicate Config.nInt 0
    cfgFs := r.fs
    cfgMaxblk := r.maxblk
    configured := true }

/-! ## Processing (R265) -/

/-- The checks of REV.PROCESS, in order (R265). -/
def Rev.processError (r : Rev) : Option Err :=
  if r.configured = false then some .notConfigured
  else if r.nch.toNat < 1 ∨ r.nch.toNat > Config.cMax then some .invalidArg
  else if r.nlen.toNat > r.cfgMaxblk.toNat then some .bounds
  else none

/-- The clamped controls of a block (R266). -/
structure Controls where
  mix : F32
  width : F32
  lowpass : F32
  highpass : F32
  dampening : F32
  roomsize : F32
  initdelay : F32
  deriving DecidableEq, Repr

/-- The clamps of R266. -/
def Rev.controls (r : Rev) : Controls where
  mix := clamp r.mix 0 0x3F800000
  width := clamp r.width 0 0x40000000
  lowpass := clamp r.lowpass cutoffLo cutoffHi
  highpass := clamp r.highpass cutoffLo cutoffHi
  dampening := clamp r.dampening cutoffLo cutoffHi
  roomsize := clamp r.roomsize roomLo roomHi
  initdelay := clamp r.initdelay 0 Config.predelayMax

/-- Step (1): the pre-delay lines are rebuilt, zeroed, when the channel count has changed (R267). -/
def Rev.predelayLines (r : Rev) (c : Nat) : List Dl :=
  if c = r.cprev then r.pd else List.replicate c (.build r.mpd r.cfgMaxblk.toNat 0)

/-- A channel through its tone filters: the output and the two filter states after. -/
structure ToneOut where
  out : List F32
  h : F32
  l : F32
  deriving DecidableEq, Repr

/-- Step (4) for one channel: the high-pass, which is the input less its one-pole low-pass, then the low-pass, in sample
order (R270). -/
def toneChannel (draw : Nat) (alphaHp alphaLp : F32) : (h l : F32) → List F32 → ToneOut
  | h, l, [] => { out := [], h := h, l := l }
  | h, l, x :: xs =>
    let h' := onepole draw alphaHp h x
    let l' := onepole draw alphaLp l (sub32 draw x h')
    let rest := toneChannel draw alphaHp alphaLp h' l' xs
    { out := l' :: rest.out, h := rest.h, l := rest.l }

/-- Step (4) for the channels `c, c+1, ...` (R270). -/
def toneChannels (draw : Nat) (alphaHp alphaLp : F32) (hs ls : List F32) : (c : Nat) → List (List F32) → List ToneOut
  | _, [] => []
  | c, x :: xs =>
    toneChannel draw alphaHp alphaLp (hs.getD c 0) (ls.getD c 0) x :: toneChannels draw alphaHp alphaLp hs ls (c + 1) xs

/-- Step (5) for one channel: write the block, read it at the pre-delay (R271). The output and the line after. -/
def predelay (tau n : Nat) (d : Dl) (xs : List F32) : List F32 × Dl :=
  ((d.writeBlock xs).readBlock tau n, d.writeBlock xs)

/-- Step (6): the last channel is copied into the channels up to 8 (R272). -/
def upscale (bufs : List (List F32)) : List (List F32) :=
  bufs ++ List.replicate (Config.nInt - bufs.length) (bufs.getLastD [])

/-- Step (8) for one sample pair: the new left and right (R274). -/
def stereoWidth (draw : Nat) (width l r : F32) : F32 × F32 :=
  let m := mul32 draw (add32 draw l r) 0x3F000000
  let s := mul32 draw (mul32 draw (sub32 draw l r) 0x3F000000) width
  (add32 draw m s, sub32 draw m s)

/-- Step (8): only for two channels (R274). -/
def widen (draw : Nat) (width : F32) : List (List F32) → List (List F32)
  | [l, r] =>
    [List.zipWith (fun a b => (stereoWidth draw width a b).1) l r,
     List.zipWith (fun a b => (stereoWidth draw width a b).2) l r]
  | bufs => bufs

/-- The blend of a dry and a wet sample (R275). -/
def blend (draw : Nat) (mix dry wet : F32) : F32 :=
  add32 draw (mul32 draw dry (sub32 draw 0x3F800000 mix)) (mul32 draw wet mix)

/-- Step (9): the first two channels are blended with the dry snapshot, the others are the wet signal (R275). -/
def blendChannels (draw : Nat) (mix : F32) (dry wet : List (List F32)) : List (List F32) :=
  List.zipWith (List.zipWith (blend draw mix)) (dry.take 2) (wet.take 2) ++ wet.drop 2

/-- The input of a block: `IOBUF[c][i]` for `c < C`, `i < n` (R265, 20_memory.md R81). -/
def readBlocks (epoch : Nat) (m : Memory) (n : Nat) : (c chans : Nat) → List (List F32)
  | _, 0 => []
  | c, k + 1 => m.readSamples epoch c 0 n :: readBlocks epoch m n (c + 1) k

/-- The wet signal of the 8 internal channels and REV after it: steps (4) to (7) on the host channels `ins` (R265). -/
def Rev.wet (draw : Nat) (prm : Params) (r : Rev) (n : Nat) (ins : List (List F32)) : List (List F32) × Rev :=
  let ctl := r.controls
  let fs := r.cfgFs.toNat
  let tones := toneChannels draw (onepoleAlpha prm ctl.highpass fs) (onepoleAlpha prm ctl.lowpass fs) r.hs r.ls 0 ins
  let taupd := (roundAway (F32.toRat ctl.initdelay * fs)).toNat
  let pre := List.zipWith (predelay taupd n) (r.predelayLines ins.length) (tones.map ToneOut.out)
  let b1 := r.d1.block draw n (upscale (pre.map Prod.fst))
  let b2 := r.f1.block draw prm n b1.1 ctl.dampening ctl.roomsize
  let b3 := r.d2.block draw n b2.1
  let b4 := r.f2.block draw prm n b3.1 ctl.dampening ctl.roomsize
  let b5 := r.d3.block draw n b4.1
  (b5.1,
   { r with
     cprev := ins.length
     pd := pre.map Prod.snd
     hs := tones.map ToneOut.h ++ r.hs.drop ins.length
     ls := tones.map ToneOut.l ++ r.ls.drop ins.length
     d1 := b1.2
     f1 := b2.2
     d2 := b3.2
     f2 := b4.2
     d3 := b5.2 })

/-- The output block of the host channels `ins`, and REV after it: steps (1) to (9) (R265). -/
def Rev.process (draw : Nat) (prm : Params) (r : Rev) (n : Nat) (ins : List (List F32)) : List (List F32) × Rev :=
  let wet := r.wet draw prm n ins
  (blendChannels draw r.controls.mix ins (widen draw r.controls.width (wet.1.take ins.length)), wet.2)

/-- The input block of the pending REV.PROCESS (R265). -/
def State.processInput (s : State) : List (List F32) := readBlocks s.epoch s.iobuf s.rev.nlen.toNat 0 s.rev.nch.toNat

/-- REV.NOP (R261). -/
def execRevNop (s : State) : Out := .next (s.finishRev s.rev s.iobuf)

/-- REV.SETUP (R263). -/
def execRevSetup (s : State) : Out :=
  match Rev.setupError s.params s.rev.fs.toNat s.rev.maxblk.toNat with
  | some e => .next (s.failRev e)
  | none => .next (s.finishRev (s.rev.setup s.params) s.iobuf)

/-- REV.PROCESS (R265): in place, on exactly the words `IOBUF[c][i]` with `c < C`, `i < n` (20_memory.md R81). -/
def execRevProcess (s : State) : Out :=
  match s.rev.processError with
  | some e => .next (s.failRev e)
  | none =>
    let out := s.rev.process s.draws s.params s.rev.nlen.toNat s.processInput
    .next (s.finishRev out.2 (s.iobuf.writeChannels 0 out.1))

end Sys2Proof.Machine
end

