-- ==== Sys2Proof/Machine/Dispatch.lean ====
section
/-!
DEFINITION. The meaning of each command, one arm per constructor of `Instr` (30_encoding.md R103).
-/

namespace Sys2Proof.Machine

def exec (i : Instr) (s : State) : Host.Outcome State Fault Refusal :=
  match i with
  | .dlCfg => Sys2Proof.Machine.execDlCfg s
  | .dlRd => Sys2Proof.Machine.execDlRd s
  | .dlRdm => Sys2Proof.Machine.execDlRdm s
  | .dlWr => Sys2Proof.Machine.execDlWr s
  | .dlProc => Sys2Proof.Machine.execDlProc s
  | .dlRdb => Sys2Proof.Machine.execDlRdb s
  | .dlWrb => Sys2Proof.Machine.execDlWrb s
  | .dlProcb => Sys2Proof.Machine.execDlProcb s
  | .rrsCfg => Sys2Proof.Machine.execRrsCfg s
  | .rrsSeteps => Sys2Proof.Machine.execRrsSeteps s
  | .rrsProc => Sys2Proof.Machine.execRrsProc s
  | .rrsProcb => Sys2Proof.Machine.execRrsProcb s
  | .hadMix => Sys2Proof.Machine.execHadMix s
  | .dvnCfg => Sys2Proof.Machine.execDvnCfg s
  | .dvnProcb => Sys2Proof.Machine.execDvnProcb s
  | .dvnPulse => Sys2Proof.Machine.execDvnPulse s
  | .diffCfg => Sys2Proof.Machine.execDiffCfg s
  | .diffProcb => Sys2Proof.Machine.execDiffProcb s
  | .fdnCfg => Sys2Proof.Machine.execFdnCfg s
  | .fdnProcb => Sys2Proof.Machine.execFdnProcb s
  | .revNop => Sys2Proof.Machine.execRevNop s
  | .revSetup => Sys2Proof.Machine.execRevSetup s
  | .revProcess => Sys2Proof.Machine.execRevProcess s

end Sys2Proof.Machine
end

