-- ==== Sys2Proof/Machine/Bus.lean ====
section
/-!
DEFINITION. The host bus of REV (20_memory.md R70-R81, 60_exceptions.md R304, R306): the address map, the register file,
reads and writes.
-/

namespace Sys2Proof.Machine

/-- The registers in the order of their offsets, four bytes each (10_state.md R35). -/
def revRegs : List RevReg :=
  [.id, .version, .cmd, .status, .seed, .fs, .maxblk, .nch, .nlen, .mix, .width, .lowpass, .highpass, .dampening,
   .roomsize, .initdelay, .cfgFs, .cfgMaxblk, .nchActive]

/-- The offset of a register (R35). -/
def regOffset : RevReg → Nat
  | .id => 0x000
  | .version => 0x004
  | .cmd => 0x008
  | .status => 0x00C
  | .seed => 0x010
  | .fs => 0x014
  | .maxblk => 0x018
  | .nch => 0x01C
  | .nlen => 0x020
  | .mix => 0x024
  | .width => 0x028
  | .lowpass => 0x02C
  | .highpass => 0x030
  | .dampening => 0x034
  | .roomsize => 0x038
  | .initdelay => 0x03C
  | .cfgFs => 0x040
  | .cfgMaxblk => 0x044
  | .nchActive => 0x048

/-- What stands at an aligned offset of the window (R72). -/
inductive Region where
  | reg (r : RevReg)
  | reserved
  | iobuf
  | unmapped
  deriving DecidableEq, Repr

/-- The address map (R72). -/
def regionAt (off : Nat) : Region :=
  if off < 0x10000 then
    match revRegs[off / 4]? with
    | some r => .reg r
    | none => .reserved
  else if off < 0x10000 + 32 * Config.maxblkCap then .iobuf
  else .unmapped

/-- The offset of a bus address in the window at `REV_BASE`, if it is in the window (R71). -/
def windowOffset (base addr : Word) : Option Nat :=
  if (addr - base).toNat < 0x40000 then some (addr - base).toNat else none

/-- The bus response of an access, before BUSY is looked at: width, alignment, then mapping (R75, R76, R79, 60_exceptions.md
R306 (1)). -/
def busCheck (width : BusWidth) (off : Nat) : BusResp :=
  if width ≠ .w32 then .slverr
  else if off % 4 ≠ 0 then .slverr
  else if regionAt off = .unmapped then .decerr
  else .okay

/-- What a register reads as (10_state.md R34-R42). -/
def Rev.readReg (r : Rev) : RevReg → Word
  | .id => 0x554D4252
  | .version => 0x00000001
  | .cmd => 0x00000000
  | .status => r.statusWord
  | .seed => r.seed
  | .fs => r.fs
  | .maxblk => r.maxblk
  | .nch => r.nch
  | .nlen => r.nlen
  | .mix => r.mix
  | .width => r.width
  | .lowpass => r.lowpass
  | .highpass => r.highpass
  | .dampening => r.dampening
  | .roomsize => r.roomsize
  | .initdelay => r.initdelay
  | .cfgFs => r.cfgFs
  | .cfgMaxblk => r.cfgMaxblk
  | .nchActive => BitVec.ofNat 32 r.cprev

/-- A register that a host write can change by storing a value: access RW in R35. -/
def regIsRW : RevReg → Bool
  | .seed | .fs | .maxblk | .nch | .nlen | .mix | .width | .lowpass | .highpass | .dampening | .roomsize | .initdelay => true
  | .id | .version | .cmd | .status | .cfgFs | .cfgMaxblk | .nchActive => false

/-- REV after an RW register has stored the value written (R44); the other registers are no place to store (R34, R42). -/
def Rev.storeReg (r : Rev) (g : RevReg) (v : Word) : Rev :=
  match g with
  | .seed => { r with seed := v }
  | .fs => { r with fs := v }
  | .maxblk => { r with maxblk := v }
  | .nch => { r with nch := v }
  | .nlen => { r with nlen := v }
  | .mix => { r with mix := v }
  | .width => { r with width := v }
  | .lowpass => { r with lowpass := v }
  | .highpass => { r with highpass := v }
  | .dampening => { r with dampening := v }
  | .roomsize => { r with roomsize := v }
  | .initdelay => { r with initdelay := v }
  | .id | .version | .cmd | .status | .cfgFs | .cfgMaxblk | .nchActive => r

/-- The host sees a bus reply. -/
def State.putReply (s : State) (p : Reply) : State := { s with reply := p }

/-- One free value has been drawn. -/
def State.drawOne (s : State) : State := { s with draws := s.draws + 1 }

/-- CMD accepts a word: BUSY is 1 and the word is in flight, for the number of host-observable steps that the schedule has
for it, zero where it has none (45_reverb_top.md R260; log 10). -/
def State.acceptCmd (s : State) (v : Word) : State :=
  { s with
    rev := { s.rev with pending := some v }
    busyLeft := s.latencies.headD 0
    latencies := s.latencies.tail }

/-- A read of a mapped, aligned word (R78, R80): no side effect, but that a read of IOBUF while BUSY is 1 draws a free
value. -/
def State.readWordAt (s : State) (off : Nat) : State :=
  match regionAt off with
  | .reg g => s.putReply (.read .okay (s.rev.readReg g))
  | .iobuf =>
    if s.rev.busy then s.drawOne.putReply (.read .okay (Config.busyRead s.draws))
    else s.putReply (.read .okay (s.iobuf.readWord s.epoch off))
  | .reserved | .unmapped => s.putReply (.read .okay 0)

/-- A host read at an offset of the window (R75-R80): refused on the bus with the data 0, or done. -/
def State.busReadAt (s : State) (width : BusWidth) (off : Nat) : State :=
  match busCheck width off with
  | .okay => s.readWordAt off
  | resp => s.putReply (.read resp 0)

/-- The write is refused because BUSY is 1: STATUS records BUSY (R80, 60_exceptions.md R302). -/
def State.refuseBusy (s : State) : State := s.putRev (s.rev.setErr .busy) s.iobuf

/-- A write to a mapped, aligned word (R78, R80). -/
def State.writeWordAt (s : State) (off : Nat) (v : Word) : State :=
  match regionAt off with
  | .reg .status => s.putRev (s.rev.writeStatus v) s.iobuf
  | .reg .cmd => if s.rev.busy then s.refuseBusy else s.acceptCmd v
  | .reg g =>
    if regIsRW g = false then s
    else if s.rev.busy then s.refuseBusy
    else s.putRev (s.rev.storeReg g v) s.iobuf
  | .iobuf => if s.rev.busy then s.refuseBusy else s.putRev s.rev (s.iobuf.writeWord off v)
  | .reserved | .unmapped => s

/-- A host write at an offset of the window (R75-R80): refused on the bus with no effect, or done. -/
def State.busWriteAt (s : State) (width : BusWidth) (off : Nat) (v : Word) : State :=
  match busCheck width off with
  | .okay => (s.writeWordAt off v).putReply (.write .okay)
  | resp => s.putReply (.write resp)

/-- A host read at a bus address; outside the window the spec gives nothing (R71, R72; log 14). -/
def State.busRead (s : State) (width : BusWidth) (addr : Word) : Out :=
  match windowOffset s.params.revBase addr with
  | none => .fault .outsideWindow
  | some off => .next (s.busReadAt width off)

/-- A host write at a bus address (R71, R72; log 14). -/
def State.busWrite (s : State) (width : BusWidth) (addr v : Word) : Out :=
  match windowOffset s.params.revBase addr with
  | none => .fault .outsideWindow
  | some off => .next (s.busWriteAt width off v)

end Sys2Proof.Machine
end

