-- ==== Sys2Proof/Machine/HostSyntax.lean ====
section
/-!
DEFINITION. The host's syntax (30_encoding.md R109, R110): the named statements and pseudo-instructions as the accesses they
stand for, at the base address of the block.
-/

namespace Sys2Proof.Machine

/-- The bus address of a register. -/
def regAddr (base : Word) (g : RevReg) : Word := base + BitVec.ofNat 32 (regOffset g)

/-- The bus address of `IOBUF[c][i]` (20_memory.md R73). -/
def iobufAddr (base : Word) (c i : Nat) : Word := base + BitVec.ofNat 32 (iobufOffset c i)

/-- `WRITE reg, v` (R109). -/
def stmtWrite (base : Word) (g : RevReg) (v : Word) : HostStmt := .write .w32 (regAddr base g) v

/-- `WRITEF reg, d`: the bit pattern of `b32(d)` (R109); the sign of a zero is the model's (log 30). -/
def stmtWritef (base : Word) (g : RevReg) (d : Rat) : HostStmt := stmtWrite base g (rne32 d)

/-- `READ reg` (R109). -/
def stmtRead (base : Word) (g : RevReg) : HostStmt := .read .w32 (regAddr base g)

/-- `WRBUF c, i, d` (R109); the sign of a zero is the model's (log 30). -/
def stmtWrbuf (base : Word) (c i : Nat) (d : Rat) : HostStmt := .write .w32 (iobufAddr base c i) (rne32 d)

/-- `RDBUF c, i` (R109). -/
def stmtRdbuf (base : Word) (c i : Nat) : HostStmt := .read .w32 (iobufAddr base c i)

/-- `ISSUE m` (R109). -/
def stmtIssue (base : Word) (m : Instr) : HostStmt := stmtWrite base .cmd (encode m)

/-- `RUN m` (R110). -/
def stmtsRun (base : Word) (m : Instr) : List HostStmt := [stmtIssue base m, .wait]

/-- `CLRERR` (R110). -/
def stmtClrerr (base : Word) : HostStmt := stmtWrite base .status 0x00000004

/-- `SETUP fs, maxblk, seed` (R110). -/
def stmtsSetup (base fs maxblk seed : Word) : List HostStmt :=
  [stmtWrite base .fs fs, stmtWrite base .maxblk maxblk, stmtWrite base .seed seed] ++ stmtsRun base .revSetup

/-- `PROCESS C, n` (R110). -/
def stmtsProcess (base c n : Word) : List HostStmt :=
  [stmtWrite base .nch c, stmtWrite base .nlen n] ++ stmtsRun base .revProcess

end Sys2Proof.Machine
end

