-- ==== Sys2Proof/Machine/Run.lean ====
section
/-!
DEFINITION. What a step does: the pending REV command executes, or the host's next statement takes effect
(45_reverb_top.md R260, 20_memory.md R83, 30_encoding.md R104, R109, R110, 70_reset_and_hazards.md R330, R331).
-/

namespace Sys2Proof.Machine

/-- The pending REV command executes now: its host-observable steps are over, or the host issues nothing more (R260). -/
def State.revDue (s : State) : Bool := s.rev.busy && (s.busyLeft == 0 || s.program.isEmpty)

/-- A command word at the REV port: class REV alone is legal there (30_encoding.md R104, 10_state.md R37). -/
def runRevWord (s : State) (w : Word) : Out :=
  match decodeAt .rev w with
  | .ok i => exec i s
  | .illegal _ => .next (s.failRev .illegalCmd)

/-- The pending REV command executes as one atomic step (R260). -/
def runPending (s : State) : Out :=
  match s.rev.pending with
  | some w => runRevWord s w
  | none => .next s

/-- An illegal word at a module port: ILLEGAL_CMD and no other effect (30_encoding.md R104). -/
def State.illegalAt (s : State) : ModPort → State
  | .dl => s.failDl .illegalCmd
  | .rrs => s.failRrs .illegalCmd
  | .had => s.failHad .illegalCmd
  | .dvn => s.failDvn .illegalCmd
  | .diff => s.failDiff .illegalCmd
  | .fdn => s.failFdn .illegalCmd

/-- A command word at a module port (R104). -/
def runModuleWord (s : State) (p : ModPort) (w : Word) : Out :=
  match decodeAt p.cls w with
  | .ok i => exec i s
  | .illegal _ => .next (s.illegalAt p)

/-- Operand values put on a module port (10_state.md R31). -/
def State.setOperands (s : State) : Operands → State
  | .dl o => { s with dlIn := o }
  | .rrs o => { s with rrsIn := o }
  | .had o => { s with hadIn := o }
  | .dvn o => { s with dvnIn := o }
  | .diff o => { s with diffIn := o }
  | .fdn o => { s with fdnIn := o }

/-- The host has these statements left. -/
def State.setProgram (s : State) (p : List HostStmt) : State := { s with program := p }

/-- The host's next statement is taken, which uses up one host-observable step (R260). -/
def State.popStmt (s : State) (rest : List HostStmt) : State := { s with program := rest, busyLeft := s.busyLeft - 1 }

/-- `READ STATUS`, as `WAIT` and `CHECK` do it (30_encoding.md R109, R110). -/
def State.readStatus (s : State) : State := s.putReply (.read .okay s.rev.statusWord)

/-- A step of `WAIT`: the statement stands until BUSY reads 0 (R109). -/
def State.waitStep (s : State) : State :=
  if s.rev.busy then s.readStatus.setProgram (.wait :: s.program) else s.readStatus

/-- `CHECK`: the program stops if ERR reads 1 (R110; log 21). -/
def State.checkStep (s : State) : State :=
  if s.rev.err then { s.readStatus with program := [], stopped := true } else s.readStatus

/-- The platform's reset (70_reset_and_hazards.md R330, R331): the reset state, whatever the machine was doing. The host's
program and the model's own fields go on (log 25). -/
def State.afterReset (s : State) : State :=
  { State.reset with
    params := s.params
    program := s.program
    stopped := s.stopped
    latencies := s.latencies
    draws := s.draws
    epoch := s.epoch + 1 }

/-- One statement of the host takes effect. -/
def runStmt (s : State) : HostStmt → Out
  | .read width addr => s.busRead width addr
  | .write width addr data => s.busWrite width addr data
  | .wait => .next s.waitStep
  | .check => .next s.checkStep
  | .operands o => .next (s.setOperands o)
  | .issue p w => runModuleWord s p w
  | .reset => .next s.afterReset

/-- The host's next statement takes effect; a host with nothing left to issue leaves the block idle (60_exceptions.md
R316). -/
def runProgram (s : State) : Out :=
  match s.program with
  | [] => .next s
  | st :: rest => runStmt (s.popStmt rest) st

/-- The module port whose class is a word's CLASS; none for a REV word and for a reserved CLASS. -/
def portOfWord (w : Word) : Option ModPort :=
  match Class.ofCode (Cmd32.ofWord w).cls with
  | some .dl => some .dl
  | some .rrs => some .rrs
  | some .had => some .had
  | some .dvn => some .dvn
  | some .diff => some .diff
  | some .fdn => some .fdn
  | some .rev => none
  | none => none

/-- The state in which the next step takes the word `w` and no other: at the port of its class, with the operands that stand
there, or in flight at the REV port. One host-observable step is added where the step uses one up. -/
def State.presentWord (s : State) (w : Word) : State :=
  match portOfWord w with
  | some p => { s with program := .issue p w :: s.program, busyLeft := s.busyLeft + 1 }
  | none => { s with rev := { s.rev with pending := some w }, busyLeft := 0 }

end Sys2Proof.Machine
end

