-- ==== Sys2Proof/Machine/Step.lean ====
section
/-!
DEFINITION. One step of the machine, and the state in which the next step runs a given instruction.
-/

namespace Sys2Proof.Machine

/-- One step: the pending REV command executes if it is due, else the host's next statement takes effect
(45_reverb_top.md R260, 20_memory.md R83). -/
def step (s : State) : Host.Outcome State Fault Refusal := if s.revDue then runPending s else runProgram s

/-- `s` with the instruction whose bits are `w` (the low `nbits` of them; the rest zero) presented to the next step: no
program is fetched on this hardware (10_state.md R33; log 11). -/
def State.withFetchWord (s : State) (nbits w : Nat) : State := s.presentWord (BitVec.ofNat 32 (w % 2 ^ nbits))

end Sys2Proof.Machine
end

