-- ==== Sys2Proof/Safety.lean ====
section
/-!
DEFINITION. What counts as a good state, and what a command may change, in the terms the statements use: the ranges
10_state.md gives the fields (R45-R51), the canonical forms of rings and IOBUF, the codes that exist (60_exceptions.md R301)
and the frames of the module classes (10_state.md R52).
-/

namespace Sys2Proof.Machine

/-! ## Well-formed instances -/

/-- The ranges of a configured delay line (10_state.md R45, 00_scope.md R8): the cursor and every listed slot are inside the
ring (20_memory.md R82). -/
abbrev Dl.wf (d : Dl) : Prop :=
  d.cfg = true →
    1 ≤ d.m ∧ 1 ≤ d.maxblk ∧ d.maxblk ≤ Config.maxblkCap ∧ d.b = d.m + d.maxblk ∧ d.b ≤ Config.dlCap ∧ d.w < d.b ∧
      Ring.wf d.b d.ring

/-- A configured, well-formed delay line of maximum delay `m` and block length `maxblk`. -/
abbrev Dl.sized (d : Dl) (m maxblk : Nat) : Prop := d.cfg = true ∧ d.m = m ∧ d.maxblk = maxblk ∧ d.wf

/-- The ranges of a configured filter (R46), and its coefficients (41_rrs_filter.md R161). -/
abbrev Rrs.wf (f : Rrs) : Prop :=
  f.cfg = true →
    1 ≤ f.width ∧ epsOk f.eps = true ∧ f.a = rrsCoeffA f.eps ∧ f.c = rrsCoeffC f.a f.width ∧ f.xl.sized f.width 1 ∧
      f.yl.sized 1 1

/-- The ranges of a configured convolver (R48): one filter for each width, every pulse within the shared line. -/
abbrev Dvn.wf (d : Dvn) : Prop :=
  d.cfg = true →
    1 ≤ d.rho ∧ 1 ≤ d.fs ∧ 1 ≤ d.maxblk ∧ d.maxblk ≤ Config.maxblkCap ∧ d.p ≤ Config.pMax ∧ d.td = d.fs / d.rho ∧
      2 ≤ d.td ∧ d.td ≤ Config.tdMax ∧ d.wmin = d.td / 2 ∧ d.wmax = d.td ∧ d.nw = d.wmax - d.wmin + 1 ∧
      epsOk d.eps = true ∧ d.pulses.length = d.p ∧
      (∀ q ∈ d.pulses, d.wmin ≤ q.w ∧ q.w ≤ d.wmax ∧ q.k ≤ d.sd.m) ∧ d.sd.sized (max 1 (kmax d.pulses)) d.maxblk ∧
      d.rrs.map Rrs.width = (List.range d.nw).map (fun b => d.wmin + b) ∧
      ∀ f ∈ d.rrs, f.cfg = true ∧ f.eps = d.eps ∧ f.wf

/-- The ranges of a configured diffuser (R49). -/
abbrev Diff.wf (d : Diff) : Prop :=
  d.cfg = true →
    1 ≤ d.ch ∧ d.ch ≤ Config.diffNmax ∧ d.conv.length = d.ch ∧
      ∀ c ∈ d.conv, c.cfg = true ∧ c.maxblk = d.maxblk ∧ c.wf

/-- The ranges of a configured network (R50). -/
abbrev Fdn.wf (f : Fdn) : Prop :=
  f.cfg = true →
    isPow2 f.n = true ∧ f.n ≤ Config.fdnNmax ∧ 1 ≤ f.lb ∧ 1 ≤ f.fs ∧ 1 ≤ f.maxblk ∧ f.maxblk ≤ Config.maxblkCap ∧
      f.lines.length = f.n ∧ ∀ l ∈ f.lines, 1 ≤ l.len ∧ l.line.sized (2 * l.len) f.maxblk

/-- A configured, well-formed diffuser of REV. -/
abbrev Diff.stage (d : Diff) (maxblk : Nat) : Prop := d.cfg = true ∧ d.ch = Config.nInt ∧ d.maxblk = maxblk ∧ d.wf

/-- A configured, well-formed network of REV. -/
abbrev Fdn.stage (f : Fdn) (fs maxblk : Nat) : Prop :=
  f.cfg = true ∧ f.n = Config.nInt ∧ f.fs = fs ∧ f.maxblk = maxblk ∧ f.wf

/-- The ranges of REV (R51): the pre-delay lines are those of `Cprev` channels, there are 8 tone filters, and a successful
setup has sized every stage. -/
abbrev Rev.wf (r : Rev) : Prop :=
  r.cprev ≤ Config.cMax ∧ r.pd.length = r.cprev ∧ r.hs.length = Config.nInt ∧ r.ls.length = Config.nInt ∧
    (r.configured = false → r.cprev = 0 ∧ r.cfgFs = 0 ∧ r.cfgMaxblk = 0) ∧
    (r.configured = true →
      1 ≤ r.cfgFs.toNat ∧ r.cfgFs.toNat ≤ Config.fsMax ∧ 1 ≤ r.cfgMaxblk.toNat ∧
        r.cfgMaxblk.toNat ≤ Config.maxblkCap ∧ r.mpd = predelayMaxSamples r.cfgFs.toNat ∧
        (∀ d ∈ r.pd, d.sized r.mpd r.cfgMaxblk.toNat) ∧
        r.d1.stage r.cfgMaxblk.toNat ∧ r.f1.stage r.cfgFs.toNat r.cfgMaxblk.toNat ∧ r.d2.stage r.cfgMaxblk.toNat ∧
        r.f2.stage r.cfgFs.toNat r.cfgMaxblk.toNat ∧ r.d3.stage r.cfgMaxblk.toNat)

/-! ## Good states -/

/-- An offset of IOBUF (20_memory.md R72, R73). -/
abbrev inIobuf (a : Nat) : Prop := 0x10000 ≤ a ∧ a < 0x30000

/-- IOBUF is in canonical form and lists no offset outside it. -/
abbrev State.iobufOk (s : State) : Prop := s.iobuf.wf ∧ ∀ c ∈ s.iobuf, inIobuf c.1

/-- The codes that stand at the ports and in STATUS exist (60_exceptions.md R301), and no code stands beside `ERR = 0` in
STATUS (10_state.md R36). -/
abbrev State.codesOk (s : State) : Prop :=
  s.dlOut.err.toNat ≤ 7 ∧ s.rrsOut.err.toNat ≤ 7 ∧ s.hadOut.err.toNat ≤ 7 ∧ s.dvnOut.err.toNat ≤ 7 ∧
    s.diffOut.err.toNat ≤ 7 ∧ s.fdnOut.err.toNat ≤ 7 ∧ s.rev.errcode.toNat ≤ 7 ∧ (s.rev.err = false ↔ s.rev.errcode = 0)

/-- The stand-alone instances are in range. -/
abbrev State.modulesOk (s : State) : Prop := s.dl.wf ∧ s.rrs.wf ∧ s.dvn.wf ∧ s.diff.wf ∧ s.fdn.wf

/-- A good state: the parameters are ones the spec allows, and everything is in range and in canonical form. -/
abbrev State.good (s : State) : Prop :=
  s.params.wf = true ∧ s.modulesOk ∧ s.rev.wf ∧ s.iobufOk ∧ s.codesOk

/-! ## Frames: what a command of a class may change (10_state.md R52) -/

/-- Every byte of IOBUF reads as before. -/
def sameMemory (s t : State) : Prop := ∀ a, t.iobuf.readByte t.epoch a = s.iobuf.readByte s.epoch a

/-- Nothing but the delay line, the DL result fields and the free-value counter has changed. -/
def onlyDl (s t : State) : Prop := t = { s with dl := t.dl, dlOut := t.dlOut, draws := t.draws } ∧ sameMemory s t

/-- Nothing but the RRS filter, the RRS result fields and the free-value counter has changed. -/
def onlyRrs (s t : State) : Prop := t = { s with rrs := t.rrs, rrsOut := t.rrsOut, draws := t.draws } ∧ sameMemory s t

/-- Nothing but the HAD result fields and the free-value counter has changed. -/
def onlyHad (s t : State) : Prop := t = { s with hadOut := t.hadOut, draws := t.draws } ∧ sameMemory s t

/-- Nothing but the DVN convolver, the DVN result fields and the free-value counter has changed. -/
def onlyDvn (s t : State) : Prop := t = { s with dvn := t.dvn, dvnOut := t.dvnOut, draws := t.draws } ∧ sameMemory s t

/-- Nothing but the diffuser, the DIFF result fields and the free-value counter has changed. -/
def onlyDiff (s t : State) : Prop := t = { s with diff := t.diff, diffOut := t.diffOut, draws := t.draws } ∧ sameMemory s t

/-- Nothing but the network, the FDN result fields and the free-value counter has changed. -/
def onlyFdn (s t : State) : Prop := t = { s with fdn := t.fdn, fdnOut := t.fdnOut, draws := t.draws } ∧ sameMemory s t

/-- Nothing but REV, IOBUF, the BUSY countdown and the free-value counter has changed. -/
def onlyRev (s t : State) : Prop :=
  t = { s with rev := t.rev, iobuf := t.iobuf, busyLeft := t.busyLeft, draws := t.draws }

/-- The registers that the host alone writes, the PRNG's seed and the control values among them, are as before
(10_state.md R38-R41). -/
def sameHostRegs (r q : Rev) : Prop :=
  q.seed = r.seed ∧ q.fs = r.fs ∧ q.maxblk = r.maxblk ∧ q.nch = r.nch ∧ q.nlen = r.nlen ∧ q.mix = r.mix ∧
    q.width = r.width ∧ q.lowpass = r.lowpass ∧ q.highpass = r.highpass ∧ q.dampening = r.dampening ∧
    q.roomsize = r.roomsize ∧ q.initdelay = r.initdelay

/-- The command's class port holds this code after it (10_state.md R32); for REV it is STATUS.ERRCODE (60_exceptions.md
R300). -/
def State.portErr (s : State) : Class → Byte
  | .dl => s.dlOut.err
  | .rrs => s.rrsOut.err
  | .had => s.hadOut.err
  | .dvn => s.dvnOut.err
  | .diff => s.diffOut.err
  | .fdn => s.fdnOut.err
  | .rev => s.rev.errcode

/-- Nothing but the result fields of a class's port and the free-value counter has changed; for REV, nothing but the record
of the failure in STATUS and what the end of a command takes away (60_exceptions.md R300, R302, 45_reverb_top.md R260). -/
def onlyResults (s t : State) : Class → Prop
  | .dl => t = { s with dlOut := t.dlOut, draws := t.draws }
  | .rrs => t = { s with rrsOut := t.rrsOut, draws := t.draws }
  | .had => t = { s with hadOut := t.hadOut, draws := t.draws }
  | .dvn => t = { s with dvnOut := t.dvnOut, draws := t.draws }
  | .diff => t = { s with diffOut := t.diffOut, draws := t.draws }
  | .fdn => t = { s with fdnOut := t.fdnOut, draws := t.draws }
  | .rev =>
    t = { s with
      rev := { s.rev with err := true, errcode := t.rev.errcode, pending := none }
      busyLeft := 0
      draws := t.draws }

/-- The command fails with a code and changes nothing else (00_scope.md R15, 60_exceptions.md R300). -/
def fails (i : Instr) (s : State) (e : Err) : Prop :=
  ∃ t, exec i s = .next t ∧ t.portErr i.cls = e.code ∧ onlyResults s t i.cls ∧ sameMemory s t

/-! ## What a rule says an operation does, in the terms of the rule -/

/-- A binary32 value is finite and strictly between 0 and 1 (10_state.md R46). -/
def inUnit (x : F32) : Prop := F32.isFinite x = true ∧ 0 < F32.toRat x ∧ F32.toRat x < 1

/-- `x < y` for binary32 values: none is a NaN, and the numbers or infinities they stand for are in that order
(00_scope.md R10, R13). -/
def below (x y : F32) : Prop :=
  F32.isNaN x = false ∧ F32.isNaN y = false ∧
    (x = 0xFF800000 ∧ y ≠ 0xFF800000 ∨ y = 0x7F800000 ∧ x ≠ 0x7F800000 ∨
      F32.isFinite x = true ∧ F32.isFinite y = true ∧ F32.toRat x < F32.toRat y)

/-- `xs` is what a command reads from a vector operand of `n` samples: the samples supplied, in order (10_state.md R31). -/
def operandVec (blk : List F32) (n : Nat) (xs : List F32) : Prop :=
  xs.length = n ∧ ∀ j, j < n → j < blk.length → xs[j]? = blk[j]?

/-- `xs` is what a command reads from a multichannel operand of `chans` channels of `n` samples (R31). -/
def operandChans (blk : List (List F32)) (chans n : Nat) (xs : List (List F32)) : Prop :=
  xs.length = chans ∧ ∀ c, c < chans → ∃ b, xs[c]? = some b ∧ operandVec (blk.getD c []) n b

/-- A delay line as a successful CFG leaves it (40_delay_line.md R132, 10_state.md R60). -/
def Dl.fresh (d : Dl) (m maxblk : Nat) (g : F32) : Prop :=
  d = { cfg := true, m := m, maxblk := maxblk, b := m + maxblk, g := g, w := 0, ring := d.ring } ∧
    ∀ j, d.ring.read j = 0

/-- `e` is `d` after one write of `x` (R130, R135). -/
def Dl.wrote (d e : Dl) (x : F32) : Prop :=
  e = { d with ring := e.ring, w := (d.w + 1) % d.b } ∧ ∀ j, e.ring.read j = if j = d.w then x else d.ring.read j

/-- `e` is `d` after the writes `xs`, in order. -/
def Dl.wroteAll (d : Dl) : List F32 → Dl → Prop
  | [], e => e = d
  | x :: xs, e => ∃ d', d.wrote d' x ∧ d'.wroteAll xs e

/-- `ys` is what a block read of `n` samples at delay `tau` returns: oldest first, the newest of age `tau` (R131, R137). -/
def Dl.holds (d : Dl) (tau n : Nat) (ys : List F32) : Prop :=
  ys.length = n ∧ ∀ j, j < n → ys[j]? = some (d.at ((d.w : Int) - tau - n + j))

/-- One step of the comb form on the input `x`: the output is `y` (R136). -/
def Dl.combed (draw : Nat) (d e : Dl) (x y : F32) : Prop :=
  y = add32 draw x (mul32 draw d.g (d.at ((d.w : Int) - d.m))) ∧ d.wrote e y

/-- The comb form over a block, in order (R139). -/
def Dl.combedAll (draw : Nat) (d : Dl) : List F32 → List F32 → Dl → Prop
  | [], ys, e => ys = [] ∧ e = d
  | x :: xs, ys, e => ∃ d' y zs, ys = y :: zs ∧ d.combed draw d' x y ∧ d'.combedAll draw xs zs e

/-- One step of the recurrence on the input `x`: the output is `y` (41_rrs_filter.md R160, R164). -/
def Rrs.stepped (draw : Nat) (f g : Rrs) (x y : F32) : Prop :=
  g = { f with xl := g.xl, yl := g.yl } ∧ f.xl.wrote g.xl x ∧
    y = add32 draw (mul32 draw f.a (f.yl.at ((f.yl.w : Int) - 1)))
      (sub32 draw x (mul32 draw f.c (g.xl.at ((g.xl.w : Int) - 1 - f.width)))) ∧
    f.yl.wrote g.yl y

/-- The recurrence over a block, in order (R165). -/
def Rrs.ran (draw : Nat) (f : Rrs) : List F32 → List F32 → Rrs → Prop
  | [], ys, g => ys = [] ∧ g = f
  | x :: xs, ys, g => ∃ f' y zs, ys = y :: zs ∧ f.stepped draw f' x y ∧ f'.ran draw xs zs g

/-- A filter as a successful CFG leaves it (R161, R162). -/
def Rrs.fresh (f : Rrs) (width : Nat) (eps : F32) : Prop :=
  f.cfg = true ∧ f.width = width ∧ f.eps = eps ∧ f.a = rne32 (1 - F32.toRat eps) ∧
    f.c = rne32 (F32.toRat f.a ^ width) ∧ f.xl.fresh width 1 0 ∧ f.yl.fresh 1 1 0

/-- `out` is the fast Hadamard transform of `frame`: `v k` is the frame before the stage of distance `2^k`
(42_hadamard_mixer.md R180). -/
def mixed (draw n : Nat) (frame out : List F32) : Prop :=
  ∃ v : Nat → Nat → F32,
    (∀ j, j < n → frame[j]? = some (v 0 j)) ∧
    (∀ k j, k < Nat.log2 n → j < n →
      v (k + 1) j =
        if j / 2 ^ k % 2 = 0 then add32 draw (v k j) (v k (j + 2 ^ k)) else sub32 draw (v k (j - 2 ^ k)) (v k j)) ∧
    out.length = n ∧ ∀ j, j < n → out[j]? = some (mul32 draw (v (Nat.log2 n) j) (hadScale n))

/-- Pulse `m` of a grid spacing `td`, from its three draws (43_dvn_convolver.md R190-R192). -/
def Pulse.madeOf (q : Pulse) (td m : Nat) (u1 u2 u3 : Draw) : Prop :=
  (q.w : Int) = roundAway (drawRat u1 * ((td : Rat) - (td / 2 : Nat)) + (td / 2 : Nat)) ∧
    (q.k : Int) = roundAway ((m : Rat) * td + drawRat u2 * ((td : Rat) - q.w)) ∧
    (q.s = .plus ↔ 0x800000 ≤ u3.toNat)

/-- A convolver as a successful CFG leaves it (R190-R196). -/
def Dvn.fresh (d : Dvn) (prm : Params) (p rho fs maxblk : Nat) (eps : F32) (rnd : List Draw) : Prop :=
  d.cfg = true ∧ d.p = p ∧ d.rho = rho ∧ d.fs = fs ∧ d.maxblk = maxblk ∧ d.eps = eps ∧ d.td = fs / rho ∧
    d.wmin = fs / rho / 2 ∧ d.wmax = fs / rho ∧ d.nw = fs / rho - fs / rho / 2 + 1 ∧ d.nrm = dvnNorm prm p d.nw ∧
    d.pulses.length = p ∧
    (∀ m, m < p → ∃ q u1 u2 u3, d.pulses[m]? = some q ∧ rnd[3 * m]? = some u1 ∧ rnd[3 * m + 1]? = some u2 ∧
      rnd[3 * m + 2]? = some u3 ∧ q.madeOf (fs / rho) m u1 u2 u3) ∧
    (∃ kmax, (∀ q ∈ d.pulses, q.k ≤ kmax) ∧ (kmax = 0 ∨ ∃ q ∈ d.pulses, q.k = kmax) ∧
      d.sd.fresh (max 1 kmax) maxblk 0) ∧
    d.rrs.length = d.nw ∧ ∀ b, b < d.nw → ∃ f, d.rrs[b]? = some f ∧ f.fresh (d.wmin + b) eps

/-- Sample `j` of the scratch block of bucket `b`: the delayed samples of its pulses, in ascending index, added or
subtracted by their signs (R193, R197). -/
def Dvn.bucketSum (draw : Nat) (d : Dvn) (sd : Dl) (n b j : Nat) : F32 :=
  (d.pulses.filter (fun q => q.w = d.wmin + b)).foldl
    (fun acc q =>
      match q.s with
      | .plus => add32 draw acc (sd.at ((sd.w : Int) - q.k - n + j))
      | .minus => sub32 draw acc (sd.at ((sd.w : Int) - q.k - n + j)))
    0

/-- `e` is the convolver `d` after the block `xs` of `n` samples, and `ys` its output: `scr b` and `out b` are the scratch
block and the filter output of bucket `b`, `acc b` the accumulator before bucket `b` (R197). Without pulses the output is
`+0.0` for every factor (R196, R199; log 31). -/
def Dvn.convolved (draw : Nat) (d e : Dvn) (n : Nat) (xs ys : List F32) : Prop :=
  e = { d with sd := e.sd, rrs := e.rrs } ∧ d.sd.wroteAll xs e.sd ∧ e.rrs.length = d.nw ∧
    ∃ (scr out : Nat → List F32) (acc : Nat → Nat → F32),
      (∀ j, acc 0 j = 0) ∧
      (∀ b, b < d.nw → ∃ f g, d.rrs[b]? = some f ∧ e.rrs[b]? = some g ∧ (scr b).length = n ∧
        (∀ j, j < n → (scr b)[j]? = some (d.bucketSum draw e.sd n b j)) ∧ f.ran draw (scr b) (out b) g ∧
        ∀ j, j < n → ∃ o, (out b)[j]? = some o ∧ acc (b + 1) j = add32 draw (acc b j) o) ∧
      ys.length = n ∧ ∀ j, j < n → ys[j]? = some (if d.p = 0 then 0 else mul32 draw (acc d.nw j) d.nrm)

/-- A diffuser as a successful CFG leaves it: convolver `c` uses the draws from number `3·P·c` on (R210). -/
def Diff.fresh (d : Diff) (prm : Params) (ch p rho fs maxblk : Nat) (eps : F32) (rnd : List Draw) : Prop :=
  d.cfg = true ∧ d.ch = ch ∧ d.maxblk = maxblk ∧ d.conv.length = ch ∧
    ∀ c, c < ch → ∃ v, d.conv[c]? = some v ∧ v.fresh prm p rho fs maxblk eps (rnd.drop (3 * p * c))

/-- A convolver without pulses whose filters have seen only zeros, whatever its factor (R199). -/
def Dvn.quiet (d : Dvn) : Prop :=
  d.p = 0 ∧ d.pulses = [] ∧
    ∀ f ∈ d.rrs, F32.isFinite f.a = true ∧ F32.neg f.a = false ∧ F32.isFinite f.c = true ∧ F32.neg f.c = false ∧
      ∀ j, f.xl.ring.read j = 0 ∧ f.yl.ring.read j = 0

/-- One step of the one-pole low-pass on `x`, from the state `z` (44_fdn.md R230). -/
def onepoled (draw : Nat) (alpha z x z' : F32) : Prop := z' = add32 draw z (mul32 draw alpha (sub32 draw x z))

/-- A line of a network as a successful CFG leaves it (R233, R234, R237). -/
def FdnLine.fresh (l : FdnLine) (maxblk : Nat) : Prop := l.line.fresh (2 * l.len) maxblk 0 ∧ l.z = 0

/-- The gain a draw gives (R234). -/
def gainOf (prm : Params) (u : Draw) (g : F32) : Prop :=
  g = rne32 (prm.gainLo + drawRat u * (prm.gainHi - prm.gainLo))

/-- The length a draw gives (R233). -/
def lengthOf (prm : Params) (lb : Nat) (u : Draw) (len : Nat) : Prop :=
  (len : Int) = max 1 (roundAway ((lb : Rat) * (prm.jitLo + drawRat u * (prm.jitHi - prm.jitLo))))

/-- A network as a successful CFG leaves it: line 0 takes the first draw, line `i` the draws `2i - 1` and `2i` (R233-R237). -/
def Fdn.fresh (f : Fdn) (prm : Params) (n lb fs maxblk : Nat) (rnd : List Draw) : Prop :=
  f.cfg = true ∧ f.n = n ∧ f.lb = lb ∧ f.fs = fs ∧ f.maxblk = maxblk ∧ f.lines.length = n ∧
    (∃ l u, f.lines[0]? = some l ∧ rnd[0]? = some u ∧ l.len = line0Len prm lb ∧ gainOf prm u l.gain ∧ l.fresh maxblk) ∧
    ∀ i, 1 ≤ i → i < n → ∃ l uj ug, f.lines[i]? = some l ∧ rnd[2 * i - 1]? = some uj ∧ rnd[2 * i]? = some ug ∧
      lengthOf prm lb uj l.len ∧ gainOf prm ug l.gain ∧ l.fresh maxblk

/-- Base length `lb` and block length `mb` are within the capacity checks of FDN.CFG (R237). -/
def fdnFits (prm : Params) (lb : Int) (mb : Nat) : Prop :=
  ∀ hi l0 : Int, hi = max 1 (roundAway ((lb : Rat) * prm.jitHi)) → l0 = line0Len prm lb.toNat →
    hi ≤ 2 ^ 19 ∧ l0 ≤ 2 ^ 19 ∧ 2 * max hi l0 + mb ≤ 2 ^ 20

/-- A pulse count, a grid spacing and a block length are within the capacity checks of DVN.CFG (43_dvn_convolver.md
R195). -/
def dvnFits (p td mb : Nat) : Prop := p ≤ 4096 ∧ td ≤ 4096 ∧ mb ≤ 4096 ∧ p * td + mb ≤ 2 ^ 20

/-- `Lb[st] = round(FDN_BASE_MS[st] · fs / 1000)` (45_reverb_top.md R263, R264). -/
def setupBase (ms : Rat) (fs : Nat) : Int := roundAway (ms * fs / 1000)

/-- The grid spacings are at least 2 samples and the base lengths at least 1 (R263). -/
def setupGridsOk (p : Params) (fs : Nat) : Prop :=
  2 ≤ fs / p.diff1.rho ∧ 2 ≤ fs / p.diff2.rho ∧ 2 ≤ fs / p.diff3.rho ∧ 1 ≤ setupBase p.fdnBaseMs1 fs ∧
    1 ≤ setupBase p.fdnBaseMs2 fs

/-- The inner CFG commands pass their capacity checks (R263, R264). -/
def setupFits (p : Params) (fs mb : Nat) : Prop :=
  dvnFits p.diff1.p (fs / p.diff1.rho) mb ∧ fdnFits p (setupBase p.fdnBaseMs1 fs) mb ∧
    dvnFits p.diff2.p (fs / p.diff2.rho) mb ∧ fdnFits p (setupBase p.fdnBaseMs2 fs) mb ∧
    dvnFits p.diff3.p (fs / p.diff3.rho) mb

/-- One step of the loop on the frame `xs`: the lines `ls` become `ls'`, the output frame is `ds` (R239 (a)-(g)). -/
def fdnStepped (draw : Nat) (mode : Line0Mode) (alpha : F32) (n : Nat) (taus : List Nat) (ls ls' : List FdnLine)
    (xs ds : List F32) : Prop :=
  ls'.length = n ∧ ds.length = n ∧
    ∃ mx, mixed draw n ds mx ∧
      ∀ i, i < n → ∃ l l' x d m tau, ls[i]? = some l ∧ ls'[i]? = some l' ∧ xs[i]? = some x ∧ ds[i]? = some d ∧
        mx[i]? = some m ∧ taus[i]? = some tau ∧
        if i = 0 ∧ mode = .zero then d = 0 ∧ l' = l
        else
          d = l.line.at ((l.line.w : Int) - 1 - tau) ∧ l'.len = l.len ∧ l'.gain = l.gain ∧
            onepoled draw alpha l.z m l'.z ∧
            l.line.wrote l'.line (add32 draw (mul32 draw l'.z l.gain) x)

/-- The loop over `n` frames: `xs` and `ds` are the input and output by channel (R239). -/
def fdnRan (draw : Nat) (mode : Line0Mode) (alpha : F32) (lines n : Nat) (taus : List Nat) (ls ls' : List FdnLine)
    (xs ds : List (List F32)) : Prop :=
  ds.length = lines ∧ (∀ d ∈ ds, d.length = n) ∧
    ∃ at_ : Nat → List FdnLine, at_ 0 = ls ∧ at_ n = ls' ∧
      ∀ t, t < n → fdnStepped draw mode alpha lines taus (at_ t) (at_ (t + 1)) (xs.map (fun c => c.getD t 0))
        (ds.map (fun c => c.getD t 0))

/-- `tau` is the room-scaled delay of a line (R238). -/
def roomDelayOf (len : Nat) (room : F32) (tau : Nat) : Prop := (tau : Int) = roundAway ((len : Rat) * F32.toRat room)

/-- A delay line receives these writes, by any of the DL commands that write (DL.PROC and DL.PROCB write what they return,
R136, R139); reads may stand between (40_delay_line.md R140). The operands of each command are whatever the issuer
presents. -/
inductive DlHistory (s : State) : List F32 → State → Prop
  | start : DlHistory s [] s
  | wr {xs t u} (o : DlOperands) : DlHistory s xs t → exec .dlWr { t with dlIn := o } = .next u → u.dlOut.err = 0 →
      DlHistory s (xs ++ [o.x]) u
  | proc {xs t u} (o : DlOperands) : DlHistory s xs t → exec .dlProc { t with dlIn := o } = .next u → u.dlOut.err = 0 →
      DlHistory s (xs ++ [u.dlOut.y]) u
  | wrb {xs t u} (o : DlOperands) : DlHistory s xs t → o.wf = true → exec .dlWrb { t with dlIn := o } = .next u →
      u.dlOut.err = 0 → DlHistory s (xs ++ o.blk) u
  | procb {xs t u} (o : DlOperands) : DlHistory s xs t → exec .dlProcb { t with dlIn := o } = .next u → u.dlOut.err = 0 →
      DlHistory s (xs ++ u.dlOut.blkOut) u
  | read {xs t u} (o : DlOperands) (i : Instr) : DlHistory s xs t → i = .dlRd ∨ i = .dlRdm ∨ i = .dlRdb →
      exec i { t with dlIn := o } = .next u → DlHistory s xs u

/-- A filter takes the samples `xs`, by RRS.PROC and RRS.PROCB in any mixture, and returns `ys` for them
(41_rrs_filter.md R164, R165). -/
inductive RrsHistory (s : State) : List F32 → List F32 → State → Prop
  | start : RrsHistory s [] [] s
  | proc {xs ys t u} (o : RrsOperands) : RrsHistory s xs ys t → exec .rrsProc { t with rrsIn := o } = .next u →
      u.rrsOut.err = 0 → RrsHistory s (xs ++ [o.x]) (ys ++ [u.rrsOut.y]) u
  | procb {xs ys t u} (o : RrsOperands) : RrsHistory s xs ys t → o.wf = true →
      exec .rrsProcb { t with rrsIn := o } = .next u → u.rrsOut.err = 0 →
      RrsHistory s (xs ++ o.blk) (ys ++ u.rrsOut.blkOut) u

/-- The word `IOBUF[c][i]` as it stands (20_memory.md R73). -/
def State.iobufWord (s : State) (c i : Nat) : F32 := s.iobuf.readWord s.epoch (iobufOffset c i)

/-- An offset is in a word `IOBUF[c][i]` with `c < chans` and `i < n` (R81). -/
def inBlock (chans n a : Nat) : Prop := ∃ c i, c < chans ∧ i < n ∧ iobufOffset c i ≤ a ∧ a < iobufOffset c i + 4

/-- The intermediate blocks of one REV.PROCESS, by channel: after the tone filters, after the pre-delay, and after each of
the five stages (45_reverb_top.md R265). -/
structure RevBlock where
  tone : List (List F32)
  pre : List (List F32)
  b1 : List (List F32)
  b2 : List (List F32)
  b3 : List (List F32)
  b4 : List (List F32)
  b5 : List (List F32)
  deriving DecidableEq, Repr

/-- Step (4) of channel `c`: the high-pass and then the low-pass, in sample order (R268, R270). -/
def RevBlock.toneOk (k : RevBlock) (s t : State) (c : Nat) : Prop :=
  ∃ (h l : Nat → F32) (ys : List F32), k.tone[c]? = some ys ∧ ys.length = s.rev.nlen.toNat ∧
    s.rev.hs[c]? = some (h 0) ∧ s.rev.ls[c]? = some (l 0) ∧
    t.rev.hs[c]? = some (h s.rev.nlen.toNat) ∧ t.rev.ls[c]? = some (l s.rev.nlen.toNat) ∧
    ∀ i, i < s.rev.nlen.toNat →
      onepoled s.draws (onepoleAlpha s.params (clamp s.rev.highpass 0x41A00000 0x469C4000) s.rev.cfgFs.toNat) (h i)
        (s.iobufWord c i) (h (i + 1)) ∧
      onepoled s.draws (onepoleAlpha s.params (clamp s.rev.lowpass 0x41A00000 0x469C4000) s.rev.cfgFs.toNat) (l i)
        (sub32 s.draws (s.iobufWord c i) (h (i + 1))) (l (i + 1)) ∧
      ys[i]? = some (l (i + 1))

/-- Steps (1) and (5) of channel `c`: its line, rebuilt if the channel count has changed, takes the block and is read at the
pre-delay (R267, R271). -/
def RevBlock.preOk (k : RevBlock) (s t : State) (c : Nat) : Prop :=
  ∃ d e xs ys tau, k.tone[c]? = some xs ∧ k.pre[c]? = some ys ∧ t.rev.pd[c]? = some e ∧
    (if s.rev.nch.toNat = s.rev.cprev then s.rev.pd[c]? = some d else d.fresh s.rev.mpd s.rev.cfgMaxblk.toNat 0) ∧
    d.wroteAll xs e ∧ ((tau : Nat) : Int) = roundAway (F32.toRat (clamp s.rev.initdelay 0 0x3DCCCCCD) * s.rev.cfgFs.toNat) ∧
    e.holds tau s.rev.nlen.toNat ys

/-- A diffuser stage, as the command DIFF.PROCB on its state (R273). -/
def diffStage (s : State) (d e : Diff) (xs ys : List (List F32)) : Prop :=
  ∃ u, exec .diffProcb { s with diff := d, diffIn := { s.diffIn with n := s.rev.nlen, blk := xs } } = .next u ∧
    u.diffOut.err = 0 ∧ u.diff = e ∧ u.diffOut.blkOut = ys

/-- A network stage, as the command FDN.PROCB on its state with the clamped controls (R266, R273). -/
def fdnStage (s : State) (f g : Fdn) (xs ys : List (List F32)) : Prop :=
  ∃ u, exec .fdnProcb
      { s with
        fdn := f
        fdnIn := { s.fdnIn with
          n := s.rev.nlen
          blk := xs
          damp := clamp s.rev.dampening 0x41A00000 0x469C4000
          room := clamp s.rev.roomsize 0x3DCCCCCD 0x40000000 } } = .next u ∧
    u.fdnOut.err = 0 ∧ u.fdn = g ∧ u.fdnOut.blkOut = ys

/-- Steps (6) and (7): the last host channel is copied into the channels up to 8, and the five stages follow (R272,
R273). -/
def RevBlock.chainOk (k : RevBlock) (s t : State) : Prop :=
  (∃ xs, xs.length = 8 ∧ (∀ c, c < 8 → xs[c]? = k.pre[min c (s.rev.nch.toNat - 1)]?) ∧
    diffStage s s.rev.d1 t.rev.d1 xs k.b1) ∧
    fdnStage s s.rev.f1 t.rev.f1 k.b1 k.b2 ∧ diffStage s s.rev.d2 t.rev.d2 k.b2 k.b3 ∧
    fdnStage s s.rev.f2 t.rev.f2 k.b3 k.b4 ∧ diffStage s s.rev.d3 t.rev.d3 k.b4 k.b5

/-- The blend of step (9) (R275). -/
def blended (draw : Nat) (mix dry wet : F32) : F32 :=
  add32 draw (mul32 draw dry (sub32 draw 0x3F800000 mix)) (mul32 draw wet mix)

/-- Steps (8) and (9) of sample `i` of channel `c`: the stereo width for two channels, and the blend for the first two
(R269, R274, R275). -/
def RevBlock.outOk (k : RevBlock) (s t : State) (c i : Nat) : Prop :=
  ∃ (b w : F32) (bs : List F32), k.b5[c]? = some bs ∧ bs[i]? = some b ∧
    (if s.rev.nch.toNat = 2 then
      ∃ ls rs l r m d, k.b5[0]? = some ls ∧ k.b5[1]? = some rs ∧ ls[i]? = some l ∧ rs[i]? = some r ∧
        m = mul32 s.draws (add32 s.draws l r) 0x3F000000 ∧
        d = mul32 s.draws (mul32 s.draws (sub32 s.draws l r) 0x3F000000) (clamp s.rev.width 0 0x40000000) ∧
        w = if c = 0 then add32 s.draws m d else sub32 s.draws m d
      else w = b) ∧
    t.iobufWord c i =
      if c < 2 then blended s.draws (clamp s.rev.mix 0 0x3F800000) (s.iobufWord c i) w else w

/-! ## The host's statements -/

/-- The host's statement `st`, when it is next, has the effect `f` on the state it finds, and the host sees some bus
reply. -/
def hostEffect (s : State) (st : HostStmt) (f : State → State) : Prop :=
  ∀ rest, s.program = st :: rest →
    ∃ r, step s = .next { f { s with program := rest, busyLeft := s.busyLeft - 1 } with reply := r }

/-- The host's statement `st`, when it is next, has no effect but that the host sees the reply `r`. -/
def hostSees (s : State) (st : HostStmt) (r : Reply) : Prop :=
  ∀ rest, s.program = st :: rest →
    step s = .next { s with program := rest, busyLeft := s.busyLeft - 1, reply := r }

/-- The bus address of an offset in the window of the block (20_memory.md R71). -/
def State.busAddr (s : State) (off : Nat) : Word := s.params.revBase + BitVec.ofNat 32 off

/-- A 32-bit read at an offset returns a word and does nothing else (R78). -/
def readsAs (s : State) (off : Nat) (v : Word) : Prop := hostSees s (.read .w32 (s.busAddr off)) (.read .okay v)

/-- A 32-bit write of `v` at an offset has this effect and no other (R78). -/
def writeDoes (s : State) (off : Nat) (v : Word) (f : State → State) : Prop :=
  hostEffect s (.write .w32 (s.busAddr off) v) f

/-- The offsets of the registers that are read-only (10_state.md R35), and the reserved offsets (R43). -/
def readOnlyOffset (off : Nat) : Prop :=
  off = 0x000 ∨ off = 0x004 ∨ off = 0x040 ∨ off = 0x044 ∨ off = 0x048 ∨ 0x04C ≤ off ∧ off < 0x10000 ∧ off % 4 = 0

/-- The offsets of the registers that store what is written (R35, R44). -/
def storingOffset (off : Nat) : Prop := 0x010 ≤ off ∧ off ≤ 0x03C ∧ off % 4 = 0

/-- The aligned offsets of IOBUF (20_memory.md R72). -/
def iobufOffsetOk (off : Nat) : Prop := 0x10000 ≤ off ∧ off < 0x30000 ∧ off % 4 = 0

/-- The registers at the reset values of 10_state.md R35, and REV unconfigured (R58). -/
def Rev.atReset (r : Rev) : Prop :=
  r.err = false ∧ r.errcode = 0 ∧ r.configured = false ∧ r.pending = none ∧ r.seed = 0x00000001 ∧ r.fs = 0x0000BB80 ∧
    r.maxblk = 0x00000200 ∧ r.nch = 0x00000002 ∧ r.nlen = 0x00000000 ∧ r.mix = 0x3F000000 ∧ r.width = 0x3F800000 ∧
    r.lowpass = 0x469C4000 ∧ r.highpass = 0x41A00000 ∧ r.dampening = 0x459C4000 ∧ r.roomsize = 0x3F800000 ∧
    r.initdelay = 0x00000000 ∧ r.cfgFs = 0 ∧ r.cfgMaxblk = 0 ∧ r.cprev = 0

/-- The errors a command may raise (60_exceptions.md R301, R305). -/
def raises : Instr → List Err
  | .dlCfg | .rrsCfg | .dvnCfg | .diffCfg | .revSetup => [.invalidArg, .capacity]
  | .dlRd | .dlRdb | .dlWrb | .dlProcb | .rrsProcb | .dvnProcb | .dvnPulse | .diffProcb | .fdnProcb =>
    [.notConfigured, .bounds]
  | .dlRdm | .dlWr | .dlProc | .rrsProc => [.notConfigured]
  | .rrsSeteps => [.notConfigured, .invalidArg]
  | .hadMix => [.notPow2, .capacity]
  | .fdnCfg => [.invalidArg, .notPow2, .capacity]
  | .revNop => []
  | .revProcess => [.notConfigured, .invalidArg, .bounds]

end Sys2Proof.Machine
end

