-- ==== Sys2Proof/Certificates/Slice0/Obligations.lean ====
section
/-!
DEFINITION. The statements for the provers. Each says which rules of the spec it formalises; the vocabulary is that of
Sys2Proof/Safety.lean. `s.draws` numbers the command for the free NaN an operation may give (log 7); nothing here rests on
the value of a free value.
-/

section

open Sys2Proof Sys2Proof.Machine

/-! ## Encoding and the step -/

/-- R103: the word of each of the 23 commands, at the port of its class. -/
def Obligations.TableWordsDecode : Prop :=
  decodeAt .dl 0x10000000 = .ok .dlCfg ∧ decodeAt .dl 0x11000000 = .ok .dlRd ∧ decodeAt .dl 0x12000000 = .ok .dlRdm ∧
  decodeAt .dl 0x13000000 = .ok .dlWr ∧ decodeAt .dl 0x14000000 = .ok .dlProc ∧ decodeAt .dl 0x15000000 = .ok .dlRdb ∧
  decodeAt .dl 0x16000000 = .ok .dlWrb ∧ decodeAt .dl 0x17000000 = .ok .dlProcb ∧
  decodeAt .rrs 0x20000000 = .ok .rrsCfg ∧ decodeAt .rrs 0x21000000 = .ok .rrsSeteps ∧
  decodeAt .rrs 0x22000000 = .ok .rrsProc ∧ decodeAt .rrs 0x23000000 = .ok .rrsProcb ∧
  decodeAt .had 0x30000000 = .ok .hadMix ∧ decodeAt .dvn 0x40000000 = .ok .dvnCfg ∧
  decodeAt .dvn 0x41000000 = .ok .dvnProcb ∧ decodeAt .dvn 0x42000000 = .ok .dvnPulse ∧
  decodeAt .diff 0x50000000 = .ok .diffCfg ∧ decodeAt .diff 0x51000000 = .ok .diffProcb ∧
  decodeAt .fdn 0x60000000 = .ok .fdnCfg ∧ decodeAt .fdn 0x61000000 = .ok .fdnProcb ∧
  decodeAt .rev 0x70000000 = .ok .revNop ∧ decodeAt .rev 0x71000000 = .ok .revSetup ∧
  decodeAt .rev 0x72000000 = .ok .revProcess

/-- R103, R104, R105: decoding what the encoder writes gives the command back; at a port exactly the words of its class are
legal, each of the 23 words at one port only; a word is rejected for RES0 first, then CLASS, then OP. -/
def Obligations.LegalWordsAreExactlyTheTable : Prop :=
  (∀ c w i, decodeAt c w = .ok i ↔ i.cls = c ∧ w = encode i) ∧
  (∀ w i, decode w = .ok i ↔ w = encode i) ∧
  (∀ c (w : Word),
    (w.toNat % 2 ^ 24 ≠ 0 → ∃ r, decodeAt c w = .illegal (.reservedBits r)) ∧
    (w.toNat % 2 ^ 24 = 0 → w.toNat / 2 ^ 28 ≠ c.code.toNat → ∃ k, decodeAt c w = .illegal (.wrongClass k)) ∧
    (w.toNat % 2 ^ 24 = 0 → w.toNat / 2 ^ 28 = c.code.toNat → Cmd32.opsOfClass c.code ≤ w.toNat / 2 ^ 24 % 16 →
      ∃ k o, decodeAt c w = .illegal (.unassignedOp k o)))

/-- R104, R260: a word that is legal at no command of the port fails with ILLEGAL_CMD and has no other effect, at a module
port and at CMD. -/
def Obligations.IllegalWordsOnlyReport : Prop :=
  (∀ (s : State) (p : ModPort) (w : Word) (rest : List HostStmt), s.revDue = false → s.program = .issue p w :: rest → (∀ i : Instr, i.cls = p.cls → w ≠ encode i) →
    ∃ t, step s = .next t ∧ t.portErr p.cls = 6 ∧
      onlyResults { s with program := rest, busyLeft := s.busyLeft - 1 } t p.cls ∧ sameMemory s t) ∧
  (∀ (s : State) (w : Word), s.rev.pending = some w → s.busyLeft = 0 ∨ s.program = [] → (∀ i : Instr, i.cls = .rev → w ≠ encode i) →
    ∃ t, step s = .next t ∧ t.rev.errcode = 6 ∧ onlyResults s t .rev ∧ sameMemory s t)

/-- A step runs the command that is presented (R104, R260). The first clause is a command presented at a module port. The
others rest on the model's own choices, which R104 and R260 leave open: the second on the order and the schedule by which a
command in flight at REV runs (logs 10 and 23: when its countdown is at zero, or at once where the host has nothing left to
issue), the last two on `withFetchWord`, the model's load of a word from outside (log 11). -/
def Obligations.StepRunsThePresentedCommand : Prop :=
  (∀ (s : State) (p : ModPort) (rest : List HostStmt) (i : Instr), s.revDue = false → s.program = .issue p (encode i) :: rest → i.cls = p.cls →
    step s = exec i { s with program := rest, busyLeft := s.busyLeft - 1 }) ∧
  (∀ (s : State) (i : Instr), s.rev.pending = some (encode i) → i.cls = .rev → s.busyLeft = 0 ∨ s.program = [] → step s = exec i s) ∧
  (∀ (s : State) (i : Instr), i.cls ≠ .rev → step (s.withFetchWord 32 (encode i).toNat) = exec i s) ∧
  (∀ (s : State) (i : Instr), i.cls = .rev →
    step (s.withFetchWord 32 (encode i).toNat) =
      exec i { s with rev := { s.rev with pending := some (encode i) }, busyLeft := 0 })

/-- R301, R305: every command but the six CFG-like ones, HAD.MIX and REV.NOP fails with NOT_CONFIGURED on an instance that
no CFG has built, whatever its operands. -/
def Obligations.UnconfiguredCommandsFail : Prop :=
  (∀ (s : State) (i : Instr), s.dl.cfg = false → i.cls = .dl → i ≠ .dlCfg → fails i s .notConfigured) ∧
  (∀ (s : State) (i : Instr), s.rrs.cfg = false → i.cls = .rrs → i ≠ .rrsCfg → fails i s .notConfigured) ∧
  (∀ (s : State) (i : Instr), s.dvn.cfg = false → i.cls = .dvn → i ≠ .dvnCfg → fails i s .notConfigured) ∧
  (∀ (s : State) (i : Instr), s.diff.cfg = false → i.cls = .diff → i ≠ .diffCfg → fails i s .notConfigured) ∧
  (∀ (s : State) (i : Instr), s.fdn.cfg = false → i.cls = .fdn → i ≠ .fdnCfg → fails i s .notConfigured) ∧
  (∀ s : State, s.rev.configured = false → fails .revProcess s .notConfigured)

/-! ## DL -/

/-- R132: DL.CFG. -/
def Obligations.DlCfgBuildsTheLine : Prop :=
  ∀ s : State,
    (s.dlIn.m = 0 ∨ s.dlIn.maxblk = 0 → fails .dlCfg s .invalidArg) ∧
    (s.dlIn.m ≠ 0 → s.dlIn.maxblk ≠ 0 → 4096 < s.dlIn.maxblk.toNat ∨ 2 ^ 20 < s.dlIn.m.toNat + s.dlIn.maxblk.toNat →
      fails .dlCfg s .capacity) ∧
    (s.dlIn.m ≠ 0 → s.dlIn.maxblk ≠ 0 → s.dlIn.maxblk.toNat ≤ 4096 → s.dlIn.m.toNat + s.dlIn.maxblk.toNat ≤ 2 ^ 20 →
      ∃ t, exec .dlCfg s = .next t ∧ onlyDl s t ∧ t.dlOut.err = 0 ∧
        t.dl.fresh s.dlIn.m.toNat s.dlIn.maxblk.toNat (s.dlIn.g.getD 0x00000000))

/-- R133, R134: DL.RD returns the word of age `TAU`, DL.RDM the word of age `M`; neither changes the line. -/
def Obligations.DlReadsReturnTheAgedSample : Prop :=
  ∀ s : State, s.dl.cfg = true →
    (s.dl.m < s.dlIn.tau.toNat → fails .dlRd s .bounds) ∧
    (s.dlIn.tau.toNat ≤ s.dl.m →
      ∃ t, exec .dlRd s = .next t ∧ onlyDl s t ∧ t.dl = s.dl ∧ t.dlOut.err = 0 ∧
        t.dlOut.y = s.dl.ring.read (((s.dl.w : Int) - 1 - s.dlIn.tau.toNat) % s.dl.b).toNat) ∧
    (∃ t, exec .dlRdm s = .next t ∧ onlyDl s t ∧ t.dl = s.dl ∧ t.dlOut.err = 0 ∧
      t.dlOut.y = s.dl.ring.read (((s.dl.w : Int) - 1 - s.dl.m) % s.dl.b).toNat)

/-- R135: DL.WR fills slot `w` and advances the cursor. -/
def Obligations.DlWrFillsTheCursorSlot : Prop :=
  ∀ s : State, s.dl.cfg = true →
    ∃ t, exec .dlWr s = .next t ∧ onlyDl s t ∧ t.dlOut.err = 0 ∧
      t.dl = { s.dl with ring := t.dl.ring, w := (s.dl.w + 1) % s.dl.b } ∧
      ∀ j, t.dl.ring.read j = if j = s.dl.w then s.dlIn.x else s.dl.ring.read j

/-- R136: DL.PROC returns and stores `x + g · ring[(w - M) mod B]`. -/
def Obligations.DlProcIsTheComb : Prop :=
  ∀ s : State, s.dl.cfg = true →
    ∃ t, exec .dlProc s = .next t ∧ onlyDl s t ∧ t.dlOut.err = 0 ∧
      t.dlOut.y =
        add32 s.draws s.dlIn.x
          (mul32 s.draws s.dl.g (s.dl.ring.read (((s.dl.w : Int) - s.dl.m) % s.dl.b).toNat)) ∧
      t.dl = { s.dl with ring := t.dl.ring, w := (s.dl.w + 1) % s.dl.b } ∧
      ∀ j, t.dl.ring.read j = if j = s.dl.w then t.dlOut.y else s.dl.ring.read j

/-- R137: DL.RDB. -/
def Obligations.DlRdbReturnsTheSpan : Prop :=
  ∀ s : State, s.dl.cfg = true → s.dl.wf →
    (s.dl.m < s.dlIn.tau.toNat ∨ s.dl.maxblk < s.dlIn.n.toNat → fails .dlRdb s .bounds) ∧
    (s.dlIn.tau.toNat ≤ s.dl.m → s.dlIn.n.toNat ≤ s.dl.maxblk →
      ∃ t, exec .dlRdb s = .next t ∧ onlyDl s t ∧ t.dl = s.dl ∧ t.dlOut.err = 0 ∧
        t.dlOut.blkOut.length = s.dlIn.n.toNat ∧
        ∀ j : Nat, j < s.dlIn.n.toNat →
          t.dlOut.blkOut[j]? =
            some (s.dl.ring.read
              ((((s.dl.w : Int) - s.dlIn.tau.toNat - s.dlIn.n.toNat) % s.dl.b + j) % s.dl.b).toNat))

/-- R138: DL.WRB fills the slots from the cursor on and advances the cursor by `N`; every other slot keeps its word. -/
def Obligations.DlWrbFillsTheBlock : Prop :=
  ∀ s : State, s.dl.cfg = true → s.dl.wf →
    (s.dl.maxblk < s.dlIn.n.toNat → fails .dlWrb s .bounds) ∧
    (s.dlIn.n.toNat ≤ s.dl.maxblk →
      ∃ t xs, operandVec s.dlIn.blk s.dlIn.n.toNat xs ∧ exec .dlWrb s = .next t ∧ onlyDl s t ∧ t.dlOut.err = 0 ∧
        t.dl = { s.dl with ring := t.dl.ring, w := (s.dl.w + s.dlIn.n.toNat) % s.dl.b } ∧
        (∀ j x, xs[j]? = some x → t.dl.ring.read ((s.dl.w + j) % s.dl.b) = x) ∧
        ∀ k, k < s.dl.b → (∀ j, j < s.dlIn.n.toNat → k ≠ (s.dl.w + j) % s.dl.b) →
          t.dl.ring.read k = s.dl.ring.read k)

/-- R139: DL.PROCB is the comb form on each sample of the block, in order. -/
def Obligations.DlProcbCombsInOrder : Prop :=
  ∀ s : State, s.dl.cfg = true →
    (s.dl.maxblk < s.dlIn.n.toNat → fails .dlProcb s .bounds) ∧
    (s.dlIn.n.toNat ≤ s.dl.maxblk →
      ∃ t xs, operandVec s.dlIn.blk s.dlIn.n.toNat xs ∧ exec .dlProcb s = .next t ∧ onlyDl s t ∧ t.dlOut.err = 0 ∧
        s.dl.combedAll s.draws xs t.dlOut.blkOut t.dl)

/-- From R140, the round-trip law, for writes by DL.WR, DL.PROC, DL.WRB and DL.PROCB: on any configured line a read within
the writes returns the sample written `TAU` steps before the last, and right after a DL.CFG a read beyond them returns
`+0.0`. -/
def Obligations.RoundTripLaw : Prop :=
  (∀ (s t : State) (xs : List F32) (tau : Word), s.dl.cfg = true → s.dl.wf → DlHistory s xs t →
    tau.toNat ≤ t.dl.m → tau.toNat < xs.length →
    ∃ u, exec .dlRd { t with dlIn := { t.dlIn with tau := tau } } = .next u ∧ u.dlOut.err = 0 ∧
      xs[xs.length - 1 - tau.toNat]? = some u.dlOut.y) ∧
  ∀ (s s0 t : State) (xs : List F32) (tau : Word), exec .dlCfg s = .next s0 → s0.dlOut.err = 0 → DlHistory s0 xs t →
    tau.toNat ≤ t.dl.m → xs.length ≤ tau.toNat →
    ∃ u, exec .dlRd { t with dlIn := { t.dlIn with tau := tau } } = .next u ∧ u.dlOut.err = 0 ∧ u.dlOut.y = 0x00000000

/-- R141: the block law. -/
def Obligations.BlockLaw : Prop :=
  ∀ s : State, s.dl.cfg = true → s.dl.wf → s.dlIn.wf = true → s.dlIn.n.toNat ≤ s.dl.maxblk →
    ∃ t u, exec .dlWrb s = .next t ∧ t.dlOut.err = 0 ∧
      exec .dlRdb { t with dlIn := { t.dlIn with tau := 0 } } = .next u ∧ u.dlOut.err = 0 ∧
      u.dlOut.blkOut = s.dlIn.blk

/-! ## RRS -/

/-- R161, R162: RRS.CFG and the coefficients. -/
def Obligations.RrsCfgBuildsTheFilter : Prop :=
  ∀ (s : State) (eps : F32), eps = s.rrsIn.eps.getD 0x39800000 →
    (s.rrsIn.w = 0 → fails .rrsCfg s .invalidArg) ∧
    (s.rrsIn.w ≠ 0 → ¬ inUnit eps → fails .rrsCfg s .invalidArg) ∧
    (s.rrsIn.w ≠ 0 → inUnit eps → 2 ^ 20 < s.rrsIn.w.toNat + 1 → fails .rrsCfg s .capacity) ∧
    (s.rrsIn.w ≠ 0 → inUnit eps → s.rrsIn.w.toNat + 1 ≤ 2 ^ 20 →
      ∃ t, exec .rrsCfg s = .next t ∧ onlyRrs s t ∧ t.rrsOut.err = 0 ∧ t.rrs.fresh s.rrsIn.w.toNat eps)

/-- R163: RRS.SETEPS changes the leakage and the coefficients and keeps the history. An omitted `EPS`, which R163 does not
give a value, is the free value of log 15. -/
def Obligations.RrsSetepsKeepsTheHistory : Prop :=
  ∀ (s : State) (eps : F32), s.rrs.cfg = true → eps = s.rrsIn.eps.getD (Config.freeOperand s.draws 0 0) →
    (¬ inUnit eps → fails .rrsSeteps s .invalidArg) ∧
    (inUnit eps →
      ∃ t, exec .rrsSeteps s = .next t ∧ onlyRrs s t ∧ t.rrsOut.err = 0 ∧
        t.rrs = { s.rrs with eps := eps, a := t.rrs.a, c := t.rrs.c } ∧
        t.rrs.a = rne32 (1 - F32.toRat eps) ∧ t.rrs.c = rne32 (F32.toRat t.rrs.a ^ s.rrs.width))

/-- R160, R164: RRS.PROC is one step of the recurrence. -/
def Obligations.RrsProcIsTheRecurrence : Prop :=
  ∀ s : State, s.rrs.cfg = true →
    ∃ t, exec .rrsProc s = .next t ∧ onlyRrs s t ∧ t.rrsOut.err = 0 ∧
      s.rrs.stepped s.draws t.rrs s.rrsIn.x t.rrsOut.y

/-- R165: RRS.PROCB is the recurrence on each sample of the block, in order. -/
def Obligations.RrsProcbRecursInOrder : Prop :=
  ∀ s : State, s.rrs.cfg = true →
    (4096 < s.rrsIn.n.toNat → fails .rrsProcb s .bounds) ∧
    (s.rrsIn.n.toNat ≤ 4096 →
      ∃ t xs, operandVec s.rrsIn.blk s.rrsIn.n.toNat xs ∧ exec .rrsProcb s = .next t ∧ onlyRrs s t ∧
        t.rrsOut.err = 0 ∧ s.rrs.ran s.draws xs t.rrsOut.blkOut t.rrs)

/-- From R166: the impulse response of a filter of width `W`, fed by RRS.PROC and RRS.PROCB in any mixture: 1.0, the decay
up to sample `W`, the residual at sample `W`, and the decay after it. All values are finite, so that the number `d` of the
command, which only chooses a NaN, does not matter. After sample `W` a negative residual may underflow to `-0.0`, which the
addition of `+0.0` in R164 makes `+0.0`. -/
def Obligations.ImpulseResponseIsAPulse : Prop :=
  ∀ (s t : State) (width k : Nat) (eps : F32) (ys : List F32), 1 ≤ width → inUnit eps → s.rrs.fresh width eps →
    RrsHistory s (0x3F800000 :: List.replicate k 0x00000000) ys t →
      ys.length = k + 1 ∧ ys[0]? = some 0x3F800000 ∧
      ∀ (d n : Nat) (y : F32), 1 ≤ n → n ≤ k → ys[n - 1]? = some y →
        ys[n]? = some
          (if n < width then mul32 d s.rrs.a y
          else if n = width then add32 d (mul32 d s.rrs.a y) (sub32 d 0x00000000 s.rrs.c)
          else if mul32 d s.rrs.a y = 0x80000000 then 0x00000000 else mul32 d s.rrs.a y)

/-! ## HAD -/

/-- R180: HAD.MIX. -/
def Obligations.HadMixTransformsTheFrame : Prop :=
  ∀ s : State,
    (s.hadIn.n = 0 ∨ s.hadIn.n &&& (s.hadIn.n - 1) ≠ 0 → fails .hadMix s .notPow2) ∧
    (s.hadIn.n ≠ 0 → s.hadIn.n &&& (s.hadIn.n - 1) = 0 → 64 < s.hadIn.n.toNat → fails .hadMix s .capacity) ∧
    (s.hadIn.n ≠ 0 → s.hadIn.n &&& (s.hadIn.n - 1) = 0 → s.hadIn.n.toNat ≤ 64 →
      ∃ t frame, operandVec s.hadIn.frame s.hadIn.n.toNat frame ∧ exec .hadMix s = .next t ∧ onlyHad s t ∧
        t.hadOut.err = 0 ∧ mixed s.draws s.hadIn.n.toNat frame t.hadOut.frameOut)

/-- R182: the scale of a frame of `N` samples is the binary32 value nearest to `1/√N`; the table of the frame sizes a
command accepts. -/
def Obligations.HadScalesAreTheRoundedRoots : Prop :=
  (∀ k, k ≤ 6 → F32.isFinite (hadScale (2 ^ k)) = true ∧
    ∀ y, F32.isFinite y = true →
      |(F32.toRat (hadScale (2 ^ k)) : ℝ) - 1 / √(2 ^ k)| ≤ |(F32.toRat y : ℝ) - 1 / √(2 ^ k)|) ∧
  hadScale 1 = 0x3F800000 ∧ hadScale 2 = 0x3F3504F3 ∧ hadScale 4 = 0x3F000000 ∧ hadScale 8 = 0x3EB504F3 ∧
  hadScale 16 = 0x3E800000 ∧ hadScale 32 = 0x3E3504F3 ∧ hadScale 64 = 0x3E000000

/-- From R181: with exact operations the butterflies are the Sylvester Hadamard matrix in natural order, and applying them
twice multiplies by `N`. -/
def Obligations.ButterfliesAreTheSylvesterMatrix : Prop :=
  ∀ (k : Nat) (v : List Int), v.length = 2 ^ k →
    (∀ i, i < 2 ^ k →
      (butterflies (· + ·) (· - ·) (2 ^ k) k 1 v)[i]? =
        some ((List.range (2 ^ k)).map (fun j => (-1) ^ (Nat.bits (i &&& j)).count true * v.getD j 0)).sum) ∧
    butterflies (· + ·) (· - ·) (2 ^ k) k 1 (butterflies (· + ·) (· - ·) (2 ^ k) k 1 v) = v.map (fun x => 2 ^ k * x)

/-! ## DVN and DIFF -/

/-- R190-R196: DVN.CFG. -/
def Obligations.DvnCfgBuildsTheConvolver : Prop :=
  ∀ (s : State) (eps : F32) (td : Nat), eps = s.dvnIn.eps.getD 0x39800000 →
    td = s.dvnIn.fs.toNat / s.dvnIn.rho.toNat →
    (s.dvnIn.rho = 0 ∨ s.dvnIn.fs = 0 ∨ s.dvnIn.maxblk = 0 ∨ ¬ inUnit eps ∨ td < 2 ∨
        s.dvnIn.rnd.length < 3 * s.dvnIn.p.toNat → fails .dvnCfg s .invalidArg) ∧
    (s.dvnIn.rho ≠ 0 → s.dvnIn.maxblk ≠ 0 → inUnit eps → 2 ≤ td → 3 * s.dvnIn.p.toNat ≤ s.dvnIn.rnd.length →
      ¬ dvnFits s.dvnIn.p.toNat td s.dvnIn.maxblk.toNat → fails .dvnCfg s .capacity) ∧
    (s.dvnIn.rho ≠ 0 → s.dvnIn.maxblk ≠ 0 → inUnit eps → 2 ≤ td → 3 * s.dvnIn.p.toNat ≤ s.dvnIn.rnd.length →
      dvnFits s.dvnIn.p.toNat td s.dvnIn.maxblk.toNat →
      ∃ t, exec .dvnCfg s = .next t ∧ onlyDvn s t ∧ t.dvnOut.err = 0 ∧
        t.dvn.fresh s.params s.dvnIn.p.toNat s.dvnIn.rho.toNat s.dvnIn.fs.toNat s.dvnIn.maxblk.toNat eps s.dvnIn.rnd)

/-- From R191, R192: whatever the draws, a pulse lies in its own grid cell and its width is one of the bank's. -/
def Obligations.PulsesStayInTheirCells : Prop :=
  ∀ (td m : Nat) (u1 u2 u3 : Draw) (q : Pulse), 2 ≤ td → q.madeOf td m u1 u2 u3 →
    td / 2 ≤ q.w ∧ q.w ≤ td ∧ m * td ≤ q.k ∧ q.k ≤ m * td + td - q.w ∧ q.k < (m + 1) * td

/-- From R193, R197: DVN.PROCB. For `P = 0` the output is `+0.0` whatever the factor (R196, R199): that these two rules win
where R197's product of the accumulated sample and the factor would be `-0.0` or a NaN is the model's reading (log 31). -/
def Obligations.DvnProcbConvolves : Prop :=
  ∀ s : State, s.dvn.cfg = true →
    (s.dvn.maxblk < s.dvnIn.n.toNat → fails .dvnProcb s .bounds) ∧
    (s.dvn.wf → s.dvnIn.n.toNat ≤ s.dvn.maxblk →
      ∃ t xs, operandVec s.dvnIn.blk s.dvnIn.n.toNat xs ∧ exec .dvnProcb s = .next t ∧ onlyDvn s t ∧
        t.dvnOut.err = 0 ∧ s.dvn.convolved s.draws t.dvn s.dvnIn.n.toNat xs t.dvnOut.blkOut)

/-- R198: DVN.PULSE reads a pulse back. -/
def Obligations.DvnPulseReadsBack : Prop :=
  ∀ s : State, s.dvn.cfg = true →
    (s.dvn.p ≤ s.dvnIn.i.toNat → fails .dvnPulse s .bounds) ∧
    (s.dvn.wf → s.dvnIn.i.toNat < s.dvn.p →
      ∃ t q, s.dvn.pulses[s.dvnIn.i.toNat]? = some q ∧ exec .dvnPulse s = .next t ∧ onlyDvn s t ∧ t.dvn = s.dvn ∧
        t.dvnOut.err = 0 ∧ t.dvnOut.k.toNat = q.k ∧ t.dvnOut.wid.toNat = q.w ∧
        t.dvnOut.sgn = if q.s = .minus then 1 else 0)

/-- From R196, R199: a convolver without pulses returns `+0.0` for every input and every factor, block after block; its
filters are fed zeros only. That these two rules hold also for a factor whose product with `+0.0` is not `+0.0` is the
model's reading (log 31). -/
def Obligations.NoPulsesNoOutput : Prop :=
  (∀ s t : State, s.dvnIn.p = 0 → exec .dvnCfg s = .next t → t.dvnOut.err = 0 → t.dvn.quiet) ∧
  ∀ s : State, s.dvn.cfg = true → s.dvn.p = 0 → s.dvnIn.n.toNat ≤ s.dvn.maxblk →
    ∃ t, exec .dvnProcb s = .next t ∧ t.dvnOut.err = 0 ∧
      t.dvnOut.blkOut = List.replicate s.dvnIn.n.toNat 0x00000000 ∧ t.dvn.p = 0 ∧ (s.dvn.quiet → t.dvn.quiet)

/-- R210: DIFF.CFG. -/
def Obligations.DiffCfgBuildsTheConvolvers : Prop :=
  ∀ (s : State) (eps : F32) (td : Nat), eps = s.diffIn.eps.getD 0x39800000 →
    td = s.diffIn.fs.toNat / s.diffIn.rho.toNat →
    (s.diffIn.ch = 0 → fails .diffCfg s .invalidArg) ∧
    (64 < s.diffIn.ch.toNat → fails .diffCfg s .capacity) ∧
    (s.diffIn.ch ≠ 0 → s.diffIn.ch.toNat ≤ 64 →
      s.diffIn.rho = 0 ∨ s.diffIn.fs = 0 ∨ s.diffIn.maxblk = 0 ∨ ¬ inUnit eps ∨ td < 2 ∨
        s.diffIn.rnd.length < 3 * s.diffIn.p.toNat * s.diffIn.ch.toNat → fails .diffCfg s .invalidArg) ∧
    (s.diffIn.ch ≠ 0 → s.diffIn.ch.toNat ≤ 64 → s.diffIn.rho ≠ 0 → s.diffIn.maxblk ≠ 0 → inUnit eps → 2 ≤ td →
      3 * s.diffIn.p.toNat * s.diffIn.ch.toNat ≤ s.diffIn.rnd.length →
      (¬ dvnFits s.diffIn.p.toNat td s.diffIn.maxblk.toNat → fails .diffCfg s .capacity) ∧
      (dvnFits s.diffIn.p.toNat td s.diffIn.maxblk.toNat →
        ∃ t, exec .diffCfg s = .next t ∧ onlyDiff s t ∧ t.diffOut.err = 0 ∧
          t.diff.fresh s.params s.diffIn.ch.toNat s.diffIn.p.toNat s.diffIn.rho.toNat s.diffIn.fs.toNat
            s.diffIn.maxblk.toNat eps s.diffIn.rnd))

/-- R212: DIFF.PROCB is DVN.PROCB on each channel, with that channel's convolver and input. -/
def Obligations.DiffProcbConvolvesEachChannel : Prop :=
  ∀ s : State, s.diff.cfg = true →
    (s.diff.maxblk < s.diffIn.n.toNat → fails .diffProcb s .bounds) ∧
    (s.diff.wf → s.diffIn.n.toNat ≤ s.diff.maxblk →
      ∃ t xs, operandChans s.diffIn.blk s.diff.ch s.diffIn.n.toNat xs ∧ exec .diffProcb s = .next t ∧ onlyDiff s t ∧
        t.diffOut.err = 0 ∧ t.diff = { s.diff with conv := t.diff.conv } ∧ t.diff.conv.length = s.diff.ch ∧
        t.diffOut.blkOut.length = s.diff.ch ∧
        ∀ c, c < s.diff.ch → ∃ v x u, s.diff.conv[c]? = some v ∧ xs[c]? = some x ∧
          exec .dvnProcb { s with dvn := v, dvnIn := { s.dvnIn with n := s.diffIn.n, blk := x } } = .next u ∧
          u.dvnOut.err = 0 ∧ t.diff.conv[c]? = some u.dvn ∧ t.diffOut.blkOut[c]? = some u.dvnOut.blkOut)

/-- R211: what a channel of a diffuser returns, and the convolver it leaves, depend on that channel's convolver and input
alone. The two states are numbered alike for the free NaN. -/
def Obligations.DiffChannelsAreIndependent : Prop :=
  ∀ (s s' t t' : State) (c : Nat) (v : Dvn) (x : List F32),
    exec .diffProcb s = .next t → exec .diffProcb s' = .next t' → t.diffOut.err = 0 → t'.diffOut.err = 0 →
    s.draws = s'.draws → s.diffIn.n = s'.diffIn.n → c < s.diff.ch → c < s'.diff.ch →
    s.diff.conv[c]? = some v → s'.diff.conv[c]? = some v → s.diffIn.blk[c]? = some x → s'.diffIn.blk[c]? = some x →
      t.diffOut.blkOut[c]? = t'.diffOut.blkOut[c]? ∧ t.diff.conv[c]? = t'.diff.conv[c]?

/-! ## FDN -/

/-- R233-R237: FDN.CFG; by default line 0 has the base length (R236). -/
def Obligations.FdnCfgBuildsTheNetwork : Prop :=
  ∀ s : State,
    (s.fdnIn.lines = 0 ∨ s.fdnIn.lbase = 0 ∨ s.fdnIn.fs = 0 ∨ s.fdnIn.maxblk = 0 → fails .fdnCfg s .invalidArg) ∧
    (s.fdnIn.lines ≠ 0 → s.fdnIn.lbase ≠ 0 → s.fdnIn.fs ≠ 0 → s.fdnIn.maxblk ≠ 0 →
      (s.fdnIn.lines &&& (s.fdnIn.lines - 1) ≠ 0 → fails .fdnCfg s .notPow2) ∧
      (s.fdnIn.lines &&& (s.fdnIn.lines - 1) = 0 → s.fdnIn.rnd.length < 2 * s.fdnIn.lines.toNat - 1 →
        fails .fdnCfg s .invalidArg) ∧
      (s.fdnIn.lines &&& (s.fdnIn.lines - 1) = 0 → 2 * s.fdnIn.lines.toNat - 1 ≤ s.fdnIn.rnd.length →
        64 < s.fdnIn.lines.toNat ∨ 4096 < s.fdnIn.maxblk.toNat ∨
          ¬ fdnFits s.params s.fdnIn.lbase.toNat s.fdnIn.maxblk.toNat → fails .fdnCfg s .capacity) ∧
      (s.fdnIn.lines &&& (s.fdnIn.lines - 1) = 0 → 2 * s.fdnIn.lines.toNat - 1 ≤ s.fdnIn.rnd.length →
        s.fdnIn.lines.toNat ≤ 64 → s.fdnIn.maxblk.toNat ≤ 4096 →
        fdnFits s.params s.fdnIn.lbase.toNat s.fdnIn.maxblk.toNat →
        ∃ t, exec .fdnCfg s = .next t ∧ onlyFdn s t ∧ t.fdnOut.err = 0 ∧
          t.fdn.fresh s.params s.fdnIn.lines.toNat s.fdnIn.lbase.toNat s.fdnIn.fs.toNat s.fdnIn.maxblk.toNat
            s.fdnIn.rnd ∧
          (s.params.line0Len = [] → ∃ l, t.fdn.lines[0]? = some l ∧ l.len = s.fdnIn.lbase.toNat))) ∧
    (s.params.line0Len = [] → ∀ lb, line0Len s.params lb = lb)

/-- R232, R238, R239: FDN.PROCB, in both modes of line 0. -/
def Obligations.FdnProcbRunsTheLoop : Prop :=
  ∀ s : State, s.fdn.cfg = true →
    (s.fdn.maxblk < s.fdnIn.n.toNat → fails .fdnProcb s .bounds) ∧
    (s.fdn.wf → s.fdnIn.n.toNat ≤ s.fdn.maxblk →
      ∃ t xs taus, operandChans s.fdnIn.blk s.fdn.n s.fdnIn.n.toNat xs ∧ exec .fdnProcb s = .next t ∧ onlyFdn s t ∧
        t.fdnOut.err = 0 ∧ t.fdn = { s.fdn with lines := t.fdn.lines } ∧
        (∀ (i : Nat) (l : FdnLine), s.fdn.lines[i]? = some l → ∃ tau, taus[i]? = some tau ∧
          roomDelayOf l.len (clamp s.fdnIn.room 0x3DCCCCCD 0x40000000) tau) ∧
        fdnRan s.draws s.params.line0
          (onepoleAlpha s.params (clamp s.fdnIn.damp 0x41A00000 0x469C4000) s.fdn.fs) s.fdn.n s.fdnIn.n.toNat taus
          s.fdn.lines t.fdn.lines xs t.fdnOut.blkOut)

/-- From R240, R241: the first block after CFG is silent if it is no longer than the shortest loop delay. -/
def Obligations.FdnFirstBlockIsSilent : Prop :=
  ∀ (s t : State), s.fdn.cfg = true → s.fdn.wf → (∀ l ∈ s.fdn.lines, ∀ j, l.line.ring.read j = 0) →
    (∀ l ∈ s.fdn.lines, ∀ tau, roomDelayOf l.len (clamp s.fdnIn.room 0x3DCCCCCD 0x40000000) tau →
      s.fdnIn.n.toNat ≤ tau + 1) →
    exec .fdnProcb s = .next t → t.fdnOut.err = 0 →
      t.fdnOut.blkOut = List.replicate s.fdn.n (List.replicate s.fdnIn.n.toNat 0x00000000)

/-- From R238: the room-scaled delay of a line never exceeds its maximum delay. -/
def Obligations.RoomDelayIsInBounds : Prop :=
  ∀ (len : Nat) (room : F32), ∃ tau, roomDelayOf len (clamp room 0x3DCCCCCD 0x40000000) tau ∧ tau ≤ 2 * len

/-! ## REV -/

/-- R261: REV.NOP, configured or not, cannot fail and changes nothing but BUSY. -/
def Obligations.RevNopChangesOnlyBusy : Prop :=
  decodeAt .rev 0x70000000 = .ok .revNop ∧ ∀ s : State, ∃ t, exec .revNop s = .next t ∧ onlyRev s t ∧ sameMemory s t ∧
    t.rev = { s.rev with pending := none }

/-- R262: the random source. -/
def Obligations.RandomSource : Prop :=
  (∀ seed : Word, rngSeed seed = if seed = 0 then 0x9E3779B9 else seed) ∧
  (∀ x : Word, x ≠ 0 → xorshift x ≠ 0) ∧
  (∀ x y z : Word, y = x ^^^ (x <<< 13) → z = y ^^^ (y >>> 17) → xorshift x = z ^^^ (z <<< 5)) ∧
  (∀ x : Word, (rngDraw x).toNat = x.toNat / 2 ^ 8) ∧
  (∀ n k x, k < n → (rngDraws n x).1[k]? = some (rngDraw (xorshift^[k + 1] x))) ∧
  (∀ n x, (rngDraws n x).2 = xorshift^[n] x) ∧
  (rngDraws 6 (rngSeed 1)).1 = [0x000420, 0x040806, 0x9DCCA8, 0x125599, 0x8EF917, 0x2C6F5B]

/-- R263: the checks of REV.SETUP, in order, and what a successful setup latches and clears; the last clause is the rule's
remark on the default parameters. -/
def Obligations.RevSetupChecksAndLatches : Prop :=
  ∀ (s : State) (fs mb : Nat), fs = s.rev.fs.toNat → mb = s.rev.maxblk.toNat →
    (fs = 0 ∨ mb = 0 → fails .revSetup s .invalidArg) ∧
    (fs ≠ 0 → mb ≠ 0 → 192000 < fs ∨ 4096 < mb → fails .revSetup s .capacity) ∧
    (fs ≠ 0 → mb ≠ 0 → fs ≤ 192000 → mb ≤ 4096 →
      (¬ setupGridsOk s.params fs → fails .revSetup s .invalidArg) ∧
      (setupGridsOk s.params fs → ¬ setupFits s.params fs mb → fails .revSetup s .capacity) ∧
      (setupGridsOk s.params fs → setupFits s.params fs mb →
        ∃ t, exec .revSetup s = .next t ∧ onlyRev s t ∧ sameMemory s t ∧ sameHostRegs s.rev t.rev ∧
          t.rev.err = s.rev.err ∧ t.rev.errcode = s.rev.errcode ∧ t.rev.pending = none ∧ t.rev.configured = true ∧
          t.rev.cfgFs = s.rev.fs ∧ t.rev.cfgMaxblk = s.rev.maxblk ∧ t.rev.cprev = 0 ∧ t.rev.pd = [] ∧
          t.rev.hs = List.replicate 8 0x00000000 ∧ t.rev.ls = List.replicate 8 0x00000000 ∧
          (t.rev.mpd : Int) = max 1 (roundAway (F32.toRat 0x3DCCCCCD * fs))) ∧
      (s.params = Params.default → 2000 ≤ fs → setupGridsOk s.params fs ∧ setupFits s.params fs mb))

/-- R264: a setup builds the five stages in processing order, all from one random source: `rnd` is its stream. -/
def Obligations.RevSetupBuildsTheStages : Prop :=
  ∀ (s : State) (fs mb : Nat), fs = s.rev.fs.toNat → mb = s.rev.maxblk.toNat →
    fs ≠ 0 → mb ≠ 0 → fs ≤ 192000 → mb ≤ 4096 → setupGridsOk s.params fs → setupFits s.params fs mb →
    ∃ (t : State) (rnd : List Draw) (n1 n2 n3 : Nat), exec .revSetup s = .next t ∧
      n1 = 24 * s.params.diff1.p ∧ n2 = 24 * s.params.diff2.p ∧ n3 = 24 * s.params.diff3.p ∧
      rnd.length = n1 + 15 + n2 + 15 + n3 ∧
      (∀ k u, rnd[k]? = some u → u = rngDraw (xorshift^[k + 1] (rngSeed s.rev.seed))) ∧
      t.rev.rng = xorshift^[n1 + 15 + n2 + 15 + n3] (rngSeed s.rev.seed) ∧
      t.rev.d1.fresh s.params 8 s.params.diff1.p s.params.diff1.rho fs mb 0x39800000 rnd ∧
      t.rev.f1.fresh s.params 8 (setupBase s.params.fdnBaseMs1 fs).toNat fs mb (rnd.drop n1) ∧
      t.rev.d2.fresh s.params 8 s.params.diff2.p s.params.diff2.rho fs mb 0x39800000 (rnd.drop (n1 + 15)) ∧
      t.rev.f2.fresh s.params 8 (setupBase s.params.fdnBaseMs2 fs).toNat fs mb (rnd.drop (n1 + 15 + n2)) ∧
      t.rev.d3.fresh s.params 8 s.params.diff3.p s.params.diff3.rho fs mb 0x39800000
        (rnd.drop (n1 + 15 + n2 + 15))

/-- R81, R265, R276: the checks of REV.PROCESS after the configuration check, and what a successful block may change:
the words `IOBUF[c][i]` with `c < C`, `i < n`, and REV's filters, lines and stages. -/
def Obligations.RevProcessChangesOnlyItsBlock : Prop :=
  ∀ s : State, s.rev.configured = true →
    (s.rev.nch.toNat < 1 ∨ 8 < s.rev.nch.toNat → fails .revProcess s .invalidArg) ∧
    (1 ≤ s.rev.nch.toNat → s.rev.nch.toNat ≤ 8 → s.rev.cfgMaxblk.toNat < s.rev.nlen.toNat →
      fails .revProcess s .bounds) ∧
    (1 ≤ s.rev.nch.toNat → s.rev.nch.toNat ≤ 8 → s.rev.nlen.toNat ≤ s.rev.cfgMaxblk.toNat →
      ∃ t, exec .revProcess s = .next t ∧ onlyRev s t ∧ sameHostRegs s.rev t.rev ∧ t.rev.err = s.rev.err ∧
        t.rev.errcode = s.rev.errcode ∧ t.rev.configured = true ∧ t.rev.pending = none ∧
        t.rev.cfgFs = s.rev.cfgFs ∧ t.rev.cfgMaxblk = s.rev.cfgMaxblk ∧ t.rev.rng = s.rev.rng ∧
        t.rev.mpd = s.rev.mpd ∧ t.rev.cprev = s.rev.nch.toNat ∧
        ∀ a, ¬ inBlock s.rev.nch.toNat s.rev.nlen.toNat a →
          t.iobuf.readByte t.epoch a = s.iobuf.readByte s.epoch a)

/-- R81: REV.PROCESS reads no IOBUF word outside its block. -/
def Obligations.RevProcessReadsOnlyItsBlock : Prop :=
  ∀ (s t t' : State) (m : Memory), s.rev.nch.toNat ≤ 8 →
    (∀ a, inBlock s.rev.nch.toNat s.rev.nlen.toNat a → m.readByte s.epoch a = s.iobuf.readByte s.epoch a) →
    exec .revProcess s = .next t → exec .revProcess { s with iobuf := m } = .next t' →
      t'.rev = t.rev ∧
      ∀ a, inBlock s.rev.nch.toNat s.rev.nlen.toNat a → t'.iobuf.readByte t'.epoch a = t.iobuf.readByte t.epoch a

/-- R265-R275: the steps of REV.PROCESS. -/
def Obligations.RevProcessComputesTheBlock : Prop :=
  ∀ s : State, s.rev.wf → s.rev.configured = true → 1 ≤ s.rev.nch.toNat → s.rev.nch.toNat ≤ 8 →
    s.rev.nlen.toNat ≤ s.rev.cfgMaxblk.toNat →
    ∃ (t : State) (k : RevBlock), exec .revProcess s = .next t ∧ t.rev.err = s.rev.err ∧ t.rev.cprev = s.rev.nch.toNat ∧
      t.rev.pd.length = s.rev.nch.toNat ∧
      (∀ c, c < s.rev.nch.toNat → k.toneOk s t c ∧ k.preOk s t c) ∧
      (∀ c, s.rev.nch.toNat ≤ c → t.rev.hs[c]? = s.rev.hs[c]? ∧ t.rev.ls[c]? = s.rev.ls[c]?) ∧
      k.chainOk s t ∧
      ∀ c i, c < s.rev.nch.toNat → i < s.rev.nlen.toNat → k.outOk s t c i

/-- From R275: mix 0 gives the dry sample if the wet one is finite, and mix 1 the wet one if the dry one is finite, but that
`-0.0` may become `+0.0`; a NaN gives a NaN (R10). -/
def Obligations.BlendEndsAreDryAndWet : Prop :=
  ∀ (n : Nat) (mix dry wet : F32),
    (F32.mag mix = 0 → F32.isFinite wet = true → F32.isNaN dry = false →
      blended n mix dry wet = dry ∨ dry = 0x80000000 ∧ blended n mix dry wet = 0x00000000) ∧
    (F32.mag mix = 0 → F32.isFinite wet = true → F32.isNaN dry = true → F32.isNaN (blended n mix dry wet) = true) ∧
    (mix = 0x3F800000 → F32.isFinite dry = true → F32.isNaN wet = false →
      blended n mix dry wet = wet ∨ wet = 0x80000000 ∧ blended n mix dry wet = 0x00000000) ∧
    (mix = 0x3F800000 → F32.isFinite dry = true → F32.isNaN wet = true → F32.isNaN (blended n mix dry wet) = true)

/-! ## Arithmetic -/

/-- From R11: `rne32` gives the binary32 value nearest to the exact number, ties to even, with overflow to infinity from the
midpoint above the largest finite value on. The first clause says the sign bit; where the result is a zero, R11 does not say
which, and the clause is the model's choice (log 30). -/
def Obligations.Rne32IsNearestEven : Prop :=
  ∀ q : Rat,
    (q < 0 → F32.neg (rne32 q) = true) ∧ (0 ≤ q → F32.neg (rne32 q) = false) ∧
    (|q| < 2 ^ 128 - 2 ^ 103 → F32.isFinite (rne32 q) = true ∧
      ∀ y, F32.isFinite y = true →
        |F32.toRat (rne32 q) - q| ≤ |F32.toRat y - q| ∧
        (|F32.toRat (rne32 q) - q| = |F32.toRat y - q| → F32.toRat y ≠ F32.toRat (rne32 q) →
          F32.mag (rne32 q) % 2 = 0)) ∧
    (2 ^ 128 - 2 ^ 103 ≤ |q| → F32.isInf (rne32 q) = true)

/-- R10: a binary32 addition, subtraction and multiplication rounds the exact result once, with the IEEE 754 sign of an
exact zero. -/
def Obligations.ArithmeticRoundsOnce : Prop :=
  ∀ (n : Nat) (a b : F32), F32.isFinite a = true → F32.isFinite b = true →
    (F32.toRat a + F32.toRat b ≠ 0 → add32 n a b = rne32 (F32.toRat a + F32.toRat b)) ∧
    (F32.toRat a + F32.toRat b = 0 → add32 n a b = if a = 0x80000000 ∧ b = 0x80000000 then 0x80000000 else 0) ∧
    (F32.toRat a - F32.toRat b ≠ 0 → sub32 n a b = rne32 (F32.toRat a - F32.toRat b)) ∧
    (F32.toRat a - F32.toRat b = 0 → sub32 n a b = if a = 0x80000000 ∧ b = 0 then 0x80000000 else 0) ∧
    (F32.toRat a * F32.toRat b ≠ 0 → mul32 n a b = rne32 (F32.toRat a * F32.toRat b)) ∧
    (F32.toRat a * F32.toRat b = 0 → mul32 n a b = if F32.neg a = F32.neg b then 0 else 0x80000000)

/-- R10: infinities and NaNs. A NaN operand or an invalid operation gives a NaN, which one is free (log 7). -/
def Obligations.ArithmeticOnInfinitiesAndNaNs : Prop :=
  ∀ (n : Nat) (a b : F32),
    (F32.isNaN a = true ∨ F32.isNaN b = true →
      F32.isNaN (add32 n a b) = true ∧ F32.isNaN (sub32 n a b) = true ∧ F32.isNaN (mul32 n a b) = true) ∧
    (F32.isInf a = true → F32.isFinite b = true →
      add32 n a b = a ∧ add32 n b a = a ∧ sub32 n a b = a ∧ sub32 n b a = F32.negate a) ∧
    (F32.isInf a = true → add32 n a a = a ∧ sub32 n a (F32.negate a) = a ∧
      F32.isNaN (add32 n a (F32.negate a)) = true ∧ F32.isNaN (sub32 n a a) = true) ∧
    (F32.isInf a = true → F32.mag b = 0 → F32.isNaN (mul32 n a b) = true ∧ F32.isNaN (mul32 n b a) = true) ∧
    (F32.isInf a = true → F32.isNaN b = false → F32.mag b ≠ 0 →
      mul32 n a b = (if F32.neg a = F32.neg b then 0x7F800000 else 0xFF800000) ∧ mul32 n b a = mul32 n a b)

/-- R13: `clamp`. -/
def Obligations.ClampIsAsStated : Prop :=
  ∀ x lo hi : F32,
    (F32.isNaN x = true ∨ below x lo → clamp x lo hi = lo) ∧
    (F32.isNaN x = false → ¬ below x lo → below hi x → clamp x lo hi = hi) ∧
    (F32.isNaN x = false → ¬ below x lo → ¬ below hi x → clamp x lo hi = x) ∧
    (¬ below hi 0x80000000 → clamp 0x80000000 0x00000000 hi = 0x80000000)

/-- R196, R231: the defaults of the two coefficient parameters. `DVN_NORM` is the binary32 value nearest to
`1/√(P·Nw)`, 1.0 without pulses. `ONEPOLE_ALPHA` is above 0 and at most 1 for every cutoff in its domain, has the values
R231 lists, and is the binary32 value nearest to `e = 1 - exp(-2π·fc/fs)` up to one part in `2^60` of `e`: it is
the rounding of one of two bounds of `e`, and where they should round apart the choice is free (log 16). -/
def Obligations.CoefficientDefaultsAreAsStated : Prop :=
  (∀ (prm : Params) (p nw : Nat), prm.dvnNorm = [] →
    (p = 0 → dvnNorm prm p nw = 0x3F800000) ∧
    (1 ≤ p → p ≤ 4096 → 1 ≤ nw → nw ≤ 4096 → F32.isFinite (dvnNorm prm p nw) = true ∧
      ∀ y, F32.isFinite y = true →
        |(F32.toRat (dvnNorm prm p nw) : ℝ) - 1 / √(p * nw)| ≤ |(F32.toRat y : ℝ) - 1 / √(p * nw)|)) ∧
  (∀ (prm : Params) (fc : F32) (fs : Nat), prm.onepoleAlpha = [] → F32.isFinite fc = true → 20 ≤ F32.toRat fc →
    F32.toRat fc ≤ 20000 → 1 ≤ fs → fs < 2 ^ 32 →
      F32.isFinite (onepoleAlpha prm fc fs) = true ∧ 0 < F32.toRat (onepoleAlpha prm fc fs) ∧
        F32.toRat (onepoleAlpha prm fc fs) ≤ 1 ∧
        ∀ (e : ℝ) (y : F32), e = 1 - Real.exp (-(2 * Real.pi * (F32.toRat fc : ℝ) / fs)) → F32.isFinite y = true →
          |(F32.toRat (onepoleAlpha prm fc fs) : ℝ) - e| ≤ |(F32.toRat y : ℝ) - e| + e / 2 ^ 60) ∧
  ∀ prm : Params, prm.onepoleAlpha = [] →
    onepoleAlpha prm 0x41A00000 48000 = 0x3B2B5934 ∧ onepoleAlpha prm 0x447A0000 48000 = 0x3DFB471D ∧
    onepoleAlpha prm 0x459C4000 48000 = 0x3EF5E989 ∧ onepoleAlpha prm 0x469C4000 48000 = 0x3F6D5336 ∧
    onepoleAlpha prm 0x41A00000 2000 = 0x3D7970D8 ∧ onepoleAlpha prm 0x459C4000 2000 = 0x3F7FFFFD ∧
    onepoleAlpha prm 0x469C4000 2000 = 0x3F800000

/-! ## The host bus -/

/-- R34-R43: what each register and each reserved offset reads as, whether or not BUSY is 1. -/
def Obligations.RegistersReadAsStated : Prop :=
  ∀ s : State, s.revDue = false →
    readsAs s 0x000 0x554D4252 ∧ readsAs s 0x004 0x00000001 ∧ readsAs s 0x008 0x00000000 ∧
    readsAs s 0x00C
      (0#16 ++ s.rev.errcode ++ 0#5 ++ BitVec.ofBool s.rev.err ++ BitVec.ofBool s.rev.configured ++
        BitVec.ofBool s.rev.pending.isSome) ∧
    readsAs s 0x010 s.rev.seed ∧ readsAs s 0x014 s.rev.fs ∧ readsAs s 0x018 s.rev.maxblk ∧
    readsAs s 0x01C s.rev.nch ∧ readsAs s 0x020 s.rev.nlen ∧ readsAs s 0x024 s.rev.mix ∧
    readsAs s 0x028 s.rev.width ∧ readsAs s 0x02C s.rev.lowpass ∧ readsAs s 0x030 s.rev.highpass ∧
    readsAs s 0x034 s.rev.dampening ∧ readsAs s 0x038 s.rev.roomsize ∧ readsAs s 0x03C s.rev.initdelay ∧
    readsAs s 0x040 s.rev.cfgFs ∧ readsAs s 0x044 s.rev.cfgMaxblk ∧
    readsAs s 0x048 (BitVec.ofNat 32 s.rev.cprev) ∧
    ∀ off, 0x04C ≤ off → off < 0x10000 → off % 4 = 0 → readsAs s off 0

/-- R34, R37, R42-R44, R78, R260: what a register write does while BUSY is 0. The bus response the host sees is left open
(log 19). -/
def Obligations.RegisterWritesDoAsStated : Prop :=
  ∀ (s : State) (v : Word), s.rev.pending = none →
    (∀ off, readOnlyOffset off → writeDoes s off v id) ∧
    writeDoes s 0x010 v (fun p => { p with rev := { p.rev with seed := v } }) ∧
    writeDoes s 0x014 v (fun p => { p with rev := { p.rev with fs := v } }) ∧
    writeDoes s 0x018 v (fun p => { p with rev := { p.rev with maxblk := v } }) ∧
    writeDoes s 0x01C v (fun p => { p with rev := { p.rev with nch := v } }) ∧
    writeDoes s 0x020 v (fun p => { p with rev := { p.rev with nlen := v } }) ∧
    writeDoes s 0x024 v (fun p => { p with rev := { p.rev with mix := v } }) ∧
    writeDoes s 0x028 v (fun p => { p with rev := { p.rev with width := v } }) ∧
    writeDoes s 0x02C v (fun p => { p with rev := { p.rev with lowpass := v } }) ∧
    writeDoes s 0x030 v (fun p => { p with rev := { p.rev with highpass := v } }) ∧
    writeDoes s 0x034 v (fun p => { p with rev := { p.rev with dampening := v } }) ∧
    writeDoes s 0x038 v (fun p => { p with rev := { p.rev with roomsize := v } }) ∧
    writeDoes s 0x03C v (fun p => { p with rev := { p.rev with initdelay := v } }) ∧
    ∀ rest, s.program = .write .w32 (s.busAddr 0x008) v :: rest →
      ∃ t, step s = .next t ∧ t.program = rest ∧ t.rev = { s.rev with pending := some v } ∧ t.iobuf = s.iobuf ∧
        t.epoch = s.epoch ∧ t.dl = s.dl ∧ t.rrs = s.rrs ∧ t.dvn = s.dvn ∧ t.diff = s.diff ∧ t.fdn = s.fdn

/-- R75, R76, R79, R304: an access of another width, a misaligned access and an access to an unmapped offset get the bus
error and have no effect; a refused read returns 0. An access of the wrong width gets SLVERR even at an unmapped offset,
which is the model's reading of R306 (log 27). -/
def Obligations.BusErrorsHaveNoEffect : Prop :=
  ∀ (s : State) (off : Nat) (v : Word), s.revDue = false → off < 0x40000 →
    (∀ width, width ≠ .w32 →
      hostSees s (.read width (s.busAddr off)) (.read .slverr 0) ∧
      hostSees s (.write width (s.busAddr off) v) (.write .slverr)) ∧
    (off % 4 ≠ 0 →
      hostSees s (.read .w32 (s.busAddr off)) (.read .slverr 0) ∧
      hostSees s (.write .w32 (s.busAddr off) v) (.write .slverr)) ∧
    (off % 4 = 0 → 0x30000 ≤ off →
      hostSees s (.read .w32 (s.busAddr off)) (.read .decerr 0) ∧
      hostSees s (.write .w32 (s.busAddr off) v) (.write .decerr))

/-- R80: while BUSY is 1 a write to CMD, an RW register or IOBUF is refused and recorded, an IOBUF read returns some word
and does nothing else. -/
def Obligations.BusyRefusesWrites : Prop :=
  ∀ (s : State) (off : Nat) (v : Word), s.rev.pending ≠ none → s.revDue = false →
    (off = 0x008 ∨ storingOffset off ∨ iobufOffsetOk off →
      writeDoes s off v (fun p => { p with rev := { p.rev with err := true, errcode := 7 } })) ∧
    (iobufOffsetOk off → ∀ rest, s.program = .read .w32 (s.busAddr off) :: rest →
      ∃ w d, step s =
        .next { s with program := rest, busyLeft := s.busyLeft - 1, draws := d, reply := .read .okay w })

/-- R36, R80, R302, R308: writing 1 to STATUS bit 2 clears ERR and ERRCODE, also while BUSY is 1; writing 0 there changes
nothing. -/
def Obligations.StatusBitTwoAcknowledges : Prop :=
  ∀ (s : State) (v : Word), s.revDue = false →
    (v.getLsbD 2 = true →
      writeDoes s 0x00C v (fun p => { p with rev := { p.rev with err := false, errcode := 0 } })) ∧
    (v.getLsbD 2 = false → writeDoes s 0x00C v id)

/-- R72-R74, R78: where `IOBUF[c][i]` lies, and an IOBUF word while BUSY is 0. The word at `a` is little-endian; a write
changes its four bytes and no other. -/
def Obligations.IobufIsLittleEndian : Prop :=
  (∀ c i, c < 8 → i < 4096 → iobufOffset c i = 0x10000 + 4 * (c * 4096 + i)) ∧
  ∀ (s : State) (off : Nat) (v : Word) (rest : List HostStmt), s.rev.pending = none → iobufOffsetOk off →
    (s.program = .read .w32 (s.busAddr off) :: rest →
      ∃ w, step s = .next { s with program := rest, busyLeft := s.busyLeft - 1, reply := .read .okay w } ∧
        (∀ k, k < 4 → w.extractLsb' (8 * k) 8 = s.iobuf.readByte s.epoch (off + k)) ∧
        ∀ c i, c < 8 → i < 4096 → off = 0x10000 + 4 * (c * 4096 + i) → w = s.iobufWord c i) ∧
    (s.program = .write .w32 (s.busAddr off) v :: rest →
      ∃ t, step s = .next t ∧
        t = { s with program := rest, busyLeft := s.busyLeft - 1, iobuf := t.iobuf, reply := t.reply } ∧
        (∀ k, k < 4 → t.iobuf.readByte t.epoch (off + k) = v.extractLsb' (8 * k) 8) ∧
        (∀ c i, c < 8 → i < 4096 → off = 0x10000 + 4 * (c * 4096 + i) → t.iobufWord c i = v) ∧
        ∀ a, a < off ∨ off + 4 ≤ a → t.iobuf.readByte t.epoch a = s.iobuf.readByte s.epoch a)

/-- R109, R260, R340: WAIT reads STATUS while the command is in flight, and after the steps the command takes it executes,
whatever their number (the schedule of that number is the model's, log 10). -/
def Obligations.WaitSeesTheCommandThrough : Prop :=
  ∀ (s : State) (rest : List HostStmt) (i : Instr) (k : Nat), s.rev.pending = some (encode i) → i.cls = .rev →
    s.program = .wait :: rest → s.busyLeft = k →
    ∃ t, Host.Core.run Sys2Proof.core k s = .next t ∧ t = { s with busyLeft := 0, reply := t.reply } ∧
      (0 < k → t.reply = .read .okay s.rev.statusWord) ∧ step t = exec i t

/-- The host's statements (10_state.md R31, R109, R110). Presenting operands puts them at their port, where the model lets
them stand until they are replaced: that the port's operands are registers is the model's choice (log 2). WAIT reads STATUS;
it stands while BUSY reads 1 and is over when BUSY reads 0. CHECK reads STATUS and the host's program stops exactly if ERR is
1; how the stop is recorded is the model's reading (log 21). The last clause is the model's fault for an address outside the
window (log 14). -/
def Obligations.HostStatementsTakeEffect : Prop :=
  ∀ (s : State) (rest : List HostStmt), s.revDue = false →
    (∀ o, s.program = .operands (.dl o) :: rest →
      step s = .next { s with program := rest, busyLeft := s.busyLeft - 1, dlIn := o }) ∧
    (∀ o, s.program = .operands (.rrs o) :: rest →
      step s = .next { s with program := rest, busyLeft := s.busyLeft - 1, rrsIn := o }) ∧
    (∀ o, s.program = .operands (.had o) :: rest →
      step s = .next { s with program := rest, busyLeft := s.busyLeft - 1, hadIn := o }) ∧
    (∀ o, s.program = .operands (.dvn o) :: rest →
      step s = .next { s with program := rest, busyLeft := s.busyLeft - 1, dvnIn := o }) ∧
    (∀ o, s.program = .operands (.diff o) :: rest →
      step s = .next { s with program := rest, busyLeft := s.busyLeft - 1, diffIn := o }) ∧
    (∀ o, s.program = .operands (.fdn o) :: rest →
      step s = .next { s with program := rest, busyLeft := s.busyLeft - 1, fdnIn := o }) ∧
    (s.program = .wait :: rest → s.rev.pending ≠ none →
      step s = .next { s with busyLeft := s.busyLeft - 1, reply := .read .okay s.rev.statusWord }) ∧
    (s.program = .wait :: rest → s.rev.pending = none →
      step s = .next
        { s with program := rest, busyLeft := s.busyLeft - 1, reply := .read .okay s.rev.statusWord }) ∧
    (s.program = .check :: rest →
      ∃ t, step s = .next t ∧ t.reply = .read .okay s.rev.statusWord ∧
        t = { s with program := t.program, busyLeft := s.busyLeft - 1, reply := t.reply, stopped := t.stopped } ∧
        (s.rev.err = true → t.program = [] ∧ t.stopped = true) ∧
        (s.rev.err = false → t.program = rest ∧ t.stopped = s.stopped)) ∧
    (∀ width addr v, 0x40000 ≤ (addr - s.params.revBase).toNat →
      s.program = .read width addr :: rest ∨ s.program = .write width addr v :: rest → step s = .fault .outsideWindow)

/-! ## Reset and invariants -/

/-- R35, R57, R58, R330: what reset leaves, at power-up and in every state the host's reset finds, a command in flight
included (R331). Which state a good one is, is the model's (Sys2Proof/Safety.lean). -/
def Obligations.ResetLeavesTheStatedValues : Prop :=
  State.reset.good ∧ State.reset.rev.atReset ∧ State.reset.dl.cfg = false ∧ State.reset.rrs.cfg = false ∧
  State.reset.dvn.cfg = false ∧ State.reset.diff.cfg = false ∧ State.reset.fdn.cfg = false ∧
  ∀ (s : State) (rest : List HostStmt), s.revDue = false → s.program = .reset :: rest →
    ∃ t, step s = .next t ∧ t.rev.atReset ∧ t.dl.cfg = false ∧ t.rrs.cfg = false ∧ t.dvn.cfg = false ∧
      t.diff.cfg = false ∧ t.fdn.cfg = false ∧ t.program = rest

/-- 10_state.md R45-R51: every step keeps the ranges of every instance and of REV, and the canonical forms. -/
def Obligations.StepKeepsGoodStates : Prop := ∀ s t : State, s.good → step s = .next t → t.good

/-- R52: a command changes its own module and port alone. A command that fails changes no more than its port. -/
def Obligations.CommandsTouchOnlyTheirModule : Prop :=
  ∀ (i : Instr) (s t : State), exec i s = .next t →
    match i.cls with
    | .dl => onlyDl s t
    | .rrs => onlyRrs s t
    | .had => onlyHad s t
    | .dvn => onlyDvn s t
    | .diff => onlyDiff s t
    | .fdn => onlyFdn s t
    | .rev => onlyRev s t ∧ sameHostRegs s.rev t.rev

/-- R15, R300, R301, R302, R305: every command answers a next state; it succeeds, and then a module reports 0 and STATUS
keeps ERR and ERRCODE, or it reports one of the errors its rule lists and changes nothing else. -/
def Obligations.ErrorsAreListedAndPrecise : Prop :=
  ∀ (i : Instr) (s : State), ∃ t, exec i s = .next t ∧
    ((if i.cls = .rev then t.rev.err = s.rev.err ∧ t.rev.errcode = s.rev.errcode else t.portErr i.cls = 0) ∨
      ∃ e, e ∈ raises i ∧ t.portErr i.cls = e.code ∧ onlyResults s t i.cls ∧ sameMemory s t)

/-- R36: CONFIGURED never returns to 0 except by reset. -/
def Obligations.ConfiguredIsSticky : Prop :=
  ∀ s t : State, s.rev.configured = true → step s = .next t →
    t.rev.configured = true ∨ ∃ rest, s.program = .reset :: rest

end
end

