-- ==== Sys2Proof/Laws/State.lean ====
section
/-!
SUPPORT. What each update of the state does to each field: one lemma per field per update, so that no proof unfolds an
update.
-/

namespace Sys2Proof.Machine

/-! `State.putDl` -/

@[simp] theorem State.putDl_dl (s : State) (d : Dl) (r : SampleResult) : (s.putDl d r).dl = d := rfl
@[simp] theorem State.putDl_rrs (s : State) (d : Dl) (r : SampleResult) : (s.putDl d r).rrs = s.rrs := rfl
@[simp] theorem State.putDl_dvn (s : State) (d : Dl) (r : SampleResult) : (s.putDl d r).dvn = s.dvn := rfl
@[simp] theorem State.putDl_diff (s : State) (d : Dl) (r : SampleResult) : (s.putDl d r).diff = s.diff := rfl
@[simp] theorem State.putDl_fdn (s : State) (d : Dl) (r : SampleResult) : (s.putDl d r).fdn = s.fdn := rfl
@[simp] theorem State.putDl_dlIn (s : State) (d : Dl) (r : SampleResult) : (s.putDl d r).dlIn = s.dlIn := rfl
@[simp] theorem State.putDl_rrsIn (s : State) (d : Dl) (r : SampleResult) : (s.putDl d r).rrsIn = s.rrsIn := rfl
@[simp] theorem State.putDl_hadIn (s : State) (d : Dl) (r : SampleResult) : (s.putDl d r).hadIn = s.hadIn := rfl
@[simp] theorem State.putDl_dvnIn (s : State) (d : Dl) (r : SampleResult) : (s.putDl d r).dvnIn = s.dvnIn := rfl
@[simp] theorem State.putDl_diffIn (s : State) (d : Dl) (r : SampleResult) : (s.putDl d r).diffIn = s.diffIn := rfl
@[simp] theorem State.putDl_fdnIn (s : State) (d : Dl) (r : SampleResult) : (s.putDl d r).fdnIn = s.fdnIn := rfl
@[simp] theorem State.putDl_dlOut (s : State) (d : Dl) (r : SampleResult) : (s.putDl d r).dlOut = r := rfl
@[simp] theorem State.putDl_rrsOut (s : State) (d : Dl) (r : SampleResult) : (s.putDl d r).rrsOut = s.rrsOut := rfl
@[simp] theorem State.putDl_hadOut (s : State) (d : Dl) (r : SampleResult) : (s.putDl d r).hadOut = s.hadOut := rfl
@[simp] theorem State.putDl_dvnOut (s : State) (d : Dl) (r : SampleResult) : (s.putDl d r).dvnOut = s.dvnOut := rfl
@[simp] theorem State.putDl_diffOut (s : State) (d : Dl) (r : SampleResult) : (s.putDl d r).diffOut = s.diffOut := rfl
@[simp] theorem State.putDl_fdnOut (s : State) (d : Dl) (r : SampleResult) : (s.putDl d r).fdnOut = s.fdnOut := rfl
@[simp] theorem State.putDl_rev (s : State) (d : Dl) (r : SampleResult) : (s.putDl d r).rev = s.rev := rfl
@[simp] theorem State.putDl_iobuf (s : State) (d : Dl) (r : SampleResult) : (s.putDl d r).iobuf = s.iobuf := rfl
@[simp] theorem State.putDl_reply (s : State) (d : Dl) (r : SampleResult) : (s.putDl d r).reply = s.reply := rfl
@[simp] theorem State.putDl_params (s : State) (d : Dl) (r : SampleResult) : (s.putDl d r).params = s.params := rfl
@[simp] theorem State.putDl_program (s : State) (d : Dl) (r : SampleResult) : (s.putDl d r).program = s.program := rfl
@[simp] theorem State.putDl_stopped (s : State) (d : Dl) (r : SampleResult) : (s.putDl d r).stopped = s.stopped := rfl
@[simp] theorem State.putDl_latencies (s : State) (d : Dl) (r : SampleResult) : (s.putDl d r).latencies = s.latencies := rfl
@[simp] theorem State.putDl_busyLeft (s : State) (d : Dl) (r : SampleResult) : (s.putDl d r).busyLeft = s.busyLeft := rfl
@[simp] theorem State.putDl_draws (s : State) (d : Dl) (r : SampleResult) : (s.putDl d r).draws = s.draws + 1 := rfl
@[simp] theorem State.putDl_epoch (s : State) (d : Dl) (r : SampleResult) : (s.putDl d r).epoch = s.epoch := rfl

/-! `State.putRrs` -/

@[simp] theorem State.putRrs_dl (s : State) (f : Rrs) (r : SampleResult) : (s.putRrs f r).dl = s.dl := rfl
@[simp] theorem State.putRrs_rrs (s : State) (f : Rrs) (r : SampleResult) : (s.putRrs f r).rrs = f := rfl
@[simp] theorem State.putRrs_dvn (s : State) (f : Rrs) (r : SampleResult) : (s.putRrs f r).dvn = s.dvn := rfl
@[simp] theorem State.putRrs_diff (s : State) (f : Rrs) (r : SampleResult) : (s.putRrs f r).diff = s.diff := rfl
@[simp] theorem State.putRrs_fdn (s : State) (f : Rrs) (r : SampleResult) : (s.putRrs f r).fdn = s.fdn := rfl
@[simp] theorem State.putRrs_dlIn (s : State) (f : Rrs) (r : SampleResult) : (s.putRrs f r).dlIn = s.dlIn := rfl
@[simp] theorem State.putRrs_rrsIn (s : State) (f : Rrs) (r : SampleResult) : (s.putRrs f r).rrsIn = s.rrsIn := rfl
@[simp] theorem State.putRrs_hadIn (s : State) (f : Rrs) (r : SampleResult) : (s.putRrs f r).hadIn = s.hadIn := rfl
@[simp] theorem State.putRrs_dvnIn (s : State) (f : Rrs) (r : SampleResult) : (s.putRrs f r).dvnIn = s.dvnIn := rfl
@[simp] theorem State.putRrs_diffIn (s : State) (f : Rrs) (r : SampleResult) : (s.putRrs f r).diffIn = s.diffIn := rfl
@[simp] theorem State.putRrs_fdnIn (s : State) (f : Rrs) (r : SampleResult) : (s.putRrs f r).fdnIn = s.fdnIn := rfl
@[simp] theorem State.putRrs_dlOut (s : State) (f : Rrs) (r : SampleResult) : (s.putRrs f r).dlOut = s.dlOut := rfl
@[simp] theorem State.putRrs_rrsOut (s : State) (f : Rrs) (r : SampleResult) : (s.putRrs f r).rrsOut = r := rfl
@[simp] theorem State.putRrs_hadOut (s : State) (f : Rrs) (r : SampleResult) : (s.putRrs f r).hadOut = s.hadOut := rfl
@[simp] theorem State.putRrs_dvnOut (s : State) (f : Rrs) (r : SampleResult) : (s.putRrs f r).dvnOut = s.dvnOut := rfl
@[simp] theorem State.putRrs_diffOut (s : State) (f : Rrs) (r : SampleResult) : (s.putRrs f r).diffOut = s.diffOut := rfl
@[simp] theorem State.putRrs_fdnOut (s : State) (f : Rrs) (r : SampleResult) : (s.putRrs f r).fdnOut = s.fdnOut := rfl
@[simp] theorem State.putRrs_rev (s : State) (f : Rrs) (r : SampleResult) : (s.putRrs f r).rev = s.rev := rfl
@[simp] theorem State.putRrs_iobuf (s : State) (f : Rrs) (r : SampleResult) : (s.putRrs f r).iobuf = s.iobuf := rfl
@[simp] theorem State.putRrs_reply (s : State) (f : Rrs) (r : SampleResult) : (s.putRrs f r).reply = s.reply := rfl
@[simp] theorem State.putRrs_params (s : State) (f : Rrs) (r : SampleResult) : (s.putRrs f r).params = s.params := rfl
@[simp] theorem State.putRrs_program (s : State) (f : Rrs) (r : SampleResult) : (s.putRrs f r).program = s.program := rfl
@[simp] theorem State.putRrs_stopped (s : State) (f : Rrs) (r : SampleResult) : (s.putRrs f r).stopped = s.stopped := rfl
@[simp] theorem State.putRrs_latencies (s : State) (f : Rrs) (r : SampleResult) : (s.putRrs f r).latencies = s.latencies := rfl
@[simp] theorem State.putRrs_busyLeft (s : State) (f : Rrs) (r : SampleResult) : (s.putRrs f r).busyLeft = s.busyLeft := rfl
@[simp] theorem State.putRrs_draws (s : State) (f : Rrs) (r : SampleResult) : (s.putRrs f r).draws = s.draws + 1 := rfl
@[simp] theorem State.putRrs_epoch (s : State) (f : Rrs) (r : SampleResult) : (s.putRrs f r).epoch = s.epoch := rfl

/-! `State.putHad` -/

@[simp] theorem State.putHad_dl (s : State) (r : FrameResult) : (s.putHad r).dl = s.dl := rfl
@[simp] theorem State.putHad_rrs (s : State) (r : FrameResult) : (s.putHad r).rrs = s.rrs := rfl
@[simp] theorem State.putHad_dvn (s : State) (r : FrameResult) : (s.putHad r).dvn = s.dvn := rfl
@[simp] theorem State.putHad_diff (s : State) (r : FrameResult) : (s.putHad r).diff = s.diff := rfl
@[simp] theorem State.putHad_fdn (s : State) (r : FrameResult) : (s.putHad r).fdn = s.fdn := rfl
@[simp] theorem State.putHad_dlIn (s : State) (r : FrameResult) : (s.putHad r).dlIn = s.dlIn := rfl
@[simp] theorem State.putHad_rrsIn (s : State) (r : FrameResult) : (s.putHad r).rrsIn = s.rrsIn := rfl
@[simp] theorem State.putHad_hadIn (s : State) (r : FrameResult) : (s.putHad r).hadIn = s.hadIn := rfl
@[simp] theorem State.putHad_dvnIn (s : State) (r : FrameResult) : (s.putHad r).dvnIn = s.dvnIn := rfl
@[simp] theorem State.putHad_diffIn (s : State) (r : FrameResult) : (s.putHad r).diffIn = s.diffIn := rfl
@[simp] theorem State.putHad_fdnIn (s : State) (r : FrameResult) : (s.putHad r).fdnIn = s.fdnIn := rfl
@[simp] theorem State.putHad_dlOut (s : State) (r : FrameResult) : (s.putHad r).dlOut = s.dlOut := rfl
@[simp] theorem State.putHad_rrsOut (s : State) (r : FrameResult) : (s.putHad r).rrsOut = s.rrsOut := rfl
@[simp] theorem State.putHad_hadOut (s : State) (r : FrameResult) : (s.putHad r).hadOut = r := rfl
@[simp] theorem State.putHad_dvnOut (s : State) (r : FrameResult) : (s.putHad r).dvnOut = s.dvnOut := rfl
@[simp] theorem State.putHad_diffOut (s : State) (r : FrameResult) : (s.putHad r).diffOut = s.diffOut := rfl
@[simp] theorem State.putHad_fdnOut (s : State) (r : FrameResult) : (s.putHad r).fdnOut = s.fdnOut := rfl
@[simp] theorem State.putHad_rev (s : State) (r : FrameResult) : (s.putHad r).rev = s.rev := rfl
@[simp] theorem State.putHad_iobuf (s : State) (r : FrameResult) : (s.putHad r).iobuf = s.iobuf := rfl
@[simp] theorem State.putHad_reply (s : State) (r : FrameResult) : (s.putHad r).reply = s.reply := rfl
@[simp] theorem State.putHad_params (s : State) (r : FrameResult) : (s.putHad r).params = s.params := rfl
@[simp] theorem State.putHad_program (s : State) (r : FrameResult) : (s.putHad r).program = s.program := rfl
@[simp] theorem State.putHad_stopped (s : State) (r : FrameResult) : (s.putHad r).stopped = s.stopped := rfl
@[simp] theorem State.putHad_latencies (s : State) (r : FrameResult) : (s.putHad r).latencies = s.latencies := rfl
@[simp] theorem State.putHad_busyLeft (s : State) (r : FrameResult) : (s.putHad r).busyLeft = s.busyLeft := rfl
@[simp] theorem State.putHad_draws (s : State) (r : FrameResult) : (s.putHad r).draws = s.draws + 1 := rfl
@[simp] theorem State.putHad_epoch (s : State) (r : FrameResult) : (s.putHad r).epoch = s.epoch := rfl

/-! `State.putDvn` -/

@[simp] theorem State.putDvn_dl (s : State) (d : Dvn) (r : DvnResult) : (s.putDvn d r).dl = s.dl := rfl
@[simp] theorem State.putDvn_rrs (s : State) (d : Dvn) (r : DvnResult) : (s.putDvn d r).rrs = s.rrs := rfl
@[simp] theorem State.putDvn_dvn (s : State) (d : Dvn) (r : DvnResult) : (s.putDvn d r).dvn = d := rfl
@[simp] theorem State.putDvn_diff (s : State) (d : Dvn) (r : DvnResult) : (s.putDvn d r).diff = s.diff := rfl
@[simp] theorem State.putDvn_fdn (s : State) (d : Dvn) (r : DvnResult) : (s.putDvn d r).fdn = s.fdn := rfl
@[simp] theorem State.putDvn_dlIn (s : State) (d : Dvn) (r : DvnResult) : (s.putDvn d r).dlIn = s.dlIn := rfl
@[simp] theorem State.putDvn_rrsIn (s : State) (d : Dvn) (r : DvnResult) : (s.putDvn d r).rrsIn = s.rrsIn := rfl
@[simp] theorem State.putDvn_hadIn (s : State) (d : Dvn) (r : DvnResult) : (s.putDvn d r).hadIn = s.hadIn := rfl
@[simp] theorem State.putDvn_dvnIn (s : State) (d : Dvn) (r : DvnResult) : (s.putDvn d r).dvnIn = s.dvnIn := rfl
@[simp] theorem State.putDvn_diffIn (s : State) (d : Dvn) (r : DvnResult) : (s.putDvn d r).diffIn = s.diffIn := rfl
@[simp] theorem State.putDvn_fdnIn (s : State) (d : Dvn) (r : DvnResult) : (s.putDvn d r).fdnIn = s.fdnIn := rfl
@[simp] theorem State.putDvn_dlOut (s : State) (d : Dvn) (r : DvnResult) : (s.putDvn d r).dlOut = s.dlOut := rfl
@[simp] theorem State.putDvn_rrsOut (s : State) (d : Dvn) (r : DvnResult) : (s.putDvn d r).rrsOut = s.rrsOut := rfl
@[simp] theorem State.putDvn_hadOut (s : State) (d : Dvn) (r : DvnResult) : (s.putDvn d r).hadOut = s.hadOut := rfl
@[simp] theorem State.putDvn_dvnOut (s : State) (d : Dvn) (r : DvnResult) : (s.putDvn d r).dvnOut = r := rfl
@[simp] theorem State.putDvn_diffOut (s : State) (d : Dvn) (r : DvnResult) : (s.putDvn d r).diffOut = s.diffOut := rfl
@[simp] theorem State.putDvn_fdnOut (s : State) (d : Dvn) (r : DvnResult) : (s.putDvn d r).fdnOut = s.fdnOut := rfl
@[simp] theorem State.putDvn_rev (s : State) (d : Dvn) (r : DvnResult) : (s.putDvn d r).rev = s.rev := rfl
@[simp] theorem State.putDvn_iobuf (s : State) (d : Dvn) (r : DvnResult) : (s.putDvn d r).iobuf = s.iobuf := rfl
@[simp] theorem State.putDvn_reply (s : State) (d : Dvn) (r : DvnResult) : (s.putDvn d r).reply = s.reply := rfl
@[simp] theorem State.putDvn_params (s : State) (d : Dvn) (r : DvnResult) : (s.putDvn d r).params = s.params := rfl
@[simp] theorem State.putDvn_program (s : State) (d : Dvn) (r : DvnResult) : (s.putDvn d r).program = s.program := rfl
@[simp] theorem State.putDvn_stopped (s : State) (d : Dvn) (r : DvnResult) : (s.putDvn d r).stopped = s.stopped := rfl
@[simp] theorem State.putDvn_latencies (s : State) (d : Dvn) (r : DvnResult) : (s.putDvn d r).latencies = s.latencies := rfl
@[simp] theorem State.putDvn_busyLeft (s : State) (d : Dvn) (r : DvnResult) : (s.putDvn d r).busyLeft = s.busyLeft := rfl
@[simp] theorem State.putDvn_draws (s : State) (d : Dvn) (r : DvnResult) : (s.putDvn d r).draws = s.draws + 1 := rfl
@[simp] theorem State.putDvn_epoch (s : State) (d : Dvn) (r : DvnResult) : (s.putDvn d r).epoch = s.epoch := rfl

/-! `State.putDiff` -/

@[simp] theorem State.putDiff_dl (s : State) (d : Diff) (r : BlockResult) : (s.putDiff d r).dl = s.dl := rfl
@[simp] theorem State.putDiff_rrs (s : State) (d : Diff) (r : BlockResult) : (s.putDiff d r).rrs = s.rrs := rfl
@[simp] theorem State.putDiff_dvn (s : State) (d : Diff) (r : BlockResult) : (s.putDiff d r).dvn = s.dvn := rfl
@[simp] theorem State.putDiff_diff (s : State) (d : Diff) (r : BlockResult) : (s.putDiff d r).diff = d := rfl
@[simp] theorem State.putDiff_fdn (s : State) (d : Diff) (r : BlockResult) : (s.putDiff d r).fdn = s.fdn := rfl
@[simp] theorem State.putDiff_dlIn (s : State) (d : Diff) (r : BlockResult) : (s.putDiff d r).dlIn = s.dlIn := rfl
@[simp] theorem State.putDiff_rrsIn (s : State) (d : Diff) (r : BlockResult) : (s.putDiff d r).rrsIn = s.rrsIn := rfl
@[simp] theorem State.putDiff_hadIn (s : State) (d : Diff) (r : BlockResult) : (s.putDiff d r).hadIn = s.hadIn := rfl
@[simp] theorem State.putDiff_dvnIn (s : State) (d : Diff) (r : BlockResult) : (s.putDiff d r).dvnIn = s.dvnIn := rfl
@[simp] theorem State.putDiff_diffIn (s : State) (d : Diff) (r : BlockResult) : (s.putDiff d r).diffIn = s.diffIn := rfl
@[simp] theorem State.putDiff_fdnIn (s : State) (d : Diff) (r : BlockResult) : (s.putDiff d r).fdnIn = s.fdnIn := rfl
@[simp] theorem State.putDiff_dlOut (s : State) (d : Diff) (r : BlockResult) : (s.putDiff d r).dlOut = s.dlOut := rfl
@[simp] theorem State.putDiff_rrsOut (s : State) (d : Diff) (r : BlockResult) : (s.putDiff d r).rrsOut = s.rrsOut := rfl
@[simp] theorem State.putDiff_hadOut (s : State) (d : Diff) (r : BlockResult) : (s.putDiff d r).hadOut = s.hadOut := rfl
@[simp] theorem State.putDiff_dvnOut (s : State) (d : Diff) (r : BlockResult) : (s.putDiff d r).dvnOut = s.dvnOut := rfl
@[simp] theorem State.putDiff_diffOut (s : State) (d : Diff) (r : BlockResult) : (s.putDiff d r).diffOut = r := rfl
@[simp] theorem State.putDiff_fdnOut (s : State) (d : Diff) (r : BlockResult) : (s.putDiff d r).fdnOut = s.fdnOut := rfl
@[simp] theorem State.putDiff_rev (s : State) (d : Diff) (r : BlockResult) : (s.putDiff d r).rev = s.rev := rfl
@[simp] theorem State.putDiff_iobuf (s : State) (d : Diff) (r : BlockResult) : (s.putDiff d r).iobuf = s.iobuf := rfl
@[simp] theorem State.putDiff_reply (s : State) (d : Diff) (r : BlockResult) : (s.putDiff d r).reply = s.reply := rfl
@[simp] theorem State.putDiff_params (s : State) (d : Diff) (r : BlockResult) : (s.putDiff d r).params = s.params := rfl
@[simp] theorem State.putDiff_program (s : State) (d : Diff) (r : BlockResult) : (s.putDiff d r).program = s.program := rfl
@[simp] theorem State.putDiff_stopped (s : State) (d : Diff) (r : BlockResult) : (s.putDiff d r).stopped = s.stopped := rfl
@[simp] theorem State.putDiff_latencies (s : State) (d : Diff) (r : BlockResult) : (s.putDiff d r).latencies = s.latencies := rfl
@[simp] theorem State.putDiff_busyLeft (s : State) (d : Diff) (r : BlockResult) : (s.putDiff d r).busyLeft = s.busyLeft := rfl
@[simp] theorem State.putDiff_draws (s : State) (d : Diff) (r : BlockResult) : (s.putDiff d r).draws = s.draws + 1 := rfl
@[simp] theorem State.putDiff_epoch (s : State) (d : Diff) (r : BlockResult) : (s.putDiff d r).epoch = s.epoch := rfl

/-! `State.putFdn` -/

@[simp] theorem State.putFdn_dl (s : State) (f : Fdn) (r : BlockResult) : (s.putFdn f r).dl = s.dl := rfl
@[simp] theorem State.putFdn_rrs (s : State) (f : Fdn) (r : BlockResult) : (s.putFdn f r).rrs = s.rrs := rfl
@[simp] theorem State.putFdn_dvn (s : State) (f : Fdn) (r : BlockResult) : (s.putFdn f r).dvn = s.dvn := rfl
@[simp] theorem State.putFdn_diff (s : State) (f : Fdn) (r : BlockResult) : (s.putFdn f r).diff = s.diff := rfl
@[simp] theorem State.putFdn_fdn (s : State) (f : Fdn) (r : BlockResult) : (s.putFdn f r).fdn = f := rfl
@[simp] theorem State.putFdn_dlIn (s : State) (f : Fdn) (r : BlockResult) : (s.putFdn f r).dlIn = s.dlIn := rfl
@[simp] theorem State.putFdn_rrsIn (s : State) (f : Fdn) (r : BlockResult) : (s.putFdn f r).rrsIn = s.rrsIn := rfl
@[simp] theorem State.putFdn_hadIn (s : State) (f : Fdn) (r : BlockResult) : (s.putFdn f r).hadIn = s.hadIn := rfl
@[simp] theorem State.putFdn_dvnIn (s : State) (f : Fdn) (r : BlockResult) : (s.putFdn f r).dvnIn = s.dvnIn := rfl
@[simp] theorem State.putFdn_diffIn (s : State) (f : Fdn) (r : BlockResult) : (s.putFdn f r).diffIn = s.diffIn := rfl
@[simp] theorem State.putFdn_fdnIn (s : State) (f : Fdn) (r : BlockResult) : (s.putFdn f r).fdnIn = s.fdnIn := rfl
@[simp] theorem State.putFdn_dlOut (s : State) (f : Fdn) (r : BlockResult) : (s.putFdn f r).dlOut = s.dlOut := rfl
@[simp] theorem State.putFdn_rrsOut (s : State) (f : Fdn) (r : BlockResult) : (s.putFdn f r).rrsOut = s.rrsOut := rfl
@[simp] theorem State.putFdn_hadOut (s : State) (f : Fdn) (r : BlockResult) : (s.putFdn f r).hadOut = s.hadOut := rfl
@[simp] theorem State.putFdn_dvnOut (s : State) (f : Fdn) (r : BlockResult) : (s.putFdn f r).dvnOut = s.dvnOut := rfl
@[simp] theorem State.putFdn_diffOut (s : State) (f : Fdn) (r : BlockResult) : (s.putFdn f r).diffOut = s.diffOut := rfl
@[simp] theorem State.putFdn_fdnOut (s : State) (f : Fdn) (r : BlockResult) : (s.putFdn f r).fdnOut = r := rfl
@[simp] theorem State.putFdn_rev (s : State) (f : Fdn) (r : BlockResult) : (s.putFdn f r).rev = s.rev := rfl
@[simp] theorem State.putFdn_iobuf (s : State) (f : Fdn) (r : BlockResult) : (s.putFdn f r).iobuf = s.iobuf := rfl
@[simp] theorem State.putFdn_reply (s : State) (f : Fdn) (r : BlockResult) : (s.putFdn f r).reply = s.reply := rfl
@[simp] theorem State.putFdn_params (s : State) (f : Fdn) (r : BlockResult) : (s.putFdn f r).params = s.params := rfl
@[simp] theorem State.putFdn_program (s : State) (f : Fdn) (r : BlockResult) : (s.putFdn f r).program = s.program := rfl
@[simp] theorem State.putFdn_stopped (s : State) (f : Fdn) (r : BlockResult) : (s.putFdn f r).stopped = s.stopped := rfl
@[simp] theorem State.putFdn_latencies (s : State) (f : Fdn) (r : BlockResult) : (s.putFdn f r).latencies = s.latencies := rfl
@[simp] theorem State.putFdn_busyLeft (s : State) (f : Fdn) (r : BlockResult) : (s.putFdn f r).busyLeft = s.busyLeft := rfl
@[simp] theorem State.putFdn_draws (s : State) (f : Fdn) (r : BlockResult) : (s.putFdn f r).draws = s.draws + 1 := rfl
@[simp] theorem State.putFdn_epoch (s : State) (f : Fdn) (r : BlockResult) : (s.putFdn f r).epoch = s.epoch := rfl

/-! `State.putRev` -/

@[simp] theorem State.putRev_dl (s : State) (r : Rev) (m : Memory) : (s.putRev r m).dl = s.dl := rfl
@[simp] theorem State.putRev_rrs (s : State) (r : Rev) (m : Memory) : (s.putRev r m).rrs = s.rrs := rfl
@[simp] theorem State.putRev_dvn (s : State) (r : Rev) (m : Memory) : (s.putRev r m).dvn = s.dvn := rfl
@[simp] theorem State.putRev_diff (s : State) (r : Rev) (m : Memory) : (s.putRev r m).diff = s.diff := rfl
@[simp] theorem State.putRev_fdn (s : State) (r : Rev) (m : Memory) : (s.putRev r m).fdn = s.fdn := rfl
@[simp] theorem State.putRev_dlIn (s : State) (r : Rev) (m : Memory) : (s.putRev r m).dlIn = s.dlIn := rfl
@[simp] theorem State.putRev_rrsIn (s : State) (r : Rev) (m : Memory) : (s.putRev r m).rrsIn = s.rrsIn := rfl
@[simp] theorem State.putRev_hadIn (s : State) (r : Rev) (m : Memory) : (s.putRev r m).hadIn = s.hadIn := rfl
@[simp] theorem State.putRev_dvnIn (s : State) (r : Rev) (m : Memory) : (s.putRev r m).dvnIn = s.dvnIn := rfl
@[simp] theorem State.putRev_diffIn (s : State) (r : Rev) (m : Memory) : (s.putRev r m).diffIn = s.diffIn := rfl
@[simp] theorem State.putRev_fdnIn (s : State) (r : Rev) (m : Memory) : (s.putRev r m).fdnIn = s.fdnIn := rfl
@[simp] theorem State.putRev_dlOut (s : State) (r : Rev) (m : Memory) : (s.putRev r m).dlOut = s.dlOut := rfl
@[simp] theorem State.putRev_rrsOut (s : State) (r : Rev) (m : Memory) : (s.putRev r m).rrsOut = s.rrsOut := rfl
@[simp] theorem State.putRev_hadOut (s : State) (r : Rev) (m : Memory) : (s.putRev r m).hadOut = s.hadOut := rfl
@[simp] theorem State.putRev_dvnOut (s : State) (r : Rev) (m : Memory) : (s.putRev r m).dvnOut = s.dvnOut := rfl
@[simp] theorem State.putRev_diffOut (s : State) (r : Rev) (m : Memory) : (s.putRev r m).diffOut = s.diffOut := rfl
@[simp] theorem State.putRev_fdnOut (s : State) (r : Rev) (m : Memory) : (s.putRev r m).fdnOut = s.fdnOut := rfl
@[simp] theorem State.putRev_rev (s : State) (r : Rev) (m : Memory) : (s.putRev r m).rev = r := rfl
@[simp] theorem State.putRev_iobuf (s : State) (r : Rev) (m : Memory) : (s.putRev r m).iobuf = m := rfl
@[simp] theorem State.putRev_reply (s : State) (r : Rev) (m : Memory) : (s.putRev r m).reply = s.reply := rfl
@[simp] theorem State.putRev_params (s : State) (r : Rev) (m : Memory) : (s.putRev r m).params = s.params := rfl
@[simp] theorem State.putRev_program (s : State) (r : Rev) (m : Memory) : (s.putRev r m).program = s.program := rfl
@[simp] theorem State.putRev_stopped (s : State) (r : Rev) (m : Memory) : (s.putRev r m).stopped = s.stopped := rfl
@[simp] theorem State.putRev_latencies (s : State) (r : Rev) (m : Memory) : (s.putRev r m).latencies = s.latencies := rfl
@[simp] theorem State.putRev_busyLeft (s : State) (r : Rev) (m : Memory) : (s.putRev r m).busyLeft = s.busyLeft := rfl
@[simp] theorem State.putRev_draws (s : State) (r : Rev) (m : Memory) : (s.putRev r m).draws = s.draws := rfl
@[simp] theorem State.putRev_epoch (s : State) (r : Rev) (m : Memory) : (s.putRev r m).epoch = s.epoch := rfl

/-! `State.finishRev` -/

@[simp] theorem State.finishRev_dl (s : State) (r : Rev) (m : Memory) : (s.finishRev r m).dl = s.dl := rfl
@[simp] theorem State.finishRev_rrs (s : State) (r : Rev) (m : Memory) : (s.finishRev r m).rrs = s.rrs := rfl
@[simp] theorem State.finishRev_dvn (s : State) (r : Rev) (m : Memory) : (s.finishRev r m).dvn = s.dvn := rfl
@[simp] theorem State.finishRev_diff (s : State) (r : Rev) (m : Memory) : (s.finishRev r m).diff = s.diff := rfl
@[simp] theorem State.finishRev_fdn (s : State) (r : Rev) (m : Memory) : (s.finishRev r m).fdn = s.fdn := rfl
@[simp] theorem State.finishRev_dlIn (s : State) (r : Rev) (m : Memory) : (s.finishRev r m).dlIn = s.dlIn := rfl
@[simp] theorem State.finishRev_rrsIn (s : State) (r : Rev) (m : Memory) : (s.finishRev r m).rrsIn = s.rrsIn := rfl
@[simp] theorem State.finishRev_hadIn (s : State) (r : Rev) (m : Memory) : (s.finishRev r m).hadIn = s.hadIn := rfl
@[simp] theorem State.finishRev_dvnIn (s : State) (r : Rev) (m : Memory) : (s.finishRev r m).dvnIn = s.dvnIn := rfl
@[simp] theorem State.finishRev_diffIn (s : State) (r : Rev) (m : Memory) : (s.finishRev r m).diffIn = s.diffIn := rfl
@[simp] theorem State.finishRev_fdnIn (s : State) (r : Rev) (m : Memory) : (s.finishRev r m).fdnIn = s.fdnIn := rfl
@[simp] theorem State.finishRev_dlOut (s : State) (r : Rev) (m : Memory) : (s.finishRev r m).dlOut = s.dlOut := rfl
@[simp] theorem State.finishRev_rrsOut (s : State) (r : Rev) (m : Memory) : (s.finishRev r m).rrsOut = s.rrsOut := rfl
@[simp] theorem State.finishRev_hadOut (s : State) (r : Rev) (m : Memory) : (s.finishRev r m).hadOut = s.hadOut := rfl
@[simp] theorem State.finishRev_dvnOut (s : State) (r : Rev) (m : Memory) : (s.finishRev r m).dvnOut = s.dvnOut := rfl
@[simp] theorem State.finishRev_diffOut (s : State) (r : Rev) (m : Memory) : (s.finishRev r m).diffOut = s.diffOut := rfl
@[simp] theorem State.finishRev_fdnOut (s : State) (r : Rev) (m : Memory) : (s.finishRev r m).fdnOut = s.fdnOut := rfl
@[simp] theorem State.finishRev_rev (s : State) (r : Rev) (m : Memory) : (s.finishRev r m).rev = { r with pending := none } := rfl
@[simp] theorem State.finishRev_iobuf (s : State) (r : Rev) (m : Memory) : (s.finishRev r m).iobuf = m := rfl
@[simp] theorem State.finishRev_reply (s : State) (r : Rev) (m : Memory) : (s.finishRev r m).reply = s.reply := rfl
@[simp] theorem State.finishRev_params (s : State) (r : Rev) (m : Memory) : (s.finishRev r m).params = s.params := rfl
@[simp] theorem State.finishRev_program (s : State) (r : Rev) (m : Memory) : (s.finishRev r m).program = s.program := rfl
@[simp] theorem State.finishRev_stopped (s : State) (r : Rev) (m : Memory) : (s.finishRev r m).stopped = s.stopped := rfl
@[simp] theorem State.finishRev_latencies (s : State) (r : Rev) (m : Memory) : (s.finishRev r m).latencies = s.latencies := rfl
@[simp] theorem State.finishRev_busyLeft (s : State) (r : Rev) (m : Memory) : (s.finishRev r m).busyLeft = 0 := rfl
@[simp] theorem State.finishRev_draws (s : State) (r : Rev) (m : Memory) : (s.finishRev r m).draws = s.draws + 1 := rfl
@[simp] theorem State.finishRev_epoch (s : State) (r : Rev) (m : Memory) : (s.finishRev r m).epoch = s.epoch := rfl

/-! `State.putReply` -/

@[simp] theorem State.putReply_dl (s : State) (p : Reply) : (s.putReply p).dl = s.dl := rfl
@[simp] theorem State.putReply_rrs (s : State) (p : Reply) : (s.putReply p).rrs = s.rrs := rfl
@[simp] theorem State.putReply_dvn (s : State) (p : Reply) : (s.putReply p).dvn = s.dvn := rfl
@[simp] theorem State.putReply_diff (s : State) (p : Reply) : (s.putReply p).diff = s.diff := rfl
@[simp] theorem State.putReply_fdn (s : State) (p : Reply) : (s.putReply p).fdn = s.fdn := rfl
@[simp] theorem State.putReply_dlIn (s : State) (p : Reply) : (s.putReply p).dlIn = s.dlIn := rfl
@[simp] theorem State.putReply_rrsIn (s : State) (p : Reply) : (s.putReply p).rrsIn = s.rrsIn := rfl
@[simp] theorem State.putReply_hadIn (s : State) (p : Reply) : (s.putReply p).hadIn = s.hadIn := rfl
@[simp] theorem State.putReply_dvnIn (s : State) (p : Reply) : (s.putReply p).dvnIn = s.dvnIn := rfl
@[simp] theorem State.putReply_diffIn (s : State) (p : Reply) : (s.putReply p).diffIn = s.diffIn := rfl
@[simp] theorem State.putReply_fdnIn (s : State) (p : Reply) : (s.putReply p).fdnIn = s.fdnIn := rfl
@[simp] theorem State.putReply_dlOut (s : State) (p : Reply) : (s.putReply p).dlOut = s.dlOut := rfl
@[simp] theorem State.putReply_rrsOut (s : State) (p : Reply) : (s.putReply p).rrsOut = s.rrsOut := rfl
@[simp] theorem State.putReply_hadOut (s : State) (p : Reply) : (s.putReply p).hadOut = s.hadOut := rfl
@[simp] theorem State.putReply_dvnOut (s : State) (p : Reply) : (s.putReply p).dvnOut = s.dvnOut := rfl
@[simp] theorem State.putReply_diffOut (s : State) (p : Reply) : (s.putReply p).diffOut = s.diffOut := rfl
@[simp] theorem State.putReply_fdnOut (s : State) (p : Reply) : (s.putReply p).fdnOut = s.fdnOut := rfl
@[simp] theorem State.putReply_rev (s : State) (p : Reply) : (s.putReply p).rev = s.rev := rfl
@[simp] theorem State.putReply_iobuf (s : State) (p : Reply) : (s.putReply p).iobuf = s.iobuf := rfl
@[simp] theorem State.putReply_reply (s : State) (p : Reply) : (s.putReply p).reply = p := rfl
@[simp] theorem State.putReply_params (s : State) (p : Reply) : (s.putReply p).params = s.params := rfl
@[simp] theorem State.putReply_program (s : State) (p : Reply) : (s.putReply p).program = s.program := rfl
@[simp] theorem State.putReply_stopped (s : State) (p : Reply) : (s.putReply p).stopped = s.stopped := rfl
@[simp] theorem State.putReply_latencies (s : State) (p : Reply) : (s.putReply p).latencies = s.latencies := rfl
@[simp] theorem State.putReply_busyLeft (s : State) (p : Reply) : (s.putReply p).busyLeft = s.busyLeft := rfl
@[simp] theorem State.putReply_draws (s : State) (p : Reply) : (s.putReply p).draws = s.draws := rfl
@[simp] theorem State.putReply_epoch (s : State) (p : Reply) : (s.putReply p).epoch = s.epoch := rfl

/-! `State.drawOne` -/

@[simp] theorem State.drawOne_dl (s : State) : s.drawOne.dl = s.dl := rfl
@[simp] theorem State.drawOne_rrs (s : State) : s.drawOne.rrs = s.rrs := rfl
@[simp] theorem State.drawOne_dvn (s : State) : s.drawOne.dvn = s.dvn := rfl
@[simp] theorem State.drawOne_diff (s : State) : s.drawOne.diff = s.diff := rfl
@[simp] theorem State.drawOne_fdn (s : State) : s.drawOne.fdn = s.fdn := rfl
@[simp] theorem State.drawOne_dlIn (s : State) : s.drawOne.dlIn = s.dlIn := rfl
@[simp] theorem State.drawOne_rrsIn (s : State) : s.drawOne.rrsIn = s.rrsIn := rfl
@[simp] theorem State.drawOne_hadIn (s : State) : s.drawOne.hadIn = s.hadIn := rfl
@[simp] theorem State.drawOne_dvnIn (s : State) : s.drawOne.dvnIn = s.dvnIn := rfl
@[simp] theorem State.drawOne_diffIn (s : State) : s.drawOne.diffIn = s.diffIn := rfl
@[simp] theorem State.drawOne_fdnIn (s : State) : s.drawOne.fdnIn = s.fdnIn := rfl
@[simp] theorem State.drawOne_dlOut (s : State) : s.drawOne.dlOut = s.dlOut := rfl
@[simp] theorem State.drawOne_rrsOut (s : State) : s.drawOne.rrsOut = s.rrsOut := rfl
@[simp] theorem State.drawOne_hadOut (s : State) : s.drawOne.hadOut = s.hadOut := rfl
@[simp] theorem State.drawOne_dvnOut (s : State) : s.drawOne.dvnOut = s.dvnOut := rfl
@[simp] theorem State.drawOne_diffOut (s : State) : s.drawOne.diffOut = s.diffOut := rfl
@[simp] theorem State.drawOne_fdnOut (s : State) : s.drawOne.fdnOut = s.fdnOut := rfl
@[simp] theorem State.drawOne_rev (s : State) : s.drawOne.rev = s.rev := rfl
@[simp] theorem State.drawOne_iobuf (s : State) : s.drawOne.iobuf = s.iobuf := rfl
@[simp] theorem State.drawOne_reply (s : State) : s.drawOne.reply = s.reply := rfl
@[simp] theorem State.drawOne_params (s : State) : s.drawOne.params = s.params := rfl
@[simp] theorem State.drawOne_program (s : State) : s.drawOne.program = s.program := rfl
@[simp] theorem State.drawOne_stopped (s : State) : s.drawOne.stopped = s.stopped := rfl
@[simp] theorem State.drawOne_latencies (s : State) : s.drawOne.latencies = s.latencies := rfl
@[simp] theorem State.drawOne_busyLeft (s : State) : s.drawOne.busyLeft = s.busyLeft := rfl
@[simp] theorem State.drawOne_draws (s : State) : s.drawOne.draws = s.draws + 1 := rfl
@[simp] theorem State.drawOne_epoch (s : State) : s.drawOne.epoch = s.epoch := rfl

/-! `State.acceptCmd` -/

@[simp] theorem State.acceptCmd_dl (s : State) (v : Word) : (s.acceptCmd v).dl = s.dl := rfl
@[simp] theorem State.acceptCmd_rrs (s : State) (v : Word) : (s.acceptCmd v).rrs = s.rrs := rfl
@[simp] theorem State.acceptCmd_dvn (s : State) (v : Word) : (s.acceptCmd v).dvn = s.dvn := rfl
@[simp] theorem State.acceptCmd_diff (s : State) (v : Word) : (s.acceptCmd v).diff = s.diff := rfl
@[simp] theorem State.acceptCmd_fdn (s : State) (v : Word) : (s.acceptCmd v).fdn = s.fdn := rfl
@[simp] theorem State.acceptCmd_dlIn (s : State) (v : Word) : (s.acceptCmd v).dlIn = s.dlIn := rfl
@[simp] theorem State.acceptCmd_rrsIn (s : State) (v : Word) : (s.acceptCmd v).rrsIn = s.rrsIn := rfl
@[simp] theorem State.acceptCmd_hadIn (s : State) (v : Word) : (s.acceptCmd v).hadIn = s.hadIn := rfl
@[simp] theorem State.acceptCmd_dvnIn (s : State) (v : Word) : (s.acceptCmd v).dvnIn = s.dvnIn := rfl
@[simp] theorem State.acceptCmd_diffIn (s : State) (v : Word) : (s.acceptCmd v).diffIn = s.diffIn := rfl
@[simp] theorem State.acceptCmd_fdnIn (s : State) (v : Word) : (s.acceptCmd v).fdnIn = s.fdnIn := rfl
@[simp] theorem State.acceptCmd_dlOut (s : State) (v : Word) : (s.acceptCmd v).dlOut = s.dlOut := rfl
@[simp] theorem State.acceptCmd_rrsOut (s : State) (v : Word) : (s.acceptCmd v).rrsOut = s.rrsOut := rfl
@[simp] theorem State.acceptCmd_hadOut (s : State) (v : Word) : (s.acceptCmd v).hadOut = s.hadOut := rfl
@[simp] theorem State.acceptCmd_dvnOut (s : State) (v : Word) : (s.acceptCmd v).dvnOut = s.dvnOut := rfl
@[simp] theorem State.acceptCmd_diffOut (s : State) (v : Word) : (s.acceptCmd v).diffOut = s.diffOut := rfl
@[simp] theorem State.acceptCmd_fdnOut (s : State) (v : Word) : (s.acceptCmd v).fdnOut = s.fdnOut := rfl
@[simp] theorem State.acceptCmd_rev (s : State) (v : Word) : (s.acceptCmd v).rev = { s.rev with pending := some v } := rfl
@[simp] theorem State.acceptCmd_iobuf (s : State) (v : Word) : (s.acceptCmd v).iobuf = s.iobuf := rfl
@[simp] theorem State.acceptCmd_reply (s : State) (v : Word) : (s.acceptCmd v).reply = s.reply := rfl
@[simp] theorem State.acceptCmd_params (s : State) (v : Word) : (s.acceptCmd v).params = s.params := rfl
@[simp] theorem State.acceptCmd_program (s : State) (v : Word) : (s.acceptCmd v).program = s.program := rfl
@[simp] theorem State.acceptCmd_stopped (s : State) (v : Word) : (s.acceptCmd v).stopped = s.stopped := rfl
@[simp] theorem State.acceptCmd_latencies (s : State) (v : Word) : (s.acceptCmd v).latencies = s.latencies.tail := rfl
@[simp] theorem State.acceptCmd_busyLeft (s : State) (v : Word) : (s.acceptCmd v).busyLeft = s.latencies.headD 0 := rfl
@[simp] theorem State.acceptCmd_draws (s : State) (v : Word) : (s.acceptCmd v).draws = s.draws := rfl
@[simp] theorem State.acceptCmd_epoch (s : State) (v : Word) : (s.acceptCmd v).epoch = s.epoch := rfl

/-! `State.setProgram` -/

@[simp] theorem State.setProgram_dl (s : State) (p : List HostStmt) : (s.setProgram p).dl = s.dl := rfl
@[simp] theorem State.setProgram_rrs (s : State) (p : List HostStmt) : (s.setProgram p).rrs = s.rrs := rfl
@[simp] theorem State.setProgram_dvn (s : State) (p : List HostStmt) : (s.setProgram p).dvn = s.dvn := rfl
@[simp] theorem State.setProgram_diff (s : State) (p : List HostStmt) : (s.setProgram p).diff = s.diff := rfl
@[simp] theorem State.setProgram_fdn (s : State) (p : List HostStmt) : (s.setProgram p).fdn = s.fdn := rfl
@[simp] theorem State.setProgram_dlIn (s : State) (p : List HostStmt) : (s.setProgram p).dlIn = s.dlIn := rfl
@[simp] theorem State.setProgram_rrsIn (s : State) (p : List HostStmt) : (s.setProgram p).rrsIn = s.rrsIn := rfl
@[simp] theorem State.setProgram_hadIn (s : State) (p : List HostStmt) : (s.setProgram p).hadIn = s.hadIn := rfl
@[simp] theorem State.setProgram_dvnIn (s : State) (p : List HostStmt) : (s.setProgram p).dvnIn = s.dvnIn := rfl
@[simp] theorem State.setProgram_diffIn (s : State) (p : List HostStmt) : (s.setProgram p).diffIn = s.diffIn := rfl
@[simp] theorem State.setProgram_fdnIn (s : State) (p : List HostStmt) : (s.setProgram p).fdnIn = s.fdnIn := rfl
@[simp] theorem State.setProgram_dlOut (s : State) (p : List HostStmt) : (s.setProgram p).dlOut = s.dlOut := rfl
@[simp] theorem State.setProgram_rrsOut (s : State) (p : List HostStmt) : (s.setProgram p).rrsOut = s.rrsOut := rfl
@[simp] theorem State.setProgram_hadOut (s : State) (p : List HostStmt) : (s.setProgram p).hadOut = s.hadOut := rfl
@[simp] theorem State.setProgram_dvnOut (s : State) (p : List HostStmt) : (s.setProgram p).dvnOut = s.dvnOut := rfl
@[simp] theorem State.setProgram_diffOut (s : State) (p : List HostStmt) : (s.setProgram p).diffOut = s.diffOut := rfl
@[simp] theorem State.setProgram_fdnOut (s : State) (p : List HostStmt) : (s.setProgram p).fdnOut = s.fdnOut := rfl
@[simp] theorem State.setProgram_rev (s : State) (p : List HostStmt) : (s.setProgram p).rev = s.rev := rfl
@[simp] theorem State.setProgram_iobuf (s : State) (p : List HostStmt) : (s.setProgram p).iobuf = s.iobuf := rfl
@[simp] theorem State.setProgram_reply (s : State) (p : List HostStmt) : (s.setProgram p).reply = s.reply := rfl
@[simp] theorem State.setProgram_params (s : State) (p : List HostStmt) : (s.setProgram p).params = s.params := rfl
@[simp] theorem State.setProgram_program (s : State) (p : List HostStmt) : (s.setProgram p).program = p := rfl
@[simp] theorem State.setProgram_stopped (s : State) (p : List HostStmt) : (s.setProgram p).stopped = s.stopped := rfl
@[simp] theorem State.setProgram_latencies (s : State) (p : List HostStmt) : (s.setProgram p).latencies = s.latencies := rfl
@[simp] theorem State.setProgram_busyLeft (s : State) (p : List HostStmt) : (s.setProgram p).busyLeft = s.busyLeft := rfl
@[simp] theorem State.setProgram_draws (s : State) (p : List HostStmt) : (s.setProgram p).draws = s.draws := rfl
@[simp] theorem State.setProgram_epoch (s : State) (p : List HostStmt) : (s.setProgram p).epoch = s.epoch := rfl

/-! `State.popStmt` -/

@[simp] theorem State.popStmt_dl (s : State) (p : List HostStmt) : (s.popStmt p).dl = s.dl := rfl
@[simp] theorem State.popStmt_rrs (s : State) (p : List HostStmt) : (s.popStmt p).rrs = s.rrs := rfl
@[simp] theorem State.popStmt_dvn (s : State) (p : List HostStmt) : (s.popStmt p).dvn = s.dvn := rfl
@[simp] theorem State.popStmt_diff (s : State) (p : List HostStmt) : (s.popStmt p).diff = s.diff := rfl
@[simp] theorem State.popStmt_fdn (s : State) (p : List HostStmt) : (s.popStmt p).fdn = s.fdn := rfl
@[simp] theorem State.popStmt_dlIn (s : State) (p : List HostStmt) : (s.popStmt p).dlIn = s.dlIn := rfl
@[simp] theorem State.popStmt_rrsIn (s : State) (p : List HostStmt) : (s.popStmt p).rrsIn = s.rrsIn := rfl
@[simp] theorem State.popStmt_hadIn (s : State) (p : List HostStmt) : (s.popStmt p).hadIn = s.hadIn := rfl
@[simp] theorem State.popStmt_dvnIn (s : State) (p : List HostStmt) : (s.popStmt p).dvnIn = s.dvnIn := rfl
@[simp] theorem State.popStmt_diffIn (s : State) (p : List HostStmt) : (s.popStmt p).diffIn = s.diffIn := rfl
@[simp] theorem State.popStmt_fdnIn (s : State) (p : List HostStmt) : (s.popStmt p).fdnIn = s.fdnIn := rfl
@[simp] theorem State.popStmt_dlOut (s : State) (p : List HostStmt) : (s.popStmt p).dlOut = s.dlOut := rfl
@[simp] theorem State.popStmt_rrsOut (s : State) (p : List HostStmt) : (s.popStmt p).rrsOut = s.rrsOut := rfl
@[simp] theorem State.popStmt_hadOut (s : State) (p : List HostStmt) : (s.popStmt p).hadOut = s.hadOut := rfl
@[simp] theorem State.popStmt_dvnOut (s : State) (p : List HostStmt) : (s.popStmt p).dvnOut = s.dvnOut := rfl
@[simp] theorem State.popStmt_diffOut (s : State) (p : List HostStmt) : (s.popStmt p).diffOut = s.diffOut := rfl
@[simp] theorem State.popStmt_fdnOut (s : State) (p : List HostStmt) : (s.popStmt p).fdnOut = s.fdnOut := rfl
@[simp] theorem State.popStmt_rev (s : State) (p : List HostStmt) : (s.popStmt p).rev = s.rev := rfl
@[simp] theorem State.popStmt_iobuf (s : State) (p : List HostStmt) : (s.popStmt p).iobuf = s.iobuf := rfl
@[simp] theorem State.popStmt_reply (s : State) (p : List HostStmt) : (s.popStmt p).reply = s.reply := rfl
@[simp] theorem State.popStmt_params (s : State) (p : List HostStmt) : (s.popStmt p).params = s.params := rfl
@[simp] theorem State.popStmt_program (s : State) (p : List HostStmt) : (s.popStmt p).program = p := rfl
@[simp] theorem State.popStmt_stopped (s : State) (p : List HostStmt) : (s.popStmt p).stopped = s.stopped := rfl
@[simp] theorem State.popStmt_latencies (s : State) (p : List HostStmt) : (s.popStmt p).latencies = s.latencies := rfl
@[simp] theorem State.popStmt_busyLeft (s : State) (p : List HostStmt) : (s.popStmt p).busyLeft = s.busyLeft - 1 := rfl
@[simp] theorem State.popStmt_draws (s : State) (p : List HostStmt) : (s.popStmt p).draws = s.draws := rfl
@[simp] theorem State.popStmt_epoch (s : State) (p : List HostStmt) : (s.popStmt p).epoch = s.epoch := rfl

/-! `State.readStatus` -/

@[simp] theorem State.readStatus_dl (s : State) : s.readStatus.dl = s.dl := rfl
@[simp] theorem State.readStatus_rrs (s : State) : s.readStatus.rrs = s.rrs := rfl
@[simp] theorem State.readStatus_dvn (s : State) : s.readStatus.dvn = s.dvn := rfl
@[simp] theorem State.readStatus_diff (s : State) : s.readStatus.diff = s.diff := rfl
@[simp] theorem State.readStatus_fdn (s : State) : s.readStatus.fdn = s.fdn := rfl
@[simp] theorem State.readStatus_dlIn (s : State) : s.readStatus.dlIn = s.dlIn := rfl
@[simp] theorem State.readStatus_rrsIn (s : State) : s.readStatus.rrsIn = s.rrsIn := rfl
@[simp] theorem State.readStatus_hadIn (s : State) : s.readStatus.hadIn = s.hadIn := rfl
@[simp] theorem State.readStatus_dvnIn (s : State) : s.readStatus.dvnIn = s.dvnIn := rfl
@[simp] theorem State.readStatus_diffIn (s : State) : s.readStatus.diffIn = s.diffIn := rfl
@[simp] theorem State.readStatus_fdnIn (s : State) : s.readStatus.fdnIn = s.fdnIn := rfl
@[simp] theorem State.readStatus_dlOut (s : State) : s.readStatus.dlOut = s.dlOut := rfl
@[simp] theorem State.readStatus_rrsOut (s : State) : s.readStatus.rrsOut = s.rrsOut := rfl
@[simp] theorem State.readStatus_hadOut (s : State) : s.readStatus.hadOut = s.hadOut := rfl
@[simp] theorem State.readStatus_dvnOut (s : State) : s.readStatus.dvnOut = s.dvnOut := rfl
@[simp] theorem State.readStatus_diffOut (s : State) : s.readStatus.diffOut = s.diffOut := rfl
@[simp] theorem State.readStatus_fdnOut (s : State) : s.readStatus.fdnOut = s.fdnOut := rfl
@[simp] theorem State.readStatus_rev (s : State) : s.readStatus.rev = s.rev := rfl
@[simp] theorem State.readStatus_iobuf (s : State) : s.readStatus.iobuf = s.iobuf := rfl
@[simp] theorem State.readStatus_reply (s : State) : s.readStatus.reply = .read .okay s.rev.statusWord := rfl
@[simp] theorem State.readStatus_params (s : State) : s.readStatus.params = s.params := rfl
@[simp] theorem State.readStatus_program (s : State) : s.readStatus.program = s.program := rfl
@[simp] theorem State.readStatus_stopped (s : State) : s.readStatus.stopped = s.stopped := rfl
@[simp] theorem State.readStatus_latencies (s : State) : s.readStatus.latencies = s.latencies := rfl
@[simp] theorem State.readStatus_busyLeft (s : State) : s.readStatus.busyLeft = s.busyLeft := rfl
@[simp] theorem State.readStatus_draws (s : State) : s.readStatus.draws = s.draws := rfl
@[simp] theorem State.readStatus_epoch (s : State) : s.readStatus.epoch = s.epoch := rfl

/-! `State.afterReset` -/

@[simp] theorem State.afterReset_dl (s : State) : s.afterReset.dl = State.reset.dl := rfl
@[simp] theorem State.afterReset_rrs (s : State) : s.afterReset.rrs = State.reset.rrs := rfl
@[simp] theorem State.afterReset_dvn (s : State) : s.afterReset.dvn = State.reset.dvn := rfl
@[simp] theorem State.afterReset_diff (s : State) : s.afterReset.diff = State.reset.diff := rfl
@[simp] theorem State.afterReset_fdn (s : State) : s.afterReset.fdn = State.reset.fdn := rfl
@[simp] theorem State.afterReset_dlIn (s : State) : s.afterReset.dlIn = State.reset.dlIn := rfl
@[simp] theorem State.afterReset_rrsIn (s : State) : s.afterReset.rrsIn = State.reset.rrsIn := rfl
@[simp] theorem State.afterReset_hadIn (s : State) : s.afterReset.hadIn = State.reset.hadIn := rfl
@[simp] theorem State.afterReset_dvnIn (s : State) : s.afterReset.dvnIn = State.reset.dvnIn := rfl
@[simp] theorem State.afterReset_diffIn (s : State) : s.afterReset.diffIn = State.reset.diffIn := rfl
@[simp] theorem State.afterReset_fdnIn (s : State) : s.afterReset.fdnIn = State.reset.fdnIn := rfl
@[simp] theorem State.afterReset_dlOut (s : State) : s.afterReset.dlOut = State.reset.dlOut := rfl
@[simp] theorem State.afterReset_rrsOut (s : State) : s.afterReset.rrsOut = State.reset.rrsOut := rfl
@[simp] theorem State.afterReset_hadOut (s : State) : s.afterReset.hadOut = State.reset.hadOut := rfl
@[simp] theorem State.afterReset_dvnOut (s : State) : s.afterReset.dvnOut = State.reset.dvnOut := rfl
@[simp] theorem State.afterReset_diffOut (s : State) : s.afterReset.diffOut = State.reset.diffOut := rfl
@[simp] theorem State.afterReset_fdnOut (s : State) : s.afterReset.fdnOut = State.reset.fdnOut := rfl
@[simp] theorem State.afterReset_rev (s : State) : s.afterReset.rev = State.reset.rev := rfl
@[simp] theorem State.afterReset_iobuf (s : State) : s.afterReset.iobuf = State.reset.iobuf := rfl
@[simp] theorem State.afterReset_reply (s : State) : s.afterReset.reply = State.reset.reply := rfl
@[simp] theorem State.afterReset_params (s : State) : s.afterReset.params = s.params := rfl
@[simp] theorem State.afterReset_program (s : State) : s.afterReset.program = s.program := rfl
@[simp] theorem State.afterReset_stopped (s : State) : s.afterReset.stopped = s.stopped := rfl
@[simp] theorem State.afterReset_latencies (s : State) : s.afterReset.latencies = s.latencies := rfl
@[simp] theorem State.afterReset_busyLeft (s : State) : s.afterReset.busyLeft = State.reset.busyLeft := rfl
@[simp] theorem State.afterReset_draws (s : State) : s.afterReset.draws = s.draws := rfl
@[simp] theorem State.afterReset_epoch (s : State) : s.afterReset.epoch = s.epoch + 1 := rfl

/-! `State.setOperands` -/

@[simp] theorem State.setOperands_dl (s : State) (o : Operands) : (s.setOperands o).dl = s.dl := by
  cases o <;> rfl
@[simp] theorem State.setOperands_rrs (s : State) (o : Operands) : (s.setOperands o).rrs = s.rrs := by
  cases o <;> rfl
@[simp] theorem State.setOperands_dvn (s : State) (o : Operands) : (s.setOperands o).dvn = s.dvn := by
  cases o <;> rfl
@[simp] theorem State.setOperands_diff (s : State) (o : Operands) : (s.setOperands o).diff = s.diff := by
  cases o <;> rfl
@[simp] theorem State.setOperands_fdn (s : State) (o : Operands) : (s.setOperands o).fdn = s.fdn := by
  cases o <;> rfl
@[simp] theorem State.setOperands_dlOut (s : State) (o : Operands) : (s.setOperands o).dlOut = s.dlOut := by
  cases o <;> rfl
@[simp] theorem State.setOperands_rrsOut (s : State) (o : Operands) : (s.setOperands o).rrsOut = s.rrsOut := by
  cases o <;> rfl
@[simp] theorem State.setOperands_hadOut (s : State) (o : Operands) : (s.setOperands o).hadOut = s.hadOut := by
  cases o <;> rfl
@[simp] theorem State.setOperands_dvnOut (s : State) (o : Operands) : (s.setOperands o).dvnOut = s.dvnOut := by
  cases o <;> rfl
@[simp] theorem State.setOperands_diffOut (s : State) (o : Operands) : (s.setOperands o).diffOut = s.diffOut := by
  cases o <;> rfl
@[simp] theorem State.setOperands_fdnOut (s : State) (o : Operands) : (s.setOperands o).fdnOut = s.fdnOut := by
  cases o <;> rfl
@[simp] theorem State.setOperands_rev (s : State) (o : Operands) : (s.setOperands o).rev = s.rev := by
  cases o <;> rfl
@[simp] theorem State.setOperands_iobuf (s : State) (o : Operands) : (s.setOperands o).iobuf = s.iobuf := by
  cases o <;> rfl
@[simp] theorem State.setOperands_reply (s : State) (o : Operands) : (s.setOperands o).reply = s.reply := by
  cases o <;> rfl
@[simp] theorem State.setOperands_params (s : State) (o : Operands) : (s.setOperands o).params = s.params := by
  cases o <;> rfl
@[simp] theorem State.setOperands_program (s : State) (o : Operands) : (s.setOperands o).program = s.program := by
  cases o <;> rfl
@[simp] theorem State.setOperands_stopped (s : State) (o : Operands) : (s.setOperands o).stopped = s.stopped := by
  cases o <;> rfl
@[simp] theorem State.setOperands_latencies (s : State) (o : Operands) : (s.setOperands o).latencies = s.latencies := by
  cases o <;> rfl
@[simp] theorem State.setOperands_busyLeft (s : State) (o : Operands) : (s.setOperands o).busyLeft = s.busyLeft := by
  cases o <;> rfl
@[simp] theorem State.setOperands_draws (s : State) (o : Operands) : (s.setOperands o).draws = s.draws := by
  cases o <;> rfl
@[simp] theorem State.setOperands_epoch (s : State) (o : Operands) : (s.setOperands o).epoch = s.epoch := by
  cases o <;> rfl
@[simp] theorem State.setOperands_at_dl (s : State) (o : DlOperands) : s.setOperands (.dl o) = { s with dlIn := o } := rfl
@[simp] theorem State.setOperands_at_rrs (s : State) (o : RrsOperands) : s.setOperands (.rrs o) = { s with rrsIn := o } := rfl
@[simp] theorem State.setOperands_had (s : State) (o : HadOperands) : s.setOperands (.had o) = { s with hadIn := o } := rfl
@[simp] theorem State.setOperands_at_dvn (s : State) (o : DvnOperands) : s.setOperands (.dvn o) = { s with dvnIn := o } := rfl
@[simp] theorem State.setOperands_at_diff (s : State) (o : DiffOperands) : s.setOperands (.diff o) = { s with diffIn := o } := rfl
@[simp] theorem State.setOperands_at_fdn (s : State) (o : FdnOperands) : s.setOperands (.fdn o) = { s with fdnIn := o } := rfl

/-! `Dl.push` -/

@[simp] theorem Dl.push_cfg (d : Dl) (x : F32) : (d.push x).cfg = d.cfg := rfl
@[simp] theorem Dl.push_m (d : Dl) (x : F32) : (d.push x).m = d.m := rfl
@[simp] theorem Dl.push_maxblk (d : Dl) (x : F32) : (d.push x).maxblk = d.maxblk := rfl
@[simp] theorem Dl.push_b (d : Dl) (x : F32) : (d.push x).b = d.b := rfl
@[simp] theorem Dl.push_g (d : Dl) (x : F32) : (d.push x).g = d.g := rfl
@[simp] theorem Dl.push_w (d : Dl) (x : F32) : (d.push x).w = d.slot (d.w + 1) := rfl
@[simp] theorem Dl.push_ring (d : Dl) (x : F32) : (d.push x).ring = d.ring.write d.w x := rfl

/-! `Dl.writeBlock` -/

@[simp] theorem Dl.writeBlock_cfg (d : Dl) (xs : List F32) : (d.writeBlock xs).cfg = d.cfg := rfl
@[simp] theorem Dl.writeBlock_m (d : Dl) (xs : List F32) : (d.writeBlock xs).m = d.m := rfl
@[simp] theorem Dl.writeBlock_maxblk (d : Dl) (xs : List F32) : (d.writeBlock xs).maxblk = d.maxblk := rfl
@[simp] theorem Dl.writeBlock_b (d : Dl) (xs : List F32) : (d.writeBlock xs).b = d.b := rfl
@[simp] theorem Dl.writeBlock_g (d : Dl) (xs : List F32) : (d.writeBlock xs).g = d.g := rfl
@[simp] theorem Dl.writeBlock_w (d : Dl) (xs : List F32) : (d.writeBlock xs).w = d.slot ((d.w : Int) + xs.length) := rfl
@[simp] theorem Dl.writeBlock_ring (d : Dl) (xs : List F32) : (d.writeBlock xs).ring = d.writeSlots 0 xs d.ring := rfl

/-! `Rrs.setEps` -/

@[simp] theorem Rrs.setEps_cfg (f : Rrs) (eps : F32) : (f.setEps eps).cfg = f.cfg := rfl
@[simp] theorem Rrs.setEps_width (f : Rrs) (eps : F32) : (f.setEps eps).width = f.width := rfl
@[simp] theorem Rrs.setEps_eps (f : Rrs) (eps : F32) : (f.setEps eps).eps = eps := rfl
@[simp] theorem Rrs.setEps_a (f : Rrs) (eps : F32) : (f.setEps eps).a = rrsCoeffA eps := rfl
@[simp] theorem Rrs.setEps_c (f : Rrs) (eps : F32) : (f.setEps eps).c = rrsCoeffC (rrsCoeffA eps) f.width := rfl
@[simp] theorem Rrs.setEps_xl (f : Rrs) (eps : F32) : (f.setEps eps).xl = f.xl := rfl
@[simp] theorem Rrs.setEps_yl (f : Rrs) (eps : F32) : (f.setEps eps).yl = f.yl := rfl

@[simp] theorem Rrs.push_cfg (draw : Nat) (f : Rrs) (x : F32) : (f.push draw x).cfg = f.cfg := rfl
@[simp] theorem Rrs.push_width (draw : Nat) (f : Rrs) (x : F32) : (f.push draw x).width = f.width := rfl
@[simp] theorem Rrs.push_eps (draw : Nat) (f : Rrs) (x : F32) : (f.push draw x).eps = f.eps := rfl
@[simp] theorem Rrs.push_a (draw : Nat) (f : Rrs) (x : F32) : (f.push draw x).a = f.a := rfl
@[simp] theorem Rrs.push_c (draw : Nat) (f : Rrs) (x : F32) : (f.push draw x).c = f.c := rfl
@[simp] theorem Rrs.push_xl (draw : Nat) (f : Rrs) (x : F32) : (f.push draw x).xl = f.xl.push x := rfl
@[simp] theorem Rrs.push_yl (draw : Nat) (f : Rrs) (x : F32) : (f.push draw x).yl = f.yl.push (f.out draw x) := rfl

/-! `Rev.setErr` -/

@[simp] theorem Rev.setErr_err (r : Rev) (e : Err) : (r.setErr e).err = true := rfl
@[simp] theorem Rev.setErr_errcode (r : Rev) (e : Err) : (r.setErr e).errcode = e.code := rfl
@[simp] theorem Rev.setErr_seed (r : Rev) (e : Err) : (r.setErr e).seed = r.seed := rfl
@[simp] theorem Rev.setErr_fs (r : Rev) (e : Err) : (r.setErr e).fs = r.fs := rfl
@[simp] theorem Rev.setErr_maxblk (r : Rev) (e : Err) : (r.setErr e).maxblk = r.maxblk := rfl
@[simp] theorem Rev.setErr_nch (r : Rev) (e : Err) : (r.setErr e).nch = r.nch := rfl
@[simp] theorem Rev.setErr_nlen (r : Rev) (e : Err) : (r.setErr e).nlen = r.nlen := rfl
@[simp] theorem Rev.setErr_mix (r : Rev) (e : Err) : (r.setErr e).mix = r.mix := rfl
@[simp] theorem Rev.setErr_width (r : Rev) (e : Err) : (r.setErr e).width = r.width := rfl
@[simp] theorem Rev.setErr_lowpass (r : Rev) (e : Err) : (r.setErr e).lowpass = r.lowpass := rfl
@[simp] theorem Rev.setErr_highpass (r : Rev) (e : Err) : (r.setErr e).highpass = r.highpass := rfl
@[simp] theorem Rev.setErr_dampening (r : Rev) (e : Err) : (r.setErr e).dampening = r.dampening := rfl
@[simp] theorem Rev.setErr_roomsize (r : Rev) (e : Err) : (r.setErr e).roomsize = r.roomsize := rfl
@[simp] theorem Rev.setErr_initdelay (r : Rev) (e : Err) : (r.setErr e).initdelay = r.initdelay := rfl
@[simp] theorem Rev.setErr_cfgFs (r : Rev) (e : Err) : (r.setErr e).cfgFs = r.cfgFs := rfl
@[simp] theorem Rev.setErr_cfgMaxblk (r : Rev) (e : Err) : (r.setErr e).cfgMaxblk = r.cfgMaxblk := rfl
@[simp] theorem Rev.setErr_configured (r : Rev) (e : Err) : (r.setErr e).configured = r.configured := rfl
@[simp] theorem Rev.setErr_rng (r : Rev) (e : Err) : (r.setErr e).rng = r.rng := rfl
@[simp] theorem Rev.setErr_cprev (r : Rev) (e : Err) : (r.setErr e).cprev = r.cprev := rfl
@[simp] theorem Rev.setErr_mpd (r : Rev) (e : Err) : (r.setErr e).mpd = r.mpd := rfl
@[simp] theorem Rev.setErr_pd (r : Rev) (e : Err) : (r.setErr e).pd = r.pd := rfl
@[simp] theorem Rev.setErr_hs (r : Rev) (e : Err) : (r.setErr e).hs = r.hs := rfl
@[simp] theorem Rev.setErr_ls (r : Rev) (e : Err) : (r.setErr e).ls = r.ls := rfl
@[simp] theorem Rev.setErr_d1 (r : Rev) (e : Err) : (r.setErr e).d1 = r.d1 := rfl
@[simp] theorem Rev.setErr_d2 (r : Rev) (e : Err) : (r.setErr e).d2 = r.d2 := rfl
@[simp] theorem Rev.setErr_d3 (r : Rev) (e : Err) : (r.setErr e).d3 = r.d3 := rfl
@[simp] theorem Rev.setErr_f1 (r : Rev) (e : Err) : (r.setErr e).f1 = r.f1 := rfl
@[simp] theorem Rev.setErr_f2 (r : Rev) (e : Err) : (r.setErr e).f2 = r.f2 := rfl
@[simp] theorem Rev.setErr_pending (r : Rev) (e : Err) : (r.setErr e).pending = r.pending := rfl

/-! `Rev.clearErr` -/

@[simp] theorem Rev.clearErr_err (r : Rev) : r.clearErr.err = false := rfl
@[simp] theorem Rev.clearErr_errcode (r : Rev) : r.clearErr.errcode = 0 := rfl
@[simp] theorem Rev.clearErr_seed (r : Rev) : r.clearErr.seed = r.seed := rfl
@[simp] theorem Rev.clearErr_fs (r : Rev) : r.clearErr.fs = r.fs := rfl
@[simp] theorem Rev.clearErr_maxblk (r : Rev) : r.clearErr.maxblk = r.maxblk := rfl
@[simp] theorem Rev.clearErr_nch (r : Rev) : r.clearErr.nch = r.nch := rfl
@[simp] theorem Rev.clearErr_nlen (r : Rev) : r.clearErr.nlen = r.nlen := rfl
@[simp] theorem Rev.clearErr_mix (r : Rev) : r.clearErr.mix = r.mix := rfl
@[simp] theorem Rev.clearErr_width (r : Rev) : r.clearErr.width = r.width := rfl
@[simp] theorem Rev.clearErr_lowpass (r : Rev) : r.clearErr.lowpass = r.lowpass := rfl
@[simp] theorem Rev.clearErr_highpass (r : Rev) : r.clearErr.highpass = r.highpass := rfl
@[simp] theorem Rev.clearErr_dampening (r : Rev) : r.clearErr.dampening = r.dampening := rfl
@[simp] theorem Rev.clearErr_roomsize (r : Rev) : r.clearErr.roomsize = r.roomsize := rfl
@[simp] theorem Rev.clearErr_initdelay (r : Rev) : r.clearErr.initdelay = r.initdelay := rfl
@[simp] theorem Rev.clearErr_cfgFs (r : Rev) : r.clearErr.cfgFs = r.cfgFs := rfl
@[simp] theorem Rev.clearErr_cfgMaxblk (r : Rev) : r.clearErr.cfgMaxblk = r.cfgMaxblk := rfl
@[simp] theorem Rev.clearErr_configured (r : Rev) : r.clearErr.configured = r.configured := rfl
@[simp] theorem Rev.clearErr_rng (r : Rev) : r.clearErr.rng = r.rng := rfl
@[simp] theorem Rev.clearErr_cprev (r : Rev) : r.clearErr.cprev = r.cprev := rfl
@[simp] theorem Rev.clearErr_mpd (r : Rev) : r.clearErr.mpd = r.mpd := rfl
@[simp] theorem Rev.clearErr_pd (r : Rev) : r.clearErr.pd = r.pd := rfl
@[simp] theorem Rev.clearErr_hs (r : Rev) : r.clearErr.hs = r.hs := rfl
@[simp] theorem Rev.clearErr_ls (r : Rev) : r.clearErr.ls = r.ls := rfl
@[simp] theorem Rev.clearErr_d1 (r : Rev) : r.clearErr.d1 = r.d1 := rfl
@[simp] theorem Rev.clearErr_d2 (r : Rev) : r.clearErr.d2 = r.d2 := rfl
@[simp] theorem Rev.clearErr_d3 (r : Rev) : r.clearErr.d3 = r.d3 := rfl
@[simp] theorem Rev.clearErr_f1 (r : Rev) : r.clearErr.f1 = r.f1 := rfl
@[simp] theorem Rev.clearErr_f2 (r : Rev) : r.clearErr.f2 = r.f2 := rfl
@[simp] theorem Rev.clearErr_pending (r : Rev) : r.clearErr.pending = r.pending := rfl

/-! `Rev.storeReg` writes registers alone -/

@[simp] theorem Rev.storeReg_err (r : Rev) (g : RevReg) (v : Word) : (r.storeReg g v).err = r.err := by
  cases g <;> rfl
@[simp] theorem Rev.storeReg_errcode (r : Rev) (g : RevReg) (v : Word) : (r.storeReg g v).errcode = r.errcode := by
  cases g <;> rfl
@[simp] theorem Rev.storeReg_cfgFs (r : Rev) (g : RevReg) (v : Word) : (r.storeReg g v).cfgFs = r.cfgFs := by
  cases g <;> rfl
@[simp] theorem Rev.storeReg_cfgMaxblk (r : Rev) (g : RevReg) (v : Word) : (r.storeReg g v).cfgMaxblk = r.cfgMaxblk := by
  cases g <;> rfl
@[simp] theorem Rev.storeReg_configured (r : Rev) (g : RevReg) (v : Word) : (r.storeReg g v).configured = r.configured := by
  cases g <;> rfl
@[simp] theorem Rev.storeReg_rng (r : Rev) (g : RevReg) (v : Word) : (r.storeReg g v).rng = r.rng := by
  cases g <;> rfl
@[simp] theorem Rev.storeReg_cprev (r : Rev) (g : RevReg) (v : Word) : (r.storeReg g v).cprev = r.cprev := by
  cases g <;> rfl
@[simp] theorem Rev.storeReg_mpd (r : Rev) (g : RevReg) (v : Word) : (r.storeReg g v).mpd = r.mpd := by
  cases g <;> rfl
@[simp] theorem Rev.storeReg_pd (r : Rev) (g : RevReg) (v : Word) : (r.storeReg g v).pd = r.pd := by
  cases g <;> rfl
@[simp] theorem Rev.storeReg_hs (r : Rev) (g : RevReg) (v : Word) : (r.storeReg g v).hs = r.hs := by
  cases g <;> rfl
@[simp] theorem Rev.storeReg_ls (r : Rev) (g : RevReg) (v : Word) : (r.storeReg g v).ls = r.ls := by
  cases g <;> rfl
@[simp] theorem Rev.storeReg_d1 (r : Rev) (g : RevReg) (v : Word) : (r.storeReg g v).d1 = r.d1 := by
  cases g <;> rfl
@[simp] theorem Rev.storeReg_d2 (r : Rev) (g : RevReg) (v : Word) : (r.storeReg g v).d2 = r.d2 := by
  cases g <;> rfl
@[simp] theorem Rev.storeReg_d3 (r : Rev) (g : RevReg) (v : Word) : (r.storeReg g v).d3 = r.d3 := by
  cases g <;> rfl
@[simp] theorem Rev.storeReg_f1 (r : Rev) (g : RevReg) (v : Word) : (r.storeReg g v).f1 = r.f1 := by
  cases g <;> rfl
@[simp] theorem Rev.storeReg_f2 (r : Rev) (g : RevReg) (v : Word) : (r.storeReg g v).f2 = r.f2 := by
  cases g <;> rfl
@[simp] theorem Rev.storeReg_pending (r : Rev) (g : RevReg) (v : Word) : (r.storeReg g v).pending = r.pending := by
  cases g <;> rfl

@[simp] theorem Rev.setup_err (prm : Params) (r : Rev) : (r.setup prm).err = r.err := rfl
@[simp] theorem Rev.setup_errcode (prm : Params) (r : Rev) : (r.setup prm).errcode = r.errcode := rfl
@[simp] theorem Rev.setup_seed (prm : Params) (r : Rev) : (r.setup prm).seed = r.seed := rfl
@[simp] theorem Rev.setup_fs (prm : Params) (r : Rev) : (r.setup prm).fs = r.fs := rfl
@[simp] theorem Rev.setup_maxblk (prm : Params) (r : Rev) : (r.setup prm).maxblk = r.maxblk := rfl
@[simp] theorem Rev.setup_nch (prm : Params) (r : Rev) : (r.setup prm).nch = r.nch := rfl
@[simp] theorem Rev.setup_nlen (prm : Params) (r : Rev) : (r.setup prm).nlen = r.nlen := rfl
@[simp] theorem Rev.setup_mix (prm : Params) (r : Rev) : (r.setup prm).mix = r.mix := rfl
@[simp] theorem Rev.setup_width (prm : Params) (r : Rev) : (r.setup prm).width = r.width := rfl
@[simp] theorem Rev.setup_lowpass (prm : Params) (r : Rev) : (r.setup prm).lowpass = r.lowpass := rfl
@[simp] theorem Rev.setup_highpass (prm : Params) (r : Rev) : (r.setup prm).highpass = r.highpass := rfl
@[simp] theorem Rev.setup_dampening (prm : Params) (r : Rev) : (r.setup prm).dampening = r.dampening := rfl
@[simp] theorem Rev.setup_roomsize (prm : Params) (r : Rev) : (r.setup prm).roomsize = r.roomsize := rfl
@[simp] theorem Rev.setup_initdelay (prm : Params) (r : Rev) : (r.setup prm).initdelay = r.initdelay := rfl
@[simp] theorem Rev.setup_pending (prm : Params) (r : Rev) : (r.setup prm).pending = r.pending := rfl
@[simp] theorem Rev.setup_cfgFs (prm : Params) (r : Rev) : (r.setup prm).cfgFs = r.fs := rfl
@[simp] theorem Rev.setup_cfgMaxblk (prm : Params) (r : Rev) : (r.setup prm).cfgMaxblk = r.maxblk := rfl
@[simp] theorem Rev.setup_configured (prm : Params) (r : Rev) : (r.setup prm).configured = true := rfl
@[simp] theorem Rev.setup_cprev (prm : Params) (r : Rev) : (r.setup prm).cprev = 0 := rfl
@[simp] theorem Rev.setup_pd (prm : Params) (r : Rev) : (r.setup prm).pd = [] := rfl
@[simp] theorem Rev.setup_mpd (prm : Params) (r : Rev) : (r.setup prm).mpd = predelayMaxSamples r.fs.toNat := rfl
@[simp] theorem Rev.setup_hs (prm : Params) (r : Rev) : (r.setup prm).hs = List.replicate Config.nInt 0 := rfl
@[simp] theorem Rev.setup_ls (prm : Params) (r : Rev) : (r.setup prm).ls = List.replicate Config.nInt 0 := rfl

/-! `Rev.process` leaves the registers and the setup values -/

@[simp] theorem Rev.process_err (draw : Nat) (prm : Params) (r : Rev) (n : Nat) (ins : List (List F32)) :
    (r.process draw prm n ins).2.err = r.err := rfl
@[simp] theorem Rev.process_errcode (draw : Nat) (prm : Params) (r : Rev) (n : Nat) (ins : List (List F32)) :
    (r.process draw prm n ins).2.errcode = r.errcode := rfl
@[simp] theorem Rev.process_pending (draw : Nat) (prm : Params) (r : Rev) (n : Nat) (ins : List (List F32)) :
    (r.process draw prm n ins).2.pending = r.pending := rfl
@[simp] theorem Rev.process_seed (draw : Nat) (prm : Params) (r : Rev) (n : Nat) (ins : List (List F32)) :
    (r.process draw prm n ins).2.seed = r.seed := rfl
@[simp] theorem Rev.process_fs (draw : Nat) (prm : Params) (r : Rev) (n : Nat) (ins : List (List F32)) :
    (r.process draw prm n ins).2.fs = r.fs := rfl
@[simp] theorem Rev.process_maxblk (draw : Nat) (prm : Params) (r : Rev) (n : Nat) (ins : List (List F32)) :
    (r.process draw prm n ins).2.maxblk = r.maxblk := rfl
@[simp] theorem Rev.process_nch (draw : Nat) (prm : Params) (r : Rev) (n : Nat) (ins : List (List F32)) :
    (r.process draw prm n ins).2.nch = r.nch := rfl
@[simp] theorem Rev.process_nlen (draw : Nat) (prm : Params) (r : Rev) (n : Nat) (ins : List (List F32)) :
    (r.process draw prm n ins).2.nlen = r.nlen := rfl
@[simp] theorem Rev.process_mix (draw : Nat) (prm : Params) (r : Rev) (n : Nat) (ins : List (List F32)) :
    (r.process draw prm n ins).2.mix = r.mix := rfl
@[simp] theorem Rev.process_width (draw : Nat) (prm : Params) (r : Rev) (n : Nat) (ins : List (List F32)) :
    (r.process draw prm n ins).2.width = r.width := rfl
@[simp] theorem Rev.process_lowpass (draw : Nat) (prm : Params) (r : Rev) (n : Nat) (ins : List (List F32)) :
    (r.process draw prm n ins).2.lowpass = r.lowpass := rfl
@[simp] theorem Rev.process_highpass (draw : Nat) (prm : Params) (r : Rev) (n : Nat) (ins : List (List F32)) :
    (r.process draw prm n ins).2.highpass = r.highpass := rfl
@[simp] theorem Rev.process_dampening (draw : Nat) (prm : Params) (r : Rev) (n : Nat) (ins : List (List F32)) :
    (r.process draw prm n ins).2.dampening = r.dampening := rfl
@[simp] theorem Rev.process_roomsize (draw : Nat) (prm : Params) (r : Rev) (n : Nat) (ins : List (List F32)) :
    (r.process draw prm n ins).2.roomsize = r.roomsize := rfl
@[simp] theorem Rev.process_initdelay (draw : Nat) (prm : Params) (r : Rev) (n : Nat) (ins : List (List F32)) :
    (r.process draw prm n ins).2.initdelay = r.initdelay := rfl
@[simp] theorem Rev.process_cfgFs (draw : Nat) (prm : Params) (r : Rev) (n : Nat) (ins : List (List F32)) :
    (r.process draw prm n ins).2.cfgFs = r.cfgFs := rfl
@[simp] theorem Rev.process_cfgMaxblk (draw : Nat) (prm : Params) (r : Rev) (n : Nat) (ins : List (List F32)) :
    (r.process draw prm n ins).2.cfgMaxblk = r.cfgMaxblk := rfl
@[simp] theorem Rev.process_configured (draw : Nat) (prm : Params) (r : Rev) (n : Nat) (ins : List (List F32)) :
    (r.process draw prm n ins).2.configured = r.configured := rfl
@[simp] theorem Rev.process_rng (draw : Nat) (prm : Params) (r : Rev) (n : Nat) (ins : List (List F32)) :
    (r.process draw prm n ins).2.rng = r.rng := rfl
@[simp] theorem Rev.process_mpd (draw : Nat) (prm : Params) (r : Rev) (n : Nat) (ins : List (List F32)) :
    (r.process draw prm n ins).2.mpd = r.mpd := rfl
@[simp] theorem Rev.process_cprev (draw : Nat) (prm : Params) (r : Rev) (n : Nat) (ins : List (List F32)) :
    (r.process draw prm n ins).2.cprev = ins.length := rfl

end Sys2Proof.Machine
end

