-- ==== Sys2Proof/Laws/Store.lean ====
section
/-!
SUPPORT. Sparse storage: what a key reads as after an update, and that the updates keep the canonical forms (log 8, log 17).
-/

namespace Sys2Proof.Machine

variable {α : Type}

theorem storeFind_insert_self (k : Nat) (v : α) (l : List (Nat × α)) : storeFind k (storeInsert k v l) = some v := by
  induction l with
  | nil => simp [storeInsert, storeFind]
  | cons e t ih =>
    by_cases h1 : k < e.1
    · simp [storeInsert, storeFind, h1]
    · by_cases h2 : k = e.1
      · simp [storeInsert, storeFind, ← h2]
      · simp [storeInsert, storeFind, h1, h2, ih]

theorem storeFind_insert_ne {j k : Nat} (h : j ≠ k) (v : α) (l : List (Nat × α)) :
    storeFind j (storeInsert k v l) = storeFind j l := by
  induction l with
  | nil => simp [storeInsert, storeFind, h]
  | cons e t ih =>
    by_cases h1 : k < e.1
    · simp [storeInsert, storeFind, h1, h]
    · by_cases h2 : k = e.1
      · simp [storeInsert, storeFind, ← h2, h]
      · simp [storeInsert, storeFind, h1, h2, ih]

theorem storeFind_erase (j k : Nat) (l : List (Nat × α)) :
    storeFind j (storeErase k l) = if j = k then none else storeFind j l := by
  induction l with
  | nil => simp [storeErase, storeFind]
  | cons e t ih =>
    by_cases h1 : e.1 = k
    · have : storeErase k (e :: t) = storeErase k t := by simp [storeErase, h1]
      rw [this, ih]
      by_cases h2 : j = k
      · simp [h2]
      · simp [h2, storeFind, h1]
    · have : storeErase k (e :: t) = e :: storeErase k t := by simp [storeErase, h1]
      rw [this]
      by_cases h2 : j = e.1
      · simp [storeFind, h2, h1]
      · simp [storeFind, h2, ih]

theorem mem_storeInsert {k : Nat} {v : α} {l : List (Nat × α)} {e : Nat × α} (h : e ∈ storeInsert k v l) :
    e = (k, v) ∨ e ∈ l := by
  induction l with
  | nil => simpa [storeInsert] using h
  | cons d t ih =>
    unfold storeInsert at h
    split at h
    · simpa using h
    · split at h
      · simp only [List.mem_cons] at h ⊢
        tauto
      · simp only [List.mem_cons] at h ⊢
        tauto

theorem storeSorted_insert {l : List (Nat × α)} (h : storeSorted l) (k : Nat) (v : α) :
    storeSorted (storeInsert k v l) := by
  induction l with
  | nil => simp [storeInsert, storeSorted]
  | cons e t ih =>
    have hc : (∀ b ∈ t, e.1 < b.1) ∧ storeSorted t := by simpa [storeSorted] using h
    unfold storeInsert
    split
    · next h1 =>
      simp only [storeSorted, List.map_cons, List.pairwise_cons]
      refine ⟨?_, by simpa [storeSorted] using h⟩
      intro b hb
      simp only [List.mem_cons, List.mem_map] at hb
      rcases hb with rfl | ⟨c, hc', rfl⟩
      · exact h1
      · exact Nat.lt_trans h1 (hc.1 c hc')
    · split
      · next h1 h2 =>
        subst h2
        simpa [storeSorted] using h
      · next h1 h2 =>
        simp only [storeSorted, List.map_cons, List.pairwise_cons]
        refine ⟨?_, ih hc.2⟩
        intro b hb
        simp only [List.mem_map] at hb
        obtain ⟨c, hc', rfl⟩ := hb
        rcases mem_storeInsert hc' with rfl | hm
        · simp only; omega
        · exact hc.1 c hm

theorem storeSorted_erase {l : List (Nat × α)} (h : storeSorted l) (k : Nat) : storeSorted (storeErase k l) := by
  unfold storeSorted storeErase at *
  exact List.Pairwise.sublist (List.Sublist.map _ List.filter_sublist) h

/-- A slot of a ring after a write: the word written, and every other slot as it was. -/
theorem Ring.read_write (r : Ring) (j k : Nat) (x : F32) :
    Ring.read (Ring.write r k x) j = if j = k then x else Ring.read r j := by
  unfold Ring.read Ring.write
  by_cases hx : x = 0
  · rw [if_pos hx, storeFind_erase]
    by_cases hj : j = k <;> simp [hj, hx]
  · rw [if_neg hx]
    by_cases hj : j = k
    · rw [hj, storeFind_insert_self]
      simp
    · rw [storeFind_insert_ne hj]
      simp [hj]

@[simp] theorem Ring.read_nil (j : Nat) : Ring.read [] j = 0 := rfl

theorem Ring.wf_nil (b : Nat) : Ring.wf b [] := by simp [Ring.wf, storeSorted]

/-- A write inside the ring keeps its canonical form. -/
theorem Ring.wf_write {b : Nat} {r : Ring} (h : Ring.wf b r) {k : Nat} (hk : k < b) (x : F32) :
    Ring.wf b (Ring.write r k x) := by
  unfold Ring.write
  split
  · exact ⟨storeSorted_erase h.1 k, fun e he => h.2 e (List.mem_of_mem_filter he)⟩
  · next hx =>
    refine ⟨storeSorted_insert h.1 k x, fun e he => ?_⟩
    rcases mem_storeInsert he with rfl | hm
    · exact ⟨hk, hx⟩
    · exact h.2 e hm

/-- A byte of IOBUF after a write: the byte written, and every other byte as it was. -/
theorem Memory.readByte_writeByte (epoch : Nat) (m : Memory) (a b : Nat) (v : Byte) :
    (m.writeByte b v).readByte epoch a = if a = b then v else m.readByte epoch a := by
  unfold Memory.readByte Memory.writeByte
  by_cases h : a = b
  · rw [h, storeFind_insert_self]
    simp
  · rw [storeFind_insert_ne h]
    simp [h]

theorem Memory.wf_writeByte {m : Memory} (h : m.wf) (a : Nat) (v : Byte) : (m.writeByte a v).wf :=
  storeSorted_insert h a v

/-- Two canonical stores that find the same at every key are the same. -/
theorem store_ext {l m : List (Nat × α)} (hl : storeSorted l) (hm : storeSorted m)
    (h : ∀ k, storeFind k l = storeFind k m) : l = m := by
  have low : ∀ (t : List (Nat × α)) (k : Nat), (∀ b ∈ t, k < b.1) → storeFind k t = none := by
    intro t
    induction t with
    | nil => intros; rfl
    | cons e t ih =>
      intro k hk
      have h1 : k < e.1 := hk e (by simp)
      have h2 : k ≠ e.1 := by omega
      simp only [storeFind, h2, if_false]
      exact ih k (fun b hb => hk b (by simp [hb]))
  induction l generalizing m with
  | nil =>
    cases m with
    | nil => rfl
    | cons e t => simpa [storeFind] using h e.1
  | cons e t ih =>
    cases m with
    | nil => simpa [storeFind] using h e.1
    | cons d u =>
      have hl' : (∀ b ∈ t, e.1 < b.1) ∧ storeSorted t := by simpa [storeSorted] using hl
      have hm' : (∀ b ∈ u, d.1 < b.1) ∧ storeSorted u := by simpa [storeSorted] using hm
      have key : e.1 = d.1 := by
        rcases Nat.lt_trichotomy e.1 d.1 with hlt | heq | hgt
        · have := h e.1
          have hne : e.1 ≠ d.1 := by omega
          rw [storeFind, if_pos rfl, storeFind, if_neg hne,
            low u e.1 (fun b hb => Nat.lt_trans hlt (hm'.1 b hb))] at this
          simp at this
        · exact heq
        · have := h d.1
          have hne : d.1 ≠ e.1 := by omega
          rw [storeFind, if_neg hne, low t d.1 (fun b hb => Nat.lt_trans hgt (hl'.1 b hb)), storeFind,
            if_pos rfl] at this
          simp at this
      have val : e.2 = d.2 := by
        have := h e.1
        rw [storeFind, if_pos rfl, storeFind, if_pos key] at this
        simpa using this
      have tail : t = u := by
        apply ih hl'.2 hm'.2
        intro k
        have hk := h k
        by_cases h1 : k = e.1
        · rw [h1, low t e.1 hl'.1, low u e.1 (by rw [key]; exact hm'.1)]
        · have h2 : k ≠ d.1 := by rw [← key]; exact h1
          simpa [storeFind, h1, h2] using hk
      rw [tail, Prod.ext key val]

end Sys2Proof.Machine
end

