-- ==== Sys2Proof/Laws/Dl.lean ====
section
/-!
SUPPORT. What the operations of a delay line do (40_delay_line.md R130-R139): the slots they touch, the ages after, and that
they keep the ranges of 10_state.md R45.
-/

namespace Sys2Proof.Machine

/-! ## Operands -/

@[simp] theorem takeVec_length (draw c i n : Nat) (xs : List F32) : (takeVec draw c i n xs).length = n := by
  induction n generalizing i xs with
  | zero => simp [takeVec]
  | succ n ih => cases xs <;> simp [takeVec, ih]

/-- A vector operand of the length the rule states is taken whole. -/
theorem takeVec_of_length (draw c i : Nat) (xs : List F32) : takeVec draw c i xs.length xs = xs := by
  induction xs generalizing i with
  | nil => rfl
  | cons x xs ih => simp [takeVec, ih]

@[simp] theorem takeChannels_length (draw n c k : Nat) (bs : List (List F32)) :
    (takeChannels draw n c k bs).length = k := by
  induction k generalizing c bs with
  | zero => simp [takeChannels]
  | succ k ih => cases bs <;> simp [takeChannels, ih]

/-- A multichannel operand of the shape the rule states is taken whole. -/
theorem takeChannels_of_shape (draw n c : Nat) (bs : List (List F32)) (h : ∀ b ∈ bs, b.length = n) :
    takeChannels draw n c bs.length bs = bs := by
  induction bs generalizing c with
  | nil => rfl
  | cons b bs ih =>
    have hb : b.length = n := h b (by simp)
    subst hb
    rw [List.length_cons, takeChannels, takeVec_of_length, ih (c + 1) (fun b' h' => h b' (by simp [h']))]

theorem takeChannels_mem {draw n c k : Nat} {bs : List (List F32)} {b : List F32}
    (h : b ∈ takeChannels draw n c k bs) : b.length = n := by
  induction k generalizing c bs with
  | zero => simp [takeChannels] at h
  | succ k ih =>
    cases bs with
    | nil =>
      rcases List.mem_cons.mp (by simpa [takeChannels] using h) with rfl | h'
      · simp
      · exact ih h'
    | cons d ds =>
      rcases List.mem_cons.mp (by simpa [takeChannels] using h) with rfl | h'
      · simp
      · exact ih h'

/-! ## Slots and ages -/

/-- Every index a delay-line rule computes is inside the ring (20_memory.md R82). -/
theorem Dl.slot_lt {d : Dl} (h : 0 < d.b) (j : Int) : d.slot j < d.b := by
  have h1 : 0 ≤ j % (d.b : Int) := Int.emod_nonneg j (by omega)
  have h2 : j % (d.b : Int) < d.b := Int.emod_lt_of_pos j (by omega)
  unfold Dl.slot
  omega

theorem Dl.slot_cast {d : Dl} (h : 0 < d.b) (j : Int) : ((d.slot j : Nat) : Int) = j % (d.b : Int) := by
  unfold Dl.slot
  exact Int.toNat_of_nonneg (Int.emod_nonneg j (by omega))

theorem Dl.slot_natCast (d : Dl) {j : Nat} (h : j < d.b) : d.slot (j : Int) = j := by
  unfold Dl.slot
  rw [Int.emod_eq_of_lt (by omega) (by omega)]
  simp

theorem Dl.slot_congr {d : Dl} {i j : Int} (h : i % (d.b : Int) = j % (d.b : Int)) : d.slot i = d.slot j := by
  unfold Dl.slot
  rw [h]

/-- Two delay lines of one ring length have the same slots. -/
theorem Dl.slot_of_b {d e : Dl} (h : d.b = e.b) (j : Int) : d.slot j = e.slot j := by
  unfold Dl.slot
  rw [h]

/-- The newest sample has age 0 (R130). -/
theorem Dl.age_push_zero {d : Dl} (hw : d.w < d.b) (x : F32) : (d.push x).age 0 = x := by
  have hb : 0 < d.b := by omega
  have e : (d.push x).slot (((d.push x).w : Int) - 1 - (0 : Nat)) = d.w := by
    rw [Dl.slot_of_b (Dl.push_b d x), Dl.push_w, Dl.slot_cast hb]
    have : d.slot (((d.w : Int) + 1) % (d.b : Int) - 1 - (0 : Nat)) = d.slot ((d.w : Nat) : Int) := by
      apply Dl.slot_congr
      rw [Int.sub_sub, Int.emod_sub_emod]
      congr 1
      omega
    rw [this, Dl.slot_natCast d hw]
  unfold Dl.age Dl.at
  rw [e, Dl.push_ring, Ring.read_write, if_pos rfl]

/-- A write makes every sample still held one older (R130). -/
theorem Dl.age_push_succ {d : Dl} (hw : d.w < d.b) (x : F32) {a : Nat} (ha : a + 1 < d.b) :
    (d.push x).age (a + 1) = d.age a := by
  have hb : 0 < d.b := by omega
  have e : (d.push x).slot (((d.push x).w : Int) - 1 - ((a + 1 : Nat) : Int)) = d.slot ((d.w : Int) - 1 - a) := by
    rw [Dl.slot_of_b (Dl.push_b d x), Dl.push_w, Dl.slot_cast hb]
    apply Dl.slot_congr
    rw [Int.sub_sub, Int.emod_sub_emod]
    congr 1
    push_cast
    omega
  have ne : d.slot ((d.w : Int) - 1 - a) ≠ d.w := by
    intro h
    have h1 := Dl.slot_cast hb ((d.w : Int) - 1 - a)
    rw [h] at h1
    have h2 : ((d.w : Int) - 1 - a) % (d.b : Int) = (d.w : Int) % (d.b : Int) := by
      rw [← h1, Int.emod_eq_of_lt (by omega) (by omega)]
    have h3 := Int.emod_emod_of_dvd ((d.w : Int) - 1 - a) (Int.dvd_refl (d.b : Int))
    have h4 : (d.b : Int) ∣ ((d.w : Int) - 1 - a) - d.w := Int.ModEq.dvd h2.symm
    have h5 : (d.b : Int) ∣ ((a : Int) + 1) := by
      have : ((d.w : Int) - 1 - a) - d.w = -((a : Int) + 1) := by omega
      rw [this] at h4
      exact (Int.dvd_neg).mp h4
    have h6 := Int.le_of_dvd (by omega) h5
    omega
  unfold Dl.age Dl.at
  rw [e, Dl.push_ring, Ring.read_write, if_neg ne]

theorem Dl.foldl_push_b (d : Dl) (xs : List F32) : (xs.foldl Dl.push d).b = d.b := by
  induction xs generalizing d with
  | nil => rfl
  | cons x xs ih => exact ih (d.push x)

theorem Dl.foldl_push_w {d : Dl} (hw : d.w < d.b) (xs : List F32) : (xs.foldl Dl.push d).w < d.b := by
  induction xs generalizing d with
  | nil => exact hw
  | cons x xs ih =>
    have h : (d.push x).w < (d.push x).b := by
      rw [Dl.push_w, Dl.push_b]
      exact Dl.slot_lt (by omega) _
    exact ih h

/-- The ages after several writes (R130, R140). -/
theorem Dl.age_foldl {d : Dl} (hw : d.w < d.b) (xs : List F32) (tau : Nat) (ht : tau < d.b) :
    (xs.foldl Dl.push d).age tau =
      if tau < xs.length then xs.getD (xs.length - 1 - tau) 0 else d.age (tau - xs.length) := by
  induction xs using List.reverseRecOn generalizing tau with
  | nil => simp
  | append_singleton xs x ih =>
    rw [List.foldl_append, List.foldl_cons, List.foldl_nil]
    have hw' : (xs.foldl Dl.push d).w < (xs.foldl Dl.push d).b := by
      rw [Dl.foldl_push_b]
      exact Dl.foldl_push_w hw xs
    cases tau with
    | zero =>
      rw [Dl.age_push_zero hw']
      simp
    | succ k =>
      rw [Dl.age_push_succ hw' x (by rw [Dl.foldl_push_b]; exact ht), ih k (by omega), List.length_append,
        List.length_singleton]
      rcases Nat.lt_or_ge k xs.length with h | h
      · rw [if_pos h, if_pos (by omega), show xs.length + 1 - 1 - (k + 1) = xs.length - 1 - k by omega,
          List.getD_append _ _ _ _ (by omega)]
      · rw [if_neg (by omega), if_neg (by omega), show k + 1 - (xs.length + 1) = k - xs.length by omega]

/-! ## Blocks -/

theorem Dl.writeSlots_congr {d e : Dl} (h : ∀ j : Int, d.slot ((d.w : Int) + j) = e.slot ((e.w : Int) + j)) (i j : Nat)
    (xs : List F32) (r : Ring) (hb : i = j) : d.writeSlots i xs r = e.writeSlots j xs r := by
  subst hb
  induction xs generalizing i r with
  | nil => rfl
  | cons x xs ih => rw [Dl.writeSlots, Dl.writeSlots, h, ih]

theorem Dl.writeSlots_shift {d : Dl} (hb : 0 < d.b) (x : F32) (i : Nat) (xs : List F32) (r : Ring) :
    (d.push x).writeSlots i xs r = d.writeSlots (i + 1) xs r := by
  induction xs generalizing i r with
  | nil => rfl
  | cons y ys ih =>
    have e : (d.push x).slot (((d.push x).w : Int) + (i : Nat)) = d.slot ((d.w : Int) + ((i + 1 : Nat) : Int)) := by
      rw [Dl.slot_of_b (Dl.push_b d x), Dl.push_w, Dl.slot_cast hb]
      apply Dl.slot_congr
      rw [Int.emod_add_emod]
      congr 1
      push_cast
      omega
    rw [Dl.writeSlots, Dl.writeSlots, e, ih]

/-- A block write gives the state that as many single writes give, in order (R138). -/
theorem Dl.writeBlock_eq_foldl {d : Dl} (hw : d.w < d.b) (xs : List F32) : d.writeBlock xs = xs.foldl Dl.push d := by
  induction xs generalizing d with
  | nil =>
    have : d.slot ((d.w : Int) + (0 : Nat)) = d.w := by
      rw [Int.natCast_zero, Int.add_zero]
      exact Dl.slot_natCast d hw
    simp only [Dl.writeBlock, Dl.writeSlots, List.foldl_nil, List.length_nil]
    rw [this]
  | cons x xs ih =>
    have hb : 0 < d.b := by omega
    have hw' : (d.push x).w < (d.push x).b := by
      rw [Dl.push_w, Dl.push_b]
      exact Dl.slot_lt hb _
    rw [List.foldl_cons, ← ih hw']
    have e0 : d.slot ((d.w : Int) + (0 : Nat)) = d.w := by
      rw [Int.natCast_zero, Int.add_zero]
      exact Dl.slot_natCast d hw
    have ew : (d.push x).slot (((d.push x).w : Int) + xs.length) = d.slot ((d.w : Int) + (x :: xs).length) := by
      rw [Dl.slot_of_b (Dl.push_b d x), Dl.push_w, Dl.slot_cast hb]
      apply Dl.slot_congr
      rw [Int.emod_add_emod]
      congr 1
      simp only [List.length_cons]
      push_cast
      omega
    simp only [Dl.writeBlock]
    rw [ew, Dl.writeSlots_shift hb, Dl.writeSlots, e0]
    rfl

@[simp] theorem Dl.readBlock_length (d : Dl) (tau n : Nat) : (d.readBlock tau n).length = n := by simp [Dl.readBlock]

/-- Entry `j` of a block read has age `tau + n - 1 - j` (R131, R137). -/
theorem Dl.readBlock_get {d : Dl} (hb : 0 < d.b) (tau n j : Nat) (hj : j < n) :
    (d.readBlock tau n)[j]? = some (d.age (tau + (n - 1 - j))) := by
  have e : d.slot (((d.slot ((d.w : Int) - tau - n) : Nat) : Int) + j) = d.slot ((d.w : Int) - 1 - ((tau + (n - 1 - j) : Nat) : Int)) := by
    rw [Dl.slot_cast hb]
    apply Dl.slot_congr
    rw [Int.emod_add_emod]
    congr 1
    omega
  simp only [Dl.readBlock, List.getElem?_map, List.getElem?_range hj, Option.map_some, Dl.age, Dl.at]
  rw [e]

@[simp] theorem Dl.combBlock_length (draw : Nat) (d : Dl) (xs : List F32) :
    (d.combBlock draw xs).1.length = xs.length := by
  induction xs generalizing d with
  | nil => rfl
  | cons x xs ih => simp [Dl.combBlock, ih]

/-! ## Ranges -/

theorem Dl.sized_build {m maxblk : Nat} (hm : 1 ≤ m) (hb : 1 ≤ maxblk) (hc : maxblk ≤ Config.maxblkCap)
    (hd : m + maxblk ≤ Config.dlCap) (g : F32) : (Dl.build m maxblk g).sized m maxblk :=
  ⟨rfl, rfl, rfl, fun _ => ⟨hm, hb, hc, rfl, hd, by simp only [Dl.build]; omega, Ring.wf_nil _⟩⟩

theorem Dl.sized_push {d : Dl} {m maxblk : Nat} (h : d.sized m maxblk) (x : F32) : (d.push x).sized m maxblk := by
  obtain ⟨h1, h2, h3, h4⟩ := h
  obtain ⟨a, b, c, e, f, g, i⟩ := h4 h1
  have hb : 0 < d.b := by omega
  refine ⟨h1, h2, h3, fun _ => ⟨a, b, c, e, f, ?_, ?_⟩⟩
  · rw [Dl.push_w, Dl.push_b]
    exact Dl.slot_lt hb _
  · exact Ring.wf_write i g x

theorem Dl.wf_push {d : Dl} (h : d.wf) (x : F32) : (d.push x).wf := fun hc =>
  (Dl.sized_push (d := d) (m := d.m) (maxblk := d.maxblk) ⟨hc, rfl, rfl, h⟩ x).2.2.2 hc

theorem Dl.sized_foldl {d : Dl} {m maxblk : Nat} (h : d.sized m maxblk) (xs : List F32) :
    (xs.foldl Dl.push d).sized m maxblk := by
  induction xs generalizing d with
  | nil => exact h
  | cons x xs ih => exact ih (Dl.sized_push h x)

theorem Dl.sized_writeBlock {d : Dl} {m maxblk : Nat} (h : d.sized m maxblk) (xs : List F32) :
    (d.writeBlock xs).sized m maxblk := by
  have hw : d.w < d.b := (h.2.2.2 h.1).2.2.2.2.2.1
  rw [Dl.writeBlock_eq_foldl hw]
  exact Dl.sized_foldl h xs

theorem Dl.sized_combBlock {d : Dl} {m maxblk : Nat} (h : d.sized m maxblk) (draw : Nat) (xs : List F32) :
    (d.combBlock draw xs).2.sized m maxblk := by
  induction xs generalizing d with
  | nil => exact h
  | cons x xs ih => exact ih (Dl.sized_push h _)

/-- What DL.CFG's checks let through (R132). -/
theorem Dl.cfgError_none {m maxblk : Nat} :
    Dl.cfgError m maxblk = none ↔ 1 ≤ m ∧ 1 ≤ maxblk ∧ maxblk ≤ Config.maxblkCap ∧ m + maxblk ≤ Config.dlCap := by
  unfold Dl.cfgError
  split
  · simp only [reduceCtorEq, false_iff]
    omega
  · split
    · simp only [reduceCtorEq, false_iff]
      omega
    · simp only [true_iff]
      omega

end Sys2Proof.Machine
end

