-- ==== Sys2Proof/Laws/Rrs.lean ====
section
/-!
SUPPORT. What the operations of a running-sum filter keep (41_rrs_filter.md R160-R165, 10_state.md R46).
-/

namespace Sys2Proof.Machine

@[simp] theorem Rrs.block_length (draw : Nat) (f : Rrs) (xs : List F32) : (f.block draw xs).1.length = xs.length := by
  induction xs generalizing f with
  | nil => rfl
  | cons x xs ih => simp [Rrs.block, ih]

theorem Rrs.push_wf {f : Rrs} (h : f.wf) (draw : Nat) (x : F32) : (f.push draw x).wf := by
  intro hc
  obtain ⟨h1, h2, h3, h4, h5, h6⟩ := h hc
  exact ⟨h1, h2, h3, h4, Dl.sized_push h5 x, Dl.sized_push h6 _⟩

/-- A block changes the history of a filter and nothing else. -/
theorem Rrs.block_fields (draw : Nat) (f : Rrs) (xs : List F32) :
    (f.block draw xs).2.cfg = f.cfg ∧ (f.block draw xs).2.width = f.width ∧ (f.block draw xs).2.eps = f.eps ∧
      (f.block draw xs).2.a = f.a ∧ (f.block draw xs).2.c = f.c := by
  induction xs generalizing f with
  | nil => exact ⟨rfl, rfl, rfl, rfl, rfl⟩
  | cons x xs ih => exact ih (f.push draw x)

theorem Rrs.block_wf {f : Rrs} (h : f.wf) (draw : Nat) (xs : List F32) : (f.block draw xs).2.wf := by
  induction xs generalizing f with
  | nil => exact h
  | cons x xs ih => exact ih (Rrs.push_wf h draw x)

/-- What RRS.CFG's checks let through (R162). -/
theorem Rrs.cfgError_none {width : Nat} {eps : F32} :
    Rrs.cfgError width eps = none ↔ 1 ≤ width ∧ epsOk eps = true ∧ width + 1 ≤ Config.dlCap := by
  unfold Rrs.cfgError
  split
  · simp only [reduceCtorEq, false_iff]
    omega
  · split
    · next h => simp [h]
    · split
      · simp only [reduceCtorEq, false_iff]
        omega
      · next h1 h2 h3 =>
        simp only [true_iff]
        exact ⟨by omega, by simpa using h2, by omega⟩

theorem Rrs.wf_build {width : Nat} {eps : F32} (hw : 1 ≤ width) (he : epsOk eps = true)
    (hc : width + 1 ≤ Config.dlCap) : (Rrs.build width eps).wf := fun _ =>
  ⟨hw, he, rfl, rfl, Dl.sized_build hw (by decide) (by decide) hc 0,
    Dl.sized_build (by decide) (by decide) (by decide) (by decide) 0⟩

theorem Rrs.wf_setEps {f : Rrs} (h : f.wf) {eps : F32} (he : epsOk eps = true) : (f.setEps eps).wf := by
  intro hc
  obtain ⟨h1, _, _, _, h5, h6⟩ := h hc
  exact ⟨h1, he, rfl, rfl, h5, h6⟩

end Sys2Proof.Machine
end

