-- ==== Sys2Proof/Laws/Dvn.lean ====
section
/-!
SUPPORT. What the operations of the convolvers and the diffusers keep (43_dvn_convolver.md R190-R212, 10_state.md R48, R49).
-/

namespace Sys2Proof.Machine

/-! ## Rounding -/

theorem roundAway_of_nonneg {q : Rat} (h : 0 ≤ q) : roundAway q = (q + 1 / 2).floor := by simp [roundAway, h]

theorem roundAway_nonneg {q : Rat} (h : 0 ≤ q) : 0 ≤ roundAway q := by
  rw [roundAway_of_nonneg h]
  exact Rat.le_floor_iff.mpr (by push_cast; linarith)

theorem roundAway_mono {p q : Rat} (hp : 0 ≤ p) (h : p ≤ q) : roundAway p ≤ roundAway q := by
  rw [roundAway_of_nonneg hp, roundAway_of_nonneg (le_trans hp h)]
  exact Rat.floor_monotone (by linarith)

theorem roundAway_natCast (n : Nat) : roundAway (n : Rat) = n := by
  rw [roundAway_of_nonneg (by positivity)]
  apply le_antisymm
  · have : ((n : Rat) + 1 / 2).floor < (n : Int) + 1 := by
      rw [Rat.floor_lt_iff]
      push_cast
      linarith
    omega
  · exact Rat.le_floor_iff.mpr (by push_cast; linarith)

theorem drawRat_nonneg (u : Draw) : 0 ≤ drawRat u := by unfold drawRat; positivity

theorem drawRat_lt_one (u : Draw) : drawRat u < 1 := by
  unfold drawRat
  have h : u.toNat < 2 ^ 24 := u.isLt
  rw [div_lt_one (by norm_num)]
  exact_mod_cast h

/-! ## Pulses -/

theorem pulseWidth_range {wmin wmax : Nat} (h : wmin ≤ wmax) (u : Draw) :
    wmin ≤ pulseWidth wmin wmax u ∧ pulseWidth wmin wmax u ≤ wmax := by
  have h0 := drawRat_nonneg u
  have h1 := drawRat_lt_one u
  have hr : (wmin : Rat) ≤ wmax := by exact_mod_cast h
  have lo : (wmin : Rat) ≤ drawRat u * ((wmax : Rat) - wmin) + wmin := by nlinarith
  have hi : drawRat u * ((wmax : Rat) - wmin) + wmin ≤ wmax := by nlinarith
  have a := roundAway_mono (by positivity) lo
  have b := roundAway_mono (le_trans (by positivity) lo) hi
  rw [roundAway_natCast] at a b
  unfold pulseWidth
  omega

theorem pulsePos_range {td m w : Nat} (h : w ≤ td) (u : Draw) :
    m * td ≤ pulsePos td m w u ∧ pulsePos td m w u ≤ m * td + (td - w) := by
  have h0 := drawRat_nonneg u
  have h1 := drawRat_lt_one u
  have hr : (w : Rat) ≤ td := by exact_mod_cast h
  have lo : ((m * td : Nat) : Rat) ≤ (m : Rat) * td + drawRat u * ((td : Rat) - w) := by push_cast; nlinarith
  have hi : (m : Rat) * td + drawRat u * ((td : Rat) - w) ≤ ((m * td + (td - w) : Nat) : Rat) := by
    push_cast [h]
    nlinarith
  have a := roundAway_mono (by positivity) lo
  have b := roundAway_mono (le_trans (by positivity) lo) hi
  rw [roundAway_natCast] at a b
  unfold pulsePos
  omega

theorem genPulses_length (td m count : Nat) (rnd : List Draw) (h : 3 * count ≤ rnd.length) :
    (genPulses td m count rnd).length = count := by
  induction count generalizing m rnd with
  | zero => simp [genPulses]
  | succ k ih =>
    match rnd, h with
    | u1 :: u2 :: u3 :: rest, h =>
      simp only [List.length_cons] at h
      simp [genPulses, ih (m + 1) rest (by omega)]

theorem genPulses_mem {td m count : Nat} {rnd : List Draw} {q : Pulse} (h : q ∈ genPulses td m count rnd) :
    td / 2 ≤ q.w ∧ q.w ≤ td ∧ q.k ≤ (m + count) * td := by
  induction count generalizing m rnd with
  | zero => simp [genPulses] at h
  | succ k ih =>
    match rnd, h with
    | u1 :: u2 :: u3 :: rest, h =>
      rcases List.mem_cons.mp (by simpa [genPulses] using h) with rfl | h'
      · have hw := pulseWidth_range (Nat.div_le_self td 2) u1
        have hk := pulsePos_range (m := m) hw.2 u2
        refine ⟨hw.1, hw.2, ?_⟩
        have : m * td + td ≤ (m + (k + 1)) * td := by nlinarith
        simp only [genPulse]
        omega
      · have := ih h'
        rw [show m + 1 + k = m + (k + 1) by omega] at this
        exact this
    | [], h => simp [genPulses] at h
    | [_], h => simp [genPulses] at h
    | [_, _], h => simp [genPulses] at h

theorem le_kmax {ps : List Pulse} {q : Pulse} (h : q ∈ ps) : q.k ≤ kmax ps := by
  induction ps with
  | nil => simp at h
  | cons p ps ih =>
    rcases List.mem_cons.mp h with rfl | h'
    · simp [kmax]
    · have := ih h'
      simp only [kmax, List.foldr_cons] at *
      omega

theorem kmax_le {ps : List Pulse} {n : Nat} (h : ∀ q ∈ ps, q.k ≤ n) : kmax ps ≤ n := by
  induction ps with
  | nil => simp [kmax]
  | cons p ps ih =>
    have h1 := h p (by simp)
    have h2 := ih (fun q hq => h q (by simp [hq]))
    simp only [kmax, List.foldr_cons] at *
    omega

/-! ## Convolvers -/

/-- What DVN.CFG's checks let through (R195). -/
theorem DvnArgs.error_none {a : DvnArgs} {draws need : Nat} :
    a.error draws need = none ↔
      1 ≤ a.rho ∧ 1 ≤ a.fs ∧ 1 ≤ a.maxblk ∧ epsOk a.eps = true ∧ 2 ≤ a.td ∧ need ≤ draws ∧ a.p ≤ Config.pMax ∧
        a.td ≤ Config.tdMax ∧ a.maxblk ≤ Config.maxblkCap ∧ a.p * a.td + a.maxblk ≤ Config.dlCap := by
  unfold DvnArgs.error
  split
  · simp only [reduceCtorEq, false_iff]
    omega
  · split
    · next h => simp [h]
    · next h1 h2 =>
      have h2' : epsOk a.eps = true := by simpa using h2
      simp only [h2', true_and]
      repeat' split
      all_goals first
        | (simp only [reduceCtorEq, false_iff]; omega)
        | (simp only [true_iff]; omega)

theorem Dvn.wf_build {prm : Params} {a : DvnArgs} {rnd : List Draw} {draws need : Nat}
    (h : a.error draws need = none) (hr : 3 * a.p ≤ rnd.length) : (Dvn.build prm a rnd).wf := by
  obtain ⟨h1, h2, h3, h4, h5, _, h7, h8, h9, h10⟩ := DvnArgs.error_none.mp h
  have hcap : Config.tdMax + 1 ≤ Config.dlCap := by decide
  have hk : ∀ q ∈ genPulses a.td 0 a.p rnd, q.k ≤ a.p * a.td := fun q hq => by
    simpa using (genPulses_mem hq).2.2
  have hkm : kmax (genPulses a.td 0 a.p rnd) ≤ a.p * a.td := kmax_le hk
  have hm : max 1 (kmax (genPulses a.td 0 a.p rnd)) + a.maxblk ≤ Config.dlCap := by
    have : 1 + a.maxblk ≤ Config.dlCap := by
      have : 1 + Config.maxblkCap ≤ Config.dlCap := by decide
      omega
    omega
  intro _
  refine ⟨h1, h2, h3, h9, h7, rfl, h5, h8, rfl, rfl, rfl, h4, genPulses_length _ _ _ _ hr, ?_, ?_, ?_, ?_⟩
  · intro q hq
    have := genPulses_mem hq
    exact ⟨this.1, this.2.1, le_trans (le_kmax hq) (le_max_right _ _)⟩
  · exact Dl.sized_build (le_max_left _ _) h3 h9 hm 0
  · simp [Dvn.build, Rrs.build, Function.comp_def]
  · intro f hf
    simp only [Dvn.build, List.mem_map, List.mem_range] at hf
    obtain ⟨b, hb, rfl⟩ := hf
    refine ⟨rfl, rfl, Rrs.wf_build (by omega) h4 ?_⟩
    have : a.td / 2 + b ≤ a.td := by omega
    omega

theorem Dvn.buckets_length (draw : Nat) (d : Dvn) (sd : Dl) (n b : Nat) (fs : List Rrs) (acc : List F32)
    (h : acc.length = n) (hs : ∀ b, (d.scratch draw sd n b).length = n) : (d.buckets draw sd n b fs acc).1.length = n := by
  induction fs generalizing b acc with
  | nil => exact h
  | cons f fs ih =>
    simp only [Dvn.buckets]
    exact ih (b + 1) _ (by simp [h, hs])

theorem addPulse_length (draw : Nat) (s : Sign) {scr d : List F32} {n : Nat} (h1 : scr.length = n) (h2 : d.length = n) :
    (addPulse draw s scr d).length = n := by cases s <;> simp [addPulse, h1, h2]

theorem Dvn.scratch_length (draw : Nat) (d : Dvn) (sd : Dl) (n b : Nat) : (d.scratch draw sd n b).length = n := by
  have aux : ∀ (ps : List Pulse) (scr : List F32), scr.length = n →
      (ps.foldl (fun scr q => addPulse draw q.s scr (sd.readBlock q.k n)) scr).length = n := by
    intro ps
    induction ps with
    | nil => intro scr h; exact h
    | cons p ps ih =>
      intro scr h
      exact ih _ (addPulse_length draw p.s h (Dl.readBlock_length sd p.k n))
  exact aux _ _ (by simp)

@[simp] theorem Dvn.block_length (draw : Nat) (d : Dvn) (n : Nat) (xs : List F32) : (d.block draw n xs).1.length = n := by
  have h := Dvn.buckets_length draw d (d.sd.writeBlock xs) n 0 d.rrs (List.replicate n 0) (by simp)
    (Dvn.scratch_length draw d _ n)
  simpa [Dvn.block] using h

/-- Every filter of a convolver runs on its own scratch block (R197). -/
theorem Dvn.buckets_get (draw : Nat) (d : Dvn) (sd : Dl) (n b k : Nat) (fs : List Rrs) (acc : List F32) :
    (d.buckets draw sd n b fs acc).2[k]? = fs[k]?.map (fun f => (f.block draw (d.scratch draw sd n (b + k))).2) := by
  induction fs generalizing b k acc with
  | nil => rfl
  | cons f fs ih =>
    cases k with
    | zero => simp [Dvn.buckets]
    | succ k =>
      simp only [Dvn.buckets, List.getElem?_cons_succ, ih]
      rw [show b + 1 + k = b + (k + 1) by omega]

theorem Dvn.buckets_spec (draw : Nat) (d : Dvn) (sd : Dl) (n b : Nat) (fs : List Rrs) (acc : List F32) (P : Rrs → Prop)
    (h : ∀ f ∈ fs, ∀ xs, P (f.block draw xs).2) : ∀ f ∈ (d.buckets draw sd n b fs acc).2, P f := by
  induction fs generalizing b acc with
  | nil => intro f hf; simp [Dvn.buckets] at hf
  | cons g gs ih =>
    intro f hf
    simp only [Dvn.buckets, List.mem_cons] at hf
    rcases hf with rfl | hf
    · exact h g (by simp) _
    · exact ih (b + 1) _ (fun f' h' => h f' (by simp [h'])) f hf

theorem Dvn.buckets_width (draw : Nat) (d : Dvn) (sd : Dl) (n b : Nat) (fs : List Rrs) (acc : List F32) :
    (d.buckets draw sd n b fs acc).2.map Rrs.width = fs.map Rrs.width := by
  induction fs generalizing b acc with
  | nil => rfl
  | cons f fs ih => simp only [Dvn.buckets, List.map_cons, ih, (Rrs.block_fields draw f _).2.1]

/-- A block changes the shared line and the filters' history, and nothing else; the ranges stay. -/
theorem Dvn.block_wf {d : Dvn} (h : d.wf) (hc : d.cfg = true) (draw n : Nat) (xs : List F32) :
    (d.block draw n xs).2.wf := by
  obtain ⟨h1, h2, h3, h4, h5, h6, h7, h8, h9, h10, h11, h12, h13, h14, h15, h16, h17⟩ := h hc
  have hsd : (d.sd.writeBlock xs).sized (max 1 (kmax d.pulses)) d.maxblk := Dl.sized_writeBlock h15 xs
  intro _
  refine ⟨h1, h2, h3, h4, h5, h6, h7, h8, h9, h10, h11, h12, h13, ?_, hsd, ?_, ?_⟩
  · intro q hq
    have := h14 q hq
    exact ⟨this.1, this.2.1, this.2.2⟩
  · simp only [Dvn.block, Dvn.buckets_width]
    exact h16
  · intro f hf
    refine Dvn.buckets_spec draw d (d.sd.writeBlock xs) n 0 d.rrs (List.replicate n 0)
      (fun f => f.cfg = true ∧ f.eps = d.eps ∧ f.wf) ?_ f hf
    intro g hg ys
    obtain ⟨g1, g2, g3⟩ := h17 g hg
    have := Rrs.block_fields draw g ys
    exact ⟨this.1.trans g1, this.2.2.1.trans g2, Rrs.block_wf g3 draw ys⟩

/-! ## Diffusers -/

@[simp] theorem buildConvs_length (prm : Params) (a : DvnArgs) (ch : Nat) (rnd : List Draw) :
    (buildConvs prm a ch rnd).length = ch := by
  induction ch generalizing rnd with
  | zero => rfl
  | succ k ih => simp [buildConvs, ih]

/-- What DIFF.CFG's checks let through (R210). -/
theorem Diff.cfgError_none {ch : Nat} {a : DvnArgs} {draws : Nat} :
    Diff.cfgError ch a draws = none ↔ 1 ≤ ch ∧ ch ≤ Config.diffNmax ∧ a.error draws (3 * a.p * ch) = none := by
  unfold Diff.cfgError
  split
  · simp only [reduceCtorEq, false_iff]
    omega
  · split
    · simp only [reduceCtorEq, false_iff]
      omega
    · next h1 h2 => exact ⟨fun h => ⟨by omega, by omega, h⟩, fun h => h.2.2⟩

theorem buildConvs_mem {prm : Params} {a : DvnArgs} {ch : Nat} {rnd : List Draw} {draws need : Nat}
    (h : a.error draws need = none) (hr : 3 * a.p * ch ≤ rnd.length) :
    ∀ c ∈ buildConvs prm a ch rnd, c.cfg = true ∧ c.maxblk = a.maxblk ∧ c.wf := by
  induction ch generalizing rnd with
  | zero => intro c hc; simp [buildConvs] at hc
  | succ k ih =>
    intro c hc
    rw [Nat.mul_succ] at hr
    simp only [buildConvs, List.mem_cons] at hc
    rcases hc with rfl | hc
    · refine ⟨rfl, rfl, Dvn.wf_build h ?_⟩
      rw [List.length_take]
      omega
    · refine ih ?_ c hc
      rw [List.length_drop]
      omega

theorem Diff.wf_build {prm : Params} {ch : Nat} {a : DvnArgs} {rnd : List Draw} {draws : Nat}
    (h : Diff.cfgError ch a draws = none) (hr : 3 * a.p * ch ≤ rnd.length) : (Diff.build prm ch a rnd).wf := by
  obtain ⟨h1, h2, h3⟩ := Diff.cfgError_none.mp h
  exact fun _ => ⟨h1, h2, buildConvs_length _ _ _ _, buildConvs_mem h3 hr⟩

theorem Diff.block_wf {d : Diff} (h : d.wf) (hc : d.cfg = true) (draw n : Nat) {chans : List (List F32)}
    (hl : chans.length = d.ch) : (d.block draw n chans).2.wf := by
  obtain ⟨h1, h2, h3, h4⟩ := h hc
  intro _
  refine ⟨h1, h2, ?_, ?_⟩
  · simp [Diff.block, h3, hl]
  · intro c hm
    simp only [Diff.block, List.mem_map] at hm
    obtain ⟨p, hp, rfl⟩ := hm
    obtain ⟨i, hi, rfl⟩ := List.mem_iff_getElem.mp hp
    simp only [List.getElem_zipWith]
    simp only [List.length_zipWith] at hi
    obtain ⟨g1, g2, g3⟩ := h4 d.conv[i] (List.getElem_mem _)
    exact ⟨g1, g2, Dvn.block_wf g3 g1 draw n _⟩

@[simp] theorem Diff.block_length (draw : Nat) (d : Diff) (n : Nat) (chans : List (List F32)) :
    (d.block draw n chans).1.length = min d.conv.length chans.length := by simp [Diff.block]

theorem Diff.block_mem {draw : Nat} {d : Diff} {n : Nat} {chans : List (List F32)} {b : List F32}
    (h : b ∈ (d.block draw n chans).1) : b.length = n := by
  simp only [Diff.block, List.mem_map] at h
  obtain ⟨p, hp, rfl⟩ := h
  obtain ⟨i, hi, rfl⟩ := List.mem_iff_getElem.mp hp
  simp

end Sys2Proof.Machine
end

