-- ==== Sys2Proof/Laws/Fdn.lean ====
section
/-!
SUPPORT. What the mixer and the networks keep (42_hadamard_mixer.md R180, 44_fdn.md R230-R239, 10_state.md R50).
-/

namespace Sys2Proof.Machine

/-! ## The mixer -/

theorem butterflyStage_length {α : Type} (add sub : α → α → α) (h blocks : Nat) (v : List α)
    (hl : blocks * (2 * h) ≤ v.length) : (butterflyStage add sub h blocks v).length = v.length := by
  induction blocks generalizing v with
  | zero => rfl
  | succ k ih =>
    have e : (k + 1) * (2 * h) = k * (2 * h) + 2 * h := by ring
    rw [e] at hl
    have h1 : k * (2 * h) ≤ (v.drop (2 * h)).length := by rw [List.length_drop]; omega
    simp only [butterflyStage, List.length_append, List.length_zipWith, List.length_take, List.length_drop, ih _ h1]
    omega

theorem butterflies_length {α : Type} (add sub : α → α → α) (n stages h : Nat) (v : List α) (hv : v.length = n) :
    (butterflies add sub n stages h v).length = n := by
  induction stages generalizing h v with
  | zero => exact hv
  | succ k ih =>
    apply ih
    rw [butterflyStage_length, hv]
    rw [hv]
    exact Nat.div_mul_le_self n (2 * h)

theorem hadamard_length (draw n : Nat) {frame : List F32} (h : frame.length = n) : (hadamard draw n frame).length = n := by
  simp [hadamard, butterflies_length _ _ n _ 1 frame h]

/-- What HAD.MIX's checks let through (R180). -/
theorem hadError_none {n : Nat} : hadError n = none ↔ isPow2 n = true ∧ n ≤ Config.hadNmax := by
  unfold hadError
  split
  · next h => simp [h]
  · split
    · simp only [reduceCtorEq, false_iff]
      omega
    · next h1 h2 => exact ⟨fun _ => ⟨by simpa using h1, by omega⟩, fun _ => rfl⟩

/-! ## Building a network -/

theorem jitter_range {prm : Params} (h : prm.jitterOk = true) (lb : Nat) (u : Draw) :
    1 ≤ lineLength prm lb u ∧ lineLength prm lb u ≤ lineLengthMax prm lb := by
  simp only [Params.jitterOk, Bool.and_eq_true, decide_eq_true_eq] at h
  have h0 := drawRat_nonneg u
  have h1 := drawRat_lt_one u
  have hr : prm.jitLo + drawRat u * (prm.jitHi - prm.jitLo) ≤ prm.jitHi := by nlinarith [h.2]
  have hp : 0 ≤ prm.jitLo + drawRat u * (prm.jitHi - prm.jitLo) := by nlinarith [h.1, h.2]
  have hl : (0 : Rat) ≤ lb := by positivity
  have := roundAway_mono (mul_nonneg hl hp) (mul_le_mul_of_nonneg_left hr hl)
  unfold lineLength lineLengthMax
  omega

theorem line0Len_pos {prm : Params} (h : prm.line0LenOk = true) {lb : Nat} (hl : 1 ≤ lb) : 1 ≤ line0Len prm lb := by
  unfold line0Len
  cases hv : prm.line0Len.lookup lb with
  | none => simpa using hl
  | some v =>
    simp only [Option.getD_some]
    have : (lb, v) ∈ prm.line0Len := by
      clear h
      revert hv
      generalize prm.line0Len = l
      intro hv
      induction l with
      | nil => simp at hv
      | cons e t ih =>
        rw [List.lookup_cons] at hv
        split at hv
        · next hb =>
          have h1 : lb = e.1 := by simpa using hb
          have h2 : v = e.2 := by simpa using hv.symm
          rw [h1, h2]
          simp
        · exact List.mem_cons_of_mem _ (ih hv)
    simp only [Params.line0LenOk, List.all_eq_true, decide_eq_true_eq] at h
    exact h _ this

/-- What FDN.CFG's checks let through (R237). -/
theorem Fdn.cfgError_none {prm : Params} {n lb fs maxblk draws : Nat} :
    Fdn.cfgError prm n lb fs maxblk draws = none ↔
      1 ≤ lb ∧ 1 ≤ fs ∧ 1 ≤ maxblk ∧ isPow2 n = true ∧ 2 * n - 1 ≤ draws ∧ n ≤ Config.fdnNmax ∧
        maxblk ≤ Config.maxblkCap ∧ lineLengthMax prm lb ≤ Config.lMax ∧ line0Len prm lb ≤ Config.lMax ∧
        2 * max (lineLengthMax prm lb) (line0Len prm lb) + maxblk ≤ Config.dlCap := by
  unfold Fdn.cfgError
  split
  · next h =>
    simp only [reduceCtorEq, false_iff]
    rcases h with h | h | h | h
    · subst h; simp [isPow2]
    all_goals omega
  · next h0 =>
    split
    · next h =>
      simp only [reduceCtorEq, false_iff]
      simp [isPow2, h]
    · next h1 =>
      have hp : isPow2 n = true := by
        have : n ≠ 0 := by omega
        have h2 : n &&& (n - 1) = 0 := by simpa using h1
        simp [isPow2, this, h2]
      simp only [hp, true_and]
      repeat' split
      all_goals first
        | (simp only [reduceCtorEq, false_iff]; omega)
        | (simp only [true_iff]; omega)

theorem jitteredLines_spec (prm : Params) (lb maxblk count : Nat) (rnd : List Draw) (h : 2 * count ≤ rnd.length) :
    (jitteredLines prm lb maxblk count rnd).length = count := by
  induction count generalizing rnd with
  | zero => simp [jitteredLines]
  | succ k ih =>
    match rnd, h with
    | uj :: ug :: rest, h =>
      simp only [List.length_cons] at h
      simp [jitteredLines, ih rest (by omega)]

theorem jitteredLines_mem {prm : Params} {lb maxblk count : Nat} {rnd : List Draw} {l : FdnLine}
    (h : l ∈ jitteredLines prm lb maxblk count rnd) : ∃ u g, l = .build maxblk (lineLength prm lb u) g := by
  induction count generalizing rnd with
  | zero => simp [jitteredLines] at h
  | succ k ih =>
    match rnd, h with
    | uj :: ug :: rest, h =>
      rcases List.mem_cons.mp (by simpa [jitteredLines] using h) with rfl | h'
      · exact ⟨uj, _, rfl⟩
      · exact ih h'
    | [], h => simp [jitteredLines] at h
    | [_], h => simp [jitteredLines] at h

theorem Fdn.wf_build {prm : Params} {n lb fs maxblk draws : Nat} {rnd : List Draw} (hp : prm.wf = true)
    (h : Fdn.cfgError prm n lb fs maxblk draws = none) (hr : 2 * n - 1 ≤ rnd.length) :
    (Fdn.build prm n lb fs maxblk rnd).wf := by
  obtain ⟨h1, h2, h3, h4, _, h6, h7, h8, h9, h10⟩ := Fdn.cfgError_none.mp h
  simp only [Params.wf, Bool.and_eq_true] at hp
  obtain ⟨⟨⟨⟨⟨⟨_, hj⟩, _⟩, h0⟩, _⟩, _⟩, _⟩ := hp
  have hn : n ≠ 0 := by intro hn; subst hn; simp [isPow2] at h4
  have line : ∀ (len : Nat) (g : F32), 1 ≤ len → len ≤ max (lineLengthMax prm lb) (line0Len prm lb) →
      1 ≤ (FdnLine.build maxblk len g).len ∧
        (FdnLine.build maxblk len g).line.sized (2 * (FdnLine.build maxblk len g).len) maxblk := fun len g hl hm =>
    ⟨hl, Dl.sized_build (by omega) h3 h7 (by omega) 0⟩
  intro _
  cases rnd with
  | nil => simp only [List.length_nil] at hr; omega
  | cons u rest =>
    refine ⟨h4, h6, h1, h2, h3, h7, ?_, ?_⟩
    · simp only [List.length_cons] at hr
      simp only [Fdn.build, buildLines, List.length_cons, jitteredLines_spec prm lb maxblk (n - 1) rest (by omega)]
      omega
    · intro l hl
      rcases List.mem_cons.mp (by simpa [Fdn.build, buildLines] using hl) with rfl | hl
      · exact line _ _ (line0Len_pos h0 h1) (le_max_right _ _)
      · obtain ⟨v, g, rfl⟩ := jitteredLines_mem hl
        have := jitter_range hj lb v
        exact line _ _ this.1 (le_trans this.2 (le_max_left _ _))

/-! ## Running a network -/

theorem readLines_length (mode : Line0Mode) (i : Nat) (ls : List FdnLine) (taus : List Nat)
    (h : taus.length = ls.length) : (readLines mode i ls taus).length = ls.length := by
  induction ls generalizing i taus with
  | nil => cases taus <;> rfl
  | cons l ls ih =>
    cases taus with
    | nil => simp at h
    | cons t ts => simp [readLines, ih (i + 1) ts (by simpa using h)]

theorem feedLines_length (draw : Nat) (mode : Line0Mode) (alpha : F32) (i : Nat) (ls : List FdnLine)
    (ms xs : List F32) (hm : ms.length = ls.length) (hx : xs.length = ls.length) :
    (feedLines draw mode alpha i ls ms xs).length = ls.length := by
  induction ls generalizing i ms xs with
  | nil => cases ms <;> cases xs <;> rfl
  | cons l ls ih =>
    match ms, xs, hm, hx with
    | m :: ms, x :: xs, hm, hx => simp [feedLines, ih (i + 1) ms xs (by simpa using hm) (by simpa using hx)]

theorem feedLines_mem {draw : Nat} {mode : Line0Mode} {alpha : F32} {i : Nat} {ls : List FdnLine} {ms xs : List F32}
    {P : FdnLine → Prop} (hP : ∀ (l : FdnLine), l ∈ ls → ∀ i m x, P (lineFeed draw mode alpha i l m x)) :
    ∀ l ∈ feedLines draw mode alpha i ls ms xs, P l := by
  induction ls generalizing i ms xs with
  | nil => intro l hl; cases ms <;> cases xs <;> simp [feedLines] at hl
  | cons l0 ls ih =>
    intro l hl
    match ms, xs, hl with
    | m :: ms, x :: xs, hl =>
      rcases List.mem_cons.mp (by simpa [feedLines] using hl) with rfl | hl
      · exact hP l0 (by simp) _ _ _
      · exact ih (fun l' h' => hP l' (by simp [h'])) l hl
    | [], xs, hl => cases xs <;> simp [feedLines] at hl
    | _ :: _, [], hl => simp [feedLines] at hl

theorem lineFeed_spec (draw : Nat) (mode : Line0Mode) (alpha : F32) (i : Nat) (l : FdnLine) (m x : F32) (maxblk : Nat)
    (h : 1 ≤ l.len ∧ l.line.sized (2 * l.len) maxblk) :
    1 ≤ (lineFeed draw mode alpha i l m x).len ∧
      (lineFeed draw mode alpha i l m x).line.sized (2 * (lineFeed draw mode alpha i l m x).len) maxblk := by
  unfold lineFeed
  split
  · exact h
  · exact ⟨h.1, Dl.sized_push h.2 _⟩

/-- The loop keeps the number of lines and their sizes, and gives a frame for every frame (R239). -/
theorem fdnLoop_spec (draw : Nat) (mode : Line0Mode) (alpha : F32) (n maxblk : Nat) (taus : List Nat)
    (ls : List FdnLine) (xs : List (List F32)) (ht : taus.length = ls.length) (hn : ls.length = n)
    (hx : ∀ x ∈ xs, x.length = n) (hl : ∀ l ∈ ls, 1 ≤ l.len ∧ l.line.sized (2 * l.len) maxblk) :
    (fdnLoop draw mode alpha n taus ls xs).1.length = xs.length ∧
      (∀ d ∈ (fdnLoop draw mode alpha n taus ls xs).1, d.length = n) ∧
      (fdnLoop draw mode alpha n taus ls xs).2.length = n ∧
      ∀ l ∈ (fdnLoop draw mode alpha n taus ls xs).2, 1 ≤ l.len ∧ l.line.sized (2 * l.len) maxblk := by
  induction xs generalizing ls with
  | nil => exact ⟨rfl, by simp [fdnLoop], hn, hl⟩
  | cons x xs ih =>
    have hd : (readLines mode 0 ls taus).length = n := (readLines_length mode 0 ls taus ht).trans hn
    have hm : (hadamard draw n (readLines mode 0 ls taus)).length = ls.length := by rw [hadamard_length draw n hd, hn]
    have hx0 : x.length = ls.length := (hx x (by simp)).trans hn.symm
    have hf := feedLines_length draw mode alpha 0 ls _ x hm hx0
    have hr := ih (feedLines draw mode alpha 0 ls (hadamard draw n (readLines mode 0 ls taus)) x) (by omega) (by omega)
      (fun y hy => hx y (by simp [hy]))
      (feedLines_mem (fun l h i m x => lineFeed_spec draw mode alpha i l m x maxblk (hl l h)))
    refine ⟨by simp [fdnLoop, hr.1], ?_, hr.2.2.1, hr.2.2.2⟩
    intro d hd'
    rcases List.mem_cons.mp (by simpa [fdnLoop] using hd') with rfl | h'
    · exact hd
    · exact hr.2.1 d h'

@[simp] theorem framesOf_length (n : Nat) (chans : List (List F32)) : (framesOf n chans).length = n := by
  induction n generalizing chans with
  | zero => rfl
  | succ n ih => simp [framesOf, ih]

theorem framesOf_mem {n : Nat} {chans : List (List F32)} {f : List F32} (h : f ∈ framesOf n chans) :
    f.length = chans.length := by
  induction n generalizing chans with
  | zero => simp [framesOf] at h
  | succ n ih =>
    rcases List.mem_cons.mp (by simpa [framesOf] using h) with rfl | h'
    · simp
    · simpa using ih h'

/-- Frame `t` of a block holds sample `t` of every channel. -/
theorem framesOf_get (n : Nat) (chans : List (List F32)) (t : Nat) (ht : t < n) :
    (framesOf n chans)[t]? = some (chans.map (fun c => c.getD t 0)) := by
  induction n generalizing chans t with
  | zero => omega
  | succ n ih =>
    cases t with
    | zero =>
      simp only [framesOf, List.getElem?_cons_zero, Option.some.injEq]
      apply List.map_congr_left
      intro c _
      cases c <;> rfl
    | succ t =>
      rw [framesOf, List.getElem?_cons_succ, ih _ t (by omega), List.map_map]
      simp only [Option.some.injEq]
      apply List.map_congr_left
      intro c _
      cases c <;> simp

@[simp] theorem channelsOf_length (chans : Nat) (frames : List (List F32)) : (channelsOf chans frames).length = chans := by
  simp [channelsOf]

theorem channelsOf_mem {chans : Nat} {frames : List (List F32)} {b : List F32} (h : b ∈ channelsOf chans frames) :
    b.length = frames.length := by
  simp only [channelsOf, List.mem_map, List.mem_range] at h
  obtain ⟨i, _, rfl⟩ := h
  simp

theorem Fdn.block_wf {f : Fdn} (h : f.wf) (hc : f.cfg = true) (draw : Nat) (prm : Params) (n : Nat)
    {chans : List (List F32)} (hl : chans.length = f.n) (damp room : F32) :
    (f.block draw prm n chans damp room).2.wf := by
  obtain ⟨h1, h2, h3, h4, h5, h6, h7, h8⟩ := h hc
  have hr := fdnLoop_spec draw prm.line0 (onepoleAlpha prm (clamp damp cutoffLo cutoffHi) f.fs) f.n f.maxblk
    (f.lines.map (fun l => roomDelay l.len (clamp room roomLo roomHi))) f.lines (framesOf n chans) (by simp) h7
    (fun x hx => (framesOf_mem hx).trans hl) h8
  exact fun _ => ⟨h1, h2, h3, h4, h5, h6, hr.2.2.1, hr.2.2.2⟩

@[simp] theorem Fdn.block_length (draw : Nat) (prm : Params) (f : Fdn) (n : Nat) (chans : List (List F32))
    (damp room : F32) : (f.block draw prm n chans damp room).1.length = f.n := by simp [Fdn.block]

theorem fdnLoop_length (draw : Nat) (mode : Line0Mode) (alpha : F32) (n : Nat) (taus : List Nat) (ls : List FdnLine)
    (xs : List (List F32)) : (fdnLoop draw mode alpha n taus ls xs).1.length = xs.length := by
  induction xs generalizing ls with
  | nil => rfl
  | cons x xs ih => simp [fdnLoop, ih]

theorem Fdn.block_mem {draw : Nat} {prm : Params} {f : Fdn} {n : Nat} {chans : List (List F32)} {damp room : F32}
    {b : List F32} (h : b ∈ (f.block draw prm n chans damp room).1) : b.length = n := by
  rw [channelsOf_mem h, fdnLoop_length, framesOf_length]

end Sys2Proof.Machine
end

