-- ==== Sys2Proof/Laws/Float.lean ====
section
/-!
SUPPORT. Binary32 values as sign, magnitude bits and units of `2^-149` (00_scope.md R10, R11): the order of the values, and
that a value of the format rounds to itself.
-/

namespace Sys2Proof

/-! ## Sign and magnitude -/

theorem F32.mag_lt (x : F32) : F32.mag x < 2 ^ 31 := Nat.mod_lt _ (by decide)

theorem F32.toNat_eq (x : F32) : x.toNat = (if F32.neg x then 2 ^ 31 else 0) + F32.mag x := by
  have h : x.toNat < 2 ^ 32 := x.isLt
  unfold F32.neg F32.mag
  by_cases hc : 2 ^ 31 ≤ x.toNat
  · simp only [hc, decide_true, if_true]
    omega
  · simp only [hc, decide_false, Bool.false_eq_true, if_false]
    omega

theorem F32.ext_iff' {x y : F32} : x = y ↔ F32.neg x = F32.neg y ∧ F32.mag x = F32.mag y := by
  constructor
  · rintro rfl
    exact ⟨rfl, rfl⟩
  · rintro ⟨h1, h2⟩
    apply BitVec.eq_of_toNat_eq
    rw [F32.toNat_eq x, F32.toNat_eq y, h1, h2]

theorem F32.toNat_pack (s : Bool) {m : Nat} (h : m < 2 ^ 31) : (F32.pack s m).toNat = (if s then 2 ^ 31 else 0) + m := by
  unfold F32.pack
  rw [BitVec.toNat_ofNat]
  cases s
  · simp only [Bool.false_eq_true, if_false]
    omega
  · simp only [if_true]
    omega

@[simp] theorem F32.mag_pack (s : Bool) {m : Nat} (h : m < 2 ^ 31) : F32.mag (F32.pack s m) = m := by
  unfold F32.mag
  rw [F32.toNat_pack s h]
  cases s
  · simp only [Bool.false_eq_true, if_false]
    omega
  · simp only [if_true]
    omega

@[simp] theorem F32.neg_pack (s : Bool) {m : Nat} (h : m < 2 ^ 31) : F32.neg (F32.pack s m) = s := by
  unfold F32.neg
  rw [F32.toNat_pack s h]
  cases s
  · simp only [Bool.false_eq_true, if_false, decide_eq_false_iff_not]
    omega
  · simp only [if_true, decide_eq_true_eq]
    omega

@[simp] theorem F32.pack_self (x : F32) : F32.pack (F32.neg x) (F32.mag x) = x :=
  F32.ext_iff'.mpr ⟨F32.neg_pack _ (F32.mag_lt x), F32.mag_pack _ (F32.mag_lt x)⟩

theorem F32.isFinite_iff (x : F32) : F32.isFinite x = true ↔ F32.mag x < F32.infMag := by simp [F32.isFinite]

theorem F32.isNaN_of_finite {x : F32} (h : F32.isFinite x = true) : F32.isNaN x = false := by
  have := (F32.isFinite_iff x).mp h
  simp only [F32.isNaN, decide_eq_false_iff_not]
  omega

theorem F32.isInf_of_finite {x : F32} (h : F32.isFinite x = true) : F32.isInf x = false := by
  have := (F32.isFinite_iff x).mp h
  simp only [F32.isInf, decide_eq_false_iff_not]
  omega

theorem F32.neg_eq_msb (x : F32) : F32.neg x = x.msb := by
  rw [BitVec.msb_eq_decide]
  rfl

@[simp] theorem F32.neg_negate (x : F32) : F32.neg (F32.negate x) = !F32.neg x := by
  rw [F32.neg_eq_msb, F32.neg_eq_msb, F32.negate, BitVec.msb_xor]
  have : (0x80000000 : F32).msb = true := by decide
  rw [this]
  cases x.msb <;> rfl

@[simp] theorem F32.mag_negate (x : F32) : F32.mag (F32.negate x) = F32.mag x := by
  unfold F32.mag F32.negate
  rw [BitVec.toNat_xor, Nat.xor_mod_two_pow]
  have : (0x80000000 : F32).toNat % 2 ^ 31 = 0 := by decide
  rw [this, Nat.xor_zero]

@[simp] theorem F32.negate_negate (x : F32) : F32.negate (F32.negate x) = x :=
  F32.ext_iff'.mpr ⟨by simp, by simp⟩

@[simp] theorem F32.units_negate (x : F32) : F32.units (F32.negate x) = F32.units x := by simp [F32.units]

@[simp] theorem F32.signedUnits_negate (x : F32) : F32.signedUnits (F32.negate x) = -F32.signedUnits x := by
  unfold F32.signedUnits
  cases h : F32.neg x <;> simp [h]

@[simp] theorem F32.isFinite_negate (x : F32) : F32.isFinite (F32.negate x) = F32.isFinite x := by simp [F32.isFinite]

@[simp] theorem F32.isNaN_negate (x : F32) : F32.isNaN (F32.negate x) = F32.isNaN x := by simp [F32.isNaN]

@[simp] theorem F32.isInf_negate (x : F32) : F32.isInf (F32.negate x) = F32.isInf x := by simp [F32.isInf]

/-! ## The order of the values -/

/-- The units of the magnitude bits `m`, with a step of `2^(m / 2^23 - 1)` above the subnormals. -/
theorem F32.units_lt_succ (m : Nat) :
    (if m / 2 ^ 23 = 0 then m else (2 ^ 23 + m % 2 ^ 23) <<< (m / 2 ^ 23 - 1)) <
      (if (m + 1) / 2 ^ 23 = 0 then m + 1 else (2 ^ 23 + (m + 1) % 2 ^ 23) <<< ((m + 1) / 2 ^ 23 - 1)) := by
  simp only [Nat.shiftLeft_eq]
  rcases Nat.lt_or_ge (m % 2 ^ 23 + 1) (2 ^ 23) with h | h
  · have e1 : (m + 1) / 2 ^ 23 = m / 2 ^ 23 := by omega
    have e2 : (m + 1) % 2 ^ 23 = m % 2 ^ 23 + 1 := by omega
    rw [e1, e2]
    split
    · omega
    · exact Nat.mul_lt_mul_of_pos_right (by omega) (by positivity)
  · have e1 : (m + 1) / 2 ^ 23 = m / 2 ^ 23 + 1 := by omega
    have e2 : (m + 1) % 2 ^ 23 = 0 := by omega
    have e3 : m % 2 ^ 23 = 2 ^ 23 - 1 := by omega
    rw [e1, e2]
    simp only [Nat.succ_ne_zero, if_false, Nat.add_sub_cancel]
    split
    · next h0 =>
      rw [h0]
      omega
    · next h0 =>
      obtain ⟨k, hk⟩ : ∃ k, m / 2 ^ 23 = k + 1 := ⟨m / 2 ^ 23 - 1, by omega⟩
      rw [hk, e3, Nat.add_sub_cancel, pow_succ]
      have : 0 < 2 ^ k := by positivity
      omega

theorem F32.units_lt_units {x y : F32} (h : F32.mag x < F32.mag y) : F32.units x < F32.units y := by
  have := strictMono_nat_of_lt_succ
    (f := fun m => if m / 2 ^ 23 = 0 then m else (2 ^ 23 + m % 2 ^ 23) <<< (m / 2 ^ 23 - 1)) F32.units_lt_succ
  exact this h

theorem F32.units_lt_iff {x y : F32} : F32.units x < F32.units y ↔ F32.mag x < F32.mag y := by
  constructor
  · intro h
    by_contra hc
    rcases Nat.lt_or_ge (F32.mag y) (F32.mag x) with h1 | h1
    · exact absurd (F32.units_lt_units h1) (by omega)
    · have e : F32.mag x = F32.mag y := by omega
      unfold F32.units at h
      rw [e] at h
      omega
  · exact F32.units_lt_units

theorem F32.units_eq_zero {x : F32} : F32.units x = 0 ↔ F32.mag x = 0 := by
  constructor
  · intro h
    by_contra hc
    have : F32.mag (0 : F32) < F32.mag x := by
      have : F32.mag (0 : F32) = 0 := by decide
      omega
    have := F32.units_lt_units this
    omega
  · intro h
    simp [F32.units, h]

theorem F32.key_lt_iff {x y : F32} : F32.key x < F32.key y ↔ F32.signedUnits x < F32.signedUnits y := by
  have h1 := @F32.units_lt_iff x y
  have h2 := @F32.units_lt_iff y x
  have h3 := @F32.units_eq_zero x
  have h4 := @F32.units_eq_zero y
  unfold F32.key F32.signedUnits
  cases F32.neg x <;> cases F32.neg y <;> simp only [Bool.false_eq_true, if_false, if_true] <;> omega

theorem F32.toRat_lt_iff {x y : F32} : F32.toRat x < F32.toRat y ↔ F32.key x < F32.key y := by
  rw [F32.key_lt_iff]
  unfold F32.toRat
  rw [div_lt_div_iff_of_pos_right (by positivity)]
  exact Int.cast_lt

/-- The order the machine tests is that of R10 and R13. -/
theorem F32.lt_iff_below (x y : F32) : F32.lt x y = true ↔ Machine.below x y := by
  have ninf : (0xFF800000 : F32) = F32.pack true F32.infMag := by decide
  have pinf : (0x7F800000 : F32) = F32.pack false F32.infMag := by decide
  have hi : F32.infMag < 2 ^ 31 := by decide
  have eqn : ∀ z : F32, z = 0xFF800000 ↔ F32.neg z = true ∧ F32.mag z = F32.infMag := fun z => by
    rw [F32.ext_iff', ninf, F32.neg_pack _ hi, F32.mag_pack _ hi]
  have eqp : ∀ z : F32, z = 0x7F800000 ↔ F32.neg z = false ∧ F32.mag z = F32.infMag := fun z => by
    rw [F32.ext_iff', pinf, F32.neg_pack _ hi, F32.mag_pack _ hi]
  unfold Machine.below
  rw [F32.toRat_lt_iff]
  simp only [F32.lt, Bool.and_eq_true, Bool.not_eq_true', decide_eq_true_eq, F32.isNaN, F32.isFinite,
    decide_eq_false_iff_not, ne_eq, eqn, eqp]
  unfold F32.key
  have hp : 0 < F32.infMag := by decide
  cases F32.neg x <;> cases F32.neg y <;>
    simp only [Bool.false_eq_true, if_false, if_true, reduceCtorEq, false_and, true_and, and_true, false_or,
      not_false_eq_true] <;> omega

theorem toRat_zero : F32.toRat 0 = 0 := by decide +kernel

theorem toRat_one : F32.toRat 0x3F800000 = 1 := by decide +kernel

/-- The test of R162 on an `EPS` is that it is a finite value strictly between 0 and 1. -/
theorem epsOk_iff (e : F32) : Machine.epsOk e = true ↔ Machine.inUnit e := by
  unfold Machine.epsOk Machine.inUnit
  rw [Bool.and_eq_true, F32.lt_iff_below, F32.lt_iff_below]
  unfold Machine.below
  rw [toRat_zero, toRat_one]
  have f0 : F32.isFinite 0 = true := by decide
  have f1 : F32.isFinite 0x3F800000 = true := by decide
  constructor
  · rintro ⟨⟨_, _, a⟩, _, _, b⟩
    rcases b with ⟨rfl, _⟩ | ⟨b, _⟩ | ⟨b1, _, b2⟩
    · rcases a with ⟨a, _⟩ | ⟨a, _⟩ | ⟨_, a, _⟩
      · exact absurd a (by decide)
      · exact absurd a (by decide)
      · exact absurd a (by decide)
    · exact absurd b (by decide)
    · refine ⟨b1, ?_, b2⟩
      rcases a with ⟨a, _⟩ | ⟨rfl, _⟩ | ⟨_, _, a⟩
      · exact absurd a (by decide)
      · exact absurd b1 (by decide)
      · exact a
  · rintro ⟨a, b, c⟩
    have n := F32.isNaN_of_finite a
    exact ⟨⟨by decide, n, .inr (.inr ⟨f0, a, b⟩)⟩, n, by decide, .inr (.inr ⟨a, f1, c⟩)⟩

/-! ## Rounding a value of the format -/

namespace Machine

theorem log2_units {m : Nat} (h : 2 ^ 23 ≤ m) :
    Nat.log2 ((2 ^ 23 + m % 2 ^ 23) <<< (m / 2 ^ 23 - 1)) = 22 + m / 2 ^ 23 := by
  rw [Nat.shiftLeft_eq]
  have hne : (2 ^ 23 + m % 2 ^ 23) * 2 ^ (m / 2 ^ 23 - 1) ≠ 0 := by positivity
  rw [Nat.log2_eq_iff hne]
  have e : 22 + m / 2 ^ 23 = 23 + (m / 2 ^ 23 - 1) := by omega
  rw [e]
  constructor
  · rw [pow_add]
    exact Nat.mul_le_mul_right _ (by omega)
  · rw [show 23 + (m / 2 ^ 23 - 1) + 1 = 24 + (m / 2 ^ 23 - 1) by omega, pow_add]
    exact Nat.mul_lt_mul_of_pos_right (by omega) (by positivity)

/-- A finite value of the format rounds to itself. -/
theorem roundMag_units {x : F32} (h : F32.isFinite x = true) : roundMag (F32.units x) 1 = F32.mag x := by
  have hm := (F32.isFinite_iff x).mp h
  have half : ∀ k : Nat, 0 < k → ¬ (k < 2 * 0 ∨ (2 * 0 = k ∧ (0 : Nat) % 2 = 1)) := fun k hk => by omega
  unfold roundMag
  simp only [Nat.div_one]
  unfold F32.units
  by_cases hc : F32.mag x / 2 ^ 23 = 0
  · simp only [hc, if_true]
    have hlt : F32.mag x < 2 ^ 23 := by omega
    have hl : Nat.log2 (F32.mag x) - 23 = 0 := by
      rcases Nat.eq_zero_or_pos (F32.mag x) with h0 | h0
      · rw [h0]; rfl
      · have := (Nat.log2_lt (n := F32.mag x) (k := 23) (by omega)).mpr hlt
        omega
    rw [hl]
    simp only [Nat.shiftLeft_zero, Nat.div_one, Nat.mod_one, Nat.mul_zero, Nat.zero_mul, Nat.add_zero]
    simp only [Nat.not_lt_zero, false_and, or_self, if_false, Nat.zero_ne_one]
    omega
  · simp only [hc, if_false]
    rw [log2_units (by omega)]
    have hs : 22 + F32.mag x / 2 ^ 23 - 23 = F32.mag x / 2 ^ 23 - 1 := by omega
    rw [hs, Nat.shiftLeft_eq, Nat.shiftLeft_eq, Nat.one_mul]
    have hp : 0 < 2 ^ (F32.mag x / 2 ^ 23 - 1) := by positivity
    rw [Nat.mul_div_cancel _ hp, Nat.mul_mod_left]
    have hn : ¬ (2 ^ (F32.mag x / 2 ^ 23 - 1) < 2 * 0 ∨ 2 * 0 = 2 ^ (F32.mag x / 2 ^ 23 - 1) ∧
        (2 ^ 23 + F32.mag x % 2 ^ 23) % 2 = 1) := by omega
    rw [if_neg hn]
    omega

/-- Rounding depends on the quotient alone. -/
theorem roundMag_scale (n d c : Nat) (hc : 0 < c) : roundMag (n * c) (d * c) = roundMag n d := by
  unfold roundMag
  simp only [Nat.mul_div_mul_right _ _ hc]
  generalize Nat.log2 (n / d) - 23 = s
  have e : (d * c) <<< s = (d <<< s) * c := by simp only [Nat.shiftLeft_eq]; ring
  rw [e, Nat.mul_div_mul_right _ _ hc, Nat.mul_mod_mul_right]
  have h1 : (d <<< s * c < 2 * (n % d <<< s * c)) ↔ (d <<< s < 2 * (n % d <<< s)) := by
    rw [show 2 * (n % d <<< s * c) = 2 * (n % d <<< s) * c by ring]
    exact Nat.mul_lt_mul_right hc
  have h2 : (2 * (n % d <<< s * c) = d <<< s * c) ↔ (2 * (n % d <<< s) = d <<< s) := by
    rw [show 2 * (n % d <<< s * c) = 2 * (n % d <<< s) * c by ring]
    exact Nat.mul_left_inj (by omega)
  simp only [h1, h2]

/-- `rne32` of a number of units is the rounding of the number of units. -/
theorem rne32_units (z : Int) (d : Nat) (hd : 0 < d) :
    rne32 ((z : Rat) / d / 2 ^ 149) = F32.pack (decide (z < 0)) (roundMag z.natAbs d) := by
  have hq : (z : Rat) / d / 2 ^ 149 = Rat.divInt z ((d * 2 ^ 149 : Nat) : Int) := by
    rw [Rat.divInt_eq_div]
    push_cast
    rw [div_div]
    norm_num
  have hneg : ((z : Rat) / d / 2 ^ 149 < 0) ↔ z < 0 := by
    have hd' : (0 : Rat) < d := by exact_mod_cast hd
    rw [div_lt_iff₀ (by positivity), div_lt_iff₀ hd']
    simp
  unfold rne32
  simp only [hneg]
  congr 1
  rw [hq]
  have hne : ((d * 2 ^ 149 : Nat) : Int) ≠ 0 := by positivity
  obtain ⟨c, hc1, hc2⟩ := Rat.num_den_mk hne (rfl : Rat.divInt z ((d * 2 ^ 149 : Nat) : Int) = _)
  generalize hr : Rat.divInt z ((d * 2 ^ 149 : Nat) : Int) = r at *
  have hcp : 0 < c := by
    by_contra h
    have h1 : c * (r.den : Int) ≤ 0 := Int.mul_nonpos_of_nonpos_of_nonneg (by omega) (by positivity)
    have h2 : (0 : Int) < ((d * 2 ^ 149 : Nat) : Int) := by positivity
    omega
  obtain ⟨k, rfl⟩ : ∃ k : Nat, c = k := ⟨c.toNat, by omega⟩
  have hz : z.natAbs = k * r.num.natAbs := by rw [hc1, Int.natAbs_mul]; rfl
  have hdd : d * 2 ^ 149 = k * r.den := by exact_mod_cast hc2
  have hk : 0 < k := by exact_mod_cast hcp
  rw [← roundMag_scale (r.num.natAbs * 2 ^ 149) r.den k hk, ← roundMag_scale z.natAbs d (2 ^ 149) (by positivity), hz, hdd]
  congr 1 <;> ring

end Machine

end Sys2Proof
end

