-- ==== Sys2Proof/Laws/Memory.lean ====
section
/-!
SUPPORT. IOBUF (20_memory.md R73, R74): every operation on it keeps its canonical form and leaves the bytes outside the
words it writes; a word reads back as written.
-/

namespace Sys2Proof.Machine

theorem Memory.wf_nil : Memory.wf [] := by simp [Memory.wf, storeSorted]

/-- The memory of the reset state is in canonical form. -/
theorem reset_iobuf_wf : State.reset.iobuf.wf := Memory.wf_nil

theorem Memory.wf_writeBytes {m : Memory} (h : m.wf) (a : Nat) (bs : List Byte) : (m.writeBytes a bs).wf := by
  induction bs generalizing m a with
  | nil => exact h
  | cons b bs ih => exact ih (Memory.wf_writeByte h a b) (a + 1)

theorem Memory.wf_writeWord {m : Memory} (h : m.wf) (a : Nat) (v : Word) : (m.writeWord a v).wf :=
  Memory.wf_writeBytes h a _

theorem Memory.wf_writeSamples {m : Memory} (h : m.wf) (c i : Nat) (xs : List F32) : (m.writeSamples c i xs).wf := by
  induction xs generalizing m i with
  | nil => exact h
  | cons x xs ih => exact ih (Memory.wf_writeWord h _ x) (i + 1)

theorem Memory.wf_writeChannels {m : Memory} (h : m.wf) (c : Nat) (bufs : List (List F32)) :
    (m.writeChannels c bufs).wf := by
  induction bufs generalizing m c with
  | nil => exact h
  | cons xs rest ih => exact ih (Memory.wf_writeSamples h c 0 xs) (c + 1)

/-- A byte after bytes are written from `a` up. -/
theorem Memory.readByte_writeBytes (epoch : Nat) (m : Memory) (a x : Nat) (bs : List Byte) :
    (m.writeBytes a bs).readByte epoch x = if a ≤ x then bs.getD (x - a) (m.readByte epoch x) else m.readByte epoch x := by
  induction bs generalizing m a with
  | nil => simp [Memory.writeBytes]
  | cons b bs ih =>
    rw [Memory.writeBytes, ih, Memory.readByte_writeByte]
    rcases Nat.lt_trichotomy x a with h | h | h
    · have h1 : ¬ a + 1 ≤ x := by omega
      have h2 : ¬ a ≤ x := by omega
      have h3 : x ≠ a := by omega
      simp [h1, h2, h3]
    · subst h
      simp
    · have h1 : a + 1 ≤ x := by omega
      have h2 : a ≤ x := by omega
      have h3 : x ≠ a := by omega
      obtain ⟨k, hk⟩ : ∃ k, x - a = k + 1 := ⟨x - a - 1, by omega⟩
      have h4 : x - (a + 1) = k := by omega
      simp [h1, h2, h3, hk, h4]

/-- A word written reads back. -/
theorem Memory.readWord_writeWord (epoch : Nat) (m : Memory) (a : Nat) (v : Word) :
    (m.writeWord a v).readWord epoch a = v := by
  have e1 : a + 1 - a = 1 := by omega
  have e2 : a + 2 - a = 2 := by omega
  have e3 : a + 3 - a = 3 := by omega
  simp only [Memory.readWord, Memory.writeWord, Memory.readByte_writeBytes, wordBytes, wordOfBytes]
  simp only [Nat.le_refl, Nat.le_add_right, if_true, Nat.sub_self, e1, e2, e3, List.getD_cons_zero, List.getD_cons_succ]
  apply BitVec.eq_of_getLsbD_eq
  intro i hi
  simp only [BitVec.getLsbD_append, BitVec.getLsbD_extractLsb']
  rcases Nat.lt_or_ge i 8 with h | h
  · simp [h]
  · rcases Nat.lt_or_ge i 16 with h' | h'
    · have : i - 8 < 8 := by omega
      have e : 8 + (i - 8) = i := by omega
      simp [Nat.not_lt.mpr h, this, e]
    · rcases Nat.lt_or_ge i 24 with h'' | h''
      · have : ¬ i - 8 < 8 := by omega
        have h3 : i - 8 - 8 < 8 := by omega
        have e : 16 + (i - 8 - 8) = i := by omega
        simp [Nat.not_lt.mpr h, this, h3, e]
      · have : ¬ i - 8 < 8 := by omega
        have h3 : ¬ i - 8 - 8 < 8 := by omega
        have h4 : i - 8 - 8 - 8 < 8 := by omega
        have e : 24 + (i - 8 - 8 - 8) = i := by omega
        simp [Nat.not_lt.mpr h, this, h3, h4, e]

/-- A byte outside the word written is as it was. -/
theorem Memory.readByte_writeWord_other (epoch : Nat) (m : Memory) (a x : Nat) (v : Word) (h : x < a ∨ a + 4 ≤ x) :
    (m.writeWord a v).readByte epoch x = m.readByte epoch x := by
  rw [Memory.writeWord, Memory.readByte_writeBytes]
  split
  · obtain ⟨k, hk⟩ : ∃ k, x - a = k + 4 := ⟨x - a - 4, by omega⟩
    simp [wordBytes, hk]
  · rfl

/-- A word that a write of another word does not overlap is as it was. -/
theorem Memory.readWord_writeWord_other (epoch : Nat) (m : Memory) (a b : Nat) (v : Word) (h : b + 4 ≤ a ∨ a + 4 ≤ b) :
    (m.writeWord a v).readWord epoch b = m.readWord epoch b := by
  unfold Memory.readWord
  rw [Memory.readByte_writeWord_other, Memory.readByte_writeWord_other, Memory.readByte_writeWord_other,
    Memory.readByte_writeWord_other] <;> omega

/-- The byte is in a word `IOBUF[c][k]` with `i ≤ k < i + n`. -/
def inSamples (c i n x : Nat) : Prop := ∃ k, i ≤ k ∧ k < i + n ∧ iobufOffset c k ≤ x ∧ x < iobufOffset c k + 4

/-- Writing samples leaves every byte outside their words. -/
theorem Memory.readByte_writeSamples (epoch : Nat) (m : Memory) (c i x : Nat) (xs : List F32)
    (h : ¬ inSamples c i xs.length x) : (m.writeSamples c i xs).readByte epoch x = m.readByte epoch x := by
  induction xs generalizing m i with
  | nil => rfl
  | cons y ys ih =>
    rw [Memory.writeSamples, ih]
    · apply Memory.readByte_writeWord_other
      by_contra hc
      exact h ⟨i, Nat.le_refl i, by simp, by omega, by omega⟩
    · rintro ⟨k, h1, h2, h3⟩
      exact h ⟨k, by omega, by simp only [List.length_cons]; omega, h3⟩

/-- Writing channel blocks leaves every byte outside the words of their samples. -/
theorem Memory.readByte_writeChannels (epoch : Nat) (m : Memory) (c x : Nat) (bufs : List (List F32))
    (h : ∀ k (hk : k < bufs.length), ¬ inSamples (c + k) 0 bufs[k].length x) :
    (m.writeChannels c bufs).readByte epoch x = m.readByte epoch x := by
  induction bufs generalizing m c with
  | nil => rfl
  | cons xs rest ih =>
    rw [Memory.writeChannels, ih]
    · exact Memory.readByte_writeSamples epoch m c 0 x xs (h 0 (by simp))
    · intro k hk
      have := h (k + 1) (by simpa using hk)
      simpa [Nat.add_assoc, Nat.add_comm 1 k] using this

/-- The samples of a channel, by number. -/
theorem Memory.readSamples_eq (epoch : Nat) (m : Memory) (c i n : Nat) :
    m.readSamples epoch c i n = (List.range n).map (fun k => m.readWord epoch (iobufOffset c (i + k))) := by
  induction n generalizing i with
  | zero => rfl
  | succ n ih =>
    rw [Memory.readSamples, ih, List.range_succ_eq_map, List.map_cons, List.map_map]
    congr 1
    apply List.map_congr_left
    intro k _
    simp only [Function.comp]
    congr 2
    omega

@[simp] theorem Memory.length_readSamples (epoch : Nat) (m : Memory) (c i n : Nat) :
    (m.readSamples epoch c i n).length = n := by simp [Memory.readSamples_eq]

/-- A sample written reads back. -/
theorem Memory.readWord_writeSamples (epoch : Nat) (m : Memory) (c i : Nat) (xs : List F32) (k : Nat) {x : F32}
    (hx : xs[k]? = some x) : (m.writeSamples c i xs).readWord epoch (iobufOffset c (i + k)) = x := by
  induction xs generalizing m i k with
  | nil => simp at hx
  | cons y ys ih =>
    rw [Memory.writeSamples]
    cases k with
    | zero =>
      have e : y = x := by simpa using hx
      subst e
      have : ∀ (zs : List F32) (m : Memory) (j : Nat), i < j →
          (m.writeSamples c j zs).readWord epoch (iobufOffset c i) = m.readWord epoch (iobufOffset c i) := by
        intro zs
        induction zs with
        | nil => intros; rfl
        | cons z zs ihz =>
          intro m j hj
          rw [Memory.writeSamples, ihz _ (j + 1) (by omega)]
          exact Memory.readWord_writeWord_other epoch m _ _ _ (by unfold iobufOffset; omega)
      show Memory.readWord epoch _ (iobufOffset c i) = _
      rw [this ys (m.writeWord (iobufOffset c i) y) (i + 1) (by omega), Memory.readWord_writeWord]
    | succ k =>
      rw [show i + (k + 1) = i + 1 + k by omega]
      exact ih _ (i + 1) k (by simpa using hx)

/-- Writing one channel's samples leaves the words of another. -/
theorem Memory.readWord_writeSamples_other (epoch : Nat) (m : Memory) (c c' i j : Nat) (xs : List F32) (hc : c' < c)
    (hj : j < Config.maxblkCap) : (m.writeSamples c i xs).readWord epoch (iobufOffset c' j) = m.readWord epoch (iobufOffset c' j) := by
  induction xs generalizing m i with
  | nil => rfl
  | cons x xs ih =>
    rw [Memory.writeSamples, ih]
    apply Memory.readWord_writeWord_other
    left
    unfold iobufOffset
    have : (c' + 1) * Config.maxblkCap ≤ c * Config.maxblkCap := Nat.mul_le_mul_right _ (by omega)
    rw [Nat.add_mul] at this
    omega

/-- A sample written by a block of channels reads back. -/
theorem Memory.readWord_writeChannels (epoch : Nat) (m : Memory) (c : Nat) (bufs : List (List F32)) (k i : Nat)
    {xs : List F32} {x : F32} (hk : bufs[k]? = some xs) (hx : xs[i]? = some x) (hi : i < Config.maxblkCap) :
    (m.writeChannels c bufs).readWord epoch (iobufOffset (c + k) i) = x := by
  induction bufs generalizing m c k with
  | nil => simp at hk
  | cons ys rest ih =>
    rw [Memory.writeChannels]
    cases k with
    | zero =>
      have e : ys = xs := by simpa using hk
      subst e
      have : ∀ (zs : List (List F32)) (m : Memory) (d : Nat), c < d →
          (m.writeChannels d zs).readWord epoch (iobufOffset c i) = m.readWord epoch (iobufOffset c i) := by
        intro zs
        induction zs with
        | nil => intros; rfl
        | cons z zs ihz =>
          intro m d hd
          rw [Memory.writeChannels, ihz _ (d + 1) (by omega)]
          exact Memory.readWord_writeSamples_other epoch m d c 0 i z hd hi
      show Memory.readWord epoch _ (iobufOffset c i) = _
      rw [this rest (m.writeSamples c 0 ys) (c + 1) (by omega)]
      have := Memory.readWord_writeSamples epoch m c 0 ys i hx
      rwa [Nat.zero_add] at this
    | succ k =>
      rw [show c + (k + 1) = c + 1 + k by omega]
      exact ih _ (c + 1) k (by simpa using hk)

end Sys2Proof.Machine
end

