-- ==== Sys2Proof/Laws/PerInstr.lean ====
section
/-!
SUPPORT. What holds of every command word, one lemma per command (30_encoding.md R100-R105).
-/

namespace Sys2Proof.Laws

/-- The command's word has well-formed fields, its own port decodes it to the command, and every other port rejects it
(R103, R104). -/
def CommandWord.Statement (i : Instr) : Prop :=
  i.fields.wf = true ∧ Cmd32.ofWord (encode i) = i.fields ∧ decode (encode i) = .ok i ∧
    ∀ c : Class, decodeAt c (encode i) = if c = i.cls then .ok i else .illegal (.wrongClass i.cls.code)

theorem CommandWord.dlCfg : CommandWord.Statement .dlCfg :=
  ⟨by decide, by decide, by decide, fun c => by cases c <;> decide⟩

theorem CommandWord.dlRd : CommandWord.Statement .dlRd :=
  ⟨by decide, by decide, by decide, fun c => by cases c <;> decide⟩

theorem CommandWord.dlRdm : CommandWord.Statement .dlRdm :=
  ⟨by decide, by decide, by decide, fun c => by cases c <;> decide⟩

theorem CommandWord.dlWr : CommandWord.Statement .dlWr :=
  ⟨by decide, by decide, by decide, fun c => by cases c <;> decide⟩

theorem CommandWord.dlProc : CommandWord.Statement .dlProc :=
  ⟨by decide, by decide, by decide, fun c => by cases c <;> decide⟩

theorem CommandWord.dlRdb : CommandWord.Statement .dlRdb :=
  ⟨by decide, by decide, by decide, fun c => by cases c <;> decide⟩

theorem CommandWord.dlWrb : CommandWord.Statement .dlWrb :=
  ⟨by decide, by decide, by decide, fun c => by cases c <;> decide⟩

theorem CommandWord.dlProcb : CommandWord.Statement .dlProcb :=
  ⟨by decide, by decide, by decide, fun c => by cases c <;> decide⟩

theorem CommandWord.rrsCfg : CommandWord.Statement .rrsCfg :=
  ⟨by decide, by decide, by decide, fun c => by cases c <;> decide⟩

theorem CommandWord.rrsSeteps : CommandWord.Statement .rrsSeteps :=
  ⟨by decide, by decide, by decide, fun c => by cases c <;> decide⟩

theorem CommandWord.rrsProc : CommandWord.Statement .rrsProc :=
  ⟨by decide, by decide, by decide, fun c => by cases c <;> decide⟩

theorem CommandWord.rrsProcb : CommandWord.Statement .rrsProcb :=
  ⟨by decide, by decide, by decide, fun c => by cases c <;> decide⟩

theorem CommandWord.hadMix : CommandWord.Statement .hadMix :=
  ⟨by decide, by decide, by decide, fun c => by cases c <;> decide⟩

theorem CommandWord.dvnCfg : CommandWord.Statement .dvnCfg :=
  ⟨by decide, by decide, by decide, fun c => by cases c <;> decide⟩

theorem CommandWord.dvnProcb : CommandWord.Statement .dvnProcb :=
  ⟨by decide, by decide, by decide, fun c => by cases c <;> decide⟩

theorem CommandWord.dvnPulse : CommandWord.Statement .dvnPulse :=
  ⟨by decide, by decide, by decide, fun c => by cases c <;> decide⟩

theorem CommandWord.diffCfg : CommandWord.Statement .diffCfg :=
  ⟨by decide, by decide, by decide, fun c => by cases c <;> decide⟩

theorem CommandWord.diffProcb : CommandWord.Statement .diffProcb :=
  ⟨by decide, by decide, by decide, fun c => by cases c <;> decide⟩

theorem CommandWord.fdnCfg : CommandWord.Statement .fdnCfg :=
  ⟨by decide, by decide, by decide, fun c => by cases c <;> decide⟩

theorem CommandWord.fdnProcb : CommandWord.Statement .fdnProcb :=
  ⟨by decide, by decide, by decide, fun c => by cases c <;> decide⟩

theorem CommandWord.revNop : CommandWord.Statement .revNop :=
  ⟨by decide, by decide, by decide, fun c => by cases c <;> decide⟩

theorem CommandWord.revSetup : CommandWord.Statement .revSetup :=
  ⟨by decide, by decide, by decide, fun c => by cases c <;> decide⟩

theorem CommandWord.revProcess : CommandWord.Statement .revProcess :=
  ⟨by decide, by decide, by decide, fun c => by cases c <;> decide⟩

end Sys2Proof.Laws
end

