-- ==== Sys2Proof/Laws/Rev.lean ====
section
/-!
SUPPORT. What setup and processing keep (45_reverb_top.md R262-R275, 10_state.md R51).
-/

namespace Sys2Proof.Machine

@[simp] theorem rngDraws_length (n : Nat) (x : Word) : (rngDraws n x).1.length = n := by
  induction n generalizing x with
  | zero => rfl
  | succ n ih => simp [rngDraws, ih]

/-- Draws in two runs are the draws in one (R264: one source for all the stages). -/
theorem rngDraws_add (m n : Nat) (x : Word) :
    rngDraws (m + n) x = ((rngDraws m x).1 ++ (rngDraws n (rngDraws m x).2).1, (rngDraws n (rngDraws m x).2).2) := by
  induction m generalizing x with
  | zero => simp [rngDraws]
  | succ m ih => rw [show m + 1 + n = (m + n) + 1 by omega, rngDraws, ih]; simp [rngDraws]

/-- What REV.SETUP's checks let through (R263). -/
theorem Rev.setupError_none {prm : Params} {fs mb : Nat} (h : Rev.setupError prm fs mb = none) :
    1 ≤ fs ∧ 1 ≤ mb ∧ fs ≤ Config.fsMax ∧ mb ≤ Config.maxblkCap ∧ stageDiffError prm.diff1 fs mb = none ∧
      stageFdnError prm prm.fdnBaseMs1 fs mb = none ∧ stageDiffError prm.diff2 fs mb = none ∧
      stageFdnError prm prm.fdnBaseMs2 fs mb = none ∧ stageDiffError prm.diff3 fs mb = none := by
  unfold Rev.setupError at h
  split at h
  · simp at h
  · split at h
    · simp at h
    · split at h
      · simp at h
      · split at h
        · simp at h
        · simp only [Option.or_eq_none_iff] at h
          obtain ⟨a, b, c, d, e⟩ := h
          exact ⟨by omega, by omega, by omega, by omega, a, b, c, d, e⟩

/-- What REV.PROCESS's checks let through (R265). -/
theorem Rev.processError_none {r : Rev} (h : r.processError = none) :
    r.configured = true ∧ 1 ≤ r.nch.toNat ∧ r.nch.toNat ≤ Config.cMax ∧ r.nlen.toNat ≤ r.cfgMaxblk.toNat := by
  unfold Rev.processError at h
  split at h
  · simp at h
  · split at h
    · simp at h
    · split at h
      · simp at h
      · next h1 h2 h3 => exact ⟨by simpa using h1, by omega, by omega, by omega⟩

theorem Diff.stage_build {prm : Params} {sp : StageParams} {fs mb : Nat} {rnd : List Draw}
    (h : stageDiffError sp fs mb = none) (hr : rnd.length = diffDraws sp) :
    (Diff.build prm Config.nInt (stageArgs sp fs mb) rnd).stage mb :=
  ⟨rfl, rfl, rfl, Diff.wf_build h (le_of_eq hr.symm)⟩

theorem Fdn.stage_build {prm : Params} {ms : Rat} {fs mb : Nat} {rnd : List Draw} (hp : prm.wf = true)
    (h : stageFdnError prm ms fs mb = none) (hr : rnd.length = fdnDraws) :
    (Fdn.build prm Config.nInt (baseLength ms fs).toNat fs mb rnd).stage fs mb :=
  ⟨rfl, rfl, rfl, rfl, Fdn.wf_build hp h (le_of_eq hr.symm)⟩

/-- A successful setup leaves REV in range (R263). -/
theorem Rev.wf_setup {prm : Params} {r : Rev} (hp : prm.wf = true)
    (h : Rev.setupError prm r.fs.toNat r.maxblk.toNat = none) : (r.setup prm).wf := by
  obtain ⟨h1, h2, h3, h4, h5, h6, h7, h8, h9⟩ := Rev.setupError_none h
  refine ⟨Nat.zero_le _, rfl, rfl, rfl, by simp, fun _ => ⟨h1, h3, h2, h4, rfl, by simp, ?_, ?_, ?_, ?_, ?_⟩⟩
  · exact Diff.stage_build h5 (rngDraws_length _ _)
  · exact Fdn.stage_build hp h6 (rngDraws_length _ _)
  · exact Diff.stage_build h7 (rngDraws_length _ _)
  · exact Fdn.stage_build hp h8 (rngDraws_length _ _)
  · exact Diff.stage_build h9 (rngDraws_length _ _)

theorem Diff.stage_block {d : Diff} {mb : Nat} (h : d.stage mb) (draw n : Nat) {chans : List (List F32)}
    (hl : chans.length = Config.nInt) :
    (d.block draw n chans).2.stage mb ∧ (d.block draw n chans).1.length = Config.nInt := by
  obtain ⟨h1, h2, h3, h4⟩ := h
  refine ⟨⟨h1, h2, h3, Diff.block_wf h4 h1 draw n (hl.trans h2.symm)⟩, ?_⟩
  rw [Diff.block_length, (h4 h1).2.2.1, h2, hl]
  rfl

theorem Fdn.stage_block {f : Fdn} {fs mb : Nat} (h : f.stage fs mb) (draw : Nat) (prm : Params) (n : Nat)
    {chans : List (List F32)} (hl : chans.length = Config.nInt) (damp room : F32) :
    (f.block draw prm n chans damp room).2.stage fs mb ∧ (f.block draw prm n chans damp room).1.length = Config.nInt := by
  obtain ⟨h1, h2, h3, h4, h5⟩ := h
  exact ⟨⟨h1, h2, h3, h4, Fdn.block_wf h5 h1 draw prm n (hl.trans h2.symm) damp room⟩, by rw [Fdn.block_length, h2]⟩

@[simp] theorem toneChannels_length (draw : Nat) (ah al : F32) (hs ls : List F32) (c : Nat) (xs : List (List F32)) :
    (toneChannels draw ah al hs ls c xs).length = xs.length := by
  induction xs generalizing c with
  | nil => rfl
  | cons x xs ih => simp [toneChannels, ih]

@[simp] theorem toneChannel_length (draw : Nat) (ah al h l : F32) (xs : List F32) :
    (toneChannel draw ah al h l xs).out.length = xs.length := by
  induction xs generalizing h l with
  | nil => rfl
  | cons x xs ih => simp [toneChannel, ih]

theorem upscale_length {bufs : List (List F32)} (h : bufs.length ≤ Config.nInt) : (upscale bufs).length = Config.nInt := by
  simp only [upscale, List.length_append, List.length_replicate]
  omega

theorem Rev.predelayLines_spec {r : Rev} (hw : r.wf) (hc : r.configured = true) (c : Nat) :
    (r.predelayLines c).length = c ∧ ∀ d ∈ r.predelayLines c, d.sized r.mpd r.cfgMaxblk.toNat := by
  obtain ⟨_, h2, _, _, _, h6⟩ := hw
  obtain ⟨g1, g2, g3, g4, g5, g6, _⟩ := h6 hc
  unfold Rev.predelayLines
  split
  · next h => exact ⟨h2.trans h.symm, g6⟩
  · refine ⟨by simp, fun d hd => ?_⟩
    rw [(List.mem_replicate.mp hd).2]
    have hm : 1 ≤ r.mpd := by rw [g5]; unfold predelayMaxSamples; omega
    have hx : r.mpd ≤ 19200 := by
      rw [g5]
      have hq : (0 : Rat) ≤ F32.toRat Config.predelayMax := by
        have : F32.toRat Config.predelayMax = 13421773 / 134217728 := by decide +kernel
        rw [this]; norm_num
      have h192 : (r.cfgFs.toNat : Rat) ≤ (192000 : Nat) := by
        have : Config.fsMax = 192000 := rfl
        rw [this] at g2
        exact_mod_cast g2
      have := roundAway_mono (mul_nonneg hq (by positivity)) (mul_le_mul_of_nonneg_left h192 hq)
      have e : roundAway (F32.toRat Config.predelayMax * (192000 : Nat)) = 19200 := by decide +kernel
      rw [e] at this
      unfold predelayMaxSamples
      omega
    have hcap : 19200 + Config.maxblkCap ≤ Config.dlCap := by decide
    exact Dl.sized_build hm g3 g4 (by omega) 0

/-- A processed block leaves REV in range (R265). -/
theorem Rev.wf_process {r : Rev} (hw : r.wf) (hc : r.configured = true) (draw : Nat) (prm : Params) (n : Nat)
    {ins : List (List F32)} (hi : ins.length ≤ Config.cMax) : (r.process draw prm n ins).2.wf := by
  have hw' := hw
  obtain ⟨_, _, h3, h4, _, h6⟩ := hw'
  obtain ⟨g1, g2, g3, g4, g5, _, k1, k2, k3, k4, k5⟩ := h6 hc
  obtain ⟨p1, p2⟩ := Rev.predelayLines_spec hw hc ins.length
  have hcm : Config.cMax = Config.nInt := rfl
  have up : ∀ bufs : List (List F32), bufs.length = ins.length → (upscale bufs).length = Config.nInt :=
    fun bufs hb => upscale_length (by omega)
  refine ⟨hi, by simp [Rev.process, Rev.wet, p1], ?_, ?_, ?_, fun _ => ⟨g1, g2, g3, g4, g5, ?_, ?_⟩⟩
  · simp only [Rev.process, Rev.wet, List.length_append, List.length_map, toneChannels_length, List.length_drop]
    omega
  · simp only [Rev.process, Rev.wet, List.length_append, List.length_map, toneChannels_length, List.length_drop]
    omega
  · intro h
    simp [hc] at h
  · intro d hd
    simp only [Rev.process, Rev.wet, List.mem_map] at hd
    obtain ⟨e, he, rfl⟩ := hd
    obtain ⟨i, hi', rfl⟩ := List.mem_iff_getElem.mp he
    simp only [List.length_zipWith] at hi'
    simp only [List.getElem_zipWith, predelay]
    exact Dl.sized_writeBlock (p2 _ (List.getElem_mem _)) _
  · simp only [Rev.process, Rev.wet]
    have u := up ((List.zipWith (predelay (roundAway (F32.toRat r.controls.initdelay * (r.cfgFs.toNat : Nat))).toNat n)
      (r.predelayLines ins.length) ((toneChannels draw (onepoleAlpha prm r.controls.highpass r.cfgFs.toNat)
        (onepoleAlpha prm r.controls.lowpass r.cfgFs.toNat) r.hs r.ls 0 ins).map ToneOut.out)).map Prod.fst)
      (by simp [p1])
    have s1 := Diff.stage_block k1 draw n u
    have s2 := Fdn.stage_block k2 draw prm n s1.2 r.controls.dampening r.controls.roomsize
    have s3 := Diff.stage_block k3 draw n s2.2
    have s4 := Fdn.stage_block k4 draw prm n s3.2 r.controls.dampening r.controls.roomsize
    have s5 := Diff.stage_block k5 draw n s4.2
    exact ⟨s1.1, s2.1, s3.1, s4.1, s5.1⟩

@[simp] theorem readBlocks_length (epoch : Nat) (m : Memory) (n c k : Nat) : (readBlocks epoch m n c k).length = k := by
  induction k generalizing c with
  | zero => rfl
  | succ k ih => simp [readBlocks, ih]

theorem readBlocks_mem {epoch : Nat} {m : Memory} {n c k : Nat} {b : List F32} (h : b ∈ readBlocks epoch m n c k) :
    b.length = n := by
  induction k generalizing c with
  | zero => simp [readBlocks] at h
  | succ k ih =>
    rcases List.mem_cons.mp (by simpa [readBlocks] using h) with rfl | h'
    · simp
    · exact ih h'

/-- Channel `c` of an input block is the words `IOBUF[c][0..n-1]` (20_memory.md R73). -/
theorem readBlocks_get (epoch : Nat) (m : Memory) (n c k j : Nat) (h : j < k) :
    (readBlocks epoch m n c k)[j]? =
      some ((List.range n).map (fun i => m.readWord epoch (iobufOffset (c + j) i))) := by
  induction k generalizing c j with
  | zero => omega
  | succ k ih =>
    cases j with
    | zero => simp [readBlocks, Memory.readSamples_eq]
    | succ j =>
      rw [readBlocks, List.getElem?_cons_succ, ih (c + 1) j (by omega)]
      rw [show c + 1 + j = c + (j + 1) by omega]

/-- The tone filters of a channel, sample by sample (R270). -/
theorem toneChannel_spec (draw : Nat) (ah al h0 l0 : F32) (xs : List F32) :
    ∃ h l : Nat → F32, h 0 = h0 ∧ l 0 = l0 ∧ h xs.length = (toneChannel draw ah al h0 l0 xs).h ∧
      l xs.length = (toneChannel draw ah al h0 l0 xs).l ∧
      ∀ i x, xs[i]? = some x → onepoled draw ah (h i) x (h (i + 1)) ∧
        onepoled draw al (l i) (sub32 draw x (h (i + 1))) (l (i + 1)) ∧
        (toneChannel draw ah al h0 l0 xs).out[i]? = some (l (i + 1)) := by
  induction xs generalizing h0 l0 with
  | nil => exact ⟨fun _ => h0, fun _ => l0, rfl, rfl, rfl, rfl, fun i x h => by simp at h⟩
  | cons x xs ih =>
    obtain ⟨h, l, a, b, c, d, e⟩ := ih (onepole draw ah h0 x) (onepole draw al l0 (sub32 draw x (onepole draw ah h0 x)))
    refine ⟨fun i => match i with | 0 => h0 | i + 1 => h i, fun i => match i with | 0 => l0 | i + 1 => l i, rfl, rfl, c, d, ?_⟩
    intro i y hy
    cases i with
    | zero =>
      simp only [List.getElem?_cons_zero, Option.some.injEq] at hy
      subst hy
      simp only [a, b]
      exact ⟨rfl, rfl, rfl⟩
    | succ i =>
      obtain ⟨p, q, r⟩ := e i y (by simpa using hy)
      exact ⟨p, q, by simpa [toneChannel] using r⟩

theorem toneChannels_get (draw : Nat) (ah al : F32) (hs ls : List F32) (b c : Nat) (xs : List (List F32)) {x : List F32}
    (hx : xs[c]? = some x) : (toneChannels draw ah al hs ls b xs)[c]? =
      some (toneChannel draw ah al (hs.getD (b + c) 0) (ls.getD (b + c) 0) x) := by
  induction xs generalizing b c with
  | nil => simp at hx
  | cons y ys ih =>
    cases c with
    | zero => simp only [List.getElem?_cons_zero, Option.some.injEq] at hx; subst hx; rfl
    | succ c =>
      rw [toneChannels, List.getElem?_cons_succ, ih (b + 1) c (by simpa using hx), show b + 1 + c = b + (c + 1) by omega]

end Sys2Proof.Machine
end

