-- ==== Sys2Proof/Laws/Spec.lean ====
section
/-!
SUPPORT. Each shared operation against the relation of Sys2Proof/Safety.lean that says what it does in the terms of its rule.
-/

namespace Sys2Proof.Machine

/-! ## Frames -/

theorem sameMemory_of {s t : State} (h1 : t.iobuf = s.iobuf) (h2 : t.epoch = s.epoch) : sameMemory s t := by
  intro a
  rw [h1, h2]

theorem onlyDl_put (s : State) (d : Dl) (r : SampleResult) : onlyDl s (s.putDl d r) := ⟨rfl, sameMemory_of rfl rfl⟩

theorem onlyRrs_put (s : State) (f : Rrs) (r : SampleResult) : onlyRrs s (s.putRrs f r) := ⟨rfl, sameMemory_of rfl rfl⟩

theorem onlyHad_put (s : State) (r : FrameResult) : onlyHad s (s.putHad r) := ⟨rfl, sameMemory_of rfl rfl⟩

theorem onlyDvn_put (s : State) (d : Dvn) (r : DvnResult) : onlyDvn s (s.putDvn d r) := ⟨rfl, sameMemory_of rfl rfl⟩

theorem onlyDiff_put (s : State) (d : Diff) (r : BlockResult) : onlyDiff s (s.putDiff d r) := ⟨rfl, sameMemory_of rfl rfl⟩

theorem onlyFdn_put (s : State) (f : Fdn) (r : BlockResult) : onlyFdn s (s.putFdn f r) := ⟨rfl, sameMemory_of rfl rfl⟩

theorem onlyRev_finish (s : State) (r : Rev) (m : Memory) : onlyRev s (s.finishRev r m) := rfl

/-! ## Operands -/

theorem takeVec_get (draw c i n : Nat) (xs : List F32) (j : Nat) (hj : j < n) (hx : j < xs.length) :
    (takeVec draw c i n xs)[j]? = xs[j]? := by
  induction n generalizing i xs j with
  | zero => omega
  | succ n ih =>
    cases xs with
    | nil => simp at hx
    | cons x xs =>
      cases j with
      | zero => simp [takeVec]
      | succ j => simpa [takeVec] using ih (i + 1) xs j (by omega) (by simpa using hx)

theorem takeVec_operandVec (draw c n : Nat) (xs : List F32) : operandVec xs n (takeVec draw c 0 n xs) :=
  ⟨takeVec_length _ _ _ _ _, fun j hj hx => takeVec_get draw c 0 n xs j hj hx⟩

theorem takeChannels_get (draw n c chans k : Nat) (bs : List (List F32)) (hk : k < chans) :
    (takeChannels draw n c chans bs)[k]? = some (takeVec draw (c + k) 0 n (bs.getD k [])) := by
  induction chans generalizing c bs k with
  | zero => omega
  | succ m ih =>
    cases bs with
    | nil =>
      cases k with
      | zero => simp [takeChannels]
      | succ k =>
        rw [takeChannels, List.getElem?_cons_succ, ih (c + 1) k [] (by omega), show c + 1 + k = c + (k + 1) by omega]
        simp
    | cons b bs =>
      cases k with
      | zero => simp [takeChannels]
      | succ k =>
        rw [takeChannels, List.getElem?_cons_succ, ih (c + 1) k bs (by omega), show c + 1 + k = c + (k + 1) by omega]
        simp

theorem takeChannels_operandChans (draw n chans : Nat) (bs : List (List F32)) :
    operandChans bs chans n (takeChannels draw n 0 chans bs) :=
  ⟨takeChannels_length _ _ _ _ _, fun c hc =>
    ⟨_, takeChannels_get draw n 0 chans c bs hc, takeVec_operandVec draw _ n _⟩⟩

/-! ## Delay lines -/

theorem Dl.slot_natCast_mod (d : Dl) (n : Nat) : d.slot (n : Int) = n % d.b := by
  unfold Dl.slot
  rw [← Int.natCast_mod]
  rfl

theorem Dl.wrote_push (d : Dl) (x : F32) : d.wrote (d.push x) x := by
  refine ⟨?_, fun j => Ring.read_write _ _ _ _⟩
  have e : d.slot ((d.w : Int) + 1) = (d.w + 1) % d.b := by
    rw [← Dl.slot_natCast_mod]
    push_cast
    rfl
  simp only [Dl.push, e]

theorem Dl.wroteAll_foldl (d : Dl) (xs : List F32) : d.wroteAll xs (xs.foldl Dl.push d) := by
  induction xs generalizing d with
  | nil => rfl
  | cons x xs ih => exact ⟨d.push x, Dl.wrote_push d x, ih (d.push x)⟩

theorem Dl.wroteAll_writeBlock {d : Dl} (hw : d.w < d.b) (xs : List F32) : d.wroteAll xs (d.writeBlock xs) := by
  rw [Dl.writeBlock_eq_foldl hw]
  exact Dl.wroteAll_foldl d xs

theorem Dl.at_slot_add {d : Dl} (hb : 0 < d.b) (i j : Int) : d.at ((d.slot i : Nat) + j) = d.at (i + j) := by
  unfold Dl.at
  rw [Dl.slot_congr (d := d) (i := ((d.slot i : Nat) : Int) + j) (j := i + j)]
  rw [Dl.slot_cast hb, Int.emod_add_emod]

theorem Dl.readBlock_at {d : Dl} (hb : 0 < d.b) (tau n j : Nat) (hj : j < n) :
    (d.readBlock tau n)[j]? = some (d.at ((d.w : Int) - tau - n + j)) := by
  simp only [Dl.readBlock, List.getElem?_map, List.getElem?_range hj, Option.map_some, Dl.at_slot_add hb]

theorem Dl.holds_readBlock {d : Dl} (hb : 0 < d.b) (tau n : Nat) : d.holds tau n (d.readBlock tau n) :=
  ⟨Dl.readBlock_length d tau n, fun j hj => Dl.readBlock_at hb tau n j hj⟩

theorem Dl.combedAll_combBlock (draw : Nat) (d : Dl) (xs : List F32) :
    d.combedAll draw xs (d.combBlock draw xs).1 (d.combBlock draw xs).2 := by
  induction xs generalizing d with
  | nil => exact ⟨rfl, rfl⟩
  | cons x xs ih => exact ⟨d.push (d.combOut draw x), d.combOut draw x, _, rfl, ⟨rfl, Dl.wrote_push d _⟩, ih _⟩

theorem Dl.fresh_build (m maxblk : Nat) (g : F32) : (Dl.build m maxblk g).fresh m maxblk g := ⟨rfl, fun _ => rfl⟩

/-! ## Filters -/

theorem Dl.age_eq_at (d : Dl) (a : Nat) : d.age a = d.at ((d.w : Int) - 1 - a) := rfl

theorem Rrs.stepped_push (draw : Nat) (f : Rrs) (x : F32) : f.stepped draw (f.push draw x) x (f.out draw x) := by
  refine ⟨rfl, Dl.wrote_push f.xl x, ?_, Dl.wrote_push f.yl _⟩
  simp only [Rrs.out, Dl.age_eq_at, Rrs.push_xl]
  rw [show (f.yl.w : Int) - 1 - (0 : Nat) = (f.yl.w : Int) - 1 by omega]

theorem Rrs.ran_block (draw : Nat) (f : Rrs) (xs : List F32) : f.ran draw xs (f.block draw xs).1 (f.block draw xs).2 := by
  induction xs generalizing f with
  | nil => exact ⟨rfl, rfl⟩
  | cons x xs ih => exact ⟨f.push draw x, f.out draw x, _, rfl, Rrs.stepped_push draw f x, ih _⟩

/-! ## The mixer -/

/-- A stage of butterflies, value by value (42_hadamard_mixer.md R180). -/
theorem butterflyStage_get {α : Type} (add sub : α → α → α) (h blocks : Nat) (v : List α) (w : Nat → α) (hh : 0 < h)
    (hl : v.length = blocks * (2 * h)) (hw : ∀ j, j < v.length → v[j]? = some (w j)) (j : Nat) (hj : j < v.length) :
    (butterflyStage add sub h blocks v)[j]? =
      some (if j / h % 2 = 0 then add (w j) (w (j + h)) else sub (w (j - h)) (w j)) := by
  induction blocks generalizing v w j with
  | zero => simp at hl; simp [hl] at hj
  | succ k ih =>
    have e : (k + 1) * (2 * h) = 2 * h + k * (2 * h) := by ring
    rw [e] at hl
    have l1 : (v.take h).length = h := by rw [List.length_take]; omega
    have l2 : ((v.drop h).take h).length = h := by rw [List.length_take, List.length_drop]; omega
    have g1 : ∀ i, i < h → (v.take h)[i]? = some (w i) := fun i hi => by
      rw [List.getElem?_take_of_lt hi]; exact hw i (by omega)
    have g2 : ∀ i, i < h → ((v.drop h).take h)[i]? = some (w (h + i)) := fun i hi => by
      rw [List.getElem?_take_of_lt hi, List.getElem?_drop]; exact hw (h + i) (by omega)
    have z1 : (List.zipWith add (v.take h) ((v.drop h).take h)).length = h := by simp [l1, l2]
    have z2 : (List.zipWith sub (v.take h) ((v.drop h).take h)).length = h := by simp [l1, l2]
    rw [butterflyStage, List.append_assoc]
    rcases Nat.lt_or_ge j h with c | c
    · rw [List.getElem?_append_left (by omega), List.getElem?_zipWith, g1 j c, g2 j c]
      simp [Nat.div_eq_of_lt c, Nat.add_comm]
    · rw [List.getElem?_append_right (by omega), z1]
      rcases Nat.lt_or_ge j (2 * h) with d | d
      · rw [List.getElem?_append_left (by omega), List.getElem?_zipWith, g1 (j - h) (by omega), g2 (j - h) (by omega)]
        have : j / h = 1 := by
          rw [Nat.div_eq_iff (by omega)]
          omega
        have hne : h + (j - h) = j := by omega
        simp [this, hne]
      · rw [List.getElem?_append_right (by omega), z2]
        have ld : (v.drop (2 * h)).length = k * (2 * h) := by rw [List.length_drop]; omega
        have := ih (v.drop (2 * h)) (fun i => w (2 * h + i)) ld
          (fun i hi => by
            rw [List.getElem?_drop]
            exact hw (2 * h + i) (by rw [List.length_drop] at hi; omega))
          (j - 2 * h) (by omega)
        rw [show j - h - h = j - 2 * h by omega, this]
        have dv : j / h = (j - 2 * h) / h + 2 := by
          have : j = (j - 2 * h) + 2 * h := by omega
          rw [this, Nat.add_mul_div_right _ _ hh]
          simp
        have hm : j / h % 2 = (j - 2 * h) / h % 2 := by omega
        rw [hm]
        split
        · rw [show 2 * h + (j - 2 * h) = j by omega, show 2 * h + (j - 2 * h + h) = j + h by omega]
        · next hc =>
          have : h ≤ j - 2 * h := by
            by_contra hlt
            exact hc (by rw [Nat.div_eq_of_lt (by omega)])
          rw [show 2 * h + (j - 2 * h) = j by omega, show 2 * h + (j - 2 * h - h) = j - h by omega]

/-- The stages of the transform, value by value: `v k` is the frame before stage `k`. -/
theorem butterflies_get {α : Type} [Inhabited α] (add sub : α → α → α) (m i : Nat) (v0 : List α)
    (hl : v0.length = 2 ^ (i + m)) :
    ∃ v : Nat → Nat → α,
      (∀ j, j < 2 ^ (i + m) → v0[j]? = some (v i j)) ∧
      (∀ k j, i ≤ k → k < i + m → j < 2 ^ (i + m) →
        v (k + 1) j = if j / 2 ^ k % 2 = 0 then add (v k j) (v k (j + 2 ^ k)) else sub (v k (j - 2 ^ k)) (v k j)) ∧
      ∀ j, j < 2 ^ (i + m) → (butterflies add sub (2 ^ (i + m)) m (2 ^ i) v0)[j]? = some (v (i + m) j) := by
  induction m generalizing i v0 with
  | zero =>
    have h0 : ∀ j, j < 2 ^ (i + 0) → v0[j]? = some (v0.getD j default) := fun j hj => by
      rw [List.getD_eq_getElem?_getD, List.getElem?_eq_getElem (by omega)]
      rfl
    exact ⟨fun _ j => v0.getD j default, h0, fun k j h1 h2 => by omega, h0⟩
  | succ m ih =>
    have p : 2 ^ (i + (m + 1)) = 2 ^ m * (2 * 2 ^ i) := by rw [show i + (m + 1) = m + (1 + i) by omega, pow_add, pow_add]; ring
    have hb : 2 ^ (i + (m + 1)) / (2 * 2 ^ i) = 2 ^ m := by rw [p]; exact Nat.mul_div_cancel _ (by positivity)
    have hl' : v0.length = 2 ^ m * (2 * 2 ^ i) := hl.trans p
    have e : i + 1 + m = i + (m + 1) := by omega
    have st := butterflyStage_length add sub (2 ^ i) (2 ^ m) v0 (le_of_eq hl'.symm)
    obtain ⟨v, a, b, c⟩ := ih (i + 1) (butterflyStage add sub (2 ^ i) (2 ^ m) v0) (by rw [st, hl, e])
    rw [e] at a b c
    refine ⟨fun k j => if k ≤ i then v0.getD j default else v k j, ?_, ?_, ?_⟩
    · intro j hj
      simp only [le_refl, if_true]
      rw [List.getD_eq_getElem?_getD, List.getElem?_eq_getElem (by omega)]
      rfl
    · intro k j h1 h2 hj
      have hk : ¬ k + 1 ≤ i := by omega
      simp only [hk, if_false]
      rcases Nat.lt_or_ge i k with h | h
      · have h3 : ¬ k ≤ i := by omega
        simp only [h3, if_false]
        exact b k j (by omega) h2 hj
      · have h3 : k = i := by omega
        subst h3
        have := butterflyStage_get add sub (2 ^ k) (2 ^ m) v0 (fun j => v0.getD j default) (by positivity) hl'
          (fun j hj => by
            rw [List.getD_eq_getElem?_getD, List.getElem?_eq_getElem hj]
            rfl) j (by omega)
        rw [a j hj] at this
        simpa using this
    · intro j hj
      have hk : ¬ i + (m + 1) ≤ i := by omega
      simp only [hk, if_false]
      have := c j hj
      rw [butterflies, hb]
      rw [pow_succ, Nat.mul_comm] at this
      exact this

theorem isPow2_eq {n : Nat} (h : isPow2 n = true) : n = 2 ^ Nat.log2 n := by
  simp only [isPow2, ne_eq, decide_not, Bool.and_eq_true, Bool.not_eq_true', decide_eq_false_iff_not,
    decide_eq_true_eq] at h
  have hn : n ≠ 0 := h.1
  have h1 := Nat.log2_self_le hn
  have h2 := @Nat.lt_log2_self n
  by_contra hne
  have h3 : 2 ^ Nat.log2 n ≤ n - 1 := by omega
  have t1 : n.testBit (Nat.log2 n) = true := Nat.testBit_of_two_pow_le_and_two_pow_add_one_gt h1 h2
  have t2 : (n - 1).testBit (Nat.log2 n) = true :=
    Nat.testBit_of_two_pow_le_and_two_pow_add_one_gt h3 (by omega)
  have t3 : (n &&& (n - 1)).testBit (Nat.log2 n) = true := by rw [Nat.testBit_and, t1, t2]; rfl
  rw [h.2] at t3
  simp at t3

/-- The transform of the machine is that of R180. -/
theorem mixed_hadamard (draw : Nat) {n : Nat} (hn : isPow2 n = true) {frame : List F32} (hf : frame.length = n) :
    mixed draw n frame (hadamard draw n frame) := by
  have hp := isPow2_eq hn
  obtain ⟨v, a, b, c⟩ := butterflies_get (add32 draw) (sub32 draw) (Nat.log2 n) 0 frame (by rw [hf, Nat.zero_add]; exact hp)
  simp only [Nat.zero_add, ← hp, pow_zero] at a b c
  refine ⟨v, a, fun k j hk hj => b k j (Nat.zero_le _) hk hj, hadamard_length draw n hf, fun j hj => ?_⟩
  rw [hadamard, List.getElem?_map, c j hj]
  rfl

end Sys2Proof.Machine
end

