-- ==== Sys2Proof/Laws/SpecDvn.lean ====
section
/-!
SUPPORT. Building and running convolvers, diffusers and networks, against the relations of Sys2Proof/Safety.lean
(43_dvn_convolver.md, 44_fdn.md).
-/

namespace Sys2Proof.Machine

/-! ## Convolvers -/

theorem pulseSign_plus (u : Draw) : pulseSign u = .plus ↔ 0x800000 ≤ u.toNat := by
  have h0 := drawRat_nonneg u
  have h1 := drawRat_lt_one u
  unfold pulseSign
  rw [roundAway_of_nonneg h0]
  have hh : ∀ z : Int, (2 * z - 1 = 1) ↔ z = 1 := fun z => by omega
  simp only [hh]
  have key : (drawRat u + 1 / 2).floor = 1 ↔ (1 : Rat) / 2 ≤ drawRat u := by
    constructor
    · intro h
      have := Rat.le_floor_iff.mp (le_of_eq h.symm)
      push_cast at this
      linarith
    · intro h
      apply le_antisymm
      · have : (drawRat u + 1 / 2).floor < (2 : Int) := by
          rw [Rat.floor_lt_iff]
          push_cast
          linarith
        omega
      · rw [Rat.le_floor_iff]
        push_cast
        linarith
  have val : (1 : Rat) / 2 ≤ drawRat u ↔ 0x800000 ≤ u.toNat := by
    unfold drawRat
    rw [div_le_div_iff₀ (by norm_num) (by norm_num)]
    constructor
    · intro h
      have : ((0x800000 : Nat) : Rat) ≤ (u.toNat : Nat) := by push_cast; linarith
      exact_mod_cast this
    · intro h
      have : ((0x800000 : Nat) : Rat) ≤ (u.toNat : Nat) := by exact_mod_cast h
      push_cast at this
      linarith
  by_cases h : 0x800000 ≤ u.toNat
  · rw [if_pos (key.mpr (val.mpr h))]
    simp only [true_iff]
    exact h
  · have : ¬ (drawRat u + 1 / 2).floor = 1 := fun hc => h (val.mp (key.mp hc))
    rw [if_neg this]
    simp only [reduceCtorEq, false_iff]
    exact h

theorem genPulse_madeOf (td m : Nat) (u1 u2 u3 : Draw) : (genPulse td m u1 u2 u3).madeOf td m u1 u2 u3 := by
  have h1 := drawRat_nonneg u1
  have h2 := drawRat_nonneg u2
  have hw := pulseWidth_range (Nat.div_le_self td 2) u1
  have hr : ((td / 2 : Nat) : Rat) ≤ td := by exact_mod_cast Nat.div_le_self td 2
  have hq : ((pulseWidth (td / 2) td u1 : Nat) : Rat) ≤ td := by exact_mod_cast hw.2
  refine ⟨?_, ?_, pulseSign_plus u3⟩
  · exact Int.toNat_of_nonneg (roundAway_nonneg (by
      have : (0 : Rat) ≤ (td / 2 : Nat) := by positivity
      nlinarith))
  · exact Int.toNat_of_nonneg (roundAway_nonneg (by
      have : (0 : Rat) ≤ (m : Rat) * td := by positivity
      show (0 : Rat) ≤ (m : Rat) * td + drawRat u2 * ((td : Rat) - (pulseWidth (td / 2) td u1 : Nat))
      nlinarith))

theorem genPulses_get (td m count k : Nat) (rnd : List Draw) (hr : 3 * count ≤ rnd.length) (hk : k < count) :
    ∃ u1 u2 u3, rnd[3 * k]? = some u1 ∧ rnd[3 * k + 1]? = some u2 ∧ rnd[3 * k + 2]? = some u3 ∧
      (genPulses td m count rnd)[k]? = some (genPulse td (m + k) u1 u2 u3) := by
  induction count generalizing m k rnd with
  | zero => omega
  | succ n ih =>
    match rnd, hr with
    | v1 :: v2 :: v3 :: rest, hr =>
      simp only [List.length_cons] at hr
      cases k with
      | zero => exact ⟨v1, v2, v3, rfl, rfl, rfl, rfl⟩
      | succ k =>
        obtain ⟨u1, u2, u3, a, b, c, d⟩ := ih (m + 1) k rest (by omega) (by omega)
        refine ⟨u1, u2, u3, ?_, ?_, ?_, ?_⟩
        · rw [show 3 * (k + 1) = 3 * k + 1 + 1 + 1 by omega]; simpa using a
        · rw [show 3 * (k + 1) + 1 = 3 * k + 1 + 1 + 1 + 1 by omega]; simpa using b
        · rw [show 3 * (k + 1) + 2 = 3 * k + 2 + 1 + 1 + 1 by omega]; simpa using c
        · rw [show m + (k + 1) = m + 1 + k by omega]; simpa [genPulses] using d

theorem kmax_attained (ps : List Pulse) : kmax ps = 0 ∨ ∃ q ∈ ps, q.k = kmax ps := by
  induction ps with
  | nil => exact .inl rfl
  | cons p ps ih =>
    rcases le_total p.k (kmax ps) with h | h
    · have e : kmax (p :: ps) = kmax ps := by
        simp only [kmax, List.foldr_cons] at *
        omega
      rcases ih with h0 | ⟨q, hq, hk⟩
      · exact .inl (e.trans h0)
      · exact .inr ⟨q, by simp [hq], hk.trans e.symm⟩
    · have e : kmax (p :: ps) = p.k := by
        simp only [kmax, List.foldr_cons] at *
        omega
      exact .inr ⟨p, by simp, e.symm⟩

theorem dvnFits_iff (p td mb : Nat) :
    dvnFits p td mb ↔ p ≤ Config.pMax ∧ td ≤ Config.tdMax ∧ mb ≤ Config.maxblkCap ∧ p * td + mb ≤ Config.dlCap := Iff.rfl

/-- The values the spec gives `(1 - ε)^W` for a rational `q`: the model's power is the rounded exact power (R161). -/
theorem rnePow_eq {q : Rat} (h : 0 ≤ q) (w : Nat) : rnePow q w = rne32 (q ^ w) := by
  have h1 : ¬ q ^ w < 0 := not_lt.mpr (pow_nonneg h w)
  simp only [rnePow, rne32, h1, decide_false, Rat.num_pow, Rat.den_pow, Int.natAbs_pow]

theorem Dvn.scratch_get (draw : Nat) (d : Dvn) {sd : Dl} (hb : 0 < sd.b) (n b j : Nat) (hj : j < n) :
    (d.scratch draw sd n b)[j]? = some (d.bucketSum draw sd n b j) := by
  have aux : ∀ (ps : List Pulse) (scr : List F32) (x : F32), scr[j]? = some x →
      (ps.foldl (fun scr q => addPulse draw q.s scr (sd.readBlock q.k n)) scr)[j]? =
        some (ps.foldl
          (fun acc q =>
            match q.s with
            | .plus => add32 draw acc (sd.at ((sd.w : Int) - q.k - n + j))
            | .minus => sub32 draw acc (sd.at ((sd.w : Int) - q.k - n + j))) x) := by
    intro ps
    induction ps with
    | nil => intro scr x h; exact h
    | cons p ps ih =>
      intro scr x h
      refine ih _ _ ?_
      obtain ⟨k, w, s⟩ := p
      have hr := Dl.readBlock_at hb k n j hj
      cases s <;> simp only [addPulse, List.getElem?_zipWith, h, hr]
  exact aux _ _ _ (by simp [hj])

theorem Dvn.buckets_out (draw : Nat) (d : Dvn) {sd : Dl} (n b : Nat) (fs : List Rrs) (acc0 : List F32)
    (acc : Nat → Nat → F32) (h0 : ∀ j, j < n → acc0[j]? = some (acc b j))
    (hs : ∀ k j o, k < fs.length → j < n →
      ((fs.getD k Rrs.unconfigured).block draw (d.scratch draw sd n (b + k))).1[j]? = some o →
        acc (b + k + 1) j = add32 draw (acc (b + k) j) o) :
    ∀ j, j < n → (d.buckets draw sd n b fs acc0).1[j]? = some (acc (b + fs.length) j) := by
  induction fs generalizing b acc0 with
  | nil => exact h0
  | cons f fs ih =>
    intro j hj
    rw [Dvn.buckets, List.length_cons, show b + (fs.length + 1) = b + 1 + fs.length by omega]
    refine ih (b + 1) _ ?_ ?_ j hj
    · intro i hi
      have hl : i < (f.block draw (d.scratch draw sd n b)).1.length := by
        rw [Rrs.block_length, Dvn.scratch_length]; exact hi
      have ho := List.getElem?_eq_getElem hl
      have := hs 0 i _ (by simp) hi ho
      rw [List.getElem?_zipWith, h0 i hi, ho]
      simpa using this.symm
    · intro k i o hk hi ho
      have e : b + 1 + k = b + (k + 1) := by omega
      rw [e] at ho ⊢
      exact hs (k + 1) i o (by simpa using hk) hi (by simpa using ho)

/-- The block operation of a convolver is that of R197, with the output of R196 and R199 for `P = 0` (log 31). -/
theorem Dvn.convolved_block {d : Dvn} (h : d.wf) (hc : d.cfg = true) (draw n : Nat) (xs : List F32) :
    d.convolved draw (d.block draw n xs).2 n xs (d.block draw n xs).1 := by
  obtain ⟨h1, h2, h3, h4, h5, h6, h7, h8, h9, h10, h11, h12, h13, h14, h15, h16, h17⟩ := h hc
  have hw : d.sd.w < d.sd.b := (h15.2.2.2 h15.1).2.2.2.2.2.1
  have hsd := Dl.sized_writeBlock h15 xs
  have hb : 0 < (d.sd.writeBlock xs).b := by
    have := (hsd.2.2.2 hsd.1).2.2.2.2.2.1
    omega
  have hl : d.rrs.length = d.nw := by
    have := congrArg List.length h16
    simpa using this
  have hel : (d.block draw n xs).2.rrs.length = d.nw := by
    have := congrArg List.length (Dvn.buckets_width draw d (d.sd.writeBlock xs) n 0 d.rrs (List.replicate n 0))
    simp only [List.length_map] at this
    exact this.trans hl
  refine ⟨rfl, Dl.wroteAll_writeBlock hw xs, hel, ?_⟩
  let scr : Nat → List F32 := fun b => d.scratch draw (d.sd.writeBlock xs) n b
  let out : Nat → List F32 := fun b => ((d.rrs.getD b Rrs.unconfigured).block draw (scr b)).1
  let acc : Nat → Nat → F32 := fun b j =>
    Nat.rec (motive := fun _ => F32) 0 (fun k a => add32 draw a ((out k).getD j 0)) b
  refine ⟨scr, out, acc, fun _ => rfl, ?_, Dvn.block_length draw d n xs, ?_⟩
  · intro b hb'
    have hf : d.rrs[b]? = some d.rrs[b] := List.getElem?_eq_getElem (by omega)
    have hg : d.rrs.getD b Rrs.unconfigured = d.rrs[b] := by rw [List.getD_eq_getElem?_getD, hf]; rfl
    have he := Dvn.buckets_get draw d (d.sd.writeBlock xs) n 0 b d.rrs (List.replicate n 0)
    rw [hf, Nat.zero_add] at he
    refine ⟨d.rrs[b], _, hf, he, Dvn.scratch_length _ _ _ _ _, fun j hj => Dvn.scratch_get draw d hb n b j hj, ?_, ?_⟩
    · have : out b = (d.rrs[b].block draw (scr b)).1 := by simp only [out, hg]
      rw [this]
      exact Rrs.ran_block draw d.rrs[b] (scr b)
    · intro j hj
      have hlo : j < (out b).length := by
        simp only [out, Rrs.block_length, scr, Dvn.scratch_length]
        exact hj
      refine ⟨(out b)[j], List.getElem?_eq_getElem hlo, ?_⟩
      have hgd : (out b).getD j 0 = (out b)[j] := by
        rw [List.getD_eq_getElem?_getD, List.getElem?_eq_getElem hlo]; rfl
      rw [← hgd]
  · intro j hj
    have := Dvn.buckets_out draw d (sd := d.sd.writeBlock xs) n 0 d.rrs (List.replicate n 0) acc
      (fun i hi => by simp [hi, acc])
      (fun k i o hk hi ho => by
        simp only [Nat.zero_add] at ho ⊢
        have : (out k).getD i 0 = o := by
          rw [List.getD_eq_getElem?_getD]
          simp only [out, scr, ho]
          rfl
        rw [← this])
      j hj
    rw [Nat.zero_add, hl] at this
    simp only [Dvn.block, List.getElem?_map, this, Option.map_some, Dvn.scaled]

/-! ## Networks -/

theorem FdnLine.fresh_build (maxblk len : Nat) (g : F32) : (FdnLine.build maxblk len g).fresh maxblk :=
  ⟨Dl.fresh_build _ _ _, rfl⟩

theorem lineLength_lengthOf (prm : Params) (lb : Nat) (u : Draw) : lengthOf prm lb u (lineLength prm lb u) := by
  unfold lengthOf lineLength
  exact Int.toNat_of_nonneg (le_trans (by norm_num) (le_max_left _ _))

theorem jitteredLines_get (prm : Params) (lb maxblk count k : Nat) (rnd : List Draw) (hr : 2 * count ≤ rnd.length)
    (hk : k < count) :
    ∃ uj ug, rnd[2 * k]? = some uj ∧ rnd[2 * k + 1]? = some ug ∧
      (jitteredLines prm lb maxblk count rnd)[k]? =
        some (.build maxblk (lineLength prm lb uj) (lineGain prm ug)) := by
  induction count generalizing k rnd with
  | zero => omega
  | succ n ih =>
    match rnd, hr with
    | uj :: ug :: rest, hr =>
      simp only [List.length_cons] at hr
      cases k with
      | zero => exact ⟨uj, ug, rfl, rfl, rfl⟩
      | succ k =>
        obtain ⟨vj, vg, a, b, c⟩ := ih k rest (by omega) (by omega)
        refine ⟨vj, vg, ?_, ?_, ?_⟩
        · rw [show 2 * (k + 1) = 2 * k + 1 + 1 by omega]; simpa using a
        · rw [show 2 * (k + 1) + 1 = 2 * k + 1 + 1 + 1 by omega]; simpa using b
        · simpa [jitteredLines] using c

/-- A built network is that of R233-R237. -/
theorem Fdn.fresh_build (prm : Params) (n lb fs maxblk : Nat) (rnd : List Draw) (hn : 1 ≤ n)
    (hr : 2 * n - 1 ≤ rnd.length) : (Fdn.build prm n lb fs maxblk rnd).fresh prm n lb fs maxblk rnd := by
  cases rnd with
  | nil => simp only [List.length_nil] at hr; omega
  | cons u rest =>
    simp only [List.length_cons] at hr
    refine ⟨rfl, rfl, rfl, rfl, rfl, ?_, ⟨_, u, rfl, rfl, rfl, rfl, FdnLine.fresh_build _ _ _⟩, ?_⟩
    · simp only [Fdn.build, buildLines, List.length_cons, jitteredLines_spec prm lb maxblk (n - 1) rest (by omega)]
      omega
    · intro i h1 h2
      obtain ⟨k, rfl⟩ : ∃ k, i = k + 1 := ⟨i - 1, by omega⟩
      obtain ⟨uj, ug, a, b, c⟩ := jitteredLines_get prm lb maxblk (n - 1) k rest (by omega) (by omega)
      refine ⟨.build maxblk (lineLength prm lb uj) (lineGain prm ug), uj, ug,
        by simpa [Fdn.build, buildLines] using c, ?_, ?_, lineLength_lengthOf prm lb uj, rfl, FdnLine.fresh_build _ _ _⟩
      · rw [show 2 * (k + 1) - 1 = 2 * k + 1 by omega]; simpa using a
      · rw [show 2 * (k + 1) = 2 * k + 1 + 1 by omega]; simpa using b

theorem readLines_get (mode : Line0Mode) (b i : Nat) (ls : List FdnLine) (taus : List Nat) {l : FdnLine} {tau : Nat}
    (hl : ls[i]? = some l) (ht : taus[i]? = some tau) :
    (readLines mode b ls taus)[i]? = some (lineRead mode (b + i) l tau) := by
  induction ls generalizing b i taus with
  | nil => simp at hl
  | cons l0 ls ih =>
    cases taus with
    | nil => simp at ht
    | cons t ts =>
      cases i with
      | zero =>
        simp only [List.getElem?_cons_zero, Option.some.injEq] at hl ht
        simp [readLines, hl, ht]
      | succ i =>
        rw [readLines, List.getElem?_cons_succ, ih (b + 1) i ts (by simpa using hl) (by simpa using ht),
          show b + 1 + i = b + (i + 1) by omega]

theorem feedLines_get (draw : Nat) (mode : Line0Mode) (alpha : F32) (b i : Nat) (ls : List FdnLine) (ms xs : List F32)
    {l : FdnLine} {m x : F32} (hl : ls[i]? = some l) (hm : ms[i]? = some m) (hx : xs[i]? = some x) :
    (feedLines draw mode alpha b ls ms xs)[i]? = some (lineFeed draw mode alpha (b + i) l m x) := by
  induction ls generalizing b i ms xs with
  | nil => simp at hl
  | cons l0 ls ih =>
    match ms, xs, hm, hx with
    | m0 :: ms, x0 :: xs, hm, hx =>
      cases i with
      | zero =>
        simp only [List.getElem?_cons_zero, Option.some.injEq] at hl hm hx
        simp [feedLines, hl, hm, hx]
      | succ i =>
        rw [feedLines, List.getElem?_cons_succ,
          ih (b + 1) i ms xs (by simpa using hl) (by simpa using hm) (by simpa using hx),
          show b + 1 + i = b + (i + 1) by omega]

/-- One step of the loop is that of R239. -/
theorem fdnStepped_step (draw : Nat) (mode : Line0Mode) (alpha : F32) {n : Nat} (hp : isPow2 n = true)
    (taus : List Nat) (ls : List FdnLine) (xs : List F32) (ht : taus.length = n) (hn : ls.length = n)
    (hx : xs.length = n) :
    fdnStepped draw mode alpha n taus ls
      (feedLines draw mode alpha 0 ls (hadamard draw n (readLines mode 0 ls taus)) xs) xs (readLines mode 0 ls taus) := by
  have hd : (readLines mode 0 ls taus).length = n := (readLines_length mode 0 ls taus (by omega)).trans hn
  have hm := hadamard_length draw n hd
  have hf := feedLines_length draw mode alpha 0 ls (hadamard draw n (readLines mode 0 ls taus)) xs (by omega) (by omega)
  refine ⟨by omega, hd, _, mixed_hadamard draw hp hd, fun i hi => ?_⟩
  have e1 := List.getElem?_eq_getElem (l := ls) (i := i) (by omega)
  have e2 := List.getElem?_eq_getElem (l := xs) (i := i) (by omega)
  have e3 := List.getElem?_eq_getElem (l := hadamard draw n (readLines mode 0 ls taus)) (i := i) (by omega)
  have e4 := List.getElem?_eq_getElem (l := taus) (i := i) (by omega)
  have g1 := readLines_get mode 0 i ls taus e1 e4
  have g2 := feedLines_get draw mode alpha 0 i ls _ xs e1 e3 e2
  rw [Nat.zero_add] at g1 g2
  refine ⟨_, _, _, _, _, _, e1, g2, e2, g1, e3, e4, ?_⟩
  unfold lineRead lineFeed
  by_cases hz : i = 0 ∧ mode = .zero
  · simp [hz]
  · rw [if_neg hz, if_neg hz, if_neg hz]
    exact ⟨rfl, rfl, rfl, rfl, Dl.wrote_push _ _⟩

/-- The loop is that of R239, frame by frame. -/
theorem fdnLoop_steps (draw : Nat) (mode : Line0Mode) (alpha : F32) {n maxblk : Nat} (hp : isPow2 n = true)
    (taus : List Nat) (ls : List FdnLine) (fs : List (List F32)) (ht : taus.length = n) (hn : ls.length = n)
    (hx : ∀ x ∈ fs, x.length = n) (hl : ∀ l ∈ ls, 1 ≤ l.len ∧ l.line.sized (2 * l.len) maxblk) :
    ∃ at_ : Nat → List FdnLine, at_ 0 = ls ∧ at_ fs.length = (fdnLoop draw mode alpha n taus ls fs).2 ∧
      ∀ t x, fs[t]? = some x → ∃ d, (fdnLoop draw mode alpha n taus ls fs).1[t]? = some d ∧
        fdnStepped draw mode alpha n taus (at_ t) (at_ (t + 1)) x d := by
  induction fs generalizing ls with
  | nil => exact ⟨fun _ => ls, rfl, rfl, fun t x h => by simp at h⟩
  | cons x fs ih =>
    have hd : (readLines mode 0 ls taus).length = n := (readLines_length mode 0 ls taus (by omega)).trans hn
    have hx0 : x.length = n := hx x (by simp)
    have hm := hadamard_length draw n hd
    have hf := feedLines_length draw mode alpha 0 ls (hadamard draw n (readLines mode 0 ls taus)) x (by omega) (by omega)
    obtain ⟨at_, a, b, c⟩ := ih (feedLines draw mode alpha 0 ls (hadamard draw n (readLines mode 0 ls taus)) x)
      (by omega) (fun y hy => hx y (by simp [hy]))
      (feedLines_mem (fun l h i m x => lineFeed_spec draw mode alpha i l m x maxblk (hl l h)))
    refine ⟨fun t => match t with | 0 => ls | t + 1 => at_ t, rfl, b, ?_⟩
    intro t y hy
    cases t with
    | zero =>
      simp only [List.getElem?_cons_zero, Option.some.injEq] at hy
      subst hy
      refine ⟨_, rfl, ?_⟩
      simp only [a]
      exact fdnStepped_step draw mode alpha hp taus ls x ht hn hx0
    | succ t =>
      obtain ⟨d, e, f⟩ := c t y (by simpa using hy)
      exact ⟨d, by simpa [fdnLoop] using e, f⟩

theorem channelsOf_frame (n t : Nat) (frames : List (List F32)) {d : List F32} (hd : frames[t]? = some d)
    (hl : d.length = n) : (channelsOf n frames).map (fun c => c.getD t 0) = d := by
  apply List.ext_getElem?
  intro i
  rw [List.getElem?_map]
  rcases Nat.lt_or_ge i n with h | h
  · simp only [channelsOf, List.getElem?_map, List.getElem?_range h, Option.map_some,
      List.getD_eq_getElem?_getD, hd]
    rw [List.getElem?_eq_getElem (by omega)]
    rfl
  · rw [List.getElem?_eq_none (by simpa using h), List.getElem?_eq_none (by omega)]
    rfl

/-- The block operation of a network is that of R239. -/
theorem Fdn.ran_block {f : Fdn} (h : f.wf) (hc : f.cfg = true) (draw : Nat) (prm : Params) (n : Nat)
    (chans : List (List F32)) (hl : chans.length = f.n) (damp room : F32) :
    fdnRan draw prm.line0 (onepoleAlpha prm (clamp damp cutoffLo cutoffHi) f.fs) f.n n
      (f.lines.map (fun l => roomDelay l.len (clamp room roomLo roomHi))) f.lines
      (f.block draw prm n chans damp room).2.lines chans (f.block draw prm n chans damp room).1 := by
  obtain ⟨h1, h2, h3, h4, h5, h6, h7, h8⟩ := h hc
  refine ⟨Fdn.block_length .., fun d hd => Fdn.block_mem hd, ?_⟩
  obtain ⟨at_, a, b, c⟩ := fdnLoop_steps draw prm.line0 (onepoleAlpha prm (clamp damp cutoffLo cutoffHi) f.fs) h1
    (f.lines.map (fun l => roomDelay l.len (clamp room roomLo roomHi))) f.lines (framesOf n chans) (by simpa using h7) h7
    (fun x hx => (framesOf_mem hx).trans hl) h8
  rw [framesOf_length] at b
  refine ⟨at_, a, b, fun t ht => ?_⟩
  obtain ⟨d, e, g⟩ := c t _ (framesOf_get n chans t ht)
  have : ((f.block draw prm n chans damp room).1).map (fun c => c.getD t 0) = d :=
    channelsOf_frame f.n t _ e g.2.1
  rw [this]
  exact g

/-- `room` is at least `b32(0.1)` after the clamp, so a room-scaled delay is a number of samples (R232, R238). -/
theorem roomDelayOf_roomDelay (len : Nat) (room : F32) (h : 0 ≤ F32.toRat room) :
    roomDelayOf len room (roomDelay len room) :=
  Int.toNat_of_nonneg (roundAway_nonneg (mul_nonneg (by positivity) h))

end Sys2Proof.Machine
end

