-- ==== Sys2Proof/Tests/Slice0.lean ====
section
/-!
SUPPORT. Tests. Expected values are those of spec/95_test_vectors.md, of the examples of the command rules, or worked out by
hand from the rules; each test names its source. `test_` theorems check the model, `witness_` theorems show states and
operands that meet the hypotheses of the obligation they name.
-/

namespace Sys2Proof.Tests

open Sys2Proof Sys2Proof.Machine

-- One theorem after the other: the tests that the kernel evaluates would otherwise hold a thread each while they wait.
set_option Elab.async false

/-- The outcome is a next state, and the property holds of it. -/
def nextHas (o : Out) (p : State → Bool) : Bool :=
  match o with
  | .next t => p t
  | .fault _ => false
  | .refused _ => false

/-- The next state, where there is one. -/
def nextOf (o : Out) : State :=
  match o with
  | .next t => t
  | .fault _ => State.reset
  | .refused _ => State.reset

/-! ## Well-formedness: each check refuses an ill-formed term -/

theorem test_wf_res0 : Cmd32.res0Zero { cls := 1, op := 0, res0 := 1 } = false ∧
    Cmd32.wf { cls := 1, op := 0, res0 := 1 } = false := by decide

theorem test_wf_class : Cmd32.classAssigned { cls := 8, op := 0, res0 := 0 } = false ∧
    Cmd32.classAssigned { cls := 0, op := 0, res0 := 0 } = false ∧
    Cmd32.wf { cls := 8, op := 0, res0 := 0 } = false := by decide

theorem test_wf_op : Cmd32.opAssigned { cls := 1, op := 8, res0 := 0 } = false ∧
    Cmd32.wf { cls := 1, op := 8, res0 := 0 } = false ∧ Cmd32.wf { cls := 1, op := 7, res0 := 0 } = true := by decide

theorem test_wf_operands :
    DlOperands.wf { State.reset.dlIn with n := 2, blk := [0] } = false ∧
    RrsOperands.wf { State.reset.rrsIn with n := 2, blk := [0] } = false ∧
    HadOperands.wf { n := 2, frame := [0] } = false ∧
    DvnOperands.wf { State.reset.dvnIn with n := 2, blk := [0] } = false ∧
    DiffOperands.wf { State.reset.diffIn with n := 1, blk := [[0], []] } = false ∧
    FdnOperands.wf { State.reset.fdnIn with n := 1, blk := [[0], []] } = false := by decide

theorem test_wf_params :
    Params.wf .default = true ∧ Params.wf { Params.default with revBase := 0x20000 } = false ∧
    Params.wf { Params.default with jitLo := 0 } = false ∧ Params.wf { Params.default with jitHi := 1 / 2 } = false ∧
    Params.wf { Params.default with gainLo := 1 } = false ∧ Params.wf { Params.default with line0Len := [(3, 0)] } = false ∧
    Params.wf { Params.default with diff1 := { p := 16, rho := 0 } } = false ∧
    Params.wf { Params.default with diff2 := { p := 16, rho := 0 } } = false ∧
    Params.wf { Params.default with diff3 := { p := 16, rho := 0 } } = false := by decide +kernel

/-! ## Decoding: the words of 30_encoding.md R103, CLASS and OP written out bit by bit as R100 lays them out -/

theorem test_decode_dl :
    decodeTableWord 32 0b00010000000000000000000000000000 = some .dlCfg ∧
    decodeTableWord 32 0b00010001000000000000000000000000 = some .dlRd ∧
    decodeTableWord 32 0b00010010000000000000000000000000 = some .dlRdm ∧
    decodeTableWord 32 0b00010011000000000000000000000000 = some .dlWr ∧
    decodeTableWord 32 0b00010100000000000000000000000000 = some .dlProc ∧
    decodeTableWord 32 0b00010101000000000000000000000000 = some .dlRdb ∧
    decodeTableWord 32 0b00010110000000000000000000000000 = some .dlWrb ∧
    decodeTableWord 32 0b00010111000000000000000000000000 = some .dlProcb := by decide

theorem test_decode_rrs :
    decodeTableWord 32 0b00100000000000000000000000000000 = some .rrsCfg ∧
    decodeTableWord 32 0b00100001000000000000000000000000 = some .rrsSeteps ∧
    decodeTableWord 32 0b00100010000000000000000000000000 = some .rrsProc ∧
    decodeTableWord 32 0b00100011000000000000000000000000 = some .rrsProcb := by decide

theorem test_decode_had : decodeTableWord 32 0b00110000000000000000000000000000 = some .hadMix := by decide

theorem test_decode_dvn_diff :
    decodeTableWord 32 0b01000000000000000000000000000000 = some .dvnCfg ∧
    decodeTableWord 32 0b01000001000000000000000000000000 = some .dvnProcb ∧
    decodeTableWord 32 0b01000010000000000000000000000000 = some .dvnPulse ∧
    decodeTableWord 32 0b01010000000000000000000000000000 = some .diffCfg ∧
    decodeTableWord 32 0b01010001000000000000000000000000 = some .diffProcb := by decide

theorem test_decode_fdn_rev :
    decodeTableWord 32 0b01100000000000000000000000000000 = some .fdnCfg ∧
    decodeTableWord 32 0b01100001000000000000000000000000 = some .fdnProcb ∧
    decodeTableWord 32 0b01110000000000000000000000000000 = some .revNop ∧
    decodeTableWord 32 0b01110001000000000000000000000000 = some .revSetup ∧
    decodeTableWord 32 0b01110010000000000000000000000000 = some .revProcess := by decide

/-- The four bytes of DL.RD, the least significant first, and the bytes that follow. -/
theorem test_decode_bytes : decodeBytes [0x00, 0x00, 0x00, 0x11, 0xAB] = (.ok .dlRd, [0xAB]) ∧
    decodeBytes [0x00, 0x00, 0x11] = (.illegal .truncated, [0x00, 0x00, 0x11]) := by decide

/-- 95_test_vectors.md 2.1. -/
theorem test_decode_illegal :
    decodeAt .dl 0x18000000 = .illegal (.unassignedOp 1 8) ∧ decodeAt .dl 0x20000000 = .illegal (.wrongClass 2) ∧
    decodeAt .dl 0x11000001 = .illegal (.reservedBits 1) ∧ decodeAt .had 0x31000000 = .illegal (.unassignedOp 3 1) ∧
    decodeAt .rev 0x73000000 = .illegal (.unassignedOp 7 3) ∧
    decodeAt .rev 0x72000100 = .illegal (.reservedBits 0x100) ∧ decodeAt .rev 0x10000000 = .illegal (.wrongClass 1) ∧
    decodeAt .rev 0x00000000 = .illegal (.wrongClass 0) ∧ decodeAt .rev 0xF0000000 = .illegal (.wrongClass 15) := by decide

/-! ## DL: 95_test_vectors.md 2.3 and program P1 -/

/-- `DL.CFG M=3, MAXBLK=2` and the writes 1.0 to 5.0: ring `[1,2,3,4,5]`, `w = 0`. -/
def dlState : State :=
  { State.reset with
    dl := { Dl.build 3 2 0 with
      ring := [(0, 0x3F800000), (1, 0x40000000), (2, 0x40400000), (3, 0x40800000), (4, 0x40A00000)] } }

/-- `DL.CFG M=2, MAXBLK=4, G=0.5`. -/
def dlComb : State := { State.reset with dl := .build 2 4 0x3F000000 }

theorem test_dlCfg :
    nextHas (exec .dlCfg { State.reset with dlIn := { State.reset.dlIn with m := 1048575, maxblk := 1 } })
      (fun t => t.dlOut.err == 0 && t.dl.b == 1048576 && t.dl.w == 0 && t.dl.g == 0) = true := by decide

theorem test_dlCfg_order :
    nextHas (exec .dlCfg { State.reset with dlIn := { State.reset.dlIn with m := 0, maxblk := 5000 } })
      (fun t => t.dlOut.err == 1 && t.dl.cfg == false) = true ∧
    nextHas (exec .dlCfg { State.reset with dlIn := { State.reset.dlIn with m := 1048576, maxblk := 1 } })
      (fun t => t.dlOut.err == 5) = true := by decide

theorem test_dlRd :
    nextHas (exec .dlRd { dlState with dlIn := { dlState.dlIn with tau := 0 } }) (fun t => t.dlOut.y == 0x40A00000) = true ∧
    nextHas (exec .dlRd { dlState with dlIn := { dlState.dlIn with tau := 3 } }) (fun t => t.dlOut.y == 0x40000000) = true ∧
    nextHas (exec .dlRd { dlState with dlIn := { dlState.dlIn with tau := 4 } })
      (fun t => t.dlOut.err == 2 && t.dl == dlState.dl) = true := by decide

theorem test_dlRdm : nextHas (exec .dlRdm dlState) (fun t => t.dlOut.err == 0 && t.dlOut.y == 0x40000000) = true := by decide

theorem test_dlWr :
    nextHas (exec .dlWr { dlState with dlIn := { dlState.dlIn with x := 0x7FC01234 } })
      (fun t => t.dl.ring.read 0 == 0x7FC01234 && t.dl.ring.read 1 == 0x40000000 && t.dl.w == 1) = true := by decide

/-- `M=1, MAXBLK=1, G=+0.0`, `DL.PROC X=-0.0` gives `+0.0`. -/
theorem test_dlProc_negZero :
    nextHas (exec .dlProc { State.reset with dl := .build 1 1 0, dlIn := { State.reset.dlIn with x := 0x80000000 } })
      (fun t => t.dlOut.y == 0x00000000) = true := by decide

theorem test_dlRdb :
    nextHas (exec .dlRdb { dlState with dlIn := { dlState.dlIn with tau := 3, n := 2 } })
      (fun t => t.dlOut.blkOut == [0x3F800000, 0x40000000]) = true ∧
    nextHas (exec .dlRdb { dlState with dlIn := { dlState.dlIn with tau := 3, n := 3 } }) (fun t => t.dlOut.err == 2) = true := by
  decide

theorem test_dlWrb :
    nextHas (exec .dlWrb { dlState with dlIn := { dlState.dlIn with n := 2, blk := [0x40C00000, 0x40E00000] } })
      (fun t => t.dl.w == 2 && t.dl.ring ==
        [(0, 0x40C00000), (1, 0x40E00000), (2, 0x40400000), (3, 0x40800000), (4, 0x40A00000)]) = true := by decide

theorem test_dlProcb :
    nextHas (exec .dlProcb { dlComb with dlIn := { dlComb.dlIn with n := 4, blk := [0x3F800000, 0, 0, 0] } })
      (fun t => t.dlOut.blkOut == [0x3F800000, 0, 0x3F000000, 0]) = true := by decide

/-! ## RRS: 95_test_vectors.md 2.4 -/

theorem test_rrsCfg :
    nextHas (exec .rrsCfg { State.reset with rrsIn := { State.reset.rrsIn with w := 5, eps := some 0x3DCCCCCD } })
      (fun t => t.rrs.a == 0x3F666666 && t.rrs.c == 0x3F172A59 && t.rrs.xl.b == 6) = true := by decide +kernel

theorem test_rrsCfg_refuses :
    (nextHas (exec .rrsCfg { State.reset with rrsIn := { State.reset.rrsIn with w := 3, eps := some 0x3F800000 } })
      (fun t => t.rrsOut.err == 1) &&
    nextHas (exec .rrsCfg { State.reset with rrsIn := { State.reset.rrsIn with w := 3, eps := some 0x7FC00000 } })
      (fun t => t.rrsOut.err == 1) &&
    nextHas (exec .rrsCfg { State.reset with rrsIn := { State.reset.rrsIn with w := 1048576 } })
      (fun t => t.rrsOut.err == 5)) = true := by decide +kernel

/-- `W=3` with the default leakage, after one sample 1.0 (41_rrs_filter.md R163). -/
def rrsState : State :=
  nextOf (exec .rrsProc
    { State.reset with rrs := .build 3 Config.rrsEps, rrsIn := { State.reset.rrsIn with x := 0x3F800000 } })

theorem test_rrsSeteps :
    nextHas (exec .rrsSeteps { rrsState with rrsIn := { rrsState.rrsIn with eps := some 0x3F000000 } })
      (fun t => t.rrs.a == 0x3F000000 && t.rrs.c == 0x3E000000 && t.rrs.yl.age 0 == 0x3F800000 &&
        nextHas (exec .rrsProcb { t with rrsIn := { t.rrsIn with n := 4, blk := [0, 0, 0, 0] } })
          (fun u => u.rrsOut.blkOut == [0x3F000000, 0x3E800000, 0, 0])) = true := by decide +kernel

theorem test_rrsProc :
    nextHas (exec .rrsProc rrsState) (fun t => t.rrsOut.y == 0x3FFFF800 && t.rrs.xl.w == 2) = true := by decide +kernel

/-- The impulse response with a nonzero residual: `W=4`, `EPS=b32(0.3)`. -/
theorem test_rrsProcb :
    nextHas (exec .rrsProcb
        { State.reset with
          rrs := .build 4 0x3E99999A
          rrsIn := { State.reset.rrsIn with n := 6, blk := [0x3F800000, 0, 0, 0, 0, 0] } })
      (fun t => t.rrsOut.blkOut == [0x3F800000, 0x3F333333, 0x3EFAE147, 0x3EAF9DB2, 0x32800000, 0x32333333]) = true := by
  decide +kernel

theorem test_rrsProcb_bounds :
    nextHas (exec .rrsProcb { rrsState with rrsIn := { rrsState.rrsIn with n := 4097 } })
      (fun t => t.rrsOut.err == 2 && t.rrs == rrsState.rrs) = true := by decide +kernel

/-! ## HAD: 95_test_vectors.md 2.5 -/

theorem test_hadMix :
    nextHas (exec .hadMix { State.reset with hadIn := { n := 4, frame := [0x3F800000, 0x40000000, 0x40400000, 0x40800000] } })
      (fun t => t.hadOut.frameOut == [0x40A00000, 0xBF800000, 0xC0000000, 0]) = true := by decide +kernel

theorem test_hadMix_refuses :
    nextHas (exec .hadMix { State.reset with hadIn := { n := 96, frame := [] } }) (fun t => t.hadOut.err == 3) = true ∧
    nextHas (exec .hadMix { State.reset with hadIn := { n := 128, frame := [] } }) (fun t => t.hadOut.err == 5) = true := by
  decide

/-! ## DVN and DIFF: 95_test_vectors.md 2.6 -/

/-- The operands of the example of 43_dvn_convolver.md R195. -/
def dvnOps : DvnOperands :=
  { State.reset.dvnIn with
    p := 3, rho := 2, fs := 8, maxblk := 16
    rnd := [0, 0x800000, 0x800000, 0xC00000, 0, 0, 0x400000, 0xFFFFFF, 0x7FFFFF] }

/-- The convolver of that example. -/
def dvnState : State := nextOf (exec .dvnCfg { State.reset with dvnIn := dvnOps })

theorem test_dvnCfg :
    nextHas (exec .dvnCfg { State.reset with dvnIn := dvnOps })
      (fun t => t.dvnOut.err == 0 && t.dvn.td == 4 && t.dvn.wmin == 2 && t.dvn.nw == 3 && t.dvn.sd.m == 9 &&
        t.dvn.nrm == 0x3EAAAAAB && t.dvn.pulses == [⟨1, 2, .plus⟩, ⟨4, 4, .minus⟩, ⟨9, 3, .minus⟩]) = true := by
  decide +kernel

theorem test_dvnCfg_refuses :
    (nextHas (exec .dvnCfg { State.reset with dvnIn := { dvnOps with rnd := [0, 0, 0, 0, 0, 0, 0, 0] } })
      (fun t => t.dvnOut.err == 1) &&
    nextHas (exec .dvnCfg { State.reset with dvnIn := { dvnOps with p := 1, fs := 8194 } })
      (fun t => t.dvnOut.err == 5)) = true := by decide +kernel

theorem test_dvnProcb :
    nextHas (exec .dvnProcb
        { dvnState with
          dvnIn := { dvnState.dvnIn with n := 16, blk := [0x3F800000, 0, 0, 0, 0, 0, 0, 0, 0, 0, 0, 0, 0, 0, 0, 0] } })
      (fun t => t.dvnOut.blkOut ==
        [0, 0x3EAAAAAB, 0x3EAAA000, 0, 0xBEAAAAAB, 0xBEAAA000, 0xBEAA9556, 0xBEAA8AAD, 0, 0xBEAAAAAB, 0xBEAAA000,
         0xBEAA9556, 0, 0, 0, 0]) = true := by decide +kernel

theorem test_dvnPulse :
    (nextHas (exec .dvnPulse { dvnState with dvnIn := { dvnState.dvnIn with i := 1 } })
      (fun t => t.dvnOut.k == 4 && t.dvnOut.wid == 4 && t.dvnOut.sgn == 1) &&
    nextHas (exec .dvnPulse { dvnState with dvnIn := { dvnState.dvnIn with i := 3 } }) (fun t => t.dvnOut.err == 2)) = true := by
  decide +kernel

/-- The operands of the example of R210. -/
def diffOps : DiffOperands :=
  { State.reset.diffIn with
    ch := 2, p := 1, rho := 2, fs := 8, maxblk := 4, rnd := [0, 0, 0xFFFFFF, 0xFFFFFF, 0, 0] }

/-- The diffuser of that example. -/
def diffState : State := nextOf (exec .diffCfg { State.reset with diffIn := diffOps })

theorem test_diffCfg :
    nextHas (exec .diffCfg { State.reset with diffIn := diffOps })
      (fun t => t.diffOut.err == 0 && t.diff.conv.map Dvn.pulses == [[⟨0, 2, .plus⟩], [⟨0, 4, .minus⟩]]) = true := by
  decide +kernel

theorem test_diffCfg_refuses :
    (nextHas (exec .diffCfg { State.reset with diffIn := { diffOps with ch := 65 } }) (fun t => t.diffOut.err == 5) &&
    nextHas (exec .diffCfg { State.reset with diffIn := { diffOps with rnd := [0, 0, 0, 0, 0] } })
      (fun t => t.diffOut.err == 1)) = true := by decide +kernel

theorem test_diffProcb :
    nextHas (exec .diffProcb
        { diffState with
          diffIn := { diffState.diffIn with n := 4, blk := [[0x3F800000, 0, 0, 0], [0x3F800000, 0, 0, 0]] } })
      (fun t => t.diffOut.blkOut ==
        [[0x3F13CD3A, 0x3F13C3FD, 0, 0], [0xBF13CD3A, 0xBF13C3FD, 0xBF13BAC1, 0xBF13B185]]) = true := by decide +kernel

/-! ## FDN: 95_test_vectors.md 2.7 -/

/-- The operands of the example of 44_fdn.md R237. -/
def fdnOps : FdnOperands :=
  { State.reset.fdnIn with lines := 2, lbase := 3, fs := 48000, maxblk := 16, rnd := [0, 0, 0x800000] }

/-- The network of that example. -/
def fdnState : State := nextOf (exec .fdnCfg { State.reset with fdnIn := fdnOps })

theorem test_fdnCfg :
    nextHas (exec .fdnCfg { State.reset with fdnIn := fdnOps })
      (fun t => t.fdnOut.err == 0 && t.fdn.lines.map FdnLine.len == [3, 2] &&
        t.fdn.lines.map FdnLine.gain == [0x3F4CCCCD, 0x3F59999A] &&
        t.fdn.lines.map (fun l => l.line.m) == [6, 4]) = true := by decide +kernel

theorem test_fdnCfg_refuses :
    (nextHas (exec .fdnCfg { State.reset with fdnIn := { fdnOps with lines := 3, rnd := [] } })
      (fun t => t.fdnOut.err == 3) &&
    nextHas (exec .fdnCfg { State.reset with fdnIn := { fdnOps with lbase := 419431 } })
      (fun t => t.fdnOut.err == 5)) = true := by decide +kernel

/-- ROOM is a NaN: it clamps to `b32(0.1)`, `tau = [0, 0]`. -/
theorem test_fdnProcb :
    nextHas (exec .fdnProcb
        { fdnState with
          fdnIn := { fdnState.fdnIn with
            n := 4, damp := 0x469C4000, room := 0x7FC00000, blk := [[0x3F800000, 0, 0, 0], [0, 0, 0, 0]] } })
      (fun t => t.fdnOut.blkOut ==
        [[0, 0x3F800000, 0x3F064057, 0x3F1B0070], [0, 0, 0x3F0EA45C, 0x3CB75EF4]]) = true := by decide +kernel

/-- Line 0 in mode ZERO, `tau = [3, 2]`. -/
theorem test_fdnProcb_zero :
    nextHas (exec .fdnProcb
        { fdnState with
          params := { Params.default with line0 := .zero }
          fdnIn := { fdnState.fdnIn with
            n := 7, damp := 0x469C4000, room := 0x3F800000
            blk := [[0x3F800000, 0, 0, 0, 0, 0, 0], [0x3F800000, 0, 0, 0, 0, 0, 0]] } })
      (fun t => t.fdnOut.blkOut ==
        [[0, 0, 0, 0, 0, 0, 0], [0, 0, 0, 0x3F800000, 0, 0, 0xBF0EA45C]]) = true := by decide +kernel

/-- 44_fdn.md R231. -/
theorem test_onepole_table :
    onepoleDefault 0x41A00000 48000 = 0x3B2B5934 ∧ onepoleDefault 0x459C4000 48000 = 0x3EF5E989 ∧
    onepoleDefault 0x469C4000 48000 = 0x3F6D5336 ∧ onepoleDefault 0x459C4000 2000 = 0x3F7FFFFD ∧
    onepoleDefault 0x469C4000 2000 = 0x3F800000 := by decide +kernel

/-! ## REV: 95_test_vectors.md 2.8 -/

/-- After reset, with FS = 2000, MAXBLK = 8, SEED = 1. -/
def revIn : State := { State.reset with rev := { Rev.reset with fs := 2000, maxblk := 8, seed := 1 } }

/-- After `SETUP 2000, 8, 1`. -/
def revState : State := nextOf (exec .revSetup revIn)

theorem test_revNop :
    nextHas (exec .revNop { revIn with rev := { revIn.rev with pending := some 0x70000000, err := true, errcode := 4 } })
      (fun t => t.rev.statusWord == 0x00000404 && t.rev.pending.isNone) = true := by decide

theorem test_revSetup :
    nextHas (exec .revSetup revIn)
      (fun t => t.rev.mpd == 200 && t.rev.rng == 0x8E6D3210 && t.rev.configured && t.rev.cfgFs == 2000 &&
        t.rev.f1.lines.map FdnLine.len == [80, 69, 68, 86, 66, 60, 98, 86] &&
        t.rev.f2.lines.map FdnLine.len == [160, 177, 121, 149, 186, 134, 133, 185]) = true := by decide +kernel

theorem test_revSetup_refuses :
    (nextHas (exec .revSetup { revIn with rev := { revIn.rev with fs := 1999 } })
      (fun t => t.rev.statusWord == 0x00000104) &&
    nextHas (exec .revSetup { revIn with rev := { revIn.rev with maxblk := 4097 } })
      (fun t => t.rev.statusWord == 0x00000504)) = true := by decide +kernel

/-- The first sample of the vectors with the reset controls: half the dry input, `hs[0]` the high-pass coefficient of
44_fdn.md R231 for 20 Hz at 2000 Hz. -/
theorem test_revProcess :
    nextHas (exec .revProcess
        { revState with
          rev := { revState.rev with nch := 1, nlen := 1 }
          iobuf := revState.iobuf.writeSamples 0 0 [0x3F800000] })
      (fun t => t.iobuf.readSamples t.epoch 0 0 1 == [0x3F000000] && t.rev.cprev == 1 && t.rev.err == false &&
        t.rev.hs.take 2 == [0x3D7970D8, 0]) = true := by decide +kernel

theorem test_revProcess_refuses :
    (nextHas (exec .revProcess { revState with rev := { revState.rev with nch := 0, nlen := 9 } })
      (fun t => t.rev.statusWord == 0x00000106) &&
    nextHas (exec .revProcess { revState with rev := { revState.rev with nch := 2, nlen := 9 } })
      (fun t => t.rev.statusWord == 0x00000206 && t.rev.cprev == 0)) = true := by decide +kernel

/-- 45_reverb_top.md R262, and 95_test_vectors.md 2.8 for SEED = 0. -/
theorem test_rng : (rngDraws 6 (rngSeed 1)).1 = [0x000420, 0x040806, 0x9DCCA8, 0x125599, 0x8EF917, 0x2C6F5B] ∧
    (rngDraws 3 (rngSeed 0)).1 = [0x510C46, 0xE02E55, 0x7BB98F] := by decide

/-- R274 by hand: L = 1, R = 0 at width 2 give the middle 0.5 and the side 1. -/
theorem test_stereoWidth : stereoWidth 0 0x40000000 0x3F800000 0 = (0x3FC00000, 0xBF000000) := by decide

/-! ## The host bus: 95_test_vectors.md 2.2 -/

/-- A host whose program is one statement. -/
def hostOf (s : State) (st : HostStmt) : State := { s with program := [st] }

theorem test_bus_reads :
    nextHas (step (hostOf .reset (.read .w32 0x000))) (fun t => t.reply == .read .okay 0x554D4252) = true ∧
    nextHas (step (hostOf .reset (.read .w32 0x100))) (fun t => t.reply == .read .okay 0) = true ∧
    nextHas (step (hostOf .reset (.read .w32 0x012))) (fun t => t.reply == .read .slverr 0) = true ∧
    nextHas (step (hostOf .reset (.read .w32 0x30000))) (fun t => t.reply == .read .decerr 0) = true := by decide

theorem test_bus_writes :
    nextHas (step (hostOf .reset (.write .w32 0x000 0x12345678)))
      (fun t => t.rev == Rev.reset && t.reply == .write .okay) = true ∧
    nextHas (step (hostOf .reset (.write .w8 0x010 0xFF))) (fun t => t.rev == Rev.reset && t.reply == .write .slverr) = true ∧
    nextHas (step (hostOf .reset (.write .w32 0x14000 0x3F800001)))
      (fun t => t.iobuf == [(0x14000, 0x01), (0x14001, 0x00), (0x14002, 0x80), (0x14003, 0x3F)] &&
        t.iobuf.readSamples t.epoch 1 0 1 == [0x3F800001]) = true := by decide

/-- A write to MIX meets BUSY = 1 (program P3, step 9), and the acknowledgement is accepted. -/
theorem test_bus_busy :
    nextHas (step { hostOf .reset (.write .w32 0x024 0x3F800000) with
        rev := { Rev.reset with pending := some 0x70000000 }, busyLeft := 1 })
      (fun t => t.rev.statusWord == 0x00000705 && t.rev.mix == 0x3F000000) = true ∧
    nextHas (step { hostOf .reset (.write .w32 0x00C 0x00000004) with
        rev := { Rev.reset with pending := some 0x70000000, err := true, errcode := 7 }, busyLeft := 1 })
      (fun t => t.rev.statusWord == 0x00000001) = true := by decide

/-- A window elsewhere: offset 4 of a block at `0x40000`, and an address outside its window (the model's fault, log 14). -/
theorem test_bus_base :
    nextHas (step { hostOf .reset (.read .w32 0x40004) with params := { Params.default with revBase := 0x40000 } })
      (fun t => t.reply == .read .okay 1) = true ∧
    step (hostOf .reset (.read .w32 0x40000)) = .fault .outsideWindow := ⟨by decide, rfl⟩

/-! ## Steps -/

/-- Program P3, steps 1 to 4, with the completion times 0, 2 and 1 (45_reverb_top.md R260): STATUS after the run. -/
theorem test_program_p3 :
    (match Host.Core.run Sys2Proof.core 14
        { State.reset with
          latencies := [0, 2, 1]
          program := stmtsRun 0 .revProcess ++ stmtsRun 0 .revNop ++ [stmtRead 0 .status, stmtClrerr 0] ++
            [.write .w32 0x008 0x73000000, .wait] } with
      | .next t => t.rev.statusWord == 0x00000604 && t.program.isEmpty && t.rev.pending.isNone
      | .fault _ => false
      | .refused _ => false) = true := by decide

/-- CHECK stops the program if ERR is 1 (30_encoding.md R110). -/
theorem test_check :
    nextHas (step { State.reset with rev := { Rev.reset with err := true, errcode := 4 }, program := [.check, .wait] })
      (fun t => t.stopped && t.program.isEmpty && t.reply == .read .okay 0x00000404) = true := by decide

/-- A reset during BUSY abandons the command (70_reset_and_hazards.md R331). -/
theorem test_reset_busy :
    nextHas (step { hostOf State.reset .reset with
        rev := { Rev.reset with pending := some 0x71000000, mix := 0 }, busyLeft := 3 }) (fun t => t.rev == Rev.reset && t.program.isEmpty) = true := by decide

/-- The words of `SETUP 2000, 8, 1` as program P2 lists them (30_encoding.md R110). -/
theorem test_setup_expansion : stmtsSetup 0 2000 8 1 =
    [.write .w32 0x014 0x000007D0, .write .w32 0x018 0x00000008, .write .w32 0x010 0x00000001,
     .write .w32 0x008 0x71000000, .wait] := by decide

/-! ## Arithmetic: 00_scope.md R10-R13 -/

/-- By hand: `1 + 2^-24` is a tie and goes to the even `1`, `(1 + 2^-23) + 2^-24` goes up; the sum of the largest finite
value with itself overflows; the smallest subnormal is kept; half of it is a tie to zero. -/
theorem test_rounding : add32 0 0x3F800000 0x33800000 = 0x3F800000 ∧ add32 0 0x3F800001 0x33800000 = 0x3F800002 ∧
    add32 0 0x7F7FFFFF 0x7F7FFFFF = 0x7F800000 ∧ add32 0 0x00000001 0 = 0x00000001 ∧
    mul32 0 0x00000001 0x3F000000 = 0 ∧ mul32 0 0x00000003 0x3F000000 = 0x00000002 := by decide

/-- R10 and R11: `b32(0.1)`, signed zeros, infinities. -/
theorem test_specials : rne32 (1 / 10) = 0x3DCCCCCD ∧ add32 0 0x3F800000 0xBF800000 = 0 ∧
    add32 0 0x80000000 0x80000000 = 0x80000000 ∧ sub32 0 0x80000000 0 = 0x80000000 ∧
    mul32 0 0xFF800000 0xBF800000 = 0x7F800000 ∧ F32.isNaN (mul32 0 0 0x7F800000) = true := by
  refine ⟨by decide +kernel, by decide, by decide, by decide, by decide, ?_⟩
  show F32.isNaN (nanResult 0 .mul 0 0x7F800000) = true
  unfold nanResult
  split
  · assumption
  · decide

/-- R12, R13. -/
theorem test_round_clamp : roundAway (5 / 2) = 3 ∧ roundAway (-5 / 2) = -3 ∧ roundAway (9 / 4) = 2 ∧
    clamp 0x7FC00000 0 0x3F800000 = 0 ∧ clamp 0x80000000 0 0x3F800000 = 0x80000000 ∧
    clamp 0x40000000 0 0x3F800000 = 0x3F800000 ∧ clamp 0xFF800000 0x41A00000 0x469C4000 = 0x41A00000 := by decide +kernel

/-! ## Witnesses: states and operands that meet the hypotheses of the obligations, clause by clause -/

theorem witness_LegalWordsAreExactlyTheTable :
    (0x20000001#32).toNat % 2 ^ 24 ≠ 0 ∧
    ((0x10000000#32).toNat % 2 ^ 24 = 0 ∧ (0x10000000#32).toNat / 2 ^ 28 ≠ Class.rrs.code.toNat) ∧
    (0x24000000#32).toNat % 2 ^ 24 = 0 ∧ (0x24000000#32).toNat / 2 ^ 28 = Class.rrs.code.toNat ∧
      Cmd32.opsOfClass Class.rrs.code ≤ (0x24000000#32).toNat / 2 ^ 24 % 16 := by decide

theorem witness_IllegalWordsOnlyReport :
    ((hostOf .reset (.issue .dl 0x18000000)).revDue = false ∧
      ∀ i : Instr, i.cls = ModPort.dl.cls → (0x18000000 : Word) ≠ encode i) ∧
    ({ State.reset with rev := { Rev.reset with pending := some 0x73000000 } } : State).busyLeft = 0 ∧
    (∀ i : Instr, i.cls = .rev → (0x73000000 : Word) ≠ encode i) ∧
    ({ State.reset with rev := { Rev.reset with pending := some 0x10000000 }, busyLeft := 3 } : State).program = [] ∧
    ∀ i : Instr, i.cls = .rev → (0x10000000 : Word) ≠ encode i := by
  refine ⟨⟨by decide, ?_⟩, by decide, ?_, by decide, ?_⟩ <;> intro i <;> cases i <;> decide

/-- The first clause with REV busy and one host-observable step left; the second with none left, and with a host that has
nothing left. -/
theorem witness_StepRunsThePresentedCommand :
    ({ hostOf .reset (.issue .had (encode .hadMix)) with
        rev := { Rev.reset with pending := some 0 }, busyLeft := 1 } : State).revDue = false ∧
    Instr.hadMix.cls = ModPort.had.cls ∧ Instr.revProcess.cls = .rev ∧
    ({ State.reset with rev := { Rev.reset with pending := some (encode .revProcess) }, busyLeft := 0 } : State).busyLeft = 0 ∧
    ({ State.reset with rev := { Rev.reset with pending := some (encode .revProcess) }, busyLeft := 2 } : State).program = [] ∧
    Instr.dvnPulse.cls ≠ .rev := by decide

theorem witness_UnconfiguredCommandsFail :
    State.reset.dl.cfg = false ∧ State.reset.rrs.cfg = false ∧ State.reset.dvn.cfg = false ∧
    State.reset.diff.cfg = false ∧ State.reset.fdn.cfg = false ∧ State.reset.rev.configured = false ∧
    (Instr.dlProcb.cls = .dl ∧ Instr.dlProcb ≠ .dlCfg) ∧ (Instr.rrsProc.cls = .rrs ∧ Instr.rrsProc ≠ .rrsCfg) ∧
    (Instr.dvnPulse.cls = .dvn ∧ Instr.dvnPulse ≠ .dvnCfg) ∧ (Instr.diffProcb.cls = .diff ∧ Instr.diffProcb ≠ .diffCfg) ∧
    Instr.fdnProcb.cls = .fdn ∧ Instr.fdnProcb ≠ .fdnCfg := by decide

/-- Reset with these DL operands. -/
def dlArgs (m maxblk : Word) : DlOperands := { State.reset.dlIn with m := m, maxblk := maxblk }

theorem witness_DlCfgBuildsTheLine :
    ((dlArgs 0 1).m = 0 ∧ (dlArgs 1 0).maxblk = 0) ∧
    ((dlArgs 1 4097).m ≠ 0 ∧ (dlArgs 1 4097).maxblk ≠ 0 ∧ 4096 < (dlArgs 1 4097).maxblk.toNat) ∧
    2 ^ 20 < (dlArgs 1048576 1).m.toNat + (dlArgs 1048576 1).maxblk.toNat ∧
    (dlArgs 1044480 4096).m ≠ 0 ∧ (dlArgs 1044480 4096).maxblk ≠ 0 ∧ (dlArgs 1044480 4096).maxblk.toNat ≤ 4096 ∧
      (dlArgs 1044480 4096).m.toNat + (dlArgs 1044480 4096).maxblk.toNat ≤ 2 ^ 20 := by decide

theorem witness_DlReadsReturnTheAgedSample :
    dlState.dl.cfg = true ∧ dlState.dl.m < (4 : Word).toNat ∧ (3 : Word).toNat ≤ dlState.dl.m := by decide

theorem witness_DlWrFillsTheCursorSlot : dlState.dl.cfg = true := by decide

theorem witness_DlProcIsTheComb : dlComb.dl.cfg = true := by decide

theorem witness_DlRdbReturnsTheSpan :
    dlState.dl.cfg = true ∧ dlState.dl.wf ∧ dlState.dl.m < (4 : Word).toNat ∧ dlState.dl.maxblk < (3 : Word).toNat ∧
    (3 : Word).toNat ≤ dlState.dl.m ∧ (2 : Word).toNat ≤ dlState.dl.maxblk := by decide

theorem witness_DlWrbFillsTheBlock :
    dlState.dl.cfg = true ∧ dlState.dl.wf ∧ dlState.dl.maxblk < (3 : Word).toNat ∧ (2 : Word).toNat ≤ dlState.dl.maxblk := by
  decide

theorem witness_DlProcbCombsInOrder :
    dlComb.dl.cfg = true ∧ dlComb.dl.maxblk < (5 : Word).toNat ∧ (4 : Word).toNat ≤ dlComb.dl.maxblk := by decide

/-- First, the line of `dlState`, whose cursor is at the ring's start again: a block of two writes, a read, a comb step, a
write and a comb block, then a delay of the maximum, one below the number of writes. Second, `M=3, MAXBLK=2`: a block of two
writes after CFG, then the first delay behind them. -/
theorem witness_RoundTripLaw :
    (∃ (t : State) (xs : List F32), dlState.dl.cfg = true ∧ dlState.dl.wf ∧ DlHistory dlState xs t ∧ xs.length = 5 ∧
      (3 : Word).toNat ≤ t.dl.m ∧ (3 : Word).toNat < xs.length) ∧
    ∃ (s s0 t : State) (xs : List F32), exec .dlCfg s = .next s0 ∧ s0.dlOut.err = 0 ∧ DlHistory s0 xs t ∧ xs.length = 2 ∧
      (2 : Word).toNat ≤ t.dl.m ∧ xs.length ≤ (2 : Word).toNat := by
  refine ⟨⟨_, _, by decide, by decide,
    .procb { dlArgs 3 2 with n := 1, blk := [0x3F800000] } (.wr { dlArgs 3 2 with x := 0x40400000 }
      (.proc { dlArgs 3 2 with x := 0 } (.read { dlArgs 3 2 with tau := 1 } .dlRd
        (.wrb { dlArgs 3 2 with n := 2, blk := [0x3F800000, 0x40000000] } .start (by decide) rfl (by decide))
        (.inl rfl) rfl) rfl (by decide)) rfl (by decide)) rfl (by decide), by decide, by decide, by decide⟩,
    { State.reset with dlIn := dlArgs 3 2 }, _, _, _, rfl, by decide,
    .wrb { dlArgs 3 2 with n := 2, blk := [0x3F800000, 0x40000000] } .start (by decide) rfl (by decide), rfl, by decide,
    by decide⟩

theorem witness_BlockLaw :
    dlState.dl.cfg = true ∧ dlState.dl.wf ∧
    ({ dlState.dlIn with n := 2, blk := [0x40C00000, 0x40E00000] } : DlOperands).wf = true ∧
    (2 : Word).toNat ≤ dlState.dl.maxblk := by decide

/-- Leakages at the ends of the range: the smallest subnormal and the largest value below 1 are in it. -/
theorem witness_RrsCfgBuildsTheFilter :
    inUnit Config.rrsEps ∧ inUnit 0x00000001 ∧ inUnit 0x3F7FFFFF ∧ ¬ inUnit 0x3F800000 ∧ ¬ inUnit 0x00000000 ∧
    ¬ inUnit 0x7FC00000 ∧ (1048576 : Word) ≠ 0 ∧ 2 ^ 20 < (1048576 : Word).toNat + 1 ∧
    (1048575 : Word) ≠ 0 ∧ (1048575 : Word).toNat + 1 ≤ 2 ^ 20 := by
  simp only [← epsOk_iff]; decide

theorem witness_RrsSetepsKeepsTheHistory :
    rrsState.rrs.cfg = true ∧ ¬ inUnit ((some 0x3F800000 : Option F32).getD 0) ∧
    inUnit ((some 0x3F000000 : Option F32).getD 0) := by
  simp only [← epsOk_iff]; decide

theorem witness_RrsProcIsTheRecurrence : rrsState.rrs.cfg = true := by decide

theorem witness_RrsProcbRecursInOrder :
    rrsState.rrs.cfg = true ∧ 4096 < (4097 : Word).toNat ∧ (4096 : Word).toNat ≤ 4096 := by decide

/-- A fresh filter of width 2 with the default leakage, about to take a block of three samples, the impulse. -/
def impulseState : State :=
  { State.reset with
    rrs := .build 2 Config.rrsEps
    rrsIn := { State.reset.rrsIn with n := 3, blk := [0x3F800000, 0, 0] } }

/-- The impulse in one block, and a zero by RRS.PROC after it: `W = 2`, `k = 3`, so that samples `W - 1`, `W` and `W + 1` are
there. -/
theorem witness_ImpulseResponseIsAPulse :
    ∃ (t : State) (ys : List F32), inUnit Config.rrsEps ∧ impulseState.rrs.fresh 2 Config.rrsEps ∧
      RrsHistory impulseState (0x3F800000 :: List.replicate 3 0x00000000) ys t := by
  refine ⟨_, _, (epsOk_iff _).mp (by decide),
    ⟨rfl, rfl, rfl, rfl, by decide +kernel, Dl.fresh_build _ _ _, Dl.fresh_build _ _ _⟩,
    .proc { impulseState.rrsIn with x := 0 } (.procb impulseState.rrsIn .start (by decide) rfl rfl) rfl rfl⟩

theorem witness_HadMixTransformsTheFrame :
    (0 : Word) = 0 ∧ (96 : Word) &&& (96 - 1) ≠ 0 ∧
    ((128 : Word) ≠ 0 ∧ (128 : Word) &&& (128 - 1) = 0 ∧ 64 < (128 : Word).toNat) ∧
    (64 : Word) ≠ 0 ∧ (64 : Word) &&& (64 - 1) = 0 ∧ (64 : Word).toNat ≤ 64 := by decide

theorem witness_HadScalesAreTheRoundedRoots : 0 ≤ 6 ∧ 6 ≤ 6 ∧ F32.isFinite 0x7F7FFFFF = true := by decide

theorem witness_ButterfliesAreTheSylvesterMatrix : ([1, 2, 3, 4] : List Int).length = 2 ^ 2 := by decide

/-- Each INVALID_ARG condition of R195 alone; a grid of `TD_MAX + 1`; a grid of `TD_MAX` with a block of `MAXBLK_CAP`. -/
theorem witness_DvnCfgBuildsTheConvolver :
    ({ dvnOps with rho := 0 }.rho = 0 ∧ { dvnOps with fs := 0 }.fs = 0 ∧ { dvnOps with maxblk := 0 }.maxblk = 0 ∧
      ¬ inUnit (({ dvnOps with eps := some 0 } : DvnOperands).eps.getD 0x39800000) ∧
      (3 : Word).toNat / (2 : Word).toNat < 2 ∧
      ({ dvnOps with rnd := dvnOps.rnd.tail } : DvnOperands).rnd.length < 3 * dvnOps.p.toNat) ∧
    (dvnOps.rho ≠ 0 ∧ dvnOps.maxblk ≠ 0 ∧ inUnit (dvnOps.eps.getD 0x39800000) ∧ 2 ≤ (8194 : Word).toNat / dvnOps.rho.toNat ∧
      3 * dvnOps.p.toNat ≤ dvnOps.rnd.length ∧ ¬ dvnFits 3 ((8194 : Word).toNat / dvnOps.rho.toNat) 16) ∧
    2 ≤ (8192 : Word).toNat / dvnOps.rho.toNat ∧ dvnFits 3 ((8192 : Word).toNat / dvnOps.rho.toNat) 4096 := by
  simp only [← epsOk_iff, dvnFits]; decide

theorem witness_PulsesStayInTheirCells : 2 ≤ 2 ∧ (genPulse 2 5 0xFFFFFF 0xFFFFFF 0).madeOf 2 5 0xFFFFFF 0xFFFFFF 0 :=
  ⟨le_refl 2, genPulse_madeOf _ _ _ _ _⟩

theorem dvnState_wf : dvnState.dvn.wf := by
  have h : (dvnPortArgs dvnOps).error dvnOps.rnd.length (3 * dvnOps.p.toNat) = none := by decide
  have e : dvnState.dvn = Dvn.build Params.default (dvnPortArgs dvnOps) dvnOps.rnd := by decide +kernel
  rw [e]
  exact Dvn.wf_build h (by decide)

theorem witness_DvnProcbConvolves :
    dvnState.dvn.cfg = true ∧ dvnState.dvn.maxblk < (17 : Word).toNat ∧ dvnState.dvn.wf ∧
    (16 : Word).toNat ≤ dvnState.dvn.maxblk :=
  ⟨by decide +kernel, by decide +kernel, dvnState_wf, by decide +kernel⟩

theorem witness_DvnPulseReadsBack :
    dvnState.dvn.cfg = true ∧ dvnState.dvn.p ≤ (3 : Word).toNat ∧ dvnState.dvn.wf ∧ (2 : Word).toNat < dvnState.dvn.p :=
  ⟨by decide +kernel, by decide +kernel, dvnState_wf, by decide +kernel⟩

/-- `DVN.CFG P=0, RHO=2, FS=8, MAXBLK=4, RND=[]`. -/
def quietState : State :=
  { State.reset with dvnIn := { dvnOps with p := 0, maxblk := 4, rnd := [] } }

/-- The default factor, and a negative and an infinite one, which DVN_NORM could be (R196). -/
theorem witness_NoPulsesNoOutput :
    (quietState.dvnIn.p = 0 ∧ ∃ t, exec .dvnCfg quietState = .next t ∧ t.dvnOut.err = 0) ∧
    ∀ f ∈ [0x3F800000, 0xBF800000, 0x7F800000],
      ∀ d, d = { Dvn.build .default (dvnPortArgs quietState.dvnIn) [] with nrm := f } →
        d.cfg = true ∧ d.p = 0 ∧ (4 : Word).toNat ≤ d.maxblk ∧ d.quiet := by
  refine ⟨⟨by decide, _, rfl, by decide +kernel⟩, ?_⟩
  rintro f - d rfl
  refine ⟨rfl, rfl, le_refl 4, rfl, rfl, ?_⟩
  intro f hf
  have hr : (Dvn.build .default (dvnPortArgs quietState.dvnIn) []).rrs =
      [.build 2 Config.rrsEps, .build 3 Config.rrsEps, .build 4 Config.rrsEps] := rfl
  rw [hr] at hf
  simp only [List.mem_cons, List.not_mem_nil, or_false] at hf
  rcases hf with rfl | rfl | rfl <;>
    exact ⟨by decide +kernel, by decide +kernel, by decide +kernel, by decide +kernel, fun j => ⟨rfl, rfl⟩⟩

/-- R199 with a negative factor, where the product of R197 alone would be `-0.0`. -/
theorem test_dvnProcb_noPulses :
    nextHas (exec .dvnProcb
        { quietState with
          dvn := { Dvn.build .default (dvnPortArgs quietState.dvnIn) [] with nrm := 0xBF800000 }
          dvnIn := { quietState.dvnIn with n := 2, blk := [0x7F800000, 0x3F800000] } })
      (fun t => t.dvnOut.blkOut == [0x00000000, 0x00000000]) = true := by decide +kernel

theorem witness_DiffCfgBuildsTheConvolvers :
    ({ diffOps with ch := 0 }.ch = 0 ∧ 64 < { diffOps with ch := 65 }.ch.toNat) ∧
    (diffOps.ch ≠ 0 ∧ diffOps.ch.toNat ≤ 64 ∧ { diffOps with rho := 0 }.rho = 0 ∧ { diffOps with fs := 0 }.fs = 0 ∧
      { diffOps with maxblk := 0 }.maxblk = 0 ∧ ¬ inUnit (({ diffOps with eps := some 0 } : DiffOperands).eps.getD 0x39800000) ∧
      (3 : Word).toNat / (2 : Word).toNat < 2 ∧
      ({ diffOps with rnd := diffOps.rnd.tail } : DiffOperands).rnd.length < 3 * diffOps.p.toNat * diffOps.ch.toNat) ∧
    (diffOps.rho ≠ 0 ∧ diffOps.maxblk ≠ 0 ∧ inUnit (diffOps.eps.getD 0x39800000) ∧
      2 ≤ (8194 : Word).toNat / diffOps.rho.toNat ∧
      3 * diffOps.p.toNat * diffOps.ch.toNat ≤ diffOps.rnd.length ∧
      ¬ dvnFits 1 ((8194 : Word).toNat / diffOps.rho.toNat) 4) ∧
    dvnFits 1 ((8192 : Word).toNat / diffOps.rho.toNat) 4096 := by
  simp only [← epsOk_iff, dvnFits]; decide

theorem diffState_built : diffState.diff = Diff.build .default 2 (diffPortArgs diffOps) diffOps.rnd ∧ diffState.diff.wf := by
  have h : Diff.cfgError 2 (diffPortArgs diffOps) diffOps.rnd.length = none := by decide
  have e : diffState.diff = Diff.build .default 2 (diffPortArgs diffOps) diffOps.rnd := by decide +kernel
  exact ⟨e, e ▸ Diff.wf_build h (by decide)⟩

theorem witness_DiffProcbConvolvesEachChannel :
    diffState.diff.cfg = true ∧ diffState.diff.maxblk < (5 : Word).toNat ∧ diffState.diff.wf ∧
    (4 : Word).toNat ≤ diffState.diff.maxblk :=
  ⟨by decide +kernel, by decide +kernel, diffState_built.2, by decide +kernel⟩

/-- Two blocks of one sample that differ in channel 1 alone; channel 0 is compared. -/
theorem witness_DiffChannelsAreIndependent :
    ∃ (s s' t t' : State) (v : Dvn) (x : List F32),
      exec .diffProcb s = .next t ∧ exec .diffProcb s' = .next t' ∧ t.diffOut.err = 0 ∧ t'.diffOut.err = 0 ∧
      s.draws = s'.draws ∧ s.diffIn.n = s'.diffIn.n ∧ 0 < s.diff.ch ∧ 0 < s'.diff.ch ∧ s.diff.conv[0]? = some v ∧
      s'.diff.conv[0]? = some v ∧ s.diffIn.blk[0]? = some x ∧ s'.diffIn.blk[0]? = some x ∧
      s.diffIn.blk ≠ s'.diffIn.blk := by
  refine ⟨{ State.reset with
      diff := Diff.build .default 2 (diffPortArgs diffOps) diffOps.rnd
      diffIn := { diffOps with n := 1, blk := [[0x3F800000], [0]] } },
    { State.reset with
      diff := Diff.build .default 2 (diffPortArgs diffOps) diffOps.rnd
      diffIn := { diffOps with n := 1, blk := [[0x3F800000], [0x7FC00000]] } }, _, _, _, _, rfl, rfl, rfl, rfl, rfl, rfl,
    by decide, by decide, rfl, rfl, rfl, rfl, by decide⟩

/-- A failing capacity check, at base length 419431, and one that passes; both with the jitter of the default parameters
(95_test_vectors.md 2.7). -/
theorem fdnFits_limits : ¬ fdnFits .default 419431 16 ∧ fdnFits .default 400000 16 := by
  refine ⟨fun h => absurd (h _ _ rfl rfl) (by decide +kernel), ?_⟩
  intro hi l0 h1 h2
  subst h1 h2
  decide +kernel

theorem witness_FdnCfgBuildsTheNetwork :
    ({ fdnOps with lines := 0 }.lines = 0 ∧ { fdnOps with lbase := 0 }.lbase = 0 ∧ { fdnOps with fs := 0 }.fs = 0 ∧
      { fdnOps with maxblk := 0 }.maxblk = 0) ∧
    (fdnOps.lines ≠ 0 ∧ fdnOps.lbase ≠ 0 ∧ fdnOps.fs ≠ 0 ∧ fdnOps.maxblk ≠ 0 ∧ (3 : Word) &&& (3 - 1) ≠ 0 ∧
      fdnOps.lines &&& (fdnOps.lines - 1) = 0 ∧ fdnOps.rnd.tail.length < 2 * fdnOps.lines.toNat - 1 ∧
      2 * fdnOps.lines.toNat - 1 ≤ fdnOps.rnd.length ∧ 4096 < (4097 : Word).toNat ∧
      ((128 : Word) &&& (128 - 1) = 0 ∧ 64 < (128 : Word).toNat) ∧
      fdnOps.lines.toNat ≤ 64 ∧ fdnOps.maxblk.toNat ≤ 4096) ∧ Params.default.line0Len = [] ∧
    ¬ fdnFits .default 419431 16 ∧ fdnFits .default 400000 16 :=
  ⟨by decide, by decide, rfl, fdnFits_limits⟩

theorem fdnState_built : fdnState.fdn = Fdn.build .default 2 3 48000 16 fdnOps.rnd ∧ fdnState.fdn.wf := by
  have h : Fdn.cfgError .default 2 3 48000 16 fdnOps.rnd.length = none := by decide +kernel
  have e : fdnState.fdn = Fdn.build .default 2 3 48000 16 fdnOps.rnd := by decide +kernel
  exact ⟨e, e ▸ Fdn.wf_build (by decide +kernel) h (by decide)⟩

theorem witness_FdnProcbRunsTheLoop :
    fdnState.fdn.cfg = true ∧ fdnState.fdn.maxblk < (17 : Word).toNat ∧ fdnState.fdn.wf ∧
    (16 : Word).toNat ≤ fdnState.fdn.maxblk :=
  ⟨by decide +kernel, by decide +kernel, fdnState_built.2, by decide +kernel⟩

/-- The first block after CFG, of 3 samples, with `tau = [3, 2]`: exactly the shortest loop delay. -/
theorem witness_FdnFirstBlockIsSilent :
    ∃ s t : State, s.fdn.cfg = true ∧ s.fdn.wf ∧ (∀ l ∈ s.fdn.lines, ∀ j, l.line.ring.read j = 0) ∧
      (∀ l ∈ s.fdn.lines, ∀ tau, roomDelayOf l.len (clamp s.fdnIn.room 0x3DCCCCCD 0x40000000) tau →
        s.fdnIn.n.toNat ≤ tau + 1) ∧
      exec .fdnProcb s = .next t ∧ t.fdnOut.err = 0 ∧ s.fdnIn.n.toNat = 3 := by
  have hl : (Fdn.build .default 2 3 48000 16 fdnOps.rnd).lines =
      [.build 16 3 0x3F4CCCCD, .build 16 2 0x3F59999A] := by decide +kernel
  refine ⟨{ State.reset with
      fdn := Fdn.build .default 2 3 48000 16 fdnOps.rnd
      fdnIn := { fdnOps with n := 3, room := 0x3F800000, damp := 0x459C4000, blk := [[0x3F800000, 0, 0], [0, 0, 0]] } }, _,
    rfl, fdnState_built.1 ▸ fdnState_built.2, ?_, ?_, rfl, rfl, rfl⟩
  · intro l h j
    rw [hl] at h
    simp only [List.mem_cons, List.not_mem_nil, or_false] at h
    rcases h with rfl | rfl <;> rfl
  · intro l h tau ht
    rw [hl] at h
    simp only [List.mem_cons, List.not_mem_nil, or_false] at h
    have e3 : roundAway (((3 : Nat) : Rat) * F32.toRat (clamp 0x3F800000 0x3DCCCCCD 0x40000000)) = 3 := by decide +kernel
    have e2 : roundAway (((2 : Nat) : Rat) * F32.toRat (clamp 0x3F800000 0x3DCCCCCD 0x40000000)) = 2 := by decide +kernel
    rcases h with rfl | rfl
    · have : (tau : Int) = 3 := ht.trans e3
      show 3 ≤ tau + 1
      omega
    · have : (tau : Int) = 2 := ht.trans e2
      show 3 ≤ tau + 1
      omega

theorem witness_RandomSource : (1 : Word) ≠ 0 ∧ 0 < 1 := by decide

theorem setup_ok : setupGridsOk .default 2000 ∧ setupFits .default 2000 8 := by
  refine ⟨by unfold setupGridsOk; decide +kernel, by unfold dvnFits; decide, ?_, by unfold dvnFits; decide, ?_,
    by unfold dvnFits; decide⟩ <;>
    (intro hi l0 h1 h2; subst h1 h2; decide +kernel)

/-- A stage of one pulse a second: its grid at 192000 Hz is beyond `TD_MAX`. -/
def coarseParams : Params := { Params.default with diff1 := { p := 16, rho := 1 } }

/-- Each check of R263 alone, at the value next to its limit. -/
theorem witness_RevSetupChecksAndLatches :
    ((0 : Word).toNat = 0 ∧ 192000 < (192001 : Word).toNat ∧ 4096 < (4097 : Word).toNat) ∧
    ¬ setupGridsOk .default 1999 ∧ (setupGridsOk coarseParams 192000 ∧ ¬ setupFits coarseParams 192000 4096) ∧
    setupGridsOk .default 2000 ∧ setupFits .default 2000 8 := by
  refine ⟨by decide, fun h => absurd h.1 (by decide),
    ⟨by unfold setupGridsOk; decide +kernel, fun h => absurd h.1.2.1 (by decide)⟩, setup_ok⟩

theorem witness_RevSetupBuildsTheStages :
    revIn.rev.fs.toNat ≠ 0 ∧ revIn.rev.maxblk.toNat ≠ 0 ∧ revIn.rev.fs.toNat ≤ 192000 ∧
    revIn.rev.maxblk.toNat ≤ 4096 ∧ setupGridsOk revIn.params revIn.rev.fs.toNat ∧
    setupFits revIn.params revIn.rev.fs.toNat revIn.rev.maxblk.toNat :=
  ⟨by decide, by decide, by decide, by decide, setup_ok.1, setup_ok.2⟩

/-- After `SETUP 2000, 8, 1`, with a channel count and a block length in NCH and NLEN. -/
def revBlock (c n : Word) : State :=
  { State.reset with rev := { Rev.setup .default revIn.rev with nch := c, nlen := n } }

theorem revBlock_wf (c n : Word) : (revBlock c n).rev.wf :=
  Rev.wf_setup (prm := .default) (r := revIn.rev) (by decide +kernel) (by decide +kernel)

theorem witness_RevProcessChangesOnlyItsBlock :
    (revBlock 0 8).rev.configured = true ∧ (revBlock 0 8).rev.nch.toNat < 1 ∧ 8 < (revBlock 9 8).rev.nch.toNat ∧
    (1 ≤ (revBlock 8 9).rev.nch.toNat ∧ (revBlock 8 9).rev.nch.toNat ≤ 8 ∧
      (revBlock 8 9).rev.cfgMaxblk.toNat < (revBlock 8 9).rev.nlen.toNat) ∧
    1 ≤ (revBlock 1 8).rev.nch.toNat ∧ (revBlock 1 8).rev.nch.toNat ≤ 8 ∧
    (revBlock 1 8).rev.nlen.toNat ≤ (revBlock 1 8).rev.cfgMaxblk.toNat := by decide +kernel

/-- IOBUF that differs in one byte beyond the block. -/
theorem witness_RevProcessReadsOnlyItsBlock :
    ∃ (s t t' : State) (m : Memory), s.rev.nch.toNat ≤ 8 ∧
      (∀ a, inBlock s.rev.nch.toNat s.rev.nlen.toNat a → m.readByte s.epoch a = s.iobuf.readByte s.epoch a) ∧
      exec .revProcess s = .next t ∧ exec .revProcess { s with iobuf := m } = .next t' ∧ m ≠ s.iobuf ∧
      s.rev.processError = none := by
  refine ⟨revBlock 1 1, _, _, [(0x10004, 1)], by decide, ?_, rfl, rfl, by decide, by decide +kernel⟩
  rintro a ⟨c, i, hc, hi, h1, h2⟩
  have hc0 : c = 0 := by have : c < 1 := hc; omega
  have hi0 : i = 0 := by have : i < 1 := hi; omega
  subst hc0 hi0
  have e : iobufOffset 0 0 = 0x10000 := rfl
  have : a ≠ 0x10004 := by omega
  simp [Memory.readByte, storeFind, this, revBlock, State.reset]

theorem witness_RevProcessComputesTheBlock :
    (revBlock 2 8).rev.wf ∧ (revBlock 2 8).rev.configured = true ∧ 1 ≤ (revBlock 2 8).rev.nch.toNat ∧
    (revBlock 2 8).rev.nch.toNat ≤ 8 ∧ (revBlock 2 8).rev.nlen.toNat ≤ (revBlock 2 8).rev.cfgMaxblk.toNat :=
  ⟨revBlock_wf 2 8, rfl, by decide, by decide, by decide +kernel⟩

/-- Both zeros as the mix; zeros, an infinity and a NaN as the sample that is kept. -/
theorem witness_BlendEndsAreDryAndWet :
    F32.mag 0x80000000 = 0 ∧ F32.mag 0x00000000 = 0 ∧ F32.isFinite 0x80000000 = true ∧ F32.isFinite 0x7F7FFFFF = true ∧
    F32.isNaN 0x80000000 = false ∧ F32.isNaN 0x7F800000 = false ∧ F32.isNaN 0x7F800001 = true := by decide

/-- A negative number, zero, the largest number that rounds to a finite value at the clause's limit, and that limit. -/
theorem witness_Rne32IsNearestEven :
    ((-1 : Rat) < 0 ∧ (0 : Rat) ≤ 0) ∧ (|(2 : Rat) ^ 128 - 2 ^ 103 - 1| < 2 ^ 128 - 2 ^ 103 ∧ F32.isFinite 0x7F7FFFFF = true) ∧
    (2 : Rat) ^ 128 - 2 ^ 103 ≤ |(2 : Rat) ^ 128 - 2 ^ 103| := by
  refine ⟨by decide +kernel, ⟨?_, by decide⟩, le_abs_self _⟩
  rw [abs_of_nonneg (by norm_num)]
  norm_num

theorem witness_ArithmeticRoundsOnce :
    F32.isFinite 0x3F800000 = true ∧ F32.isFinite 0xBF800000 = true ∧ F32.isFinite 0x80000000 = true ∧
    F32.toRat 0x3F800000 + F32.toRat 0x3F800000 ≠ 0 ∧ F32.toRat 0x80000000 + F32.toRat 0x80000000 = 0 ∧
    F32.toRat 0x3F800000 - F32.toRat 0xBF800000 ≠ 0 ∧ F32.toRat 0x80000000 - F32.toRat 0x00000000 = 0 ∧
    F32.toRat 0x3F800000 * F32.toRat 0xBF800000 ≠ 0 ∧ F32.toRat 0x80000000 * F32.toRat 0x3F800000 = 0 := by
  decide +kernel

theorem witness_ArithmeticOnInfinitiesAndNaNs :
    F32.isNaN 0x7F800001 = true ∧ F32.isNaN 0xFFFFFFFF = true ∧ F32.isInf 0x7F800000 = true ∧ F32.isInf 0xFF800000 = true ∧
    F32.isFinite 0x7F7FFFFF = true ∧ F32.mag 0x80000000 = 0 ∧ F32.isNaN 0x00000001 = false ∧ F32.mag 0x00000001 ≠ 0 := by
  decide

/-- A NaN, a value below, one above, the bounds themselves, and `-0.0`, for the domain [20, 20000]. -/
theorem witness_ClampIsAsStated :
    F32.isNaN 0x7FC00000 = true ∧ below 0x419FFFFF 0x41A00000 ∧ below 0xFF800000 0x41A00000 ∧
    (F32.isNaN 0x469C4001 = false ∧ ¬ below 0x469C4001 0x41A00000 ∧ below 0x469C4000 0x469C4001) ∧
    (F32.isNaN 0x41A00000 = false ∧ ¬ below 0x41A00000 0x41A00000 ∧ ¬ below 0x469C4000 0x41A00000) ∧
    ¬ below 0x00000000 0x80000000 := by
  simp only [← F32.lt_iff_below]; decide

/-- No pulses, and the largest bank; the ends of the cutoff's domain at the ends of the sample rates. -/
theorem witness_CoefficientDefaultsAreAsStated :
    Params.default.dvnNorm = [] ∧ 1 ≤ 4096 ∧ 4096 ≤ 4096 ∧ F32.isFinite 0x00000001 = true ∧
    Params.default.onepoleAlpha = [] ∧
    (F32.isFinite 0x41A00000 = true ∧ 20 ≤ F32.toRat 0x41A00000 ∧ F32.toRat 0x41A00000 ≤ 20000) ∧
    (F32.isFinite 0x469C4000 = true ∧ 20 ≤ F32.toRat 0x469C4000 ∧ F32.toRat 0x469C4000 ≤ 20000) ∧ 1 ≤ 1 ∧ 2 ^ 32 - 1 < 2 ^ 32 := by
  decide +kernel

/-- A host about to read at an offset, and one about to write there. -/
def readerOf (s : State) (off : Nat) : State := hostOf s (.read .w32 (s.busAddr off))

/-- A host about to write a word at an offset. -/
def writerOf (s : State) (off : Nat) (v : Word) : State := hostOf s (.write .w32 (s.busAddr off) v)

/-- The first and the last offsets of the clauses. -/
theorem witness_RegistersReadAsStated :
    (readerOf .reset 0x048).revDue = false ∧ (readerOf .reset 0x048).program = [.read .w32 (State.reset.busAddr 0x048)] ∧
    (0x04C ≤ 0x04C ∧ 0x04C < 0x10000 ∧ 0x04C % 4 = 0) ∧ 0x04C ≤ 0xFFFC ∧ 0xFFFC < 0x10000 ∧ 0xFFFC % 4 = 0 := by decide

theorem witness_RegisterWritesDoAsStated :
    (writerOf .reset 0x008 0x70000000).rev.pending = none ∧
    (writerOf .reset 0x008 0x70000000).program = [.write .w32 (State.reset.busAddr 0x008) 0x70000000] ∧
    readOnlyOffset 0x000 ∧ readOnlyOffset 0x004 ∧ readOnlyOffset 0x040 ∧ readOnlyOffset 0x048 ∧ readOnlyOffset 0x04C ∧
    readOnlyOffset 0xFFFC ∧ ¬ readOnlyOffset 0x008 ∧ ¬ readOnlyOffset 0x03C :=
  ⟨by decide, by decide, .inl rfl, by simp [readOnlyOffset], by simp [readOnlyOffset], by simp [readOnlyOffset],
    by simp [readOnlyOffset], by simp [readOnlyOffset], by simp [readOnlyOffset], by simp [readOnlyOffset]⟩

theorem witness_BusErrorsHaveNoEffect :
    (readerOf .reset 0x3FFFC).revDue = false ∧ 0x3FFFC < 0x40000 ∧ BusWidth.w8 ≠ .w32 ∧ BusWidth.w64 ≠ .w32 ∧
    0x00001 % 4 ≠ 0 ∧ 0x3FFFF % 4 ≠ 0 ∧ 0x3FFFF < 0x40000 ∧ (0x30000 % 4 = 0 ∧ 0x30000 ≤ 0x30000) ∧
    0x3FFFC % 4 = 0 ∧ 0x30000 ≤ 0x3FFFC := by decide

/-- A host at whose next access BUSY is 1. -/
def busyHost (st : HostStmt) : State :=
  { hostOf .reset st with rev := { Rev.reset with pending := some 0x70000000 }, busyLeft := 1 }

theorem witness_BusyRefusesWrites :
    (busyHost (.write .w32 0x008 0)).rev.pending ≠ none ∧ (busyHost (.write .w32 0x008 0)).revDue = false ∧
    storingOffset 0x010 ∧ storingOffset 0x03C ∧ ¬ storingOffset 0x00C ∧ iobufOffsetOk 0x10000 ∧ iobufOffsetOk 0x2FFFC ∧
    (busyHost (.read .w32 (State.reset.busAddr 0x10000))).program = [.read .w32 (State.reset.busAddr 0x10000)] := by
  unfold storingOffset iobufOffsetOk; decide

theorem witness_StatusBitTwoAcknowledges :
    (busyHost (.write .w32 0x00C 4)).revDue = false ∧ (4 : Word).getLsbD 2 = true ∧ (0xFFFFFFFB : Word).getLsbD 2 = false ∧
    (busyHost (.write .w32 (State.reset.busAddr 0x00C) 4)).program = [.write .w32 (State.reset.busAddr 0x00C) 4] := by decide

theorem witness_IobufIsLittleEndian :
    (readerOf .reset 0x10000).rev.pending = none ∧ iobufOffsetOk 0x10000 ∧ iobufOffsetOk 0x2FFFC ∧
    (readerOf .reset 0x10000).program = [.read .w32 (State.reset.busAddr 0x10000)] ∧
    (writerOf .reset 0x2FFFC 1).rev.pending = none ∧
    (writerOf .reset 0x2FFFC 1).program = [.write .w32 (State.reset.busAddr 0x2FFFC) 1] ∧
    0x10000 = 0x10000 + 4 * (0 * 4096 + 0) ∧ 0x2FFFC = 0x10000 + 4 * (7 * 4096 + 4095) := by
  unfold iobufOffsetOk; decide

/-- A command that takes two steps, and one that takes none. -/
theorem witness_WaitSeesTheCommandThrough :
    ({ busyHost .wait with rev := { Rev.reset with pending := some (encode .revSetup) }, busyLeft := 2 } : State).rev.pending =
      some (encode .revSetup) ∧ Instr.revSetup.cls = .rev ∧
    ({ busyHost .wait with rev := { Rev.reset with pending := some (encode .revSetup) }, busyLeft := 2 } : State).program =
      [.wait] ∧ (busyHost .wait).busyLeft = 1 ∧ ({ busyHost .wait with busyLeft := 0 } : State).busyLeft = 0 := by decide

/-- Statements that come while REV is busy, WAIT then and with REV idle, CHECK with ERR = 0 and with ERR = 1, and the first address past the window. -/
theorem witness_HostStatementsTakeEffect :
    (busyHost (.operands (.had { n := 0, frame := [] }))).revDue = false ∧
    (busyHost (.operands (.had { n := 0, frame := [] }))).program = [.operands (.had { n := 0, frame := [] })] ∧
    ((busyHost .wait).revDue = false ∧ (busyHost .wait).program = [.wait] ∧ (busyHost .wait).rev.pending ≠ none) ∧
    ((hostOf .reset .wait).revDue = false ∧ (hostOf .reset .wait).rev.pending = none) ∧
    (busyHost .check).rev.err = false ∧ (hostOf { State.reset with rev := { Rev.reset with err := true } } .check).rev.err = true ∧
    (busyHost (.read .w32 0x40000)).revDue = false ∧ 0x40000 ≤ ((0x40000 : Word) - State.reset.params.revBase).toNat := by
  decide

/-- A reset that comes while a command is in flight. -/
theorem witness_ResetLeavesTheStatedValues :
    (busyHost .reset).revDue = false ∧ (busyHost .reset).program = .reset :: [] := by decide

/-- A good state, not the reset state, in which a command of a module runs and writes its port. -/
theorem witness_StepKeepsGoodStates :
    ∃ s t : State, s.good ∧ step s = .next t ∧ s.dl.cfg = true ∧ t.dlOut.blkOut = [0x3F800000, 0x40000000] := by
  refine ⟨{ dlState with
      rev := (revBlock 2 8).rev
      dlIn := { dlState.dlIn with tau := 3, n := 2 }
      program := [.issue .dl 0x15000000] }, _, ⟨by decide +kernel, ⟨?_, ?_, ?_, ?_, ?_⟩, revBlock_wf 2 8, by decide, by decide⟩,
    rfl, rfl, by decide⟩
  · show dlState.dl.wf
    decide
  all_goals exact fun h => absurd h (by decide)

theorem witness_CommandsTouchOnlyTheirModule : ∃ t, exec .dlRd State.reset = .next t := ⟨_, rfl⟩

theorem witness_ConfiguredIsSticky :
    ∃ t, (revBlock 2 8).rev.configured = true ∧ step (hostOf (revBlock 2 8) .wait) = .next t ∧ t.rev.configured = true :=
  ⟨_, rfl, rfl, rfl⟩

end Sys2Proof.Tests
end

section
/-!
PROOFS. 00_scope.md R11: `rne32` rounds to nearest, ties to even. Magnitude bits order the magnitudes, so everything is
said of the magnitude bits just below `n / d` units of `2^-149`: the rounding takes them or the next ones.
-/

namespace Sys2Proof.Machine

/-! ## Magnitude bits and their units -/

/-- The units of `2^-149` that magnitude bits stand for, past infinity too: the format with an unbounded exponent. -/
def magUnits (m : Nat) : Nat := if m / 2 ^ 23 = 0 then m else (2 ^ 23 + m % 2 ^ 23) <<< (m / 2 ^ 23 - 1)

theorem units_eq_magUnits (x : F32) : F32.units x = magUnits (F32.mag x) := rfl

theorem magUnits_strictMono : StrictMono magUnits := strictMono_nat_of_lt_succ F32.units_lt_succ

/-- The bits `k + s · 2^23` stand for `k · 2^s` units, at both ends of the binade too. -/
theorem magUnits_add_mul {k s : Nat} (hk : k ≤ 2 ^ 24) (hs : s = 0 ∨ 2 ^ 23 ≤ k) :
    magUnits (k + s * 2 ^ 23) = k * 2 ^ s := by
  unfold magUnits
  rcases Nat.lt_or_ge k (2 ^ 23) with h | h
  · obtain rfl : s = 0 := by omega
    rw [if_pos (by omega)]
    simp
  · rw [if_neg (by omega), Nat.shiftLeft_eq]
    rcases Nat.lt_or_ge k (2 ^ 24) with h' | h'
    · rw [show (k + s * 2 ^ 23) / 2 ^ 23 - 1 = s by omega, show 2 ^ 23 + (k + s * 2 ^ 23) % 2 ^ 23 = k by omega]
    · rw [show (k + s * 2 ^ 23) / 2 ^ 23 - 1 = s + 1 by omega, show (k + s * 2 ^ 23) % 2 ^ 23 = 0 by omega, pow_succ]
      obtain rfl : k = 2 ^ 24 := by omega
      ring

/-! ## The rounding as a choice between two neighbours -/

/-- `roundMag` before its overflow to infinity. -/
def nearestMag (n d : Nat) : Nat :=
  let s := Nat.log2 (n / d) - 23
  let ulp := d <<< s
  let k := n / ulp
  let r := n % ulp
  (if ulp < 2 * r ∨ (2 * r = ulp ∧ k % 2 = 1) then k + 1 else k) + s * 2 ^ 23

theorem roundMag_eq_min (n d : Nat) : roundMag n d = min (nearestMag n d) F32.infMag := rfl

/-- The quotient in the binade of `x` has 24 bits, or `x` is below the second binade. -/
theorem div_two_pow_log2_sub (x : Nat) :
    x / 2 ^ (Nat.log2 x - 23) < 2 ^ 24 ∧ (Nat.log2 x - 23 = 0 ∨ 2 ^ 23 ≤ x / 2 ^ (Nat.log2 x - 23)) := by
  rcases Nat.lt_or_ge x (2 ^ 24) with h | h
  · have hs : Nat.log2 x - 23 = 0 := by
      rcases Nat.eq_zero_or_pos x with rfl | h0
      · rfl
      · have := (Nat.log2_lt (n := x) (k := 24) (by omega)).mpr h
        omega
    rw [hs, pow_zero, Nat.div_one]
    exact ⟨h, .inl rfl⟩
  · have hx : x ≠ 0 := by omega
    have hl : 24 ≤ Nat.log2 x := (Nat.le_log2 hx).mpr h
    have lo : 2 ^ 23 * 2 ^ (Nat.log2 x - 23) ≤ x := by
      rw [← pow_add, show 23 + (Nat.log2 x - 23) = Nat.log2 x by omega]
      exact Nat.log2_self_le hx
    have hi : x < 2 ^ 24 * 2 ^ (Nat.log2 x - 23) := by
      rw [← pow_add, show 24 + (Nat.log2 x - 23) = Nat.log2 x + 1 by omega]
      exact Nat.lt_log2_self
    exact ⟨(Nat.div_lt_iff_lt_mul (by positivity)).mpr hi, .inr ((Nat.le_div_iff_mul_le (by positivity)).mpr lo)⟩

/-- `n / d` lies between the units of two successive magnitudes, and rounding takes the nearer, the even one in a tie. -/
theorem nearestMag_between (n : Nat) {d : Nat} (hd : 0 < d) :
    ∃ lo, magUnits lo * d ≤ n ∧ n < magUnits (lo + 1) * d ∧
      nearestMag n d =
        if magUnits lo * d + magUnits (lo + 1) * d < 2 * n ∨
            (magUnits lo * d + magUnits (lo + 1) * d = 2 * n ∧ lo % 2 = 1) then lo + 1
        else lo := by
  obtain ⟨hk, hs⟩ := div_two_pow_log2_sub (n / d)
  rw [Nat.div_div_eq_div_mul] at hk hs
  unfold nearestMag
  simp only [Nat.shiftLeft_eq]
  generalize Nat.log2 (n / d) - 23 = s at hk hs
  have hr : n % (d * 2 ^ s) < d * 2 ^ s := Nat.mod_lt _ (by positivity)
  have hn := Nat.div_add_mod n (d * 2 ^ s)
  generalize n / (d * 2 ^ s) = k at hk hs hn
  generalize n % (d * 2 ^ s) = r at hr hn
  have e0 : magUnits (k + s * 2 ^ 23) * d = d * 2 ^ s * k := by rw [magUnits_add_mul hk.le hs]; ring
  have e1 : magUnits (k + s * 2 ^ 23 + 1) * d = d * 2 ^ s * k + d * 2 ^ s := by
    rw [show k + s * 2 ^ 23 + 1 = k + 1 + s * 2 ^ 23 by omega, magUnits_add_mul (by omega) (by omega)]
    ring
  refine ⟨k + s * 2 ^ 23, by omega, by omega, ?_⟩
  rw [e0, e1]
  split <;> split <;> omega

/-! ## Nearest, ties to even -/

/-- `n / d` is not below the midpoint of the bits chosen and smaller ones, and on it only if the bits chosen are even. -/
theorem midpoint_le_of_lt_nearestMag {n d m : Nat} (hd : 0 < d) (hm : m < nearestMag n d) :
    magUnits m * d + magUnits (nearestMag n d) * d ≤ 2 * n ∧
      (magUnits m * d + magUnits (nearestMag n d) * d = 2 * n → nearestMag n d % 2 = 0) := by
  obtain ⟨lo, hlo, hhi, hR⟩ := nearestMag_between n hd
  rw [hR] at hm ⊢
  split at hm
  · next h =>
    have hu : magUnits m * d ≤ magUnits lo * d := Nat.mul_le_mul_right _ (magUnits_strictMono.monotone (by omega))
    rw [if_pos h]
    omega
  · next h =>
    have hu : magUnits m * d < magUnits lo * d := Nat.mul_lt_mul_of_pos_right (magUnits_strictMono hm) hd
    rw [if_neg h]
    omega

/-- `n / d` is not above the midpoint of the bits chosen and larger ones, and on it only if the bits chosen are even. -/
theorem le_midpoint_of_nearestMag_lt {n d m : Nat} (hd : 0 < d) (hm : nearestMag n d < m) :
    2 * n ≤ magUnits (nearestMag n d) * d + magUnits m * d ∧
      (2 * n = magUnits (nearestMag n d) * d + magUnits m * d → nearestMag n d % 2 = 0) := by
  obtain ⟨lo, hlo, hhi, hR⟩ := nearestMag_between n hd
  rw [hR] at hm ⊢
  split at hm
  · next h =>
    have hu : magUnits (lo + 1) * d < magUnits m * d := Nat.mul_lt_mul_of_pos_right (magUnits_strictMono hm) hd
    rw [if_pos h]
    omega
  · next h =>
    have hu : magUnits (lo + 1) * d ≤ magUnits m * d := Nat.mul_le_mul_right _ (magUnits_strictMono.monotone (by omega))
    rw [if_neg h]
    omega

/-- No magnitude's units are nearer to `n / d`, and if other units are as near, the bits chosen are even. -/
theorem nearestMag_isNearest (n : Nat) {d : Nat} (hd : 0 < d) (m : Nat) :
    |((magUnits (nearestMag n d) * d : Nat) : Int) - n| ≤ |((magUnits m * d : Nat) : Int) - n| ∧
      (|((magUnits (nearestMag n d) * d : Nat) : Int) - n| = |((magUnits m * d : Nat) : Int) - n| →
        m ≠ nearestMag n d → nearestMag n d % 2 = 0) := by
  have hR := abs_cases (((magUnits (nearestMag n d) * d : Nat) : Int) - n)
  have hM := abs_cases (((magUnits m * d : Nat) : Int) - n)
  rcases Nat.lt_trichotomy m (nearestMag n d) with h | rfl | h
  · have hu := Nat.mul_lt_mul_of_pos_right (magUnits_strictMono h) hd
    have hmid := midpoint_le_of_lt_nearestMag hd h
    omega
  · exact ⟨le_rfl, fun _ hne => absurd rfl hne⟩
  · have hu := Nat.mul_lt_mul_of_pos_right (magUnits_strictMono h) hd
    have hmid := le_midpoint_of_nearestMag_lt hd h
    omega

/-- The same against the units of every value of the format, negative ones too: a value below zero is no nearer to
`n / d` than zero. -/
theorem nearestMag_isNearest_signed (n : Nat) {d : Nat} (hd : 0 < d) (y : F32) :
    |((magUnits (nearestMag n d) * d : Nat) : Int) - n| ≤ |F32.signedUnits y * d - n| ∧
      (|((magUnits (nearestMag n d) * d : Nat) : Int) - n| = |F32.signedUnits y * d - n| →
        F32.signedUnits y ≠ magUnits (nearestMag n d) → nearestMag n d % 2 = 0) := by
  unfold F32.signedUnits
  rw [units_eq_magUnits]
  cases F32.neg y with
  | false =>
    obtain ⟨hle, heven⟩ := nearestMag_isNearest n hd (F32.mag y)
    simp only [Bool.false_eq_true, if_false, ← Nat.cast_mul]
    exact ⟨hle, fun h hne => heven h (fun e => hne (by rw [e]))⟩
  | true =>
    obtain ⟨hle, heven⟩ := nearestMag_isNearest n hd 0
    have zero : |((magUnits 0 * d : Nat) : Int) - n| = n := by simp [magUnits]
    have far : |-((magUnits (F32.mag y) : Nat) : Int) * d - n| = ((magUnits (F32.mag y) * d : Nat) : Int) + n := by
      rw [show -((magUnits (F32.mag y) : Nat) : Int) * d - n = -(((magUnits (F32.mag y) * d : Nat) : Int) + n) by
        push_cast; ring, abs_neg, abs_of_nonneg (by omega)]
    rw [zero] at hle heven
    simp only [if_true]
    rw [far]
    refine ⟨by omega, fun h hne => heven (by omega) (fun e => hne ?_)⟩
    have hy : magUnits (F32.mag y) * d = 0 := by omega
    rw [← e, (Nat.mul_eq_zero.mp hy).resolve_right (by omega)]
    simp [magUnits]

/-! ## Overflow -/

/-- The largest finite magnitude and infinity's bits, in units; rounding overflows from the midpoint between them on. -/
theorem magUnits_at_overflow : magUnits (F32.infMag - 1) = 2 ^ 277 - 2 ^ 253 ∧ magUnits F32.infMag = 2 ^ 277 := by
  decide +kernel

theorem nearestMag_lt_infMag_iff (n : Nat) {d : Nat} (hd : 0 < d) :
    nearestMag n d < F32.infMag ↔ n < (2 ^ 277 - 2 ^ 252) * d := by
  obtain ⟨hlast, hinf⟩ := magUnits_at_overflow
  have odd : (F32.infMag - 1) % 2 = 1 := by decide
  constructor
  · intro h
    obtain ⟨hmid, heven⟩ := le_midpoint_of_nearestMag_lt hd h
    rw [hinf] at hmid heven
    rcases Nat.eq_or_lt_of_le (Nat.le_sub_one_of_lt h) with e | h'
    · rw [e, hlast] at hmid heven
      omega
    · have hu := Nat.mul_lt_mul_of_pos_right (magUnits_strictMono h') hd
      rw [hlast] at hu
      omega
  · intro h
    by_contra hc
    have hmid := (midpoint_le_of_lt_nearestMag (n := n) (m := F32.infMag - 1) hd (by omega)).1
    have hu : magUnits F32.infMag * d ≤ magUnits (nearestMag n d) * d :=
      Nat.mul_le_mul_right _ (magUnits_strictMono.monotone (by omega))
    rw [hlast] at hmid
    rw [hinf] at hu
    omega

theorem roundMag_le (n d : Nat) : roundMag n d ≤ F32.infMag := Nat.min_le_right _ _

theorem roundMag_lt_two_pow (n d : Nat) : roundMag n d < 2 ^ 31 := lt_of_le_of_lt (roundMag_le n d) (by decide)

theorem roundMag_eq_infMag {n d : Nat} (hd : 0 < d) (h : (2 ^ 277 - 2 ^ 252) * d ≤ n) : roundMag n d = F32.infMag := by
  have := (nearestMag_lt_infMag_iff n hd).not.mpr (by omega)
  rw [roundMag_eq_min]
  omega

theorem roundMag_eq_nearestMag {n d : Nat} (hd : 0 < d) (h : n < (2 ^ 277 - 2 ^ 252) * d) :
    roundMag n d = nearestMag n d ∧ nearestMag n d < F32.infMag := by
  have := (nearestMag_lt_infMag_iff n hd).mpr h
  rw [roundMag_eq_min]
  omega

/-! ## `rne32` -/

/-- The number of units of `2^-149` in `q` is `unitsNum q / q.den`. -/
def unitsNum (q : Rat) : Nat := q.num.natAbs * 2 ^ 149

theorem rne32_eq_pack (q : Rat) : rne32 q = F32.pack (decide (q < 0)) (roundMag (unitsNum q) q.den) := rfl

@[simp] theorem mag_rne32 (q : Rat) : F32.mag (rne32 q) = roundMag (unitsNum q) q.den :=
  F32.mag_pack _ (roundMag_lt_two_pow _ _)

@[simp] theorem neg_rne32 (q : Rat) : F32.neg (rne32 q) = decide (q < 0) := F32.neg_pack _ (roundMag_lt_two_pow _ _)

theorem abs_eq_unitsNum_div (q : Rat) : |q| = (unitsNum q : Rat) / q.den / 2 ^ 149 := by
  have hq : |q| = (q.num.natAbs : Rat) / q.den := by
    conv_lhs => rw [← Rat.num_div_den q, abs_div, Nat.abs_cast, ← Int.cast_abs, Int.abs_eq_natAbs, Int.cast_natCast]
  rw [hq, unitsNum, Nat.cast_mul, mul_div_right_comm, Nat.cast_pow, Nat.cast_ofNat, mul_div_assoc, div_self (by positivity),
    mul_one]

/-- The limit of R11 on `|q|`, as a limit on the units. -/
theorem abs_lt_limit_iff (q : Rat) :
    |q| < 2 ^ 128 - 2 ^ 103 ↔ unitsNum q < (2 ^ 277 - 2 ^ 252) * q.den := by
  have hd : (0 : Rat) < q.den := by exact_mod_cast q.den_pos
  rw [abs_eq_unitsNum_div, div_lt_iff₀ (by positivity), div_lt_iff₀ hd, ← Nat.cast_lt (α := Rat)]
  have e : ((2 : Rat) ^ 128 - 2 ^ 103) * 2 ^ 149 = ((2 ^ 277 - 2 ^ 252 : Nat) : Rat) := by
    rw [Nat.cast_sub (Nat.pow_le_pow_right (by decide) (by decide)), sub_mul, ← pow_add, ← pow_add]
    simp only [Nat.cast_pow, Nat.cast_ofNat]
  rw [e, Nat.cast_mul]

theorem isInf_rne32 {q : Rat} (h : 2 ^ 128 - 2 ^ 103 ≤ |q|) : F32.isInf (rne32 q) = true := by
  have := (abs_lt_limit_iff q).not.mp (not_lt.mpr h)
  simp [F32.isInf, roundMag_eq_infMag q.den_pos (not_lt.mp this)]

theorem isFinite_rne32 {q : Rat} (h : |q| < 2 ^ 128 - 2 ^ 103) : F32.isFinite (rne32 q) = true := by
  obtain ⟨e, hlt⟩ := roundMag_eq_nearestMag q.den_pos ((abs_lt_limit_iff q).mp h)
  simpa [F32.isFinite, e] using hlt

@[simp] theorem toRat_negate (x : F32) : F32.toRat (F32.negate x) = -F32.toRat x := by
  simp [F32.toRat, neg_div]

theorem rne32_neg {q : Rat} (hq : q ≠ 0) : rne32 (-q) = F32.negate (rne32 q) := by
  rw [F32.ext_iff']
  refine ⟨?_, by simp [unitsNum]⟩
  rcases lt_or_gt_of_ne hq with h | h <;> simp [h, not_lt_of_gt h]

/-- `r` is nearest to `q` among the finite values of the format, and of two nearest ones the even one (R11). -/
def IsNearestEven (q : Rat) (r : F32) : Prop :=
  ∀ y, F32.isFinite y = true →
    |F32.toRat r - q| ≤ |F32.toRat y - q| ∧
      (|F32.toRat r - q| = |F32.toRat y - q| → F32.toRat y ≠ F32.toRat r → F32.mag r % 2 = 0)

theorem isNearestEven_neg {q : Rat} {r : F32} (h : IsNearestEven q r) : IsNearestEven (-q) (F32.negate r) := by
  intro y hy
  obtain ⟨hle, heven⟩ := h (F32.negate y) (by simpa using hy)
  have hr : |F32.toRat (F32.negate r) - -q| = |F32.toRat r - q| := by
    rw [toRat_negate, ← abs_neg]; ring_nf
  have hyq : |F32.toRat y - -q| = |F32.toRat (F32.negate y) - q| := by
    rw [toRat_negate, ← abs_neg]; ring_nf
  rw [hr, hyq, F32.mag_negate]
  exact ⟨hle, fun e hne => heven e (fun e' => hne (by rw [toRat_negate, ← e', toRat_negate, neg_neg]))⟩

/-- The distance to a nonnegative `q`, in units over the denominator of `q`. -/
theorem abs_toRat_sub {q : Rat} (hq : 0 ≤ q) (y : F32) :
    |F32.toRat y - q| = ((|F32.signedUnits y * q.den - unitsNum q| : Int) : Rat) / (q.den * 2 ^ 149) := by
  have hd : (0 : Rat) < q.den := by exact_mod_cast q.den_pos
  have e : F32.toRat y - q = ((F32.signedUnits y * q.den - unitsNum q : Int) : Rat) / (q.den * 2 ^ 149) := by
    conv_lhs => rw [← abs_of_nonneg hq, abs_eq_unitsNum_div, F32.toRat]
    push_cast
    field_simp
  rw [e, abs_div, abs_of_pos (by positivity : (0 : Rat) < q.den * 2 ^ 149), Int.cast_abs]

theorem isNearestEven_rne32_of_nonneg {q : Rat} (hq : 0 ≤ q) (h : |q| < 2 ^ 128 - 2 ^ 103) :
    IsNearestEven q (rne32 q) := by
  intro y _
  obtain ⟨e, _⟩ := roundMag_eq_nearestMag q.den_pos ((abs_lt_limit_iff q).mp h)
  have hu : F32.signedUnits (rne32 q) = magUnits (nearestMag (unitsNum q) q.den) := by
    simp [F32.signedUnits, units_eq_magUnits, not_lt.mpr hq, e]
  obtain ⟨hle, heven⟩ := nearestMag_isNearest_signed (unitsNum q) q.den_pos y
  have hd : (0 : Rat) < q.den * 2 ^ 149 := mul_pos (by exact_mod_cast q.den_pos) (by positivity)
  rw [abs_toRat_sub hq, abs_toRat_sub hq, hu, mag_rne32, e, ← Nat.cast_mul]
  refine ⟨div_le_div_of_nonneg_right (by exact_mod_cast hle) hd.le, fun heq hne => heven ?_ (fun hy => hne ?_)⟩
  · exact_mod_cast (div_left_inj' hd.ne').mp heq
  · rw [F32.toRat, F32.toRat, hy, hu]

theorem isNearestEven_rne32 {q : Rat} (h : |q| < 2 ^ 128 - 2 ^ 103) : IsNearestEven q (rne32 q) := by
  rcases le_or_gt 0 q with hq | hq
  · exact isNearestEven_rne32_of_nonneg hq h
  · have hpos := isNearestEven_neg (isNearestEven_rne32_of_nonneg (q := -q) (by linarith) (by rwa [abs_neg]))
    rwa [← rne32_neg (by linarith [neg_pos.mpr hq] : -q ≠ 0), neg_neg] at hpos

/-- Settles O43: `roundMag` takes the nearer of the two magnitudes around `q`, the even one in a tie. -/
theorem rne32IsNearestEven : Obligations.Rne32IsNearestEven := by
  intro q
  exact ⟨fun h => by simp [h], fun h => by simp [not_lt.mpr h],
    fun h => ⟨isFinite_rne32 h, isNearestEven_rne32 h⟩, isInf_rne32⟩

end Sys2Proof.Machine
end

section
/-!
PROOFS. 00_scope.md R10, R13: one rounding per operation, the signs of exact zeros, infinities and NaNs, and `clamp`.
-/

namespace Sys2Proof.Machine

/-! ## Finite operands -/

theorem pack_zero (s : Bool) : F32.pack s 0 = if s then 0x80000000 else 0 := by cases s <;> rfl

theorem eq_negZero_iff (x : F32) : x = 0x80000000 ↔ F32.neg x = true ∧ F32.mag x = 0 := F32.ext_iff'

theorem eq_zero_iff (x : F32) : x = 0 ↔ F32.neg x = false ∧ F32.mag x = 0 := F32.ext_iff'

theorem negate_eq_negZero_iff (x : F32) : F32.negate x = 0x80000000 ↔ x = 0 := by
  rw [eq_negZero_iff, eq_zero_iff]
  simp

theorem addAs_of_finite (n : Nat) (op : FloatOp) {a b : F32} (c : F32) (ha : F32.isFinite a = true)
    (hb : F32.isFinite b = true) : addAs n op a b c = addFinite a b := by
  simp [addAs, F32.isNaN_of_finite ha, F32.isNaN_of_finite hb, F32.isInf_of_finite ha, F32.isInf_of_finite hb]

theorem mul32_of_finite (n : Nat) {a b : F32} (ha : F32.isFinite a = true) (hb : F32.isFinite b = true) :
    mul32 n a b = F32.pack (F32.neg a != F32.neg b) (roundMag (F32.units a * F32.units b) (2 ^ 149)) := by
  simp [mul32, F32.isNaN_of_finite ha, F32.isNaN_of_finite hb, F32.isInf_of_finite ha, F32.isInf_of_finite hb]

theorem toRat_add_eq (a b : F32) :
    F32.toRat a + F32.toRat b = ((F32.signedUnits a + F32.signedUnits b : Int) : Rat) / (1 : Nat) / 2 ^ 149 := by
  simp only [F32.toRat, Int.cast_add, Nat.cast_one, div_one]
  ring

theorem toRat_mul_eq (a b : F32) :
    F32.toRat a * F32.toRat b = ((F32.signedUnits a * F32.signedUnits b : Int) : Rat) / (2 ^ 149 : Nat) / 2 ^ 149 := by
  simp only [F32.toRat, Int.cast_mul, Nat.cast_pow, Nat.cast_ofNat]
  ring

theorem toRat_add_eq_zero_iff {a b : F32} :
    F32.toRat a + F32.toRat b = 0 ↔ F32.signedUnits a + F32.signedUnits b = 0 := by
  rw [toRat_add_eq, div_eq_zero_iff, div_eq_zero_iff, Int.cast_eq_zero]
  simp

theorem toRat_mul_eq_zero_iff {a b : F32} :
    F32.toRat a * F32.toRat b = 0 ↔ F32.signedUnits a * F32.signedUnits b = 0 := by
  rw [toRat_mul_eq, div_eq_zero_iff, div_eq_zero_iff, Int.cast_eq_zero]
  simp

theorem addFinite_of_ne_zero {a b : F32} (h : F32.toRat a + F32.toRat b ≠ 0) :
    addFinite a b = rne32 (F32.toRat a + F32.toRat b) := by
  have hz := toRat_add_eq_zero_iff.not.mp h
  rw [toRat_add_eq, rne32_units _ 1 Nat.one_pos, addFinite, if_neg hz]

/-- An exact zero is `-0.0` only as the sum of two negative zeros: two negative operands with sum zero are zeros. -/
theorem addFinite_of_eq_zero {a b : F32} (h : F32.toRat a + F32.toRat b = 0) :
    addFinite a b = if a = 0x80000000 ∧ b = 0x80000000 then 0x80000000 else 0 := by
  have hz : F32.signedUnits a + F32.signedUnits b = 0 := toRat_add_eq_zero_iff.mp h
  have ha := @F32.units_eq_zero a
  have hb := @F32.units_eq_zero b
  have hs : (F32.neg a && F32.neg b) = true ↔ a = 0x80000000 ∧ b = 0x80000000 := by
    rw [eq_negZero_iff, eq_negZero_iff, Bool.and_eq_true]
    unfold F32.signedUnits at hz
    constructor
    · rintro ⟨na, nb⟩
      simp only [na, nb, if_true] at hz
      exact ⟨⟨na, by omega⟩, nb, by omega⟩
    · rintro ⟨⟨na, _⟩, nb, _⟩
      exact ⟨na, nb⟩
  rw [addFinite, if_pos hz, pack_zero]
  simp only [hs]

theorem signedUnits_mul (a b : F32) :
    F32.signedUnits a * F32.signedUnits b =
      if (F32.neg a != F32.neg b) = true then -((F32.units a * F32.units b : Nat) : Int)
      else (F32.units a * F32.units b : Nat) := by
  unfold F32.signedUnits
  cases F32.neg a <;> cases F32.neg b <;> simp

/-- A product that is not zero is negative exactly if the signs differ. -/
theorem signedUnits_mul_neg_iff {a b : F32} (h : F32.signedUnits a * F32.signedUnits b ≠ 0) :
    F32.signedUnits a * F32.signedUnits b < 0 ↔ (F32.neg a != F32.neg b) = true := by
  rw [signedUnits_mul] at h ⊢
  split at h
  · next hs =>
    rw [if_pos hs]
    exact ⟨fun _ => hs, fun _ => by omega⟩
  · next hs =>
    rw [if_neg hs]
    exact ⟨fun hlt => absurd hlt (by omega), fun hs' => absurd hs' hs⟩

theorem natAbs_signedUnits (x : F32) : (F32.signedUnits x).natAbs = F32.units x := by
  unfold F32.signedUnits
  split <;> simp

theorem mul32_of_ne_zero (n : Nat) {a b : F32} (ha : F32.isFinite a = true) (hb : F32.isFinite b = true)
    (h : F32.toRat a * F32.toRat b ≠ 0) : mul32 n a b = rne32 (F32.toRat a * F32.toRat b) := by
  have hz := toRat_mul_eq_zero_iff.not.mp h
  rw [toRat_mul_eq, rne32_units _ _ (by positivity), mul32_of_finite n ha hb, Int.natAbs_mul, natAbs_signedUnits,
    natAbs_signedUnits]
  simp only [signedUnits_mul_neg_iff hz, Bool.decide_eq_true]

theorem roundMag_zero (d : Nat) : roundMag 0 d = 0 := by simp [roundMag]

theorem mul32_of_eq_zero (n : Nat) {a b : F32} (ha : F32.isFinite a = true) (hb : F32.isFinite b = true)
    (h : F32.toRat a * F32.toRat b = 0) : mul32 n a b = if F32.neg a = F32.neg b then 0 else 0x80000000 := by
  have hz : F32.signedUnits a * F32.signedUnits b = 0 := toRat_mul_eq_zero_iff.mp h
  have hu : F32.units a * F32.units b = 0 := by
    rw [← natAbs_signedUnits a, ← natAbs_signedUnits b, ← Int.natAbs_mul, hz]
    rfl
  rw [mul32_of_finite n ha hb, hu, roundMag_zero, pack_zero]
  cases F32.neg a <;> cases F32.neg b <;> rfl

/-- Settles O44: each operation works on exact units and rounds once; subtraction is addition of the negated operand. -/
theorem arithmeticRoundsOnce : Obligations.ArithmeticRoundsOnce := by
  intro n a b ha hb
  have hb' : F32.isFinite (F32.negate b) = true := by simpa using hb
  have hadd : add32 n a b = addFinite a b := addAs_of_finite n .add b ha hb
  have hsub : sub32 n a b = addFinite a (F32.negate b) := addAs_of_finite n .sub b ha hb'
  have hdiff : F32.toRat a - F32.toRat b = F32.toRat a + F32.toRat (F32.negate b) := by
    rw [toRat_negate, sub_eq_add_neg]
  rw [hadd, hsub, hdiff]
  refine ⟨addFinite_of_ne_zero, addFinite_of_eq_zero, addFinite_of_ne_zero, fun h => ?_, mul32_of_ne_zero n ha hb,
    mul32_of_eq_zero n ha hb⟩
  rw [addFinite_of_eq_zero h]
  simp only [negate_eq_negZero_iff]

/-! ## Infinities and NaNs -/

@[simp] theorem isNaN_nanResult (n : Nat) (op : FloatOp) (a b : F32) : F32.isNaN (nanResult n op a b) = true := by
  unfold nanResult
  split
  · assumption
  · decide

theorem mag_of_isInf {x : F32} (h : F32.isInf x = true) : F32.mag x = F32.infMag := by simpa [F32.isInf] using h

theorem isNaN_of_isInf {x : F32} (h : F32.isInf x = true) : F32.isNaN x = false := by
  simp [F32.isNaN, mag_of_isInf h]

theorem isNaN_addAs (n : Nat) (op : FloatOp) {a b : F32} (c : F32) (h : F32.isNaN a = true ∨ F32.isNaN b = true) :
    F32.isNaN (addAs n op a b c) = true := by
  rw [addAs, if_pos (by simpa using h), isNaN_nanResult]

theorem isNaN_mul32 (n : Nat) {a b : F32} (h : F32.isNaN a = true ∨ F32.isNaN b = true) :
    F32.isNaN (mul32 n a b) = true := by
  rw [mul32, if_pos (by simpa using h), isNaN_nanResult]

theorem addAs_inf_left (n : Nat) (op : FloatOp) {a b : F32} (c : F32) (ha : F32.isInf a = true)
    (hb : F32.isFinite b = true) : addAs n op a b c = a := by
  simp [addAs, isNaN_of_isInf ha, F32.isNaN_of_finite hb, ha, F32.isInf_of_finite hb]

theorem addAs_inf_right (n : Nat) (op : FloatOp) {a b : F32} (c : F32) (ha : F32.isFinite a = true)
    (hb : F32.isInf b = true) : addAs n op a b c = b := by
  simp [addAs, isNaN_of_isInf hb, F32.isNaN_of_finite ha, hb, F32.isInf_of_finite ha]

theorem addAs_inf_self (n : Nat) (op : FloatOp) {a : F32} (c : F32) (ha : F32.isInf a = true) :
    addAs n op a a c = a := by
  simp [addAs, isNaN_of_isInf ha, ha]

/-- The difference of two infinities of one sign. -/
theorem isNaN_addAs_inf_negate (n : Nat) (op : FloatOp) {a : F32} (c : F32) (ha : F32.isInf a = true) :
    F32.isNaN (addAs n op a (F32.negate a) c) = true := by
  simp [addAs, isNaN_of_isInf ha, ha]

theorem isNaN_mul32_inf_zero (n : Nat) {a b : F32} (ha : F32.isInf a = true) (hb : F32.mag b = 0) :
    F32.isNaN (mul32 n a b) = true ∧ F32.isNaN (mul32 n b a) = true := by
  have nb : F32.isNaN b = false := by simp [F32.isNaN, hb]
  simp [mul32, isNaN_of_isInf ha, nb, ha, hb]

theorem mul32_inf (n : Nat) {a b : F32} (h : F32.isInf a = true ∨ F32.isInf b = true) (ha : F32.isNaN a = false)
    (hb : F32.isNaN b = false) (za : F32.mag a ≠ 0) (zb : F32.mag b ≠ 0) :
    mul32 n a b = if F32.neg a = F32.neg b then 0x7F800000 else 0xFF800000 := by
  have hinf : (F32.isInf a || F32.isInf b) = true := by simpa using h
  rw [mul32, ha, hb, hinf]
  simp only [za, zb, decide_false, Bool.or_self, Bool.false_eq_true, if_false, if_true]
  cases F32.neg a <;> cases F32.neg b <;> rfl

/-- Settles O45, clause by clause from what `addAs` and `mul32` give on an infinity or a NaN. -/
theorem arithmeticOnInfinitiesAndNaNs : Obligations.ArithmeticOnInfinitiesAndNaNs := by
  intro n a b
  have inf_negate : F32.isInf a = true → F32.isInf (F32.negate a) = true := fun ha => by simpa using ha
  refine ⟨fun h => ⟨isNaN_addAs n .add b h, isNaN_addAs n .sub b (by simpa using h), isNaN_mul32 n h⟩,
    fun ha hb => ⟨addAs_inf_left n .add b ha hb, addAs_inf_right n .add a hb ha,
      addAs_inf_left n .sub b ha (by simpa using hb), addAs_inf_right n .sub a hb (inf_negate ha)⟩,
    fun ha => ⟨addAs_inf_self n .add a ha, ?_, isNaN_addAs_inf_negate n .add _ ha, isNaN_addAs_inf_negate n .sub a ha⟩,
    isNaN_mul32_inf_zero n, fun ha nb zb => ?_⟩
  · rw [sub32, F32.negate_negate]
    exact addAs_inf_self n .sub _ ha
  · have na := isNaN_of_isInf ha
    have za : F32.mag a ≠ 0 := by rw [mag_of_isInf ha]; decide
    rw [mul32_inf n (.inl ha) na nb za zb, mul32_inf n (.inr ha) nb na zb za]
    exact ⟨rfl, by simp only [eq_comm]⟩

/-! ## `clamp` -/

theorem clamp_of_below {x lo hi : F32} (h : F32.isNaN x = true ∨ below x lo) : clamp x lo hi = lo := by
  rw [← F32.lt_iff_below] at h
  rw [clamp, if_pos (by simpa using h)]

theorem clamp_of_not_below {x lo hi : F32} (hx : F32.isNaN x = false) (h : ¬ below x lo) :
    clamp x lo hi = if F32.lt hi x then hi else x := by
  rw [← F32.lt_iff_below] at h
  rw [clamp, if_neg (by simpa [hx] using h)]

theorem clamp_of_between {x lo hi : F32} (hx : F32.isNaN x = false) (hlo : ¬ below x lo) (hhi : ¬ below hi x) :
    clamp x lo hi = x := by
  rw [clamp_of_not_below hx hlo, if_neg (by rwa [F32.lt_iff_below])]

/-- Settles O46: the order `clamp` tests is `below`; `-0.0` is not below `+0.0`. -/
theorem clampIsAsStated : Obligations.ClampIsAsStated := by
  intro x lo hi
  have zeros : ¬ below 0x80000000 0x00000000 := by
    rw [← F32.lt_iff_below]
    decide
  refine ⟨clamp_of_below, fun hx hlo hhi => ?_, clamp_of_between, clamp_of_between (by decide) zeros⟩
  rw [clamp_of_not_below hx hlo, if_pos ((F32.lt_iff_below hi x).mpr hhi)]

end Sys2Proof.Machine
end

section
/-!
PROOFS. 00_scope.md R15, 60_exceptions.md R300, R305: every command answers a next state, and it succeeds or it reports a
listed error and changes nothing else. A command is a chain of checks; one lemma for a check and one for a success
carry the whole command set.
-/

namespace Sys2Proof.Machine

/-! ## What an outcome may be -/

/-- The command has succeeded: a module port reports 0, and STATUS keeps what it recorded. -/
def Succeeded (i : Instr) (s t : State) : Prop :=
  if i.cls = .rev then t.rev.err = s.rev.err ∧ t.rev.errcode = s.rev.errcode else t.portErr i.cls = 0

/-- The command has reported this error and changed nothing else. -/
def Reported (i : Instr) (s t : State) (e : Err) : Prop :=
  t.portErr i.cls = e.code ∧ onlyResults s t i.cls ∧ sameMemory s t

/-- The outcome is a next state, of a success or of a listed error. -/
def Answers (i : Instr) (s : State) (o : Out) : Prop :=
  ∃ t, o = .next t ∧ (Succeeded i s t ∨ ∃ e, e ∈ raises i ∧ Reported i s t e)

/-- A command of a class fails. -/
def State.failAt (s : State) (e : Err) : Class → State
  | .dl => s.failDl e
  | .rrs => s.failRrs e
  | .had => s.failHad e
  | .dvn => s.failDvn e
  | .diff => s.failDiff e
  | .fdn => s.failFdn e
  | .rev => s.failRev e

theorem portErr_failAt (s : State) (e : Err) (c : Class) : (s.failAt e c).portErr c = e.code := by cases c <;> rfl

theorem onlyResults_failAt (s : State) (e : Err) (c : Class) : onlyResults s (s.failAt e c) c := by cases c <;> rfl

theorem sameMemory_failAt (s : State) (e : Err) (c : Class) : sameMemory s (s.failAt e c) := by
  cases c <;> exact sameMemory_of rfl rfl

theorem Answers.fail {i : Instr} {e : Err} (he : e ∈ raises i) (s : State) : Answers i s (.next (s.failAt e i.cls)) :=
  ⟨_, rfl, .inr ⟨e, he, portErr_failAt s e i.cls, onlyResults_failAt s e i.cls, sameMemory_failAt s e i.cls⟩⟩

theorem Answers.ok {i : Instr} {s t : State} (h : Succeeded i s t) : Answers i s (.next t) := ⟨t, rfl, .inl h⟩

/-- A check that fails with a listed error, and what follows it. -/
theorem Answers.check {i : Instr} {s : State} {e : Err} {p : Prop} [Decidable p] {o : Out} (he : e ∈ raises i)
    (ho : Answers i s o) : Answers i s (if p then .next (s.failAt e i.cls) else o) := by
  split
  · exact Answers.fail he s
  · exact ho

/-- The outcome of a command whose checks are one function: its error, or a next state. -/
def State.failOr (s : State) (c : Class) (err : Option Err) (t : State) : Out :=
  match err with
  | some e => .next (s.failAt e c)
  | none => .next t

theorem Answers.failOr {i : Instr} {s t : State} {err : Option Err} (herr : ∀ {e}, err = some e → e ∈ raises i)
    (h : Succeeded i s t) : Answers i s (s.failOr i.cls err t) := by
  cases err with
  | some e => exact Answers.fail (herr rfl) s
  | none => exact Answers.ok h

/-! ## The checks of the configuring commands -/

theorem Dl.cfgError_mem {m maxblk : Nat} {e : Err} (h : Dl.cfgError m maxblk = some e) : e ∈ raises .dlCfg := by
  unfold Dl.cfgError at h
  split_ifs at h <;> cases h <;> decide

theorem Rrs.cfgError_mem {width : Nat} {eps : F32} {e : Err} (h : Rrs.cfgError width eps = some e) :
    e ∈ raises .rrsCfg := by
  unfold Rrs.cfgError at h
  split_ifs at h <;> cases h <;> decide

theorem hadError_mem {n : Nat} {e : Err} (h : hadError n = some e) : e ∈ raises .hadMix := by
  unfold hadError at h
  split_ifs at h <;> cases h <;> decide

theorem DvnArgs.error_mem {a : DvnArgs} {draws need : Nat} {e : Err} (h : a.error draws need = some e) :
    e ∈ raises .dvnCfg := by
  unfold DvnArgs.error at h
  split_ifs at h <;> cases h <;> decide

theorem Diff.cfgError_mem {ch : Nat} {a : DvnArgs} {draws : Nat} {e : Err} (h : Diff.cfgError ch a draws = some e) :
    e ∈ raises .diffCfg := by
  unfold Diff.cfgError at h
  split_ifs at h
  · cases h; decide
  · cases h; decide
  · exact DvnArgs.error_mem h

theorem Fdn.cfgError_mem {prm : Params} {n lb fs maxblk draws : Nat} {e : Err}
    (h : Fdn.cfgError prm n lb fs maxblk draws = some e) : e ∈ raises .fdnCfg := by
  unfold Fdn.cfgError at h
  split_ifs at h <;> cases h <;> decide

/-- An FDN stage of REV has 8 lines, so that NOT_POW2 cannot come up (R263). -/
theorem stageFdnError_mem {prm : Params} {ms : Rat} {fs mb : Nat} {e : Err} (h : stageFdnError prm ms fs mb = some e) :
    e ∈ raises .revSetup := by
  unfold stageFdnError Fdn.cfgError at h
  split_ifs at h with _ hpow
  · cases h; decide
  · exact absurd (by decide) hpow
  · cases h; decide
  · cases h; decide

theorem Rev.setupError_mem {prm : Params} {fs mb : Nat} {e : Err} (h : Rev.setupError prm fs mb = some e) :
    e ∈ raises .revSetup := by
  unfold Rev.setupError at h
  split_ifs at h
  · cases h; decide
  · cases h; decide
  · cases h; decide
  · cases h; decide
  · simp only [Option.or_eq_some_iff] at h
    rcases h with h | ⟨_, h | ⟨_, h | ⟨_, h | ⟨_, h⟩⟩⟩⟩
    · exact Diff.cfgError_mem h
    · exact stageFdnError_mem h
    · exact Diff.cfgError_mem h
    · exact stageFdnError_mem h
    · exact Diff.cfgError_mem h

theorem Rev.processError_mem {r : Rev} {e : Err} (h : r.processError = some e) : e ∈ raises .revProcess := by
  unfold Rev.processError at h
  split_ifs at h <;> cases h <;> decide

/-- Whether DVN.PULSE finds its pulse or not, it reports no error. -/
theorem Dvn.pulseResult_err (draw : Nat) (d : Dvn) (i : Nat) : (d.pulseResult draw i).err = 0 := by
  unfold Dvn.pulseResult
  split <;> rfl

/-! ## The commands -/

/-- Every command is a chain of checks with listed errors and then a success. -/
theorem exec_answers (i : Instr) (s : State) : Answers i s (exec i s) := by
  cases i with
  | dlCfg => exact Answers.failOr Dl.cfgError_mem rfl
  | rrsCfg => exact Answers.failOr Rrs.cfgError_mem rfl
  | hadMix => exact Answers.failOr hadError_mem rfl
  | dvnCfg => exact Answers.failOr DvnArgs.error_mem rfl
  | diffCfg => exact Answers.failOr Diff.cfgError_mem rfl
  | fdnCfg => exact Answers.failOr Fdn.cfgError_mem rfl
  | revSetup => exact Answers.failOr Rev.setupError_mem ⟨rfl, rfl⟩
  | revProcess => exact Answers.failOr Rev.processError_mem ⟨rfl, rfl⟩
  | revNop => exact Answers.ok ⟨rfl, rfl⟩
  | dlRdm | dlWr | dlProc | rrsProc => exact Answers.check (e := .notConfigured) (by decide) (Answers.ok rfl)
  | dlRd | dlWrb | dlProcb | rrsProcb | dvnProcb | diffProcb | fdnProcb =>
    exact Answers.check (e := .notConfigured) (by decide) (Answers.check (e := .bounds) (by decide) (Answers.ok rfl))
  | dlRdb =>
    exact Answers.check (e := .notConfigured) (by decide)
      (Answers.check (e := .bounds) (by decide) (Answers.check (e := .bounds) (by decide) (Answers.ok rfl)))
  | rrsSeteps =>
    exact Answers.check (e := .notConfigured) (by decide) (Answers.check (e := .invalidArg) (by decide) (Answers.ok rfl))
  | dvnPulse =>
    exact Answers.check (e := .notConfigured) (by decide)
      (Answers.check (e := .bounds) (by decide) (Answers.ok (Dvn.pulseResult_err _ _ _)))

/-- Settles O59, which is `exec_answers` with its vocabulary unfolded. -/
theorem errorsAreListedAndPrecise : Obligations.ErrorsAreListedAndPrecise := fun i s => exec_answers i s

end Sys2Proof.Machine
end

section
/-!
PROOFS. 10_state.md R45-R52, R36: what every step keeps. One relation, `Ends`, says what a command may do to its module
and its port, and another, `Took`, what a statement of the host may do; the frames of the commands, the invariant and the
stickiness of CONFIGURED follow from the two.
-/

namespace Sys2Proof.Machine

/-! ## IOBUF stays in canonical form and inside its offsets -/

/-- A canonical store that lists offsets of IOBUF alone: `State.iobufOk` of the memory. -/
def Memory.inBounds (m : Memory) : Prop := m.wf ∧ ∀ c ∈ m, inIobuf c.1

theorem Memory.inBounds_writeByte {m : Memory} (h : m.inBounds) {a : Nat} (ha : inIobuf a) (b : Byte) :
    (m.writeByte a b).inBounds := by
  refine ⟨Memory.wf_writeByte h.1 a b, fun c hc => ?_⟩
  rcases mem_storeInsert hc with rfl | hc
  · exact ha
  · exact h.2 c hc

theorem Memory.inBounds_writeWord {m : Memory} (h : m.inBounds) {a : Nat} (ha : iobufOffsetOk a) (v : Word) :
    (m.writeWord a v).inBounds := by
  obtain ⟨hlo, hhi, halign⟩ := ha
  have inside : ∀ k, k < 4 → inIobuf (a + k) := fun k hk => by constructor <;> omega
  exact Memory.inBounds_writeByte (Memory.inBounds_writeByte (Memory.inBounds_writeByte
    (Memory.inBounds_writeByte h (inside 0 (by decide)) _) (inside 1 (by decide)) _) (inside 2 (by decide)) _)
    (inside 3 (by decide)) _

theorem iobufOffsetOk_iobufOffset {c i : Nat} (hc : c < Config.cMax) (hi : i < Config.maxblkCap) :
    iobufOffsetOk (iobufOffset c i) := by
  unfold iobufOffsetOk iobufOffset Config.cMax Config.maxblkCap at *
  omega

theorem Memory.inBounds_writeSamples {m : Memory} (h : m.inBounds) {c i : Nat} {xs : List F32} (hc : c < Config.cMax)
    (hi : i + xs.length ≤ Config.maxblkCap) : (m.writeSamples c i xs).inBounds := by
  induction xs generalizing m i with
  | nil => exact h
  | cons x xs ih =>
    rw [List.length_cons] at hi
    exact ih (Memory.inBounds_writeWord h (iobufOffsetOk_iobufOffset hc (by omega)) x) (by omega)

theorem Memory.inBounds_writeChannels {m : Memory} (h : m.inBounds) {c : Nat} {bufs : List (List F32)}
    (hc : c + bufs.length ≤ Config.cMax) (hb : ∀ b ∈ bufs, b.length ≤ Config.maxblkCap) :
    (m.writeChannels c bufs).inBounds := by
  induction bufs generalizing m c with
  | nil => exact h
  | cons xs rest ih =>
    rw [List.length_cons] at hc
    have hxs : 0 + xs.length ≤ Config.maxblkCap := by simpa using hb xs (by simp)
    exact ih (Memory.inBounds_writeSamples h (by omega) hxs) (by omega) (fun b hb' => hb b (by simp [hb']))

/-! ## The shape of the output block of REV.PROCESS (45_reverb_top.md R273-R275) -/

theorem mem_zipWith_blend_length {draw n : Nat} {mix : F32} {dry wet : List (List F32)} {b : List F32}
    (hw : ∀ w ∈ wet, w.length ≤ n) (h : b ∈ List.zipWith (List.zipWith (blend draw mix)) dry wet) : b.length ≤ n := by
  obtain ⟨i, hi, rfl⟩ := List.mem_iff_getElem.mp h
  rw [List.length_zipWith] at hi
  have := hw wet[i] (List.getElem_mem _)
  simp only [List.getElem_zipWith, List.length_zipWith]
  omega

theorem blendChannels_length_le (draw : Nat) (mix : F32) (dry wet : List (List F32)) :
    (blendChannels draw mix dry wet).length ≤ wet.length := by
  simp only [blendChannels, List.length_append, List.length_zipWith, List.length_take, List.length_drop]
  omega

theorem mem_blendChannels_length {draw n : Nat} {mix : F32} {dry wet : List (List F32)} (hw : ∀ w ∈ wet, w.length ≤ n) :
    ∀ b ∈ blendChannels draw mix dry wet, b.length ≤ n := by
  intro b hb
  rcases List.mem_append.mp hb with hb | hb
  · exact mem_zipWith_blend_length (fun w hm => hw w (List.mem_of_mem_take hm)) hb
  · exact hw b (List.mem_of_mem_drop hb)

@[simp] theorem widen_length (draw : Nat) (width : F32) (bufs : List (List F32)) :
    (widen draw width bufs).length = bufs.length := by
  unfold widen
  split <;> rfl

theorem mem_widen_length {draw n : Nat} {width : F32} {bufs : List (List F32)} (h : ∀ b ∈ bufs, b.length ≤ n) :
    ∀ b ∈ widen draw width bufs, b.length ≤ n := by
  unfold widen
  split
  · next l r =>
    have hl : l.length ≤ n := h l (by simp)
    simp only [List.mem_cons, List.not_mem_nil, or_false, forall_eq_or_imp, forall_eq, List.length_zipWith]
    omega
  · exact h

theorem Rev.process_length_le (draw : Nat) (prm : Params) (r : Rev) (n : Nat) (ins : List (List F32)) :
    (r.process draw prm n ins).1.length ≤ ins.length := by
  refine le_trans (blendChannels_length_le draw r.controls.mix ins _) ?_
  rw [widen_length]
  exact List.length_take_le _ _

theorem Rev.process_mem_length {draw : Nat} {prm : Params} {r : Rev} {n : Nat} {ins : List (List F32)} :
    ∀ b ∈ (r.process draw prm n ins).1, b.length ≤ n :=
  mem_blendChannels_length (mem_widen_length fun _ hb => le_of_eq (Diff.block_mem (List.mem_of_mem_take hb)))

/-! ## What a command may do -/

/-- A code that a port or STATUS may hold: 0, or the code of a cause (60_exceptions.md R301). -/
def codeListed (b : Byte) : Prop := b = 0 ∨ ∃ e : Err, b = e.code

theorem Err.code_le (e : Err) : e.code.toNat ≤ 7 := by cases e <;> decide

theorem Err.code_ne_zero (e : Err) : e.code ≠ 0 := by cases e <;> decide

theorem codeListed.le {b : Byte} (h : codeListed b) : b.toNat ≤ 7 := by
  rcases h with rfl | ⟨e, rfl⟩
  · decide
  · exact e.code_le

/-- The part of `State.codesOk` that speaks of STATUS (10_state.md R36). -/
def Rev.codesOk (r : Rev) : Prop := r.errcode.toNat ≤ 7 ∧ (r.err = false ↔ r.errcode = 0)

theorem Rev.codesOk_setErr (r : Rev) (e : Err) : (r.setErr e).codesOk := 
  ⟨e.code_le, fun h => Bool.noConfusion h, fun h => absurd h e.code_ne_zero⟩

theorem Rev.codesOk_clearErr (r : Rev) : r.clearErr.codesOk := ⟨Nat.zero_le 7, by simp⟩

/-- What a REV command that leaves the registers `r` and the memory `m` may have done to REV and IOBUF. -/
structure RevEnd (s : State) (r : Rev) (m : Memory) : Prop where
  hostRegs : sameHostRegs s.rev r
  configured : s.rev.configured = true → r.configured = true
  wf : s.params.wf = true → s.rev.wf → r.wf
  codes : s.rev.codesOk → r.codesOk
  iobuf : s.rev.wf → s.iobuf.inBounds → m.inBounds

/-- What a command of a class may do: put at its port a code that exists, and leave its own module in range. -/
inductive Ends (s : State) : Class → State → Prop
  | dl (d : Dl) (r : SampleResult) : codeListed r.err → (s.dl.wf → d.wf) → Ends s .dl (s.putDl d r)
  | rrs (f : Rrs) (r : SampleResult) : codeListed r.err → (s.rrs.wf → f.wf) → Ends s .rrs (s.putRrs f r)
  | had (r : FrameResult) : codeListed r.err → Ends s .had (s.putHad r)
  | dvn (d : Dvn) (r : DvnResult) : codeListed r.err → (s.dvn.wf → d.wf) → Ends s .dvn (s.putDvn d r)
  | diff (d : Diff) (r : BlockResult) : codeListed r.err → (s.diff.wf → d.wf) → Ends s .diff (s.putDiff d r)
  | fdn (f : Fdn) (r : BlockResult) :
    codeListed r.err → (s.params.wf = true → s.fdn.wf → f.wf) → Ends s .fdn (s.putFdn f r)
  | rev (r : Rev) (m : Memory) : RevEnd s r m → Ends s .rev (s.finishRev r m)

theorem RevEnd.keep (s : State) : RevEnd s s.rev s.iobuf where
  hostRegs := ⟨rfl, rfl, rfl, rfl, rfl, rfl, rfl, rfl, rfl, rfl, rfl, rfl⟩
  configured := id
  wf := fun _ => id
  codes := id
  iobuf := fun _ => id

theorem RevEnd.fail (s : State) (e : Err) : RevEnd s (s.rev.setErr e) s.iobuf :=
  { RevEnd.keep s with codes := fun _ => Rev.codesOk_setErr s.rev e }

theorem RevEnd.setup {s : State} (h : Rev.setupError s.params s.rev.fs.toNat s.rev.maxblk.toNat = none) :
    RevEnd s (s.rev.setup s.params) s.iobuf :=
  { RevEnd.keep s with
    configured := fun _ => rfl
    wf := fun hp _ => Rev.wf_setup hp h }

theorem RevEnd.process {s : State} (h : s.rev.processError = none) :
    RevEnd s (s.rev.process s.draws s.params s.rev.nlen.toNat s.processInput).2
      (s.iobuf.writeChannels 0 (s.rev.process s.draws s.params s.rev.nlen.toNat s.processInput).1) := by
  obtain ⟨hcfg, _, hch, hlen⟩ := Rev.processError_none h
  have hins : s.processInput.length ≤ Config.cMax := by rw [State.processInput, readBlocks_length]; exact hch
  refine { RevEnd.keep s with wf := fun _ hw => Rev.wf_process hw hcfg _ _ _ hins, iobuf := fun hw hm => ?_ }
  obtain ⟨_, _, _, _, _, hranges⟩ := hw
  obtain ⟨_, _, _, hmb, _⟩ := hranges hcfg
  refine Memory.inBounds_writeChannels hm ?_ fun b hb => ?_
  · have := Rev.process_length_le s.draws s.params s.rev s.rev.nlen.toNat s.processInput
    omega
  · have := Rev.process_mem_length b hb
    omega

/-- A failing command keeps its module and reports its code. -/
theorem Ends.fail (s : State) (e : Err) (c : Class) : Ends s c (s.failAt e c) := by
  cases c with
  | dl => exact .dl s.dl _ (.inr ⟨e, rfl⟩) id
  | rrs => exact .rrs s.rrs _ (.inr ⟨e, rfl⟩) id
  | had => exact .had _ (.inr ⟨e, rfl⟩)
  | dvn => exact .dvn s.dvn _ (.inr ⟨e, rfl⟩) id
  | diff => exact .diff s.diff _ (.inr ⟨e, rfl⟩) id
  | fdn => exact .fdn s.fdn _ (.inr ⟨e, rfl⟩) fun _ => id
  | rev => exact .rev _ _ (RevEnd.fail s e)

/-- The outcome is a next state that a command of the class may end in. -/
def EndsIn (s : State) (c : Class) (o : Out) : Prop := ∃ t, o = .next t ∧ Ends s c t

theorem EndsIn.ok {s t : State} {c : Class} (h : Ends s c t) : EndsIn s c (.next t) := ⟨t, rfl, h⟩

/-- A check that fails the command, and what follows where it does not. -/
theorem EndsIn.check {s : State} {c : Class} {e : Err} {p : Prop} [Decidable p] {o : Out} (h : ¬ p → EndsIn s c o) :
    EndsIn s c (if p then .next (s.failAt e c) else o) := by
  split
  · exact EndsIn.ok (Ends.fail s e c)
  · next hp => exact h hp

/-- The first check of every command that needs a configured module. -/
theorem EndsIn.configured {s : State} {c : Class} {b : Bool} {o : Out} (h : b = true → EndsIn s c o) :
    EndsIn s c (if b = false then .next (s.failAt .notConfigured c) else o) :=
  EndsIn.check fun hb => h (by simpa using hb)

theorem EndsIn.failOr {s t : State} {c : Class} {err : Option Err} (h : err = none → Ends s c t) :
    EndsIn s c (s.failOr c err t) := by
  cases err with
  | some e => exact EndsIn.ok (Ends.fail s e c)
  | none => exact EndsIn.ok (h rfl)

theorem Dl.sized.wf {d : Dl} {m maxblk : Nat} (h : d.sized m maxblk) : d.wf := by
  obtain ⟨_, _, _, hw⟩ := h
  exact hw

theorem Dl.wf_build {m maxblk : Nat} (h : Dl.cfgError m maxblk = none) (g : F32) : (Dl.build m maxblk g).wf := by
  obtain ⟨hm, hb, hc, hd⟩ := Dl.cfgError_none.mp h
  exact (Dl.sized_build hm hb hc hd g).wf

/-- A well-formed line that is configured is sized by its own fields. -/
theorem Dl.wf.sized {d : Dl} (h : d.wf) (hc : d.cfg = true) : d.sized d.m d.maxblk := ⟨hc, rfl, rfl, h⟩

/-- Every command is a chain of checks and then an update of its own module and port. -/
theorem exec_ends (i : Instr) (s : State) : EndsIn s i.cls (exec i s) := by
  cases i with
  | dlCfg => exact EndsIn.failOr fun h => .dl _ _ (.inl rfl) fun _ => Dl.wf_build h _
  | dlRd => exact EndsIn.configured fun _ => EndsIn.check fun _ => EndsIn.ok (.dl _ _ (.inl rfl) id)
  | dlRdm => exact EndsIn.configured fun _ => EndsIn.ok (.dl _ _ (.inl rfl) id)
  | dlWr | dlProc => exact EndsIn.configured fun _ => EndsIn.ok (.dl _ _ (.inl rfl) fun h => Dl.wf_push h _)
  | dlRdb =>
    exact EndsIn.configured fun _ => EndsIn.check fun _ => EndsIn.check fun _ => EndsIn.ok (.dl _ _ (.inl rfl) id)
  | dlWrb =>
    exact EndsIn.configured fun hc => EndsIn.check fun _ =>
      EndsIn.ok (.dl _ _ (.inl rfl) fun h => (Dl.sized_writeBlock (h.sized hc) _).wf)
  | dlProcb =>
    exact EndsIn.configured fun hc => EndsIn.check fun _ =>
      EndsIn.ok (.dl _ _ (.inl rfl) fun h => (Dl.sized_combBlock (h.sized hc) _ _).wf)
  | rrsCfg =>
    refine EndsIn.failOr fun h => .rrs _ _ (.inl rfl) fun _ => ?_
    obtain ⟨hw, he, hc⟩ := Rrs.cfgError_none.mp h
    exact Rrs.wf_build hw he hc
  | rrsSeteps =>
    exact EndsIn.configured fun _ => EndsIn.check fun he =>
      EndsIn.ok (.rrs _ _ (.inl rfl) fun h => Rrs.wf_setEps h (by simpa using he))
  | rrsProc => exact EndsIn.configured fun _ => EndsIn.ok (.rrs _ _ (.inl rfl) fun h => Rrs.push_wf h _ _)
  | rrsProcb =>
    exact EndsIn.configured fun _ => EndsIn.check fun _ =>
      EndsIn.ok (.rrs _ _ (.inl rfl) fun h => Rrs.block_wf h _ _)
  | hadMix => exact EndsIn.failOr fun _ => .had _ (.inl rfl)
  | dvnCfg =>
    refine EndsIn.failOr fun h => .dvn _ _ (.inl rfl) fun _ => Dvn.wf_build h ?_
    obtain ⟨_, _, _, _, _, hdraws, _⟩ := DvnArgs.error_none.mp h
    exact hdraws
  | dvnProcb =>
    exact EndsIn.configured fun hc => EndsIn.check fun _ =>
      EndsIn.ok (.dvn _ _ (.inl rfl) fun h => Dvn.block_wf h hc _ _ _)
  | dvnPulse =>
    exact EndsIn.configured fun _ => EndsIn.check fun _ =>
      EndsIn.ok (.dvn _ _ (.inl (Dvn.pulseResult_err _ _ _)) id)
  | diffCfg =>
    refine EndsIn.failOr fun h => .diff _ _ (.inl rfl) fun _ => Diff.wf_build h ?_
    obtain ⟨_, _, hargs⟩ := Diff.cfgError_none.mp h
    obtain ⟨_, _, _, _, _, hdraws, _⟩ := DvnArgs.error_none.mp hargs
    exact hdraws
  | diffProcb =>
    exact EndsIn.configured fun hc => EndsIn.check fun _ =>
      EndsIn.ok (.diff _ _ (.inl rfl) fun h => Diff.block_wf h hc _ _ (takeChannels_length _ _ _ _ _))
  | fdnCfg =>
    refine EndsIn.failOr fun h => .fdn _ _ (.inl rfl) fun hp _ => Fdn.wf_build hp h ?_
    obtain ⟨_, _, _, _, hdraws, _⟩ := Fdn.cfgError_none.mp h
    exact hdraws
  | fdnProcb =>
    exact EndsIn.configured fun hc => EndsIn.check fun _ =>
      EndsIn.ok (.fdn _ _ (.inl rfl) fun _ h => Fdn.block_wf h hc _ _ _ (takeChannels_length _ _ _ _ _) _ _)
  | revNop => exact EndsIn.ok (.rev _ _ (RevEnd.keep s))
  | revSetup => exact EndsIn.failOr fun h => .rev _ _ (RevEnd.setup h)
  | revProcess => exact EndsIn.failOr fun h => .rev _ _ (RevEnd.process h)

/-- Settles O58: the frame of each class is what `Ends` lets its command change. -/
theorem commandsTouchOnlyTheirModule : Obligations.CommandsTouchOnlyTheirModule := by
  unfold Obligations.CommandsTouchOnlyTheirModule
  intro i s t h
  obtain ⟨u, hu, hends⟩ := exec_ends i s
  obtain rfl : u = t := Host.Outcome.next.inj (hu.symm.trans h)
  generalize i.cls = c at hends
  cases hends with
  | dl d r => exact onlyDl_put s d r
  | rrs f r => exact onlyRrs_put s f r
  | had r => exact onlyHad_put s r
  | dvn d r => exact onlyDvn_put s d r
  | diff d r => exact onlyDiff_put s d r
  | fdn f r => exact onlyFdn_put s f r
  | rev r m hrev => exact ⟨onlyRev_finish s r m, hrev.hostRegs⟩

/-! ## What a step may do -/

theorem illegalAt_eq_failAt (s : State) (p : ModPort) : s.illegalAt p = s.failAt .illegalCmd p.cls := by cases p <;> rfl

/-- A command word, legal or not, ends as a command of some class (30_encoding.md R104). -/
theorem runModuleWord_ends (s : State) (p : ModPort) (w : Word) : ∃ c, EndsIn s c (runModuleWord s p w) := by
  unfold runModuleWord
  split
  · next i _ => exact ⟨i.cls, exec_ends i s⟩
  · exact ⟨p.cls, EndsIn.ok (illegalAt_eq_failAt s p ▸ Ends.fail s .illegalCmd p.cls)⟩

theorem runRevWord_ends (s : State) (w : Word) : ∃ c, EndsIn s c (runRevWord s w) := by
  unfold runRevWord
  split
  · next i _ => exact ⟨i.cls, exec_ends i s⟩
  · exact ⟨.rev, EndsIn.ok (Ends.fail s .illegalCmd .rev)⟩

/-- What a write to a mapped, aligned word may do (20_memory.md R78, R80). -/
inductive WordWritten (s : State) : State → Prop
  | ignored : WordWritten s s
  | status (v : Word) : WordWritten s (s.putRev (s.rev.writeStatus v) s.iobuf)
  | refused : WordWritten s s.refuseBusy
  | accepted (v : Word) : WordWritten s (s.acceptCmd v)
  | stored (g : RevReg) (v : Word) : WordWritten s (s.putRev (s.rev.storeReg g v) s.iobuf)
  | iobuf (off : Nat) (v : Word) : iobufOffsetOk off → WordWritten s (s.putRev s.rev (s.iobuf.writeWord off v))

/-- Only the offsets of IOBUF are mapped to it (R72). -/
theorem regionAt_iobuf {off : Nat} (h : regionAt off = .iobuf) : 0x10000 ≤ off ∧ off < 0x30000 := by
  unfold regionAt Config.maxblkCap at h
  split_ifs at h
  · split at h <;> cases h
  · omega

theorem busCheck_okay {width : BusWidth} {off : Nat} (h : busCheck width off = .okay) : off % 4 = 0 := by
  unfold busCheck at h
  split_ifs at h with _ halign
  · exact not_not.mp halign

theorem writeWordAt_written (s : State) {off : Nat} (halign : off % 4 = 0) (v : Word) :
    WordWritten s (s.writeWordAt off v) := by
  unfold State.writeWordAt
  split
  · exact .status v
  · split
    · exact .refused
    · exact .accepted v
  · split_ifs
    · exact .ignored
    · exact .refused
    · exact .stored _ v
  · next hreg =>
    obtain ⟨hlo, hhi⟩ := regionAt_iobuf hreg
    split
    · exact .refused
    · exact .iobuf off v ⟨hlo, hhi, halign⟩
  · exact .ignored
  · exact .ignored

theorem busWriteAt_written (s : State) (width : BusWidth) (off : Nat) (v : Word) :
    ∃ u p, WordWritten s u ∧ s.busWriteAt width off v = u.putReply p := by
  unfold State.busWriteAt
  split
  · next hok => exact ⟨_, _, writeWordAt_written s (busCheck_okay hok) v, rfl⟩
  · exact ⟨s, _, .ignored, rfl⟩

/-- Nothing but the operand fields, what the host sees and what it still issues has changed. -/
def hostOnly (s t : State) : Prop :=
  t = { s with
    dlIn := t.dlIn, rrsIn := t.rrsIn, hadIn := t.hadIn, dvnIn := t.dvnIn, diffIn := t.diffIn, fdnIn := t.fdnIn
    reply := t.reply, program := t.program, stopped := t.stopped, busyLeft := t.busyLeft, draws := t.draws }

theorem hostOnly_popStmt (s : State) (rest : List HostStmt) : hostOnly s (s.popStmt rest) := rfl

theorem hostOnly_busReadAt (s : State) (width : BusWidth) (off : Nat) : hostOnly s (s.busReadAt width off) := by
  unfold State.busReadAt State.readWordAt
  split
  · split
    · exact rfl
    · split <;> exact rfl
    · exact rfl
    · exact rfl
  · exact rfl

theorem hostOnly_waitStep (s : State) : hostOnly s s.waitStep := by
  unfold State.waitStep
  split <;> exact rfl

theorem hostOnly_checkStep (s : State) : hostOnly s s.checkStep := by
  unfold State.checkStep
  split <;> exact rfl

theorem hostOnly_setOperands (s : State) (o : Operands) : hostOnly s (s.setOperands o) := by cases o <;> exact rfl

/-- What a statement of the host may do. -/
inductive Took (s : State) : HostStmt → State → Prop
  | host {st : HostStmt} {t : State} : hostOnly s t → Took s st t
  | wrote {st : HostStmt} {u : State} (p : Reply) : WordWritten s u → Took s st (u.putReply p)
  | command {st : HostStmt} {c : Class} {t : State} : Ends s c t → Took s st t
  | reset : Took s .reset s.afterReset

theorem runStmt_took {s t : State} {st : HostStmt} (h : runStmt s st = .next t) : Took s st t := by
  cases st with
  | read width addr =>
    simp only [runStmt, State.busRead] at h
    split at h <;> cases h
    exact .host (hostOnly_busReadAt s width _)
  | write width addr v =>
    simp only [runStmt, State.busWrite] at h
    split at h <;> cases h
    next off _ =>
    obtain ⟨u, p, hu, he⟩ := busWriteAt_written s width off v
    rw [he]
    exact .wrote p hu
  | wait => cases h; exact .host (hostOnly_waitStep s)
  | check => cases h; exact .host (hostOnly_checkStep s)
  | operands o => cases h; exact .host (hostOnly_setOperands s o)
  | issue p w =>
    obtain ⟨c, u, hu, hends⟩ := runModuleWord_ends s p w
    obtain rfl : u = t := Host.Outcome.next.inj (hu.symm.trans h)
    exact .command hends
  | reset => cases h; exact .reset

/-- One step: the pending command ends, or nothing is left to do, or the host's next statement is taken. -/
theorem step_cases {s t : State} (h : step s = .next t) :
    (∃ c, Ends s c t) ∨ t = s ∨ ∃ st rest, s.program = st :: rest ∧ Took (s.popStmt rest) st t := by
  unfold step runPending runProgram at h
  split at h
  · split at h
    · next w _ =>
      obtain ⟨c, u, hu, hends⟩ := runRevWord_ends s w
      obtain rfl : u = t := Host.Outcome.next.inj (hu.symm.trans h)
      exact .inl ⟨c, hends⟩
    · cases h; exact .inr (.inl rfl)
  · split at h
    · cases h; exact .inr (.inl rfl)
    · next st rest hprog => exact .inr (.inr ⟨st, rest, hprog, runStmt_took h⟩)

/-! ## CONFIGURED -/

theorem hostOnly.rev_eq {s t : State} (h : hostOnly s t) : t.rev = s.rev := by rw [h]

theorem Ends.configured {s t : State} {c : Class} (h : Ends s c t) (hc : s.rev.configured = true) :
    t.rev.configured = true := by
  cases h with
  | rev r m hrev => exact hrev.configured hc
  | _ => exact hc

theorem Rev.writeStatus_configured (r : Rev) (v : Word) : (r.writeStatus v).configured = r.configured := by
  unfold Rev.writeStatus
  split <;> rfl

theorem WordWritten.configured {s t : State} (h : WordWritten s t) : t.rev.configured = s.rev.configured := by
  cases h with
  | status v => exact Rev.writeStatus_configured s.rev v
  | stored g v => exact Rev.storeReg_configured s.rev g v
  | _ => rfl

/-- Settles O60: of what a step may do, the reset alone clears CONFIGURED. -/
theorem configuredIsSticky : Obligations.ConfiguredIsSticky := by
  unfold Obligations.ConfiguredIsSticky
  intro s t hc h
  rcases step_cases h with ⟨c, hends⟩ | rfl | ⟨st, rest, hprog, htook⟩
  · exact .inl (hends.configured hc)
  · exact .inl hc
  · cases htook with
    | host hhost => exact .inl (by rw [hhost.rev_eq]; exact hc)
    | wrote p hw => exact .inl (hw.configured.trans hc)
    | command hends => exact .inl (hends.configured hc)
    | reset => exact .inr ⟨rest, hprog⟩

/-! ## Good states -/

/-- After reset nothing is configured, IOBUF lists nothing and no code stands anywhere; the parameters stay
(70_reset_and_hazards.md R330). -/
theorem good_afterReset {s : State} (hp : s.params.wf = true) : s.afterReset.good := by
  have unconfigured : ∀ {P : Prop}, false = true → P := fun h => absurd h (by decide)
  have hrev : Rev.reset.wf := ⟨by decide, rfl, rfl, rfl, fun _ => ⟨rfl, rfl, rfl⟩, unconfigured⟩
  have hio : Memory.inBounds [] := ⟨Memory.wf_nil, fun _ hc => absurd hc List.not_mem_nil⟩
  have hcodes : State.reset.codesOk := by decide
  exact ⟨hp, ⟨unconfigured, unconfigured, unconfigured, unconfigured, unconfigured⟩, hrev, hio, hcodes⟩

theorem hostOnly.good {s t : State} (h : hostOnly s t) (hs : s.good) : t.good := by
  rw [h]
  exact hs

theorem Ends.modulesOk {s t : State} {c : Class} (h : Ends s c t) (hp : s.params.wf = true) (hs : s.modulesOk) :
    t.modulesOk := by
  obtain ⟨hdl, hrrs, hdvn, hdiff, hfdn⟩ := hs
  cases h with
  | dl d r _ hd => exact ⟨hd hdl, hrrs, hdvn, hdiff, hfdn⟩
  | rrs f r _ hf => exact ⟨hdl, hf hrrs, hdvn, hdiff, hfdn⟩
  | dvn d r _ hd => exact ⟨hdl, hrrs, hd hdvn, hdiff, hfdn⟩
  | diff d r _ hd => exact ⟨hdl, hrrs, hdvn, hd hdiff, hfdn⟩
  | fdn f r _ hf => exact ⟨hdl, hrrs, hdvn, hdiff, hf hp hfdn⟩
  | had | rev => exact ⟨hdl, hrrs, hdvn, hdiff, hfdn⟩

theorem Ends.codesOk {s t : State} {c : Class} (h : Ends s c t) (hs : s.codesOk) : t.codesOk := by
  obtain ⟨hdl, hrrs, hhad, hdvn, hdiff, hfdn, hrev⟩ := hs
  cases h with
  | dl d r hr _ => exact ⟨hr.le, hrrs, hhad, hdvn, hdiff, hfdn, hrev⟩
  | rrs f r hr _ => exact ⟨hdl, hr.le, hhad, hdvn, hdiff, hfdn, hrev⟩
  | had r hr => exact ⟨hdl, hrrs, hr.le, hdvn, hdiff, hfdn, hrev⟩
  | dvn d r hr _ => exact ⟨hdl, hrrs, hhad, hr.le, hdiff, hfdn, hrev⟩
  | diff d r hr _ => exact ⟨hdl, hrrs, hhad, hdvn, hr.le, hfdn, hrev⟩
  | fdn f r hr _ => exact ⟨hdl, hrrs, hhad, hdvn, hdiff, hr.le, hrev⟩
  | rev r m h => exact ⟨hdl, hrrs, hhad, hdvn, hdiff, hfdn, h.codes hrev⟩

theorem Ends.good {s t : State} {c : Class} (h : Ends s c t) (hs : s.good) : t.good := by
  obtain ⟨hp, hmod, hrev, hio, hcodes⟩ := hs
  have hmod' := h.modulesOk hp hmod
  have hcodes' := h.codesOk hcodes
  cases h with
  | rev r m h => exact ⟨hp, hmod', h.wf hp hrev, h.iobuf hrev hio, hcodes'⟩
  | _ => exact ⟨hp, hmod', hrev, hio, hcodes'⟩

/-- A good state stays good with any registers and IOBUF that are themselves in range. -/
theorem State.good_putRev {s : State} (hs : s.good) {r : Rev} {m : Memory} (hr : r.wf) (hk : r.codesOk)
    (hm : m.inBounds) : (s.putRev r m).good := by
  obtain ⟨hp, hmod, _, _, hdl, hrrs, hhad, hdvn, hdiff, hfdn, _⟩ := hs
  exact ⟨hp, hmod, hr, hm, hdl, hrrs, hhad, hdvn, hdiff, hfdn, hk⟩

theorem State.good.rev_codesOk {s : State} (hs : s.good) : s.rev.codesOk := by
  obtain ⟨_, _, _, _, _, _, _, _, _, _, hk⟩ := hs
  exact hk

/-- The registers that the host writes take no part in the ranges of REV. -/
theorem Rev.wf_storeReg {r : Rev} (h : r.wf) (g : RevReg) (v : Word) : (r.storeReg g v).wf := by cases g <;> exact h

theorem Rev.codesOk_storeReg {r : Rev} (h : r.codesOk) (g : RevReg) (v : Word) : (r.storeReg g v).codesOk := by
  cases g <;> exact h

theorem Rev.wf_writeStatus {r : Rev} (h : r.wf) (v : Word) : (r.writeStatus v).wf := by
  unfold Rev.writeStatus
  split <;> exact h

theorem Rev.codesOk_writeStatus {r : Rev} (h : r.codesOk) (v : Word) : (r.writeStatus v).codesOk := by
  unfold Rev.writeStatus
  split
  · exact Rev.codesOk_clearErr r
  · exact h

theorem WordWritten.good {s t : State} (h : WordWritten s t) (hs : s.good) : t.good := by
  have hk := hs.rev_codesOk
  have ⟨_, _, hrev, hio, _⟩ := hs
  cases h with
  | ignored => exact hs
  | status v => exact State.good_putRev hs (Rev.wf_writeStatus hrev v) (Rev.codesOk_writeStatus hk v) hio
  | refused => exact State.good_putRev hs hrev (Rev.codesOk_setErr s.rev .busy) hio
  | accepted v => exact hs
  | stored g v => exact State.good_putRev hs (Rev.wf_storeReg hrev g v) (Rev.codesOk_storeReg hk g v) hio
  | iobuf off v hoff => exact State.good_putRev hs hrev hk (Memory.inBounds_writeWord hio hoff v)

theorem Took.good {s t : State} {st : HostStmt} (h : Took s st t) (hs : s.good) : t.good := by
  cases h with
  | host hhost => exact hhost.good hs
  | wrote p hw => exact hw.good hs
  | command hends => exact hends.good hs
  | reset => exact good_afterReset hs.1

/-- Settles O57: each thing that a step may do keeps the invariant. -/
theorem stepKeepsGoodStates : Obligations.StepKeepsGoodStates := by
  unfold Obligations.StepKeepsGoodStates
  intro s t hs h
  rcases step_cases h with ⟨c, hends⟩ | rfl | ⟨st, rest, _, htook⟩
  · exact hends.good hs
  · exact hs
  · exact htook.good ((hostOnly_popStmt s rest).good hs)

end Sys2Proof.Machine
end

section
/-!
PROOFS. 10_state.md R31-R44, 20_memory.md R71-R80, 30_encoding.md R109, R110, 70_reset_and_hazards.md R330: what a
statement of the host does when no command is due. `step_of_program` reduces a step to its statement,
`windowOffset_busAddr` a bus access to the offset it names, and `regionAt_regOffset` that offset to a register.
-/

namespace Sys2Proof.Machine

/-! ## A step that takes a statement -/

/-- Where no command is due, the host's next statement takes effect (20_memory.md R83). -/
theorem step_of_program {s : State} {st : HostStmt} {rest : List HostStmt} (hdue : s.revDue = false)
    (hprog : s.program = st :: rest) : step s = runStmt (s.popStmt rest) st := by
  simp [step, runProgram, hdue, hprog]

/-- No command is due while none is in flight. -/
theorem revDue_of_idle {s : State} (h : s.rev.pending = none) : s.revDue = false := by
  simp [State.revDue, Rev.busy, h]

/-! ## The window -/

/-- An offset of the window is found again from its bus address (20_memory.md R71). -/
theorem windowOffset_busAddr (s : State) {off : Nat} (h : off < 0x40000) :
    windowOffset s.params.revBase (s.busAddr off) = some off := by
  have hoff : (s.busAddr off - s.params.revBase).toNat = off := by
    unfold State.busAddr
    bv_omega
  simp [windowOffset, hoff, h]

theorem step_busRead {s : State} {rest : List HostStmt} {width : BusWidth} {off : Nat} (hdue : s.revDue = false)
    (hoff : off < 0x40000) (hprog : s.program = .read width (s.busAddr off) :: rest) :
    step s = .next ((s.popStmt rest).busReadAt width off) := by
  rw [step_of_program hdue hprog, runStmt, State.busRead, State.popStmt_params, windowOffset_busAddr s hoff]

theorem step_busWrite {s : State} {rest : List HostStmt} {width : BusWidth} {off : Nat} {v : Word}
    (hdue : s.revDue = false) (hoff : off < 0x40000) (hprog : s.program = .write width (s.busAddr off) v :: rest) :
    step s = .next ((s.popStmt rest).busWriteAt width off v) := by
  rw [step_of_program hdue hprog, runStmt, State.busWrite, State.popStmt_params, windowOffset_busAddr s hoff]

theorem windowOffset_eq_none {base addr : Word} (h : 0x40000 ≤ (addr - base).toNat) :
    windowOffset base addr = none := by
  rw [windowOffset, if_neg (Nat.not_lt.mpr h)]

/-! ## The address map (20_memory.md R72) -/

theorem regionAt_regOffset (g : RevReg) : regionAt (regOffset g) = .reg g := by cases g <;> rfl

theorem regOffset_lt (g : RevReg) : regOffset g < 0x04C := by cases g <;> decide

theorem regOffset_aligned (g : RevReg) : regOffset g % 4 = 0 := by cases g <;> rfl

/-- The offsets after the last register and before IOBUF are reserved (10_state.md R43). -/
theorem regionAt_reserved {off : Nat} (hlo : 0x04C ≤ off) (hhi : off < 0x10000) : regionAt off = .reserved := by
  have hnone : revRegs[off / 4]? = none := by
    rw [List.getElem?_eq_none_iff]
    have hlen : revRegs.length = 19 := rfl
    omega
  simp [regionAt, hhi, hnone]

theorem busCheck_mapped {off : Nat} (halign : off % 4 = 0) (hmap : regionAt off ≠ .unmapped) :
    busCheck .w32 off = .okay := by
  simp [busCheck, halign, hmap]

theorem busReadAt_mapped (s : State) {off : Nat} (halign : off % 4 = 0) (hmap : regionAt off ≠ .unmapped) :
    s.busReadAt .w32 off = s.readWordAt off := by
  rw [State.busReadAt, busCheck_mapped halign hmap]

theorem busWriteAt_mapped (s : State) {off : Nat} (v : Word) (halign : off % 4 = 0) (hmap : regionAt off ≠ .unmapped) :
    s.busWriteAt .w32 off v = (s.writeWordAt off v).putReply (.write .okay) := by
  rw [State.busWriteAt, busCheck_mapped halign hmap]

/-! ## Reads of registers and reserved offsets -/

theorem readsAs_regOffset {s : State} (hdue : s.revDue = false) (g : RevReg) :
    readsAs s (regOffset g) (s.rev.readReg g) := by
  intro rest hprog
  have hlt := regOffset_lt g
  have hread : (s.popStmt rest).readWordAt (regOffset g) =
      (s.popStmt rest).putReply (.read .okay (s.rev.readReg g)) := by
    rw [State.readWordAt, regionAt_regOffset]
    rfl
  rw [step_busRead hdue (by omega) hprog,
    busReadAt_mapped _ (regOffset_aligned g) (by simp [regionAt_regOffset]), hread]
  rfl

theorem readsAs_reserved {s : State} (hdue : s.revDue = false) {off : Nat} (hlo : 0x04C ≤ off) (hhi : off < 0x10000)
    (halign : off % 4 = 0) : readsAs s off 0 := by
  intro rest hprog
  have hres := regionAt_reserved hlo hhi
  have hread : (s.popStmt rest).readWordAt off = (s.popStmt rest).putReply (.read .okay 0) := by
    rw [State.readWordAt, hres]
  rw [step_busRead hdue (by omega) hprog, busReadAt_mapped _ halign (by simp [hres]), hread]
  rfl

/-- Settles O48: every register by its offset, and the reserved offsets. -/
theorem registersReadAsStated : Obligations.RegistersReadAsStated := by
  unfold Obligations.RegistersReadAsStated
  intro s hdue
  have reg : ∀ g, readsAs s (regOffset g) (s.rev.readReg g) := readsAs_regOffset hdue
  exact ⟨reg .id, reg .version, reg .cmd, reg .status, reg .seed, reg .fs, reg .maxblk, reg .nch, reg .nlen, reg .mix,
    reg .width, reg .lowpass, reg .highpass, reg .dampening, reg .roomsize, reg .initdelay, reg .cfgFs, reg .cfgMaxblk,
    reg .nchActive, fun off hlo hhi halign => readsAs_reserved hdue hlo hhi halign⟩

/-! ## Writes to registers and reserved offsets -/

/-- A write to a mapped, aligned word has the effect that `State.writeWordAt` gives it. -/
theorem writeDoes_mapped {s : State} {off : Nat} {v : Word} {f : State → State} (hdue : s.revDue = false)
    (hoff : off < 0x40000) (halign : off % 4 = 0) (hmap : regionAt off ≠ .unmapped)
    (hf : ∀ rest, (s.popStmt rest).writeWordAt off v = f (s.popStmt rest)) : writeDoes s off v f := by
  intro rest hprog
  refine ⟨.write .okay, ?_⟩
  rw [step_busWrite hdue hoff hprog, busWriteAt_mapped _ v halign hmap, hf rest]
  rfl

theorem writeDoes_regOffset {s : State} {v : Word} {f : State → State} (hdue : s.revDue = false) (g : RevReg)
    (hf : ∀ rest, (s.popStmt rest).writeWordAt (regOffset g) v = f (s.popStmt rest)) :
    writeDoes s (regOffset g) v f := by
  have hlt := regOffset_lt g
  exact writeDoes_mapped hdue (by omega) (regOffset_aligned g) (by simp [regionAt_regOffset]) hf

/-- A write to a register that is neither CMD nor STATUS and stores nothing is ignored (10_state.md R34, R42). -/
theorem writeWordAt_readOnly (s : State) {g : RevReg} (v : Word) (hrw : regIsRW g = false) (hcmd : g ≠ .cmd)
    (hstatus : g ≠ .status) : s.writeWordAt (regOffset g) v = s := by
  rw [State.writeWordAt, regionAt_regOffset]
  cases g with
  | cmd => exact absurd rfl hcmd
  | status => exact absurd rfl hstatus
  | _ => simp [hrw]

/-- A register of access RW stores the whole word while no command is in flight (R44, R80). -/
theorem writeWordAt_stores {s : State} {g : RevReg} (v : Word) (hrw : regIsRW g = true) (hidle : s.rev.pending = none) :
    s.writeWordAt (regOffset g) v = s.putRev (s.rev.storeReg g v) s.iobuf := by
  have hbusy : s.rev.busy = false := by simp [Rev.busy, hidle]
  rw [State.writeWordAt, regionAt_regOffset]
  cases g with
  | cmd | status => cases hrw
  | _ => simp [hrw, hbusy]

theorem writeWordAt_cmd {s : State} (v : Word) (hidle : s.rev.pending = none) :
    s.writeWordAt (regOffset .cmd) v = s.acceptCmd v := by
  simp [State.writeWordAt, regionAt_regOffset, Rev.busy, hidle]

theorem writeWordAt_status (s : State) (v : Word) :
    s.writeWordAt (regOffset .status) v = s.putRev (s.rev.writeStatus v) s.iobuf := by
  rw [State.writeWordAt, regionAt_regOffset]

theorem writeWordAt_reserved {s : State} {off : Nat} (v : Word) (h : regionAt off = .reserved) :
    s.writeWordAt off v = s := by
  rw [State.writeWordAt, h]

theorem writeDoes_readOnly {s : State} (hdue : s.revDue = false) {off : Nat} (v : Word) (h : readOnlyOffset off) :
    writeDoes s off v id := by
  have reg : ∀ g, regIsRW g = false → g ≠ .cmd → g ≠ .status → writeDoes s (regOffset g) v id :=
    fun g hrw hcmd hstatus => writeDoes_regOffset hdue g fun rest =>
      writeWordAt_readOnly (s.popStmt rest) v hrw hcmd hstatus
  rcases h with rfl | rfl | rfl | rfl | rfl | ⟨hlo, hhi, halign⟩
  · exact reg .id rfl (by decide) (by decide)
  · exact reg .version rfl (by decide) (by decide)
  · exact reg .cfgFs rfl (by decide) (by decide)
  · exact reg .cfgMaxblk rfl (by decide) (by decide)
  · exact reg .nchActive rfl (by decide) (by decide)
  · have hres := regionAt_reserved hlo hhi
    exact writeDoes_mapped hdue (by omega) halign (by simp [hres]) fun rest => writeWordAt_reserved v hres

theorem writeDoes_stores {s : State} (hidle : s.rev.pending = none) {g : RevReg} (v : Word) (hrw : regIsRW g = true) :
    writeDoes s (regOffset g) v (fun p => p.putRev (p.rev.storeReg g v) p.iobuf) :=
  writeDoes_regOffset (revDue_of_idle hidle) g fun rest => writeWordAt_stores (s := s.popStmt rest) v hrw hidle

/-- CMD accepts a word while BUSY is 0 (45_reverb_top.md R260). -/
theorem step_writeCmd {s : State} {v : Word} {rest : List HostStmt} (hidle : s.rev.pending = none)
    (hprog : s.program = .write .w32 (s.busAddr (regOffset .cmd)) v :: rest) :
    step s = .next (((s.popStmt rest).acceptCmd v).putReply (.write .okay)) := by
  rw [step_busWrite (revDue_of_idle hidle) (by decide) hprog,
    busWriteAt_mapped _ v (by decide) (by simp [regionAt_regOffset]), writeWordAt_cmd (s := s.popStmt rest) v hidle]

/-- Settles O49: the read-only and reserved offsets, the storing registers one by one, and CMD. -/
theorem registerWritesDoAsStated : Obligations.RegisterWritesDoAsStated := by
  unfold Obligations.RegisterWritesDoAsStated
  intro s v hidle
  have store : ∀ g, regIsRW g = true →
      writeDoes s (regOffset g) v (fun p => p.putRev (p.rev.storeReg g v) p.iobuf) :=
    fun g => writeDoes_stores hidle v
  exact ⟨fun off => writeDoes_readOnly (revDue_of_idle hidle) v, store .seed rfl, store .fs rfl, store .maxblk rfl,
    store .nch rfl, store .nlen rfl, store .mix rfl, store .width rfl, store .lowpass rfl, store .highpass rfl,
    store .dampening rfl, store .roomsize rfl, store .initdelay rfl,
    fun rest hprog => ⟨_, step_writeCmd hidle hprog, rfl, rfl, rfl, rfl, rfl, rfl, rfl, rfl, rfl⟩⟩

/-- Settles O52: STATUS takes writes whether BUSY is 1 or 0, and bit 2 alone matters. -/
theorem statusBitTwoAcknowledges : Obligations.StatusBitTwoAcknowledges := by
  unfold Obligations.StatusBitTwoAcknowledges
  intro s v hdue
  refine ⟨fun hbit => writeDoes_regOffset hdue .status fun rest => ?_,
    fun hbit => writeDoes_regOffset hdue .status fun rest => ?_⟩
  · rw [writeWordAt_status, Rev.writeStatus, if_pos hbit]
    rfl
  · rw [writeWordAt_status, Rev.writeStatus, if_neg (by rw [hbit]; decide)]
    rfl

/-! ## Operands, WAIT, CHECK and addresses outside the window -/

theorem waitStep_busy {s : State} (h : s.rev.pending ≠ none) :
    s.waitStep = s.readStatus.setProgram (.wait :: s.program) := by
  rw [State.waitStep, if_pos (by simpa [Rev.busy, Option.isSome_iff_ne_none] using h)]

theorem waitStep_idle {s : State} (h : s.rev.pending = none) : s.waitStep = s.readStatus := by
  rw [State.waitStep, if_neg (by simp [Rev.busy, h])]

theorem checkStep_ok {s : State} (h : s.rev.err = false) : s.checkStep = s.readStatus := by
  rw [State.checkStep, if_neg (by simp [h])]

theorem checkStep_err {s : State} (h : s.rev.err = true) :
    s.checkStep = { s.readStatus with program := [], stopped := true } := by
  rw [State.checkStep, if_pos h]

theorem step_check {s : State} {rest : List HostStmt} (hdue : s.revDue = false) (hprog : s.program = .check :: rest) :
    ∃ t, step s = .next t ∧ t.reply = .read .okay s.rev.statusWord ∧
      t = { s with program := t.program, busyLeft := s.busyLeft - 1, reply := t.reply, stopped := t.stopped } ∧
      (s.rev.err = true → t.program = [] ∧ t.stopped = true) ∧
      (s.rev.err = false → t.program = rest ∧ t.stopped = s.stopped) := by
  refine ⟨_, step_of_program hdue hprog, ?_⟩
  cases herr : s.rev.err with
  | false =>
    rw [checkStep_ok (s := s.popStmt rest) herr]
    exact ⟨rfl, rfl, nofun, fun _ => ⟨rfl, rfl⟩⟩
  | true =>
    rw [checkStep_err (s := s.popStmt rest) herr]
    exact ⟨rfl, rfl, fun _ => ⟨rfl, rfl⟩, nofun⟩

theorem step_outside {s : State} {rest : List HostStmt} {width : BusWidth} {addr v : Word} (hdue : s.revDue = false)
    (haddr : 0x40000 ≤ (addr - s.params.revBase).toNat)
    (hprog : s.program = .read width addr :: rest ∨ s.program = .write width addr v :: rest) :
    step s = .fault .outsideWindow := by
  rcases hprog with hprog | hprog
  · rw [step_of_program hdue hprog, runStmt, State.busRead, State.popStmt_params, windowOffset_eq_none haddr]
  · rw [step_of_program hdue hprog, runStmt, State.busWrite, State.popStmt_params, windowOffset_eq_none haddr]

/-- Settles O55: each statement by its own equation. -/
theorem hostStatementsTakeEffect : Obligations.HostStatementsTakeEffect := by
  unfold Obligations.HostStatementsTakeEffect
  intro s rest hdue
  have operands : ∀ o, s.program = .operands o :: rest → step s = .next ((s.popStmt rest).setOperands o) :=
    fun o hprog => step_of_program hdue hprog
  have wait : s.program = .wait :: rest → step s = .next (s.popStmt rest).waitStep :=
    fun hprog => step_of_program hdue hprog
  refine ⟨fun o => operands (.dl o), fun o => operands (.rrs o), fun o => operands (.had o), fun o => operands (.dvn o),
    fun o => operands (.diff o), fun o => operands (.fdn o), fun hprog hbusy => ?_, fun hprog hidle => ?_,
    step_check hdue, fun width addr v haddr => step_outside hdue haddr⟩
  · rw [wait hprog, waitStep_busy (s := s.popStmt rest) hbusy, hprog]
    rfl
  · rw [wait hprog, waitStep_idle (s := s.popStmt rest) hidle]
    rfl

/-! ## Reset -/

theorem Rev.atReset_reset : Rev.reset.atReset := by
  unfold Rev.atReset
  decide

theorem Params.wf_default : Params.default.wf = true := by decide +kernel

/-- Power-up leaves what a reset with the default parameters leaves, but for the count of resets. -/
theorem good_reset : State.reset.good := good_afterReset (s := State.reset) Params.wf_default

/-- Settles O56: both ways of resetting leave the same registers and modules. -/
theorem resetLeavesTheStatedValues : Obligations.ResetLeavesTheStatedValues := by
  unfold Obligations.ResetLeavesTheStatedValues
  exact ⟨good_reset, Rev.atReset_reset, rfl, rfl, rfl, rfl, rfl, fun s rest hdue hprog =>
    ⟨_, step_of_program hdue hprog, Rev.atReset_reset, rfl, rfl, rfl, rfl, rfl, rfl⟩⟩

end Sys2Proof.Machine
end

section
/-!
PROOFS. 20_memory.md R72-R80, 60_exceptions.md R302, R304, R306: what the host bus refuses and what IOBUF does. The bus
response decides an access before BUSY is looked at; past it, BUSY alone decides whether a write to CMD, to a storing
register or to IOBUF takes effect, and the word written is the four bytes at its offset.
-/

namespace Sys2Proof.Machine

/-! ## Accesses that the bus refuses -/

theorem regionAt_unmapped {off : Nat} (h : 0x30000 ≤ off) : regionAt off = .unmapped := by
  rw [regionAt, if_neg (by omega), if_neg (by unfold Config.maxblkCap; omega)]

theorem busCheck_wrongWidth {width : BusWidth} (h : width ≠ .w32) (off : Nat) : busCheck width off = .slverr := by
  rw [busCheck, if_pos h]

theorem busCheck_misaligned {off : Nat} (h : off % 4 ≠ 0) : busCheck .w32 off = .slverr := by simp [busCheck, h]

theorem busCheck_unmapped {off : Nat} (halign : off % 4 = 0) (h : 0x30000 ≤ off) : busCheck .w32 off = .decerr := by
  simp [busCheck, halign, regionAt_unmapped h]

/-- A refused read returns 0 (R79). -/
theorem busReadAt_refused (s : State) {width : BusWidth} {off : Nat} (h : busCheck width off ≠ .okay) :
    s.busReadAt width off = s.putReply (.read (busCheck width off) 0) := by
  unfold State.busReadAt
  split
  · next hok => exact absurd hok h
  · rfl

theorem busWriteAt_refused (s : State) {width : BusWidth} {off : Nat} (v : Word) (h : busCheck width off ≠ .okay) :
    s.busWriteAt width off v = s.putReply (.write (busCheck width off)) := by
  unfold State.busWriteAt
  split
  · next hok => exact absurd hok h
  · rfl

/-- An access with another response than OKAY has no effect but its reply, whichever check it fails (R79, R304). -/
theorem hostSees_refused {s : State} {width : BusWidth} {off : Nat} {resp : BusResp} (v : Word) (hdue : s.revDue = false)
    (hoff : off < 0x40000) (hcheck : busCheck width off = resp) (hresp : resp ≠ .okay) :
    hostSees s (.read width (s.busAddr off)) (.read resp 0) ∧
      hostSees s (.write width (s.busAddr off) v) (.write resp) := by
  subst hcheck
  refine ⟨fun rest hprog => ?_, fun rest hprog => ?_⟩
  · rw [step_busRead hdue hoff hprog, busReadAt_refused _ hresp]
    rfl
  · rw [step_busWrite hdue hoff hprog, busWriteAt_refused _ v hresp]
    rfl

/-- Settles O50: the three ways an access fails the bus check. -/
theorem busErrorsHaveNoEffect : Obligations.BusErrorsHaveNoEffect := by
  unfold Obligations.BusErrorsHaveNoEffect
  intro s off v hdue hoff
  exact ⟨fun width hwidth => hostSees_refused v hdue hoff (busCheck_wrongWidth hwidth off) (by decide),
    fun halign => hostSees_refused v hdue hoff (busCheck_misaligned halign) (by decide),
    fun halign hmap => hostSees_refused v hdue hoff (busCheck_unmapped halign hmap) (by decide)⟩

/-! ## BUSY -/

theorem Rev.busy_of_pending {r : Rev} (h : r.pending ≠ none) : r.busy = true := by
  simpa [Rev.busy, Option.isSome_iff_ne_none] using h

theorem Rev.not_busy_of_idle {r : Rev} (h : r.pending = none) : r.busy = false := by simp [Rev.busy, h]

theorem regionAt_of_iobufOffsetOk {off : Nat} (h : iobufOffsetOk off) : regionAt off = .iobuf := by
  obtain ⟨hlo, hhi, _⟩ := h
  rw [regionAt, if_neg (by omega), if_pos (by unfold Config.maxblkCap; omega)]

theorem regionAt_ne_unmapped {off : Nat} (h : iobufOffsetOk off) : regionAt off ≠ .unmapped := by
  simp [regionAt_of_iobufOffsetOk h]

/-- The storing offsets are those of the registers of access RW (10_state.md R35). -/
theorem exists_reg_of_storingOffset {off : Nat} (h : storingOffset off) : ∃ g, regIsRW g = true ∧ off = regOffset g := by
  obtain ⟨hlo, hhi, halign⟩ := h
  obtain ⟨k, rfl⟩ : ∃ k, off = 4 * k := ⟨off / 4, by omega⟩
  have hk : 4 ≤ k ∧ k ≤ 15 := by omega
  obtain ⟨hk4, hk15⟩ := hk
  interval_cases k
  · exact ⟨.seed, rfl, rfl⟩
  · exact ⟨.fs, rfl, rfl⟩
  · exact ⟨.maxblk, rfl, rfl⟩
  · exact ⟨.nch, rfl, rfl⟩
  · exact ⟨.nlen, rfl, rfl⟩
  · exact ⟨.mix, rfl, rfl⟩
  · exact ⟨.width, rfl, rfl⟩
  · exact ⟨.lowpass, rfl, rfl⟩
  · exact ⟨.highpass, rfl, rfl⟩
  · exact ⟨.dampening, rfl, rfl⟩
  · exact ⟨.roomsize, rfl, rfl⟩
  · exact ⟨.initdelay, rfl, rfl⟩

theorem writeWordAt_cmd_busy {s : State} (v : Word) (hbusy : s.rev.busy = true) :
    s.writeWordAt (regOffset .cmd) v = s.refuseBusy := by
  simp [State.writeWordAt, regionAt_regOffset, hbusy]

theorem writeWordAt_stores_busy {s : State} {g : RevReg} (v : Word) (hrw : regIsRW g = true)
    (hbusy : s.rev.busy = true) : s.writeWordAt (regOffset g) v = s.refuseBusy := by
  rw [State.writeWordAt, regionAt_regOffset]
  cases g with
  | cmd | status => cases hrw
  | _ => simp [hrw, hbusy]

theorem writeWordAt_iobuf_busy {s : State} {off : Nat} (v : Word) (hoff : iobufOffsetOk off)
    (hbusy : s.rev.busy = true) : s.writeWordAt off v = s.refuseBusy := by
  simp [State.writeWordAt, regionAt_of_iobufOffsetOk hoff, hbusy]

/-- While BUSY is 1 the word that an IOBUF read returns is free, and drawing it is all the read does (R80; log 9). -/
theorem readWordAt_iobuf_busy {s : State} {off : Nat} (hoff : iobufOffsetOk off) (hbusy : s.rev.busy = true) :
    s.readWordAt off = s.drawOne.putReply (.read .okay (Config.busyRead s.draws)) := by
  simp [State.readWordAt, regionAt_of_iobufOffsetOk hoff, hbusy]

/-- A 32-bit access at an IOBUF offset passes the bus check. -/
theorem step_readIobuf {s : State} {off : Nat} {rest : List HostStmt} (hdue : s.revDue = false) (hoff : iobufOffsetOk off)
    (hprog : s.program = .read .w32 (s.busAddr off) :: rest) : step s = .next ((s.popStmt rest).readWordAt off) := by
  have hmap := regionAt_ne_unmapped hoff
  obtain ⟨_, hhi, halign⟩ := hoff
  rw [step_busRead hdue (by omega) hprog, busReadAt_mapped _ halign hmap]

theorem writeDoes_iobuf {s : State} {off : Nat} {v : Word} {f : State → State} (hdue : s.revDue = false)
    (hoff : iobufOffsetOk off) (hf : ∀ rest, (s.popStmt rest).writeWordAt off v = f (s.popStmt rest)) :
    writeDoes s off v f := by
  have hmap := regionAt_ne_unmapped hoff
  obtain ⟨_, hhi, halign⟩ := hoff
  exact writeDoes_mapped hdue (by omega) halign hmap hf

/-- Settles O51: CMD, the storing registers and IOBUF refuse a write alike, and an IOBUF read draws a word. -/
theorem busyRefusesWrites : Obligations.BusyRefusesWrites := by
  unfold Obligations.BusyRefusesWrites
  intro s off v hpending hdue
  have hbusy : s.rev.busy = true := Rev.busy_of_pending hpending
  refine ⟨fun hoff => ?_, fun hoff rest hprog => ?_⟩
  · rcases hoff with rfl | hstoring | hiobuf
    · exact writeDoes_regOffset hdue .cmd fun rest => writeWordAt_cmd_busy (s := s.popStmt rest) v hbusy
    · obtain ⟨g, hrw, rfl⟩ := exists_reg_of_storingOffset hstoring
      exact writeDoes_regOffset hdue g fun rest => writeWordAt_stores_busy (s := s.popStmt rest) v hrw hbusy
    · exact writeDoes_iobuf hdue hiobuf fun rest => writeWordAt_iobuf_busy (s := s.popStmt rest) v hiobuf hbusy
  · rw [step_readIobuf hdue hoff hprog, readWordAt_iobuf_busy (s := s.popStmt rest) hoff hbusy]
    exact ⟨_, _, rfl⟩

/-! ## The bytes of an IOBUF word (20_memory.md R74) -/

theorem wordBytes_getElem? (w : Word) {k : Nat} (hk : k < 4) : (wordBytes w)[k]? = some (w.extractLsb' (8 * k) 8) := by
  interval_cases k <;> rfl

theorem extractLsb'_append_byte {w : Nat} (x : BitVec w) (b : Byte) : (x ++ b).extractLsb' 0 8 = b := by
  rw [BitVec.extractLsb'_append_eq_of_add_le (Nat.le_refl 8), BitVec.extractLsb'_eq_self]

theorem extractLsb'_append_above_byte {w : Nat} (x : BitVec w) (b : Byte) (a : Nat) :
    (x ++ b).extractLsb' (8 + a) 8 = x.extractLsb' a 8 := by
  rw [BitVec.extractLsb'_append_eq_of_le (Nat.le_add_right 8 a), Nat.add_sub_cancel_left]

theorem wordBytes_wordOfBytes (b0 b1 b2 b3 : Byte) : wordBytes (wordOfBytes b0 b1 b2 b3) = [b0, b1, b2, b3] := by
  have h0 : (b3 ++ b2 ++ b1 ++ b0).extractLsb' 0 8 = b0 := extractLsb'_append_byte _ b0
  have h1 : (b3 ++ b2 ++ b1 ++ b0).extractLsb' 8 8 = b1 :=
    (extractLsb'_append_above_byte _ b0 0).trans (extractLsb'_append_byte _ b1)
  have h2 : (b3 ++ b2 ++ b1 ++ b0).extractLsb' 16 8 = b2 :=
    (extractLsb'_append_above_byte _ b0 8).trans
      ((extractLsb'_append_above_byte _ b1 0).trans (extractLsb'_append_byte _ b2))
  have h3 : (b3 ++ b2 ++ b1 ++ b0).extractLsb' 24 8 = b3 :=
    (extractLsb'_append_above_byte _ b0 16).trans ((extractLsb'_append_above_byte _ b1 8).trans
      ((extractLsb'_append_above_byte _ b2 0).trans BitVec.extractLsb'_eq_self))
  rw [wordOfBytes, wordBytes, h0, h1, h2, h3]

/-- Byte `k` of a word of IOBUF is the byte at its offset plus `k`. -/
theorem Memory.extractLsb'_readWord (epoch : Nat) (m : Memory) (a : Nat) {k : Nat} (hk : k < 4) :
    (m.readWord epoch a).extractLsb' (8 * k) 8 = m.readByte epoch (a + k) := by
  have hbyte := wordBytes_getElem? (m.readWord epoch a) hk
  rw [Memory.readWord, wordBytes_wordOfBytes] at hbyte
  rw [Memory.readWord, ← Option.some_inj, ← hbyte]
  interval_cases k <;> rfl

theorem Memory.readByte_writeWord_add (epoch : Nat) (m : Memory) (a : Nat) (v : Word) {k : Nat} (hk : k < 4) :
    (m.writeWord a v).readByte epoch (a + k) = v.extractLsb' (8 * k) 8 := by
  rw [← Memory.extractLsb'_readWord epoch _ a hk, Memory.readWord_writeWord]

/-! ## IOBUF while BUSY is 0 -/

theorem readWordAt_iobuf_idle {s : State} {off : Nat} (hoff : iobufOffsetOk off) (hidle : s.rev.pending = none) :
    s.readWordAt off = s.putReply (.read .okay (s.iobuf.readWord s.epoch off)) := by
  simp [State.readWordAt, regionAt_of_iobufOffsetOk hoff, Rev.not_busy_of_idle hidle]

theorem writeWordAt_iobuf_idle {s : State} {off : Nat} (v : Word) (hoff : iobufOffsetOk off)
    (hidle : s.rev.pending = none) : s.writeWordAt off v = s.putRev s.rev (s.iobuf.writeWord off v) := by
  simp [State.writeWordAt, regionAt_of_iobufOffsetOk hoff, Rev.not_busy_of_idle hidle]

/-- The word at the offset of `IOBUF[c][i]` is that word (R73). -/
theorem State.readWord_eq_iobufWord (s : State) {off c i : Nat} (h : off = 0x10000 + 4 * (c * 4096 + i)) :
    s.iobuf.readWord s.epoch off = s.iobufWord c i := by
  rw [h]
  rfl

/-- Settles O53: a read gives the word at the offset, a write replaces it and no other byte. -/
theorem iobufIsLittleEndian : Obligations.IobufIsLittleEndian := by
  unfold Obligations.IobufIsLittleEndian
  refine ⟨fun _ _ _ _ => rfl, fun s off v rest hidle hoff => ⟨fun hprog => ?_, fun hprog => ?_⟩⟩
  · rw [step_readIobuf (revDue_of_idle hidle) hoff hprog, readWordAt_iobuf_idle (s := s.popStmt rest) hoff hidle]
    exact ⟨_, rfl, fun k hk => Memory.extractLsb'_readWord s.epoch s.iobuf off hk,
      fun c i _ _ hci => s.readWord_eq_iobufWord hci⟩
  · have hwrite : writeDoes s off v (fun p => p.putRev p.rev (p.iobuf.writeWord off v)) :=
      writeDoes_iobuf (revDue_of_idle hidle) hoff fun rest => writeWordAt_iobuf_idle (s := s.popStmt rest) v hoff hidle
    obtain ⟨r, hstep⟩ := hwrite rest hprog
    refine ⟨_, hstep, rfl, fun k hk => Memory.readByte_writeWord_add s.epoch s.iobuf off v hk,
      fun c i _ _ hci => ?_, fun a ha => Memory.readByte_writeWord_other s.epoch s.iobuf off a v ha⟩
    rw [← State.readWord_eq_iobufWord _ hci]
    exact Memory.readWord_writeWord s.epoch s.iobuf off v

end Sys2Proof.Machine
end

section
/-!
PROOFS. 20_memory.md R81, 45_reverb_top.md R265, R276: REV.PROCESS reads and writes IOBUF in its block alone. Its outcome
is its checks and then `State.processed`; the output block is no larger than the input block, which bounds the writes, and
writing one output block over two memories leaves them agreeing wherever they agreed.
-/

namespace Sys2Proof.Machine

/-! ## The outcome of REV.PROCESS -/

/-- The output block of REV.PROCESS on the block that stands in IOBUF, and REV after it. -/
def State.processOut (s : State) : List (List F32) × Rev :=
  s.rev.process s.draws s.params s.rev.nlen.toNat s.processInput

/-- The state after a REV.PROCESS whose checks pass. -/
def State.processed (s : State) : State := s.finishRev s.processOut.2 (s.iobuf.writeChannels 0 s.processOut.1)

theorem exec_revProcess (s : State) : exec .revProcess s = s.failOr .rev s.rev.processError s.processed := rfl

theorem exec_revProcess_error {s : State} {e : Err} (h : s.rev.processError = some e) :
    exec .revProcess s = .next (s.failAt e .rev) := by
  rw [exec_revProcess, h, State.failOr]

theorem exec_revProcess_ok {s : State} (h : s.rev.processError = none) : exec .revProcess s = .next s.processed := by
  rw [exec_revProcess, h, State.failOr]

theorem fails_revProcess {s : State} {e : Err} (h : s.rev.processError = some e) : fails .revProcess s e :=
  ⟨_, exec_revProcess_error h, portErr_failAt s e .rev, onlyResults_failAt s e .rev, sameMemory_failAt s e .rev⟩

/-! ## The checks, in order (R265) -/

theorem Rev.processError_channels {r : Rev} (hc : r.configured = true) (h : r.nch.toNat < 1 ∨ 8 < r.nch.toNat) :
    r.processError = some .invalidArg := by
  rw [Rev.processError, if_neg (by simp [hc])]
  exact if_pos h

theorem Rev.processError_bounds {r : Rev} (hc : r.configured = true) (h1 : 1 ≤ r.nch.toNat) (h8 : r.nch.toNat ≤ 8)
    (h : r.cfgMaxblk.toNat < r.nlen.toNat) : r.processError = some .bounds := by
  rw [Rev.processError, if_neg (by simp [hc]), if_neg (by unfold Config.cMax; omega), if_pos h]

theorem Rev.processError_eq_none {r : Rev} (hc : r.configured = true) (h1 : 1 ≤ r.nch.toNat) (h8 : r.nch.toNat ≤ 8)
    (h : r.nlen.toNat ≤ r.cfgMaxblk.toNat) : r.processError = none := by
  rw [Rev.processError, if_neg (by simp [hc]), if_neg (by unfold Config.cMax; omega), if_neg (by omega)]

/-! ## The bytes that REV.PROCESS writes -/

theorem State.processInput_length (s : State) : s.processInput.length = s.rev.nch.toNat := readBlocks_length _ _ _ _ _

/-- The output block has no channel and no sample that the input block has not. -/
theorem State.processOut_bounds (s : State) :
    s.processOut.1.length ≤ s.rev.nch.toNat ∧ ∀ b ∈ s.processOut.1, b.length ≤ s.rev.nlen.toNat :=
  ⟨(Rev.process_length_le _ _ _ _ _).trans s.processInput_length.le, Rev.process_mem_length⟩

/-- Writing a block of at most `chans` channels of at most `n` samples leaves every byte outside that block. -/
theorem Memory.readByte_writeChannels_outside (epoch : Nat) (m : Memory) {bufs : List (List F32)} {chans n a : Nat}
    (hc : bufs.length ≤ chans) (hn : ∀ b ∈ bufs, b.length ≤ n) (ha : ¬ inBlock chans n a) :
    (m.writeChannels 0 bufs).readByte epoch a = m.readByte epoch a := by
  refine Memory.readByte_writeChannels epoch m 0 a bufs fun k hk => ?_
  rintro ⟨i, _, hi, hword⟩
  have hlen := hn bufs[k] (List.getElem_mem hk)
  exact ha ⟨0 + k, i, by omega, by omega, hword⟩

theorem readByte_processed_outside (s : State) {a : Nat} (ha : ¬ inBlock s.rev.nch.toNat s.rev.nlen.toNat a) :
    s.processed.iobuf.readByte s.processed.epoch a = s.iobuf.readByte s.epoch a := by
  obtain ⟨hc, hn⟩ := s.processOut_bounds
  exact Memory.readByte_writeChannels_outside s.epoch s.iobuf hc hn ha

/-- Settles O39: the checks by their equations, and the block written by its bounds. -/
theorem revProcessChangesOnlyItsBlock : Obligations.RevProcessChangesOnlyItsBlock := by
  unfold Obligations.RevProcessChangesOnlyItsBlock
  intro s hc
  refine ⟨fun h => fails_revProcess (Rev.processError_channels hc h),
    fun h1 h8 h => fails_revProcess (Rev.processError_bounds hc h1 h8 h), fun h1 h8 h => ?_⟩
  have hnone := Rev.processError_eq_none hc h1 h8 h
  exact ⟨s.processed, exec_revProcess_ok hnone, onlyRev_finish s _ _, (RevEnd.process hnone).hostRegs, rfl, rfl, hc, rfl,
    rfl, rfl, rfl, rfl, s.processInput_length, fun a => readByte_processed_outside s⟩

/-! ## The bytes that REV.PROCESS reads -/

/-- A word write leaves two memories agreeing on a byte where they agreed on it. -/
theorem Memory.readByte_writeWord_congr {epoch a : Nat} {m m' : Memory} (h : m'.readByte epoch a = m.readByte epoch a)
    (off : Nat) (v : Word) : (m'.writeWord off v).readByte epoch a = (m.writeWord off v).readByte epoch a := by
  simp only [Memory.writeWord, Memory.readByte_writeBytes, h]

theorem Memory.readByte_writeSamples_congr {epoch a : Nat} {m m' : Memory} (h : m'.readByte epoch a = m.readByte epoch a)
    (c i : Nat) (xs : List F32) :
    (m'.writeSamples c i xs).readByte epoch a = (m.writeSamples c i xs).readByte epoch a := by
  induction xs generalizing m m' i with
  | nil => exact h
  | cons x xs ih => exact ih (Memory.readByte_writeWord_congr h _ x) (i + 1)

theorem Memory.readByte_writeChannels_congr {epoch a : Nat} {m m' : Memory} (h : m'.readByte epoch a = m.readByte epoch a)
    (c : Nat) (bufs : List (List F32)) :
    (m'.writeChannels c bufs).readByte epoch a = (m.writeChannels c bufs).readByte epoch a := by
  induction bufs generalizing m m' c with
  | nil => exact h
  | cons xs rest ih => exact ih (Memory.readByte_writeSamples_congr h c 0 xs) (c + 1)

/-- The memory `m` holds what the machine's IOBUF holds in the block of the pending REV.PROCESS. -/
def State.agreesOnBlock (s : State) (m : Memory) : Prop :=
  ∀ a, inBlock s.rev.nch.toNat s.rev.nlen.toNat a → m.readByte s.epoch a = s.iobuf.readByte s.epoch a

theorem State.agreesOnBlock.readWord_eq {s : State} {m : Memory} (h : s.agreesOnBlock m) {c i : Nat}
    (hc : c < s.rev.nch.toNat) (hi : i < s.rev.nlen.toNat) :
    m.readWord s.epoch (iobufOffset c i) = s.iobuf.readWord s.epoch (iobufOffset c i) := by
  have byte : ∀ k, k < 4 → m.readByte s.epoch (iobufOffset c i + k) = s.iobuf.readByte s.epoch (iobufOffset c i + k) :=
    fun k hk => h _ ⟨c, i, hc, hi, by omega, by omega⟩
  have byte0 : m.readByte s.epoch (iobufOffset c i) = s.iobuf.readByte s.epoch (iobufOffset c i) := byte 0 (by decide)
  rw [Memory.readWord, byte0, byte 1 (by decide), byte 2 (by decide), byte 3 (by decide), Memory.readWord]

/-- The input block is the words of the block, so memories that agree there give the same one. -/
theorem State.agreesOnBlock.processInput_eq {s : State} {m : Memory} (h : s.agreesOnBlock m) :
    { s with iobuf := m }.processInput = s.processInput := by
  refine List.ext_getElem? fun c => ?_
  rcases Nat.lt_or_ge c s.rev.nch.toNat with hc | hc
  · have hwords : ∀ i ∈ List.range s.rev.nlen.toNat,
        m.readWord s.epoch (iobufOffset (0 + c) i) = s.iobuf.readWord s.epoch (iobufOffset (0 + c) i) :=
      fun i hi => h.readWord_eq (by omega) (List.mem_range.mp hi)
    rw [State.processInput, State.processInput, readBlocks_get _ _ _ _ _ _ hc, readBlocks_get _ _ _ _ _ _ hc,
      List.map_congr_left hwords]
  · rw [List.getElem?_eq_none (by rw [State.processInput_length]; exact hc),
      List.getElem?_eq_none (by rw [State.processInput_length]; exact hc)]

theorem State.agreesOnBlock.processOut_eq {s : State} {m : Memory} (h : s.agreesOnBlock m) :
    { s with iobuf := m }.processOut = s.processOut := by
  rw [State.processOut, h.processInput_eq, State.processOut]

/-- Settles O40: a failing command changes no memory, and a successful one writes the same block over both. -/
theorem revProcessReadsOnlyItsBlock : Obligations.RevProcessReadsOnlyItsBlock := by
  unfold Obligations.RevProcessReadsOnlyItsBlock
  intro s t t' m _ hm ht ht'
  have hagree : s.agreesOnBlock m := hm
  cases herr : s.rev.processError with
  | some e =>
    obtain rfl := Host.Outcome.next.inj ((exec_revProcess_error herr).symm.trans ht)
    obtain rfl := Host.Outcome.next.inj ((exec_revProcess_error (s := { s with iobuf := m }) herr).symm.trans ht')
    exact ⟨rfl, hm⟩
  | none =>
    obtain rfl := Host.Outcome.next.inj ((exec_revProcess_ok herr).symm.trans ht)
    obtain rfl := Host.Outcome.next.inj ((exec_revProcess_ok (s := { s with iobuf := m }) herr).symm.trans ht')
    rw [State.processed, State.processed, hagree.processOut_eq]
    exact ⟨rfl, fun a ha => Memory.readByte_writeChannels_congr (hm a ha) 0 _⟩

end Sys2Proof.Machine
end

section
/-!
PROOFS. 30_encoding.md R100-R105: which words are legal at which port. A word is its three fields
(`Cmd32.toWord_ofWord`), a class assigns each OP to one command (`decodeOp_eq_some`), and the checks of `decodeAt` are lemmas about the fields.
-/

namespace Sys2Proof

/-! ## Words and fields (R100) -/

/-- The three fields are all the bits of a word. -/
theorem Cmd32.toWord_ofWord (w : Word) : (Cmd32.ofWord w).toWord = w := by
  have high : w.extractLsb' 28 4 ++ w.extractLsb' 24 4 = w.extractLsb' 24 8 :=
    BitVec.extractLsb'_append_extractLsb'_eq_extractLsb' rfl
  have all : w.extractLsb' 24 8 ++ w.extractLsb' 0 24 = w.extractLsb' 0 32 :=
    BitVec.extractLsb'_append_extractLsb'_eq_extractLsb' rfl
  rw [Cmd32.toWord, Cmd32.ofWord, high, all, BitVec.extractLsb'_eq_self]

theorem Cmd32.res0_ofWord (w : Word) : (Cmd32.ofWord w).res0.toNat = w.toNat % 2 ^ 24 := by
  simp [Cmd32.ofWord]

theorem Cmd32.cls_ofWord (w : Word) : (Cmd32.ofWord w).cls.toNat = w.toNat / 2 ^ 28 := by
  have hlt : w.toNat / 2 ^ 28 < 2 ^ 4 := by omega
  simp only [Cmd32.ofWord, BitVec.extractLsb'_toNat, Nat.shiftRight_eq_div_pow, Nat.mod_eq_of_lt hlt]

theorem Cmd32.op_ofWord (w : Word) : (Cmd32.ofWord w).op.toNat = w.toNat / 2 ^ 24 % 16 := by
  simp [Cmd32.ofWord, Nat.shiftRight_eq_div_pow]

theorem eq_encode_of_fields {w : Word} {i : Instr} (h : Cmd32.ofWord w = i.fields) : w = encode i := by
  rw [encode, ← h, Cmd32.toWord_ofWord]

/-! ## The command words (R103) -/

/-- The facts of Sys2Proof/Laws/PerInstr.lean, for every command at once. -/
theorem commandWord (i : Instr) : Laws.CommandWord.Statement i := by
  cases i with
  | dlCfg => exact Laws.CommandWord.dlCfg
  | dlRd => exact Laws.CommandWord.dlRd
  | dlRdm => exact Laws.CommandWord.dlRdm
  | dlWr => exact Laws.CommandWord.dlWr
  | dlProc => exact Laws.CommandWord.dlProc
  | dlRdb => exact Laws.CommandWord.dlRdb
  | dlWrb => exact Laws.CommandWord.dlWrb
  | dlProcb => exact Laws.CommandWord.dlProcb
  | rrsCfg => exact Laws.CommandWord.rrsCfg
  | rrsSeteps => exact Laws.CommandWord.rrsSeteps
  | rrsProc => exact Laws.CommandWord.rrsProc
  | rrsProcb => exact Laws.CommandWord.rrsProcb
  | hadMix => exact Laws.CommandWord.hadMix
  | dvnCfg => exact Laws.CommandWord.dvnCfg
  | dvnProcb => exact Laws.CommandWord.dvnProcb
  | dvnPulse => exact Laws.CommandWord.dvnPulse
  | diffCfg => exact Laws.CommandWord.diffCfg
  | diffProcb => exact Laws.CommandWord.diffProcb
  | fdnCfg => exact Laws.CommandWord.fdnCfg
  | fdnProcb => exact Laws.CommandWord.fdnProcb
  | revNop => exact Laws.CommandWord.revNop
  | revSetup => exact Laws.CommandWord.revSetup
  | revProcess => exact Laws.CommandWord.revProcess

theorem decode_encode (i : Instr) : decode (encode i) = .ok i := by
  obtain ⟨_, _, hdecode, _⟩ := commandWord i
  exact hdecode

theorem decodeAt_encode (i : Instr) : decodeAt i.cls (encode i) = .ok i := by
  obtain ⟨_, _, _, hports⟩ := commandWord i
  rw [hports, if_pos rfl]

/-- A command's OP is one that the count of R103 assigns to its class. -/
theorem Instr.op_lt_opsOfClass (i : Instr) : i.op.toNat < Cmd32.opsOfClass i.cls.code := by
  obtain ⟨hwf, _⟩ := commandWord i
  simp only [Cmd32.wf, Cmd32.opAssigned, Bool.and_eq_true, decide_eq_true_eq] at hwf
  obtain ⟨_, hop⟩ := hwf
  exact hop

/-- The command that an OP selects has that OP and is of the class that was asked. -/
theorem decodeOp_eq_some {c : Class} {op : BitVec 4} {i : Instr} (h : decodeOp c op = some i) :
    i.cls = c ∧ i.op = op := by
  unfold decodeOp at h
  split at h
  case h_24 => cases h
  all_goals
    next hop =>
    cases h
    exact ⟨rfl, BitVec.eq_of_toNat_eq hop.symm⟩

theorem decodeOp_eq_none {c : Class} {op : BitVec 4} (h : Cmd32.opsOfClass c.code ≤ op.toNat) :
    decodeOp c op = none := by
  refine Option.eq_none_iff_forall_ne_some.mpr fun i hi => ?_
  obtain ⟨rfl, rfl⟩ := decodeOp_eq_some hi
  exact absurd i.op_lt_opsOfClass (Nat.not_lt.mpr h)

/-! ## The checks of a port, in the order of R104 -/

theorem decodeAt_reservedBits (c : Class) {w : Word} (hres : (Cmd32.ofWord w).res0 ≠ 0) :
    decodeAt c w = .illegal (.reservedBits (Cmd32.ofWord w).res0) := by
  rw [decodeAt, if_pos hres]

theorem decodeAt_wrongClass {c : Class} {w : Word} (hres : (Cmd32.ofWord w).res0 = 0)
    (hcls : (Cmd32.ofWord w).cls ≠ c.code) : decodeAt c w = .illegal (.wrongClass (Cmd32.ofWord w).cls) := by
  rw [decodeAt, if_neg (not_not.mpr hres), if_pos hcls]

theorem decodeAt_unassignedOp {c : Class} {w : Word} (hres : (Cmd32.ofWord w).res0 = 0)
    (hcls : (Cmd32.ofWord w).cls = c.code) (hop : Cmd32.opsOfClass c.code ≤ (Cmd32.ofWord w).op.toNat) :
    decodeAt c w = .illegal (.unassignedOp (Cmd32.ofWord w).cls (Cmd32.ofWord w).op) := by
  rw [decodeAt, if_neg (not_not.mpr hres), if_neg (not_not.mpr hcls), decodeOp_eq_none hop]

/-- A word that passes the checks has the fields of the command it decodes to. -/
theorem fields_of_decodeAt {c : Class} {w : Word} {i : Instr} (h : decodeAt c w = .ok i) :
    i.cls = c ∧ Cmd32.ofWord w = i.fields := by
  unfold decodeAt at h
  split_ifs at h with hres hcls
  split at h
  · next j hop =>
    obtain rfl : j = i := Decoded.ok.inj h
    obtain ⟨rfl, hj⟩ := decodeOp_eq_some hop
    rw [Instr.fields, hj, ← not_not.mp hcls, ← not_not.mp hres]
    exact ⟨rfl, rfl⟩
  · cases h

/-- Decode and encode agree at a port. -/
theorem decodeAt_eq_ok_iff {c : Class} {w : Word} {i : Instr} : decodeAt c w = .ok i ↔ i.cls = c ∧ w = encode i := by
  constructor
  · intro h
    obtain ⟨hcls, hfields⟩ := fields_of_decodeAt h
    exact ⟨hcls, eq_encode_of_fields hfields⟩
  · rintro ⟨rfl, rfl⟩
    exact decodeAt_encode i

/-- Decode and encode agree at the port that the word itself names. -/
theorem decode_eq_ok_iff {w : Word} {i : Instr} : decode w = .ok i ↔ w = encode i := by
  constructor
  · intro h
    unfold decode at h
    split at h
    · obtain ⟨_, hw⟩ := decodeAt_eq_ok_iff.mp h
      exact hw
    · split_ifs at h
  · rintro rfl
    exact decode_encode i

/-- A word that is no command's of the class is illegal at its port. -/
theorem decodeAt_illegal {c : Class} {w : Word} (h : ∀ i : Instr, i.cls = c → w ≠ encode i) :
    ∃ r, decodeAt c w = .illegal r := by
  cases hdec : decodeAt c w with
  | ok i =>
    obtain ⟨hcls, hw⟩ := decodeAt_eq_ok_iff.mp hdec
    exact absurd hw (h i hcls)
  | illegal r => exact ⟨r, rfl⟩

/-- Settles O2: the two agreements, and each check with the fields as bits of the word. -/
theorem legalWordsAreExactlyTheTable : Obligations.LegalWordsAreExactlyTheTable := by
  unfold Obligations.LegalWordsAreExactlyTheTable
  refine ⟨fun _ _ _ => decodeAt_eq_ok_iff, fun _ _ => decode_eq_ok_iff, fun c w => ?_⟩
  have res0_zero : w.toNat % 2 ^ 24 = 0 ↔ (Cmd32.ofWord w).res0 = 0 := by
    rw [← Cmd32.res0_ofWord]
    exact BitVec.toNat_inj (y := 0)
  have cls_eq : w.toNat / 2 ^ 28 = c.code.toNat ↔ (Cmd32.ofWord w).cls = c.code := by
    rw [← Cmd32.cls_ofWord, BitVec.toNat_inj]
  rw [Ne, Ne, res0_zero, cls_eq, ← Cmd32.op_ofWord]
  exact ⟨fun hres => ⟨_, decodeAt_reservedBits c hres⟩, fun hres hcls => ⟨_, decodeAt_wrongClass hres hcls⟩,
    fun hres hcls hop => ⟨_, _, decodeAt_unassignedOp hres hcls hop⟩⟩

/-- Settles O1: each literal is its command's word. -/
theorem tableWordsDecode : Obligations.TableWordsDecode := by
  unfold Obligations.TableWordsDecode
  exact ⟨decodeAt_encode .dlCfg, decodeAt_encode .dlRd, decodeAt_encode .dlRdm, decodeAt_encode .dlWr,
    decodeAt_encode .dlProc, decodeAt_encode .dlRdb, decodeAt_encode .dlWrb, decodeAt_encode .dlProcb,
    decodeAt_encode .rrsCfg, decodeAt_encode .rrsSeteps, decodeAt_encode .rrsProc, decodeAt_encode .rrsProcb,
    decodeAt_encode .hadMix, decodeAt_encode .dvnCfg, decodeAt_encode .dvnProcb, decodeAt_encode .dvnPulse,
    decodeAt_encode .diffCfg, decodeAt_encode .diffProcb, decodeAt_encode .fdnCfg, decodeAt_encode .fdnProcb,
    decodeAt_encode .revNop, decodeAt_encode .revSetup, decodeAt_encode .revProcess⟩

end Sys2Proof
end

section
/-!
PROOFS. 30_encoding.md R104, R105, R109, 45_reverb_top.md R260: what a step does with a command word that is presented at a
module port or in flight at REV. A due step is `runRevWord` of the word in flight (`step_of_due`); a step that takes a
statement is `step_of_program`.
-/

namespace Sys2Proof.Machine

/-! ## A word at its port -/

theorem runModuleWord_encode (s : State) {p : ModPort} {i : Instr} (h : i.cls = p.cls) :
    runModuleWord s p (encode i) = exec i s := by
  rw [runModuleWord, ← h, decodeAt_encode]

theorem runRevWord_encode (s : State) {i : Instr} (h : i.cls = .rev) : runRevWord s (encode i) = exec i s := by
  rw [runRevWord, ← h, decodeAt_encode]

theorem runModuleWord_illegal (s : State) {p : ModPort} {w : Word} (h : ∀ i : Instr, i.cls = p.cls → w ≠ encode i) :
    runModuleWord s p w = .next (s.failAt .illegalCmd p.cls) := by
  obtain ⟨r, hr⟩ := decodeAt_illegal h
  rw [runModuleWord, hr, illegalAt_eq_failAt]

theorem runRevWord_illegal (s : State) {w : Word} (h : ∀ i : Instr, i.cls = .rev → w ≠ encode i) :
    runRevWord s w = .next (s.failAt .illegalCmd .rev) := by
  obtain ⟨r, hr⟩ := decodeAt_illegal h
  rw [runRevWord, hr, State.failAt]

/-! ## When the word in flight at REV runs (log 23) -/

theorem revDue_iff {s : State} : s.revDue = true ↔ s.rev.pending ≠ none ∧ (s.busyLeft = 0 ∨ s.program = []) := by
  simp [State.revDue, Rev.busy, Option.isSome_iff_ne_none]

/-- A word in flight whose time has come runs at the REV port. -/
theorem step_of_due {s : State} {w : Word} (hpend : s.rev.pending = some w) (hdue : s.busyLeft = 0 ∨ s.program = []) :
    step s = runRevWord s w := by
  rw [step, if_pos (revDue_iff.mpr ⟨by simp [hpend], hdue⟩), runPending, hpend]

theorem step_encode_of_due {s : State} {i : Instr} (hpend : s.rev.pending = some (encode i)) (hcls : i.cls = .rev)
    (hdue : s.busyLeft = 0 ∨ s.program = []) : step s = exec i s := by
  rw [step_of_due hpend hdue, runRevWord_encode s hcls]

/-- A statement comes first while host-observable steps are left. -/
theorem revDue_of_stepsLeft {s : State} {st : HostStmt} {rest : List HostStmt} (hprog : s.program = st :: rest)
    (hleft : s.busyLeft ≠ 0) : s.revDue = false := by
  rw [← Bool.not_eq_true, revDue_iff]
  simp [hprog, hleft]

/-- Settles O3: at a module port and at REV an illegal word is a failure with ILLEGAL_CMD. -/
theorem illegalWordsOnlyReport : Obligations.IllegalWordsOnlyReport := by
  unfold Obligations.IllegalWordsOnlyReport
  refine ⟨fun s p w rest hdue hprog hill => ?_, fun s w hpend hdue hill => ?_⟩
  · have hstep : step s = .next ((s.popStmt rest).failAt .illegalCmd p.cls) := by
      rw [step_of_program hdue hprog, runStmt, runModuleWord_illegal _ hill]
    exact ⟨_, hstep, portErr_failAt _ _ _, onlyResults_failAt (s.popStmt rest) _ _,
      sameMemory_failAt (s.popStmt rest) _ _⟩
  · have hstep : step s = .next (s.failAt .illegalCmd .rev) := by
      rw [step_of_due hpend hdue, runRevWord_illegal s hill]
    exact ⟨_, hstep, portErr_failAt s _ .rev, onlyResults_failAt s _ _, sameMemory_failAt s _ _⟩

/-! ## WAIT while a command is in flight (R109) -/

/-- STATUS has been read, and `k` host-observable steps are left. -/
def State.polled (s : State) (k : Nat) : State := { s with busyLeft := k, reply := .read .okay s.rev.statusWord }

/-- A step of WAIT with steps left counts one down and stands. -/
theorem step_wait_busy {s : State} {rest : List HostStmt} {k : Nat} (hpend : s.rev.pending ≠ none)
    (hprog : s.program = .wait :: rest) (hleft : s.busyLeft = k + 1) : step s = .next (s.polled k) := by
  have hdue : s.revDue = false := revDue_of_stepsLeft hprog (by omega)
  have hcount : s.busyLeft - 1 = k := by omega
  rw [step_of_program hdue hprog, runStmt, waitStep_busy (s := s.popStmt rest) hpend, State.polled, ← hcount]
  exact congrArg (fun p => Host.Outcome.next ((s.popStmt rest).readStatus.setProgram p)) hprog.symm

theorem run_succ (M : Host.Core) {s t : M.State} (k : Nat) (h : M.step s = .next t) : M.run (k + 1) s = M.run k t := by
  rw [Host.Core.run, h]

/-- The steps of WAIT up to the time of the command in flight, one after the other. -/
theorem run_wait_busy {s : State} {rest : List HostStmt} {k : Nat} (hpend : s.rev.pending ≠ none)
    (hprog : s.program = .wait :: rest) (hleft : s.busyLeft = k) :
    Host.Core.run Sys2Proof.core k s =
      .next { s with busyLeft := 0, reply := if k = 0 then s.reply else .read .okay s.rev.statusWord } := by
  induction k generalizing s with
  | zero =>
    have hs : s = { s with busyLeft := 0 } := by rw [← hleft]
    exact congrArg Host.Outcome.next hs
  | succ k ih =>
    have hfirst : Host.Core.run Sys2Proof.core (k + 1) s = Host.Core.run Sys2Proof.core k (s.polled k) :=
      run_succ _ k (step_wait_busy hpend hprog hleft)
    have hreply : (if k = 0 then (s.polled k).reply else .read .okay s.rev.statusWord) =
        .read .okay s.rev.statusWord := ite_self _
    rw [hfirst, ih (s := s.polled k) hpend hprog rfl, if_neg k.succ_ne_zero, ← hreply]
    rfl

/-- Settles O54: the countdown of WAIT leaves the command due. -/
theorem waitSeesTheCommandThrough : Obligations.WaitSeesTheCommandThrough := by
  unfold Obligations.WaitSeesTheCommandThrough
  intro s rest i k hpend hcls hprog hleft
  refine ⟨_, run_wait_busy (by simp [hpend]) hprog hleft, rfl, fun hk => if_neg (Nat.ne_of_gt hk),
    step_encode_of_due hpend hcls (.inl rfl)⟩

/-! ## A word loaded from outside (log 11) -/

theorem withFetchWord_encode (s : State) (i : Instr) :
    s.withFetchWord 32 (encode i).toNat = s.presentWord (encode i) := by
  rw [State.withFetchWord, Nat.mod_eq_of_lt (encode i).isLt, BitVec.ofNat_toNat, BitVec.setWidth_eq]

/-- CLASS of a command's word names the command's class (R102). -/
theorem ofCode_encode (i : Instr) : Class.ofCode (Cmd32.ofWord (encode i)).cls = some i.cls := by
  obtain ⟨_, hfields, _⟩ := commandWord i
  rw [hfields, Instr.fields]
  cases i.cls <;> rfl

/-- Every class but REV has a module port. -/
theorem exists_port {c : Class} (h : c ≠ .rev) : ∃ p : ModPort, c = p.cls := by
  cases c with
  | dl => exact ⟨.dl, rfl⟩
  | rrs => exact ⟨.rrs, rfl⟩
  | had => exact ⟨.had, rfl⟩
  | dvn => exact ⟨.dvn, rfl⟩
  | diff => exact ⟨.diff, rfl⟩
  | fdn => exact ⟨.fdn, rfl⟩
  | rev => exact absurd rfl h

/-- A module command's word is presented at the port of its class. -/
theorem presentWord_encode (s : State) {p : ModPort} {i : Instr} (h : i.cls = p.cls) :
    s.presentWord (encode i) =
      { s with program := .issue p (encode i) :: s.program, busyLeft := s.busyLeft + 1 } := by
  rw [State.presentWord, portOfWord, ofCode_encode, h]
  cases p <;> rfl

/-- A REV command's word is put in flight, with no time left. -/
theorem presentWord_encode_rev (s : State) {i : Instr} (h : i.cls = .rev) :
    s.presentWord (encode i) = { s with rev := { s.rev with pending := some (encode i) }, busyLeft := 0 } := by
  rw [State.presentWord, portOfWord, ofCode_encode, h]

/-- Settles O4: the word is presented at a port or in flight, and decodes to the command there. -/
theorem stepRunsThePresentedCommand : Obligations.StepRunsThePresentedCommand := by
  unfold Obligations.StepRunsThePresentedCommand
  refine ⟨fun s p rest i hdue hprog hcls => ?_, fun s i hpend hcls hdue => ?_, fun s i hcls => ?_, fun s i hcls => ?_⟩
  · rw [step_of_program hdue hprog, runStmt, runModuleWord_encode _ hcls, State.popStmt]
  · exact step_encode_of_due hpend hcls hdue
  · obtain ⟨p, hp⟩ := exists_port hcls
    rw [withFetchWord_encode, presentWord_encode s hp,
      step_of_program (revDue_of_stepsLeft rfl (Nat.succ_ne_zero _)) rfl, runStmt, runModuleWord_encode _ hp]
    rfl
  · rw [withFetchWord_encode, presentWord_encode_rev s hcls, step_encode_of_due rfl hcls (.inl rfl)]

end Sys2Proof.Machine
end

section
/-!
PROOFS. 40_delay_line.md R130-R141: what each DL command answers, and what the line holds after any sequence of them. A
block write and a comb block are single writes in order, so one fact, the ages after several writes, carries the round-trip
law and the block law.
-/

namespace Sys2Proof.Machine

/-! ## Outcomes with an error -/

theorem fails_of_failAt {i : Instr} {s : State} {e : Err} (h : exec i s = .next (s.failAt e i.cls)) : fails i s e :=
  ⟨_, h, portErr_failAt s e i.cls, onlyResults_failAt s e i.cls, sameMemory_failAt s e i.cls⟩

/-- A command that fails does not leave the code 0 at its port. -/
theorem fails.portErr_ne_zero {i : Instr} {s u : State} {e : Err} (hf : fails i s e) (h : exec i s = .next u) :
    u.portErr i.cls ≠ 0 := by
  obtain ⟨t, ht, hcode, _, _⟩ := hf
  obtain rfl : t = u := Host.Outcome.next.inj (ht.symm.trans h)
  rw [hcode]
  exact e.code_ne_zero

/-! ## DL.CFG -/

theorem exec_dlCfg (s : State) :
    exec .dlCfg s = s.failOr .dl (Dl.cfgError s.dlIn.m.toNat s.dlIn.maxblk.toNat)
      (s.putDl (.build s.dlIn.m.toNat s.dlIn.maxblk.toNat (gainOperand s.dlIn.g)) (.done s.draws)) := rfl

theorem fails_dlCfg {s : State} {e : Err} (h : Dl.cfgError s.dlIn.m.toNat s.dlIn.maxblk.toNat = some e) :
    fails .dlCfg s e := fails_of_failAt (by rw [exec_dlCfg, h]; rfl)

theorem exec_dlCfg_ok {s : State} (h : Dl.cfgError s.dlIn.m.toNat s.dlIn.maxblk.toNat = none) :
    exec .dlCfg s = .next
      (s.putDl (.build s.dlIn.m.toNat s.dlIn.maxblk.toNat (gainOperand s.dlIn.g)) (.done s.draws)) := by
  rw [exec_dlCfg, h]
  rfl

theorem Dl.cfgError_invalidArg {m maxblk : Nat} (h : m = 0 ∨ maxblk = 0) : Dl.cfgError m maxblk = some .invalidArg :=
  if_pos h

theorem Dl.cfgError_capacity {m maxblk : Nat} (hm : m ≠ 0) (hb : maxblk ≠ 0)
    (h : Config.maxblkCap < maxblk ∨ Config.dlCap < m + maxblk) : Dl.cfgError m maxblk = some .capacity := by
  rw [Dl.cfgError, if_neg (by omega), if_pos h]

theorem toNat_ne_zero {v : Word} (h : v ≠ 0) : v.toNat ≠ 0 := fun h0 => h (BitVec.eq_of_toNat_eq h0)

/-- Settles O6: one clause for each outcome of `Dl.cfgError`. -/
theorem dlCfgBuildsTheLine : Obligations.DlCfgBuildsTheLine := by
  unfold Obligations.DlCfgBuildsTheLine
  refine fun s => ⟨fun h => ?_, fun hm hb h => ?_, fun hm hb hcap hdl => ?_⟩
  · have hzero : s.dlIn.m.toNat = 0 ∨ s.dlIn.maxblk.toNat = 0 := h.imp (congrArg BitVec.toNat) (congrArg BitVec.toNat)
    exact fails_dlCfg (Dl.cfgError_invalidArg hzero)
  · exact fails_dlCfg (Dl.cfgError_capacity (toNat_ne_zero hm) (toNat_ne_zero hb) h)
  · have hok := Dl.cfgError_none.mpr
      ⟨Nat.pos_of_ne_zero (toNat_ne_zero hm), Nat.pos_of_ne_zero (toNat_ne_zero hb), hcap, hdl⟩
    exact ⟨_, exec_dlCfg_ok hok, onlyDl_put s _ _, rfl, Dl.fresh_build _ _ _⟩

/-! ## The other commands on a configured line -/

section Configured

variable {s : State} (hc : s.dl.cfg = true)
include hc

theorem not_unconfigured : ¬ s.dl.cfg = false := by simp [hc]

theorem exec_dlRd (h : s.dlIn.tau.toNat ≤ s.dl.m) :
    exec .dlRd s = .next (s.putDl s.dl (.sample s.draws (s.dl.age s.dlIn.tau.toNat))) := by
  rw [exec, execDlRd, if_neg (not_unconfigured hc), if_neg (by omega)]

theorem fails_dlRd (h : s.dl.m < s.dlIn.tau.toNat) : fails .dlRd s .bounds :=
  fails_of_failAt (by rw [exec, execDlRd, if_neg (not_unconfigured hc), if_pos h]; rfl)

theorem exec_dlRdm : exec .dlRdm s = .next (s.putDl s.dl (.sample s.draws (s.dl.age s.dl.m))) := by
  rw [exec, execDlRdm, if_neg (not_unconfigured hc)]

theorem exec_dlWr : exec .dlWr s = .next (s.putDl (s.dl.push s.dlIn.x) (.done s.draws)) := by
  rw [exec, execDlWr, if_neg (not_unconfigured hc)]

theorem exec_dlProc :
    exec .dlProc s = .next (s.putDl (s.dl.push (s.dl.combOut s.draws s.dlIn.x))
      (.sample s.draws (s.dl.combOut s.draws s.dlIn.x))) := by
  rw [exec, execDlProc, if_neg (not_unconfigured hc)]

theorem exec_dlRdb (htau : s.dlIn.tau.toNat ≤ s.dl.m) (hn : s.dlIn.n.toNat ≤ s.dl.maxblk) :
    exec .dlRdb s = .next (s.putDl s.dl (.block s.draws (s.dl.readBlock s.dlIn.tau.toNat s.dlIn.n.toNat))) := by
  rw [exec, execDlRdb, if_neg (not_unconfigured hc), if_neg (by omega), if_neg (by omega)]

/-- The check of `TAU` and the check of `N` report one code. -/
theorem fails_dlRdb (h : s.dl.m < s.dlIn.tau.toNat ∨ s.dl.maxblk < s.dlIn.n.toNat) : fails .dlRdb s .bounds := by
  refine fails_of_failAt ?_
  rw [exec, execDlRdb, if_neg (not_unconfigured hc)]
  by_cases htau : s.dl.m < s.dlIn.tau.toNat
  · rw [if_pos htau]; rfl
  · rw [if_neg htau, if_pos (h.resolve_left htau)]; rfl

theorem exec_dlWrb (h : s.dlIn.n.toNat ≤ s.dl.maxblk) :
    exec .dlWrb s = .next
      (s.putDl (s.dl.writeBlock (takeVec s.draws 0 0 s.dlIn.n.toNat s.dlIn.blk)) (.done s.draws)) := by
  rw [exec, execDlWrb, if_neg (not_unconfigured hc), if_neg (by omega)]

theorem fails_dlWrb (h : s.dl.maxblk < s.dlIn.n.toNat) : fails .dlWrb s .bounds :=
  fails_of_failAt (by rw [exec, execDlWrb, if_neg (not_unconfigured hc), if_pos h]; rfl)

theorem exec_dlProcb (h : s.dlIn.n.toNat ≤ s.dl.maxblk) :
    exec .dlProcb s = .next
      (s.putDl (s.dl.combBlock s.draws (takeVec s.draws 0 0 s.dlIn.n.toNat s.dlIn.blk)).2
        (.block s.draws (s.dl.combBlock s.draws (takeVec s.draws 0 0 s.dlIn.n.toNat s.dlIn.blk)).1)) := by
  rw [exec, execDlProcb, if_neg (not_unconfigured hc), if_neg (by omega)]

theorem fails_dlProcb (h : s.dl.maxblk < s.dlIn.n.toNat) : fails .dlProcb s .bounds :=
  fails_of_failAt (by rw [exec, execDlProcb, if_neg (not_unconfigured hc), if_pos h]; rfl)

end Configured

/-! ## Reads and single writes -/

/-- Settles O7: an age is a slot by definition (R130). -/
theorem dlReadsReturnTheAgedSample : Obligations.DlReadsReturnTheAgedSample := by
  unfold Obligations.DlReadsReturnTheAgedSample
  exact fun s hc => ⟨fails_dlRd hc, fun h => ⟨_, exec_dlRd hc h, onlyDl_put s _ _, rfl, rfl, rfl⟩,
    _, exec_dlRdm hc, onlyDl_put s _ _, rfl, rfl, rfl⟩

/-- Settles O8: `Dl.wrote` holds of the line after `Dl.push`. -/
theorem dlWrFillsTheCursorSlot : Obligations.DlWrFillsTheCursorSlot := by
  unfold Obligations.DlWrFillsTheCursorSlot
  intro s hc
  obtain ⟨hline, hring⟩ := Dl.wrote_push s.dl s.dlIn.x
  exact ⟨_, exec_dlWr hc, onlyDl_put s _ _, rfl, hline, hring⟩

/-- Settles O9: the comb's output is what is stored. -/
theorem dlProcIsTheComb : Obligations.DlProcIsTheComb := by
  unfold Obligations.DlProcIsTheComb
  intro s hc
  obtain ⟨hline, hring⟩ := Dl.wrote_push s.dl (s.dl.combOut s.draws s.dlIn.x)
  exact ⟨_, exec_dlProc hc, onlyDl_put s _ _, rfl, rfl, hline, hring⟩

/-! ## Blocks -/

/-- The ring of a configured, well-formed line is longer than a block (R132, 10_state.md R45). -/
theorem Dl.wf.bounds {d : Dl} (h : d.wf) (hc : d.cfg = true) : d.w < d.b ∧ d.m < d.b ∧ d.maxblk < d.b := by
  obtain ⟨hm, hmaxblk, _, hb, _, hw, _⟩ := h hc
  omega

/-- Settles O10: the block read goes up from the slot of its oldest sample. -/
theorem dlRdbReturnsTheSpan : Obligations.DlRdbReturnsTheSpan := by
  unfold Obligations.DlRdbReturnsTheSpan
  refine fun s hc hwf => ⟨fails_dlRdb hc, fun htau hn => ?_⟩
  obtain ⟨hw, _, _⟩ := hwf.bounds hc
  refine ⟨_, exec_dlRdb hc htau hn, onlyDl_put s _ _, rfl, rfl, Dl.readBlock_length _ _ _, fun j hj => ?_⟩
  rw [Int.emod_add_emod]
  exact Dl.readBlock_at (Nat.zero_lt_of_lt hw) _ _ j hj

/-- After a block write the samples of the block have the ages from its length down to 0 (R131, R138). -/
theorem Dl.age_writeBlock {d : Dl} (hw : d.w < d.b) {xs : List F32} (hlen : xs.length ≤ d.b) {j : Nat} {x : F32}
    (hx : xs[j]? = some x) : (d.writeBlock xs).age (xs.length - 1 - j) = x := by
  obtain ⟨hj, rfl⟩ := List.getElem?_eq_some_iff.mp hx
  rw [Dl.writeBlock_eq_foldl hw, Dl.age_foldl hw xs _ (by omega), if_pos (by omega),
    show xs.length - 1 - (xs.length - 1 - j) = j by omega, List.getD_eq_getElem _ _ hj]

/-- A slot `j mod B` of the line after a block write, counted from the cursor after it. -/
theorem Dl.at_writeBlock (d : Dl) (hb : 0 < d.b) (xs : List F32) (j : Int) :
    (d.writeBlock xs).at ((d.writeBlock xs).w + j) = (d.writeBlock xs).at ((d.w : Int) + xs.length + j) := by
  rw [Dl.writeBlock_w, Dl.slot_of_b (Dl.writeBlock_b d xs).symm]
  exact Dl.at_slot_add (d := d.writeBlock xs) hb _ _

/-- A block write fills the slots from the cursor on (R138). -/
theorem Dl.read_writeBlock {d : Dl} (hw : d.w < d.b) {xs : List F32} (hlen : xs.length ≤ d.b) {j : Nat} {x : F32}
    (hx : xs[j]? = some x) : (d.writeBlock xs).ring.read ((d.w + j) % d.b) = x := by
  obtain ⟨hj, _⟩ := List.getElem?_eq_some_iff.mp hx
  calc (d.writeBlock xs).ring.read ((d.w + j) % d.b)
      = (d.writeBlock xs).at ((d.w : Int) + xs.length + (-1 - ((xs.length - 1 - j : Nat) : Int))) := by
        rw [← Dl.writeBlock_b d xs, ← Dl.slot_natCast_mod, Dl.at]
        congr 2
        omega
    _ = (d.writeBlock xs).age (xs.length - 1 - j) := by
        rw [← Dl.at_writeBlock d (Nat.zero_lt_of_lt hw), Dl.age_eq_at, Int.sub_sub, Int.add_comm 1]
        congr 1
        omega
    _ = x := Dl.age_writeBlock hw hlen hx

/-- A block write fills no slot but those of the block (R138). -/
theorem Dl.read_writeSlots_outside {d : Dl} {i : Nat} {xs : List F32} {r : Ring} {k : Nat}
    (hk : ∀ j, j < xs.length → k ≠ d.slot ((d.w : Int) + ((i + j : Nat) : Int))) :
    (d.writeSlots i xs r).read k = r.read k := by
  induction xs generalizing i r with
  | nil => rfl
  | cons x xs ih =>
    have hfirst : k ≠ d.slot ((d.w : Int) + i) := hk 0 (by simp)
    rw [Dl.writeSlots, ih fun j hj => by simpa [Nat.add_assoc, Nat.add_comm 1] using hk (j + 1) (by simpa using hj),
      Ring.read_write, if_neg hfirst]

theorem Dl.read_writeBlock_outside {d : Dl} {xs : List F32} {k : Nat}
    (hk : ∀ j, j < xs.length → k ≠ (d.w + j) % d.b) : (d.writeBlock xs).ring.read k = d.ring.read k := by
  refine Dl.read_writeSlots_outside fun j hj => ?_
  rw [Nat.zero_add, ← Int.natCast_add, Dl.slot_natCast_mod]
  exact hk j hj

/-- Settles O11: `N` is at most `MAXBLK`, so the block does not overlap itself in the ring. -/
theorem dlWrbFillsTheBlock : Obligations.DlWrbFillsTheBlock := by
  unfold Obligations.DlWrbFillsTheBlock
  refine fun s hc hwf => ⟨fails_dlWrb hc, fun hn => ?_⟩
  obtain ⟨hw, _, hmaxblk⟩ := hwf.bounds hc
  have hlen : (takeVec s.draws 0 0 s.dlIn.n.toNat s.dlIn.blk).length = s.dlIn.n.toNat := takeVec_length _ _ _ _ _
  refine ⟨_, _, takeVec_operandVec s.draws 0 _ _, exec_dlWrb hc hn, onlyDl_put s _ _, rfl, ?_,
    fun j x hx => Dl.read_writeBlock hw (by omega) hx, fun k _ hk => Dl.read_writeBlock_outside (by rwa [hlen])⟩
  rw [State.putDl_dl, Dl.writeBlock, ← Int.natCast_add, Dl.slot_natCast_mod, hlen]

/-- Settles O12: `Dl.combBlock` is the comb form, sample by sample. -/
theorem dlProcbCombsInOrder : Obligations.DlProcbCombsInOrder := by
  unfold Obligations.DlProcbCombsInOrder
  exact fun s hc => ⟨fails_dlProcb hc, fun hn => ⟨_, _, takeVec_operandVec s.draws 0 _ _, exec_dlProcb hc hn,
    onlyDl_put s _ _, rfl, Dl.combedAll_combBlock _ _ _⟩⟩

theorem DlOperands.length_of_wf {o : DlOperands} (h : o.wf = true) : o.blk.length = o.n.toNat := by
  simpa [DlOperands.wf] using h

/-- A vector operand of `N` samples is taken whole. -/
theorem DlOperands.takeVec_of_wf {o : DlOperands} (h : o.wf = true) (draw : Nat) :
    takeVec draw 0 0 o.n.toNat o.blk = o.blk := by
  rw [← DlOperands.length_of_wf h, takeVec_of_length]

/-- The block law of the line (R141). -/
theorem Dl.readBlock_writeBlock {d : Dl} (hw : d.w < d.b) {xs : List F32} (hlen : xs.length ≤ d.b) :
    (d.writeBlock xs).readBlock 0 xs.length = xs := by
  refine List.ext_getElem? fun j => ?_
  by_cases hj : j < xs.length
  · have hx : xs[j]? = some xs[j] := List.getElem?_eq_getElem hj
    rw [Dl.readBlock_get (d := d.writeBlock xs) (Nat.zero_lt_of_lt hw) 0 _ j hj, Nat.zero_add,
      Dl.age_writeBlock hw hlen hx, hx]
  · rw [List.getElem?_eq_none (by simpa using hj), List.getElem?_eq_none (by simpa using hj)]

/-- Settles O14: the two commands are the block write and the block read of the line. -/
theorem blockLaw : Obligations.BlockLaw := by
  unfold Obligations.BlockLaw
  intro s hc hwf ho hn
  obtain ⟨hw, _, hmaxblk⟩ := hwf.bounds hc
  have hlen := DlOperands.length_of_wf ho
  refine ⟨_, _, exec_dlWrb hc hn, rfl, exec_dlRdb hc (Nat.zero_le _) hn, rfl, ?_⟩
  show (s.dl.writeBlock (takeVec s.draws 0 0 s.dlIn.n.toNat s.dlIn.blk)).readBlock 0 s.dlIn.n.toNat = s.dlIn.blk
  rw [DlOperands.takeVec_of_wf ho, ← hlen]
  exact Dl.readBlock_writeBlock hw (by omega)

/-! ## Histories of writes (R140) -/

/-- The comb form over a block writes what it returns (R136, R139). -/
theorem Dl.combBlock_line (draw : Nat) (d : Dl) (xs : List F32) :
    (d.combBlock draw xs).2 = (d.combBlock draw xs).1.foldl Dl.push d := by
  induction xs generalizing d with
  | nil => rfl
  | cons x xs ih => exact ih (d.push (d.combOut draw x))

/-- A read, successful or not, leaves the line as it was. -/
theorem dl_of_read {s u : State} {i : Instr} (hi : i = .dlRd ∨ i = .dlRdm ∨ i = .dlRdb) (h : exec i s = .next u) :
    u.dl = s.dl := by
  rcases hi with rfl | rfl | rfl
  · rw [exec, execDlRd] at h
    split_ifs at h <;> cases h <;> rfl
  · rw [exec, execDlRdm] at h
    split_ifs at h <;> cases h <;> rfl
  · rw [exec, execDlRdb] at h
    split_ifs at h <;> cases h <;> rfl

/-- A successful DL.WRB is single writes of its block, in order (R138). -/
theorem dl_of_dlWrb {s u : State} (hc : s.dl.cfg = true) (hw : s.dl.w < s.dl.b) (ho : s.dlIn.wf = true)
    (h : exec .dlWrb s = .next u) (herr : u.dlOut.err = 0) : u.dl = s.dlIn.blk.foldl Dl.push s.dl := by
  by_cases hn : s.dlIn.n.toNat ≤ s.dl.maxblk
  · obtain rfl := Host.Outcome.next.inj ((exec_dlWrb hc hn).symm.trans h)
    rw [State.putDl_dl, DlOperands.takeVec_of_wf ho, Dl.writeBlock_eq_foldl hw]
  · exact absurd herr ((fails_dlWrb hc (by omega)).portErr_ne_zero h)

/-- A successful DL.PROCB is single writes of the block it returns, in order (R139). -/
theorem dl_of_dlProcb {s u : State} (hc : s.dl.cfg = true) (h : exec .dlProcb s = .next u) (herr : u.dlOut.err = 0) :
    u.dl = u.dlOut.blkOut.foldl Dl.push s.dl := by
  by_cases hn : s.dlIn.n.toNat ≤ s.dl.maxblk
  · obtain rfl := Host.Outcome.next.inj ((exec_dlProcb hc hn).symm.trans h)
    exact Dl.combBlock_line _ _ _
  · exact absurd herr ((fails_dlProcb hc (by omega)).portErr_ne_zero h)

/-- Whatever commands write them, the writes of a history are single writes, in order. -/
theorem DlHistory.dl_eq_foldl {s t : State} {xs : List F32} (h : DlHistory s xs t) (hc : s.dl.cfg = true)
    (hwf : s.dl.wf) : t.dl = xs.foldl Dl.push s.dl := by
  have hsized : ∀ ys : List F32, (ys.foldl Dl.push s.dl).sized s.dl.m s.dl.maxblk := Dl.sized_foldl (hwf.sized hc)
  have configured : ∀ {ys : List F32} {t : State}, t.dl = ys.foldl Dl.push s.dl → t.dl.cfg = true :=
    fun ht => ht ▸ (hsized _).1
  induction h with
  | start => rfl
  | @wr xs t u o _ hexec _ ih =>
    obtain rfl := Host.Outcome.next.inj ((exec_dlWr (s := { t with dlIn := o }) (configured ih)).symm.trans hexec)
    rw [List.foldl_append, ← ih]
    rfl
  | @proc xs t u o _ hexec _ ih =>
    obtain rfl := Host.Outcome.next.inj ((exec_dlProc (s := { t with dlIn := o }) (configured ih)).symm.trans hexec)
    rw [List.foldl_append, ← ih]
    rfl
  | @wrb xs t u o _ ho hexec herr ih =>
    have hw : t.dl.w < t.dl.b := by
      rw [ih, Dl.foldl_push_b]
      exact Dl.foldl_push_w (hwf.bounds hc).1 xs
    rw [List.foldl_append, ← ih]
    exact dl_of_dlWrb (s := { t with dlIn := o }) (configured ih) hw ho hexec herr
  | @procb xs t u o _ hexec herr ih =>
    rw [List.foldl_append, ← ih]
    exact dl_of_dlProcb (s := { t with dlIn := o }) (configured ih) hexec herr
  | read o i _ hi hexec ih => exact (dl_of_read hi hexec).trans ih

/-- A read after a history returns one of its writes, or what an older age held before it. -/
theorem DlHistory.rd_returns {s t : State} {xs : List F32} (h : DlHistory s xs t) (hc : s.dl.cfg = true) (hwf : s.dl.wf)
    {tau : Word} (htau : tau.toNat ≤ t.dl.m) :
    ∃ u, exec .dlRd { t with dlIn := { t.dlIn with tau := tau } } = .next u ∧ u.dlOut.err = 0 ∧
      u.dlOut.y = if tau.toNat < xs.length then xs.getD (xs.length - 1 - tau.toNat) 0
        else s.dl.age (tau.toNat - xs.length) := by
  have hdl := h.dl_eq_foldl hc hwf
  obtain ⟨hcfg, hm, _, _⟩ : t.dl.sized s.dl.m s.dl.maxblk := hdl ▸ Dl.sized_foldl (hwf.sized hc) xs
  obtain ⟨hw, hmb, _⟩ := hwf.bounds hc
  refine ⟨_, exec_dlRd (s := { t with dlIn := { t.dlIn with tau := tau } }) hcfg htau, rfl, ?_⟩
  rw [← Dl.age_foldl hw xs _ (by omega), ← hdl]
  rfl

/-- What a successful DL.CFG leaves (R132). -/
theorem dl_of_dlCfg {s u : State} (h : exec .dlCfg s = .next u) (herr : u.dlOut.err = 0) :
    u.dl = .build s.dlIn.m.toNat s.dlIn.maxblk.toNat (gainOperand s.dlIn.g) ∧ u.dl.wf := by
  cases hchk : Dl.cfgError s.dlIn.m.toNat s.dlIn.maxblk.toNat with
  | some e => exact absurd herr ((fails_dlCfg hchk).portErr_ne_zero h)
  | none =>
    obtain rfl := Host.Outcome.next.inj ((exec_dlCfg_ok hchk).symm.trans h)
    exact ⟨rfl, Dl.wf_build hchk _⟩

/-- Settles O13: a read within the writes sees one of them, and beyond them the zeros of DL.CFG. -/
theorem roundTripLaw : Obligations.RoundTripLaw := by
  unfold Obligations.RoundTripLaw
  refine ⟨fun s t xs tau hc hwf hist htau hlt => ?_, fun s s0 t xs tau hcfg herr hist htau hge => ?_⟩
  · obtain ⟨u, hexec, hok, hy⟩ := hist.rd_returns hc hwf htau
    refine ⟨u, hexec, hok, ?_⟩
    rw [hy, if_pos hlt, List.getD_eq_getElem _ _ (by omega), List.getElem?_eq_getElem (by omega)]
  · obtain ⟨hbuild, hwf⟩ := dl_of_dlCfg hcfg herr
    obtain ⟨u, hexec, hok, hy⟩ := hist.rd_returns (by rw [hbuild]; rfl) hwf htau
    refine ⟨u, hexec, hok, ?_⟩
    rw [hy, if_neg (by omega), hbuild]
    rfl

end Sys2Proof.Machine
end

section
/-!
PROOFS. 41_rrs_filter.md R160-R166: what each RRS command answers, and the impulse response of a filter. A history of
commands is a run of single steps of the recurrence, so that sample `n` of its output is one line of R160 on the samples
`n`, `n - W` and `n - 1`; that every sample of the impulse response is at most 1 in magnitude keeps the arithmetic finite.
-/

namespace Sys2Proof.Machine

/-! ## Values between -1.0 and 1.0 -/

/-- A value from `-1.0` to `1.0`: magnitude bits order the magnitudes. -/
def AtMostOne (x : F32) : Prop := F32.mag x ≤ F32.mag 0x3F800000

/-- A value from `+0.0` to `1.0`, as the coefficients of R161 are. -/
structure FromZeroToOne (x : F32) : Prop where
  nonneg : F32.neg x = false
  atMostOne : AtMostOne x

theorem units_one : F32.units 0x3F800000 = 2 ^ 149 := by decide +kernel

theorem atMostOne_iff_units {x : F32} : AtMostOne x ↔ F32.units x ≤ 2 ^ 149 := by
  rw [← units_one, ← not_lt, F32.units_lt_iff, not_lt, AtMostOne]

theorem AtMostOne.isFinite {x : F32} (h : AtMostOne x) : F32.isFinite x = true :=
  (F32.isFinite_iff x).mpr (lt_of_le_of_lt h (by decide))

@[simp] theorem atMostOne_negate {x : F32} : AtMostOne (F32.negate x) ↔ AtMostOne x := by simp [AtMostOne]

theorem atMostOne_zero : AtMostOne 0 := Nat.zero_le _

/-- Rounding does not pass a value of the format that bounds what is rounded. -/
theorem roundMag_le_of_le_magUnits {n d m : Nat} (hd : 0 < d) (h : n ≤ magUnits m * d) : roundMag n d ≤ m := by
  rw [roundMag_eq_min]
  refine (Nat.min_le_left _ _).trans (not_lt.mp fun hlt => ?_)
  have hmid := (midpoint_le_of_lt_nearestMag hd hlt).1
  have hstep := Nat.mul_lt_mul_of_pos_right (magUnits_strictMono hlt) hd
  omega

theorem atMostOne_pack (s : Bool) {n d : Nat} (hd : 0 < d) (h : n ≤ 2 ^ 149 * d) :
    AtMostOne (F32.pack s (roundMag n d)) := by
  rw [AtMostOne, F32.mag_pack s (roundMag_lt_two_pow n d)]
  exact roundMag_le_of_le_magUnits hd (by rwa [← units_eq_magUnits, units_one])

/-- A rational from 0 to 1 rounds to a value from `+0.0` to `1.0`. -/
theorem fromZeroToOne_rne32 {q : Rat} (h0 : 0 ≤ q) (h1 : q ≤ 1) : FromZeroToOne (rne32 q) := by
  refine ⟨by simpa using h0, atMostOne_pack _ q.den_pos ?_⟩
  have hnum : q.num.natAbs ≤ q.den := by
    have hle : q.num ≤ q.den := Rat.num_le_denom_iff.mpr h1
    have hnn : 0 ≤ q.num := Rat.num_nonneg.mpr h0
    omega
  rw [Nat.mul_comm]
  exact Nat.mul_le_mul_left _ hnum

theorem FromZeroToOne.toRat {x : F32} (h : FromZeroToOne x) : 0 ≤ F32.toRat x ∧ F32.toRat x ≤ 1 := by
  obtain ⟨hneg, hone⟩ := h
  have hu : (F32.units x : Rat) ≤ 2 ^ 149 := by exact_mod_cast atMostOne_iff_units.mp hone
  have e : F32.toRat x = (F32.units x : Rat) / 2 ^ 149 := by simp [F32.toRat, F32.signedUnits, hneg]
  rw [e]
  exact ⟨by positivity, (div_le_one (by positivity)).mpr hu⟩

/-- The coefficients of a leakage between 0 and 1 (R161). -/
theorem fromZeroToOne_rrsCoeffA {eps : F32} (h : inUnit eps) : FromZeroToOne (rrsCoeffA eps) := by
  obtain ⟨_, hpos, hlt⟩ := h
  exact fromZeroToOne_rne32 (by linarith) (by linarith)

theorem FromZeroToOne.pow {a : F32} (h : FromZeroToOne a) (width : Nat) : FromZeroToOne (rne32 (F32.toRat a ^ width)) :=
  have ⟨h0, h1⟩ := h.toRat
  fromZeroToOne_rne32 (pow_nonneg h0 _) (pow_le_one₀ h0 h1)

theorem rrsCoeffC_eq {a : F32} (h : FromZeroToOne a) (width : Nat) : rrsCoeffC a width = rne32 (F32.toRat a ^ width) :=
  rnePow_eq h.toRat.1 width

/-! ## RRS.CFG -/

theorem exec_rrsCfg (s : State) :
    exec .rrsCfg s = s.failOr .rrs (Rrs.cfgError s.rrsIn.w.toNat (epsOperand s.rrsIn.eps))
      (s.putRrs (.build s.rrsIn.w.toNat (epsOperand s.rrsIn.eps)) (.done s.draws)) := rfl

theorem fails_rrsCfg {s : State} {e : Err} (h : Rrs.cfgError s.rrsIn.w.toNat (epsOperand s.rrsIn.eps) = some e) :
    fails .rrsCfg s e := fails_of_failAt (by rw [exec_rrsCfg, h]; rfl)

theorem exec_rrsCfg_ok {s : State} (h : Rrs.cfgError s.rrsIn.w.toNat (epsOperand s.rrsIn.eps) = none) :
    exec .rrsCfg s = .next (s.putRrs (.build s.rrsIn.w.toNat (epsOperand s.rrsIn.eps)) (.done s.draws)) := by
  rw [exec_rrsCfg, h]
  rfl

theorem epsOk_eq_false_iff (eps : F32) : epsOk eps = false ↔ ¬ inUnit eps := by rw [← epsOk_iff, Bool.not_eq_true]

theorem Rrs.cfgError_width (eps : F32) : Rrs.cfgError 0 eps = some .invalidArg := if_pos rfl

theorem Rrs.cfgError_eps {width : Nat} {eps : F32} (hw : width ≠ 0) (he : ¬ inUnit eps) :
    Rrs.cfgError width eps = some .invalidArg := by
  rw [Rrs.cfgError, if_neg hw, if_pos ((epsOk_eq_false_iff eps).mpr he)]

theorem Rrs.cfgError_capacity {width : Nat} {eps : F32} (hw : width ≠ 0) (he : inUnit eps)
    (h : Config.dlCap < width + 1) : Rrs.cfgError width eps = some .capacity := by
  rw [Rrs.cfgError, if_neg hw, if_neg (by rwa [epsOk_eq_false_iff, not_not]), if_pos h]

theorem Rrs.fresh_build (width : Nat) {eps : F32} (he : inUnit eps) : (Rrs.build width eps).fresh width eps :=
  ⟨rfl, rfl, rfl, rfl, rrsCoeffC_eq (fromZeroToOne_rrsCoeffA he) width, Dl.fresh_build _ _ _, Dl.fresh_build _ _ _⟩

/-- Settles O15: one clause for each outcome of `Rrs.cfgError`. -/
theorem rrsCfgBuildsTheFilter : Obligations.RrsCfgBuildsTheFilter := by
  unfold Obligations.RrsCfgBuildsTheFilter
  rintro s _ rfl
  refine ⟨fun h => ?_, fun hw he => ?_, fun hw he hcap => ?_, fun hw he hcap => ?_⟩
  · have hzero : s.rrsIn.w.toNat = 0 := congrArg BitVec.toNat h
    exact fails_rrsCfg (hzero ▸ Rrs.cfgError_width _)
  · exact fails_rrsCfg (Rrs.cfgError_eps (toNat_ne_zero hw) he)
  · exact fails_rrsCfg (Rrs.cfgError_capacity (toNat_ne_zero hw) he hcap)
  · have hok := Rrs.cfgError_none.mpr ⟨Nat.pos_of_ne_zero (toNat_ne_zero hw), (epsOk_iff _).mpr he, hcap⟩
    exact ⟨_, exec_rrsCfg_ok hok, onlyRrs_put s _ _, rfl, Rrs.fresh_build _ he⟩

/-! ## The other commands on a configured filter -/

section Configured

variable {s : State} (hc : s.rrs.cfg = true)
include hc

theorem rrs_not_unconfigured : ¬ s.rrs.cfg = false := by simp [hc]

theorem fails_rrsSeteps (he : ¬ inUnit (setepsOperand s.draws s.rrsIn.eps)) : fails .rrsSeteps s .invalidArg :=
  fails_of_failAt (by
    rw [exec, execRrsSeteps, if_neg (rrs_not_unconfigured hc), if_pos ((epsOk_eq_false_iff _).mpr he)]; rfl)

theorem exec_rrsSeteps (he : inUnit (setepsOperand s.draws s.rrsIn.eps)) :
    exec .rrsSeteps s =
      .next (s.putRrs (s.rrs.setEps (setepsOperand s.draws s.rrsIn.eps)) (.done s.draws)) := by
  rw [exec, execRrsSeteps, if_neg (rrs_not_unconfigured hc), if_neg (by rwa [epsOk_eq_false_iff, not_not])]

theorem exec_rrsProc :
    exec .rrsProc s = .next
      (s.putRrs (s.rrs.push s.draws s.rrsIn.x) (.sample s.draws (s.rrs.out s.draws s.rrsIn.x))) := by
  rw [exec, execRrsProc, if_neg (rrs_not_unconfigured hc)]

theorem exec_rrsProcb (h : s.rrsIn.n.toNat ≤ Config.maxblkCap) :
    exec .rrsProcb s = .next
      (s.putRrs (s.rrs.block s.draws (takeVec s.draws 0 0 s.rrsIn.n.toNat s.rrsIn.blk)).2
        (.block s.draws (s.rrs.block s.draws (takeVec s.draws 0 0 s.rrsIn.n.toNat s.rrsIn.blk)).1)) := by
  rw [exec, execRrsProcb, if_neg (rrs_not_unconfigured hc), if_neg (by omega)]

theorem fails_rrsProcb (h : Config.maxblkCap < s.rrsIn.n.toNat) : fails .rrsProcb s .bounds :=
  fails_of_failAt (by rw [exec, execRrsProcb, if_neg (rrs_not_unconfigured hc), if_pos h]; rfl)

end Configured

/-- Settles O16: `Rrs.setEps` touches the leakage and the coefficients alone. -/
theorem rrsSetepsKeepsTheHistory : Obligations.RrsSetepsKeepsTheHistory := by
  unfold Obligations.RrsSetepsKeepsTheHistory
  rintro s _ hc rfl
  exact ⟨fails_rrsSeteps hc, fun he => ⟨_, exec_rrsSeteps hc he, onlyRrs_put s _ _, rfl, rfl, rfl,
    rrsCoeffC_eq (fromZeroToOne_rrsCoeffA he) _⟩⟩

/-- Settles O17: `Rrs.stepped` holds of the filter after `Rrs.push`. -/
theorem rrsProcIsTheRecurrence : Obligations.RrsProcIsTheRecurrence := by
  unfold Obligations.RrsProcIsTheRecurrence
  exact fun s hc => ⟨_, exec_rrsProc hc, onlyRrs_put s _ _, rfl, Rrs.stepped_push _ _ _⟩

/-- Settles O18: `Rrs.block` is the recurrence, sample by sample. -/
theorem rrsProcbRecursInOrder : Obligations.RrsProcbRecursInOrder := by
  unfold Obligations.RrsProcbRecursInOrder
  exact fun s hc => ⟨fails_rrsProcb hc, fun hn => ⟨_, _, takeVec_operandVec s.draws 0 _ _, exec_rrsProcb hc hn,
    onlyRrs_put s _ _, rfl, Rrs.ran_block _ _ _⟩⟩

/-! ## Histories as runs of single steps (R164, R165) -/

/-- The filter `f` has taken the samples `xs` one after the other, has returned `ys` for them and is `g` now; each sample
may belong to another command. -/
inductive Rrs.Fed (f : Rrs) : List F32 → List F32 → Rrs → Prop
  | start : Rrs.Fed f [] [] f
  | next {xs ys : List F32} {g : Rrs} (draw : Nat) (x : F32) : Rrs.Fed f xs ys g →
      Rrs.Fed f (xs ++ [x]) (ys ++ [g.out draw x]) (g.push draw x)

theorem Rrs.Fed.block {f g : Rrs} {xs ys : List F32} (h : f.Fed xs ys g) (draw : Nat) (zs : List F32) :
    f.Fed (xs ++ zs) (ys ++ (g.block draw zs).1) (g.block draw zs).2 := by
  induction zs generalizing xs ys g with
  | nil => simpa [Rrs.block] using h
  | cons z zs ih => simpa [Rrs.block] using ih (h.next draw z)

theorem Rrs.Fed.length_eq {f g : Rrs} {xs ys : List F32} (h : f.Fed xs ys g) : ys.length = xs.length := by
  induction h with
  | start => rfl
  | next draw x _ ih => simp [ih]

/-- Only the two lines of a filter change, by the writes of its inputs and of its outputs. -/
theorem Rrs.Fed.filter_eq {f g : Rrs} {xs ys : List F32} (h : f.Fed xs ys g) :
    g = { f with xl := xs.foldl Dl.push f.xl, yl := ys.foldl Dl.push f.yl } := by
  induction h with
  | start => rfl
  | next draw x _ ih => rw [List.foldl_append, List.foldl_append, Rrs.push, ih]; rfl

theorem RrsOperands.takeVec_of_wf {o : RrsOperands} (h : o.wf = true) (draw : Nat) :
    takeVec draw 0 0 o.n.toNat o.blk = o.blk := by
  have hlen : o.blk.length = o.n.toNat := by simpa [RrsOperands.wf] using h
  rw [← hlen, takeVec_of_length]

/-- What a successful RRS.PROCB returns and leaves (R165). -/
theorem rrs_of_rrsProcb {s u : State} (hc : s.rrs.cfg = true) (ho : s.rrsIn.wf = true) (h : exec .rrsProcb s = .next u)
    (herr : u.rrsOut.err = 0) : (u.rrsOut.blkOut, u.rrs) = s.rrs.block s.draws s.rrsIn.blk := by
  by_cases hn : s.rrsIn.n.toNat ≤ Config.maxblkCap
  · obtain rfl := Host.Outcome.next.inj ((exec_rrsProcb hc hn).symm.trans h)
    rw [RrsOperands.takeVec_of_wf ho]
    rfl
  · exact absurd herr ((fails_rrsProcb hc (not_le.mp hn)).portErr_ne_zero h)

/-- Whatever commands feed it, a history feeds the filter its samples one after the other. -/
theorem RrsHistory.fed {s t : State} {xs ys : List F32} (h : RrsHistory s xs ys t) (hc : s.rrs.cfg = true) :
    s.rrs.Fed xs ys t.rrs := by
  have configured : ∀ {xs ys : List F32} {g : Rrs}, s.rrs.Fed xs ys g → g.cfg = true := fun hg => by
    rw [hg.filter_eq]
    exact hc
  induction h with
  | start => exact .start
  | @proc xs ys t u o _ hexec _ ih =>
    obtain rfl := Host.Outcome.next.inj ((exec_rrsProc (s := { t with rrsIn := o }) (configured ih)).symm.trans hexec)
    exact ih.next t.draws o.x
  | @procb xs ys t u o _ ho hexec herr ih =>
    obtain ⟨hout, hrrs⟩ := Prod.mk.inj (rrs_of_rrsProcb (s := { t with rrsIn := o }) (configured ih) ho hexec herr)
    rw [hout, hrrs]
    exact ih.block t.draws o.blk

/-! ## Sample `n` of the output of a fresh filter (R160) -/

/-- Sample `n - k` of a signal that is `+0.0` before its first sample. -/
def delayed (xs : List F32) (k n : Nat) : F32 := if k ≤ n then xs.getD (n - k) 0 else 0

theorem delayed_succ_succ (xs : List F32) (k n : Nat) : delayed xs (k + 1) (n + 1) = delayed xs k n := by
  simp [delayed]

/-- Samples that come later take no part. -/
theorem delayed_append (xs zs : List F32) {k n : Nat} (h : k ≤ n → n - k < xs.length) :
    delayed (xs ++ zs) k n = delayed xs k n := by
  unfold delayed
  split
  · next hk => exact List.getD_append _ _ _ _ (h hk)
  · rfl

/-- A line that was fresh before the writes `xs` holds the signal `xs`, the newest sample at age 0 (40_delay_line.md R130,
R140). -/
theorem Dl.fresh.age_foldl {d : Dl} {m maxblk : Nat} {g : F32} (h : d.fresh m maxblk g) (xs : List F32) {tau : Nat}
    (ht : tau < m + maxblk) : (xs.foldl Dl.push d).age tau = delayed xs (tau + 1) xs.length := by
  obtain ⟨hd, hzero⟩ := h
  have hb : d.b = m + maxblk := by rw [hd]
  have hw : d.w = 0 := by rw [hd]
  rw [Dl.age_foldl (by omega) xs tau (by omega), delayed]
  by_cases hlt : tau < xs.length
  · rw [if_pos hlt, if_pos (Nat.succ_le_of_lt hlt), show xs.length - 1 - tau = xs.length - (tau + 1) by omega]
  · rw [if_neg hlt, if_neg (by omega)]
    exact hzero _

/-- One line of the recurrence, from `x[n]`, `x[n-W]` and `y[n-1]` (R160). -/
def rrsSample (draw : Nat) (a c x xd yd : F32) : F32 := add32 draw (mul32 draw a yd) (sub32 draw x (mul32 draw c xd))

theorem Rrs.out_eq_rrsSample (draw : Nat) (f : Rrs) (x : F32) :
    f.out draw x = rrsSample draw f.a f.c x ((f.xl.push x).age f.width) (f.yl.age 0) := rfl

/-- The output of a filter that was fresh before the samples `xs`, for one more sample `x`. -/
theorem Rrs.Fed.out_eq {f g : Rrs} {width : Nat} {eps : F32} {xs ys : List F32} (h : f.Fed xs ys g)
    (hf : f.fresh width eps) (draw : Nat) (x : F32) :
    g.out draw x = rrsSample draw f.a f.c x (delayed (xs ++ [x]) width xs.length) (delayed ys 1 xs.length) := by
  obtain ⟨_, hwidth, _, _, _, hxl, hyl⟩ := hf
  have hx : (xs.foldl Dl.push f.xl).push x = (xs ++ [x]).foldl Dl.push f.xl := by simp
  rw [h.filter_eq, Rrs.out_eq_rrsSample, hx, hwidth, hxl.age_foldl _ (by omega), hyl.age_foldl _ (by omega), h.length_eq,
    List.length_append, List.length_singleton, delayed_succ_succ]

/-- R160 for a fresh filter: sample `n` of the output from the signals alone. -/
theorem Rrs.Fed.recurrence {f g : Rrs} {width : Nat} {eps : F32} {xs ys : List F32} (h : f.Fed xs ys g)
    (hf : f.fresh width eps) {n : Nat} (hn : n < xs.length) :
    ∃ draw, ys[n]? = some (rrsSample draw f.a f.c (xs.getD n 0) (delayed xs width n) (delayed ys 1 n)) := by
  induction h with
  | start => simp at hn
  | @next xs ys g draw x hfed ih =>
    have hlen := hfed.length_eq
    rcases Nat.lt_or_ge n xs.length with hlt | hge
    · rw [List.getElem?_append_left (by omega), List.getD_append _ _ _ _ hlt, delayed_append xs _ (fun _ => by omega),
        delayed_append ys _ (fun _ => by omega)]
      exact ih hlt
    · obtain rfl : n = xs.length := by simp at hn; omega
      refine ⟨draw, ?_⟩
      rw [delayed_append ys _ (fun _ => by omega), ← hlen, List.getElem?_concat_length, hlen, hfed.out_eq hf]
      simp

/-! ## The arithmetic of the pulse -/

theorem addFinite_comm (a b : F32) : addFinite a b = addFinite b a := by
  unfold addFinite
  rw [Int.add_comm, Bool.and_comm]

theorem decide_signedUnits_neg {x : F32} (h : F32.mag x ≠ 0) : decide (F32.signedUnits x < 0) = F32.neg x := by
  have hu : F32.units x ≠ 0 := F32.units_eq_zero.not.mpr h
  unfold F32.signedUnits
  cases F32.neg x with
  | false => simp
  | true => simpa [Nat.pos_iff_ne_zero] using hu

theorem eq_zero_or_negZero {x : F32} (h : F32.mag x = 0) : x = 0 ∨ x = 0x80000000 := by
  cases hneg : F32.neg x with
  | false => exact .inl ((eq_zero_iff x).mpr ⟨hneg, h⟩)
  | true => exact .inr ((eq_negZero_iff x).mpr ⟨hneg, h⟩)

/-- Adding `+0.0` changes `-0.0` alone (R10). -/
theorem addFinite_zero_right {x : F32} (hx : F32.isFinite x = true) :
    addFinite x 0 = if x = 0x80000000 then 0 else x := by
  by_cases hmag : F32.mag x = 0
  · rcases eq_zero_or_negZero hmag with rfl | rfl <;> decide
  · have hne : x ≠ 0x80000000 := fun e => hmag ((eq_negZero_iff x).mp e).2
    have hu : F32.signedUnits x ≠ 0 := by rwa [← Int.natAbs_ne_zero, natAbs_signedUnits, Ne, F32.units_eq_zero]
    rw [addFinite, show F32.signedUnits 0 = 0 by decide, add_zero, if_neg hu, if_neg hne, decide_signedUnits_neg hmag,
      natAbs_signedUnits, roundMag_units hx, F32.pack_self]

theorem add32_zero_right (draw : Nat) {x : F32} (hx : F32.isFinite x = true) :
    add32 draw x 0 = if x = 0x80000000 then 0 else x := by
  rw [add32, addAs_of_finite draw .add 0 hx (by decide), addFinite_zero_right hx]

theorem sub32_zero_left (draw : Nat) {x : F32} (hx : F32.isFinite x = true) :
    sub32 draw 0 x = if x = 0 then 0 else F32.negate x := by
  have hx' : F32.isFinite (F32.negate x) = true := by simpa using hx
  rw [sub32, addAs_of_finite draw .sub x (by decide) hx', addFinite_comm, addFinite_zero_right hx']
  simp only [negate_eq_negZero_iff]

theorem sub32_one_zero (draw : Nat) : sub32 draw 0x3F800000 0 = 0x3F800000 := by
  rw [sub32, addAs_of_finite draw .sub 0 (by decide) (by decide)]
  decide +kernel

theorem mul32_zero_right (draw : Nat) {x : F32} (hx : FromZeroToOne x) : mul32 draw x 0 = 0 := by
  obtain ⟨hneg, hone⟩ := hx
  rw [mul32_of_eq_zero draw hone.isFinite (by decide) (by rw [toRat_zero, mul_zero]), hneg]
  rfl

theorem mul32_one_right (draw : Nat) {x : F32} (hx : F32.isFinite x = true) : mul32 draw x 0x3F800000 = x := by
  have hround : roundMag (F32.units x * 2 ^ 149) (2 ^ 149) = F32.mag x := by
    rw [← roundMag_units hx, ← roundMag_scale (F32.units x) 1 (2 ^ 149) (by positivity), Nat.one_mul]
  rw [mul32_of_finite draw hx (by decide), units_one, hround, show F32.neg 0x3F800000 = false by decide, Bool.bne_false,
    F32.pack_self]

/-- On finite operands no NaN is chosen, so that the number of the command does not matter. -/
theorem mul32_draw (draw draw' : Nat) {a b : F32} (ha : F32.isFinite a = true) (hb : F32.isFinite b = true) :
    mul32 draw a b = mul32 draw' a b := by rw [mul32_of_finite draw ha hb, mul32_of_finite draw' ha hb]

theorem atMostOne_mul32 (draw : Nat) {a b : F32} (ha : AtMostOne a) (hb : AtMostOne b) : AtMostOne (mul32 draw a b) := by
  rw [mul32_of_finite draw ha.isFinite hb.isFinite]
  exact atMostOne_pack _ (by positivity) (Nat.mul_le_mul (atMostOne_iff_units.mp ha) (atMostOne_iff_units.mp hb))

theorem fromZeroToOne_mul32 (draw : Nat) {a b : F32} (ha : FromZeroToOne a) (hb : FromZeroToOne b) :
    FromZeroToOne (mul32 draw a b) := by
  refine ⟨?_, atMostOne_mul32 draw ha.atMostOne hb.atMostOne⟩
  rw [mul32_of_finite draw ha.atMostOne.isFinite hb.atMostOne.isFinite, F32.neg_pack _ (roundMag_lt_two_pow _ _), ha.nonneg, hb.nonneg]
  rfl

theorem add32_draw (draw draw' : Nat) {a b : F32} (ha : F32.isFinite a = true) (hb : F32.isFinite b = true) :
    add32 draw a b = add32 draw' a b := by
  rw [add32, add32, addAs_of_finite draw .add b ha hb, addAs_of_finite draw' .add b ha hb]

theorem sub32_zero_draw (draw draw' : Nat) {x : F32} (hx : AtMostOne x) : sub32 draw 0 x = sub32 draw' 0 x := by
  rw [sub32_zero_left draw hx.isFinite, sub32_zero_left draw' hx.isFinite]

theorem atMostOne_sub32_zero_left (draw : Nat) {x : F32} (hx : AtMostOne x) : AtMostOne (sub32 draw 0 x) := by
  rw [sub32_zero_left draw hx.isFinite]
  split
  · exact atMostOne_zero
  · exact atMostOne_negate.mpr hx

/-- The difference of two values from 0 to 1. -/
theorem atMostOne_addFinite_negate {a b : F32} (ha : FromZeroToOne a) (hb : FromZeroToOne b) :
    AtMostOne (addFinite a (F32.negate b)) := by
  obtain ⟨na, oa⟩ := ha
  obtain ⟨nb, ob⟩ := hb
  have hua := atMostOne_iff_units.mp oa
  have hub := atMostOne_iff_units.mp ob
  have hz : F32.signedUnits a + F32.signedUnits (F32.negate b) = (F32.units a : Int) - F32.units b := by
    simp [F32.signedUnits, na, nb, sub_eq_add_neg]
  rw [addFinite, hz]
  split
  · rw [← roundMag_zero 1]
    exact atMostOne_pack _ Nat.one_pos (Nat.zero_le _)
  · exact atMostOne_pack _ Nat.one_pos (by omega)

/-- The residual at sample `W`, for a product `q` (R166). -/
theorem atMostOne_residual (draw : Nat) {q c : F32} (hq : FromZeroToOne q) (hc : FromZeroToOne c) :
    AtMostOne (add32 draw q (sub32 draw 0 c)) := by
  have hqf := hq.atMostOne.isFinite
  have hcf := hc.atMostOne.isFinite
  rw [sub32_zero_left draw hcf]
  split
  · rw [add32_zero_right draw hqf]
    split
    · exact atMostOne_zero
    · exact hq.atMostOne
  · rw [add32, addAs_of_finite draw .add _ hqf (by simpa using hcf)]
    exact atMostOne_addFinite_negate hq hc

/-! ## The impulse response (R166) -/

/-- The unit impulse: `1.0` and then `k` zeros. -/
def impulse (k : Nat) : List F32 := 0x3F800000 :: List.replicate k 0x00000000

theorem impulse_getD (k n : Nat) : (impulse k).getD n 0 = if n = 0 then 0x3F800000 else 0 := by
  cases n with
  | zero => rfl
  | succ n => simp [impulse, List.getD_eq_getElem?_getD, List.getElem?_replicate]; split <;> rfl

theorem delayed_impulse (k width n : Nat) : delayed (impulse k) width n = if n = width then 0x3F800000 else 0 := by
  rw [delayed, impulse_getD]
  by_cases h : width ≤ n
  · rw [if_pos h]
    simp only [show n - width = 0 ↔ n = width by omega]
  · rw [if_neg h, if_neg (by omega)]

/-- Sample `n ≥ 1` of the impulse response, from the sample `y` before it (R166). -/
def pulseNext (draw width : Nat) (a c : F32) (n : Nat) (y : F32) : F32 :=
  if n < width then mul32 draw a y
  else if n = width then add32 draw (mul32 draw a y) (sub32 draw 0x00000000 c)
  else if mul32 draw a y = 0x80000000 then 0x00000000 else mul32 draw a y

/-- Before sample `width` the pulse only decays. -/
theorem fromZeroToOne_pulseNext (draw : Nat) {width n : Nat} {a y : F32} (ha : FromZeroToOne a) (c : F32)
    (hy : FromZeroToOne y) (h : n < width) : FromZeroToOne (pulseNext draw width a c n y) := by
  rw [pulseNext, if_pos h]
  exact fromZeroToOne_mul32 draw ha hy

section Pulse

variable {a c : F32} (ha : FromZeroToOne a) (hc : FromZeroToOne c)
include ha hc

/-- Sample 0: the lines hold zeros. -/
theorem rrsSample_first (draw : Nat) : rrsSample draw a c 0x3F800000 0 0 = 0x3F800000 := by
  rw [rrsSample, mul32_zero_right draw ha, mul32_zero_right draw hc, sub32_one_zero, add32,
    addAs_of_finite draw .add _ (by decide) (by decide)]
  decide +kernel

/-- A sample at which the input and its delayed copy are zero. -/
theorem rrsSample_decay (draw : Nat) {y : F32} (hy : AtMostOne y) :
    rrsSample draw a c 0 0 y = if mul32 draw a y = 0x80000000 then 0 else mul32 draw a y := by
  rw [rrsSample, mul32_zero_right draw hc, sub32_zero_left draw (by decide), if_pos rfl,
    add32_zero_right draw (atMostOne_mul32 draw ha.atMostOne hy).isFinite]

/-- A line of the recurrence after sample 0. Before sample `width` nothing is negative, so that no product is `-0.0`. -/
theorem rrsSample_eq_pulseNext (draw width n : Nat) {y : F32} (hy : AtMostOne y) (hneg : n ≤ width → F32.neg y = false) :
    rrsSample draw a c 0 (if n = width then 0x3F800000 else 0) y = pulseNext draw width a c n y := by
  rcases Nat.lt_trichotomy n width with h | h | h
  · have hq := (fromZeroToOne_mul32 draw ha ⟨hneg h.le, hy⟩).nonneg
    have hne : mul32 draw a y ≠ 0x80000000 := fun e => by simp [((eq_negZero_iff _).mp e).1] at hq
    rw [pulseNext, if_pos h, if_neg h.ne, rrsSample_decay ha hc draw hy, if_neg hne]
  · rw [pulseNext, if_neg h.not_lt, if_pos h, if_pos h, rrsSample, mul32_one_right draw hc.atMostOne.isFinite]
  · rw [pulseNext, if_neg (by omega), if_neg (by omega), if_neg (by omega), rrsSample_decay ha hc draw hy]

theorem pulseNext_draw (draw draw' width n : Nat) {y : F32} (hy : AtMostOne y) :
    pulseNext draw width a c n y = pulseNext draw' width a c n y := by
  have hmul := mul32_draw draw draw' ha.atMostOne.isFinite hy.isFinite
  have hsub := sub32_zero_draw draw draw' hc.atMostOne
  have hadd := add32_draw draw draw' (atMostOne_mul32 draw' ha.atMostOne hy).isFinite
    (atMostOne_sub32_zero_left draw' hc.atMostOne).isFinite
  simp only [pulseNext, hmul, hsub, hadd]

theorem atMostOne_pulseNext (draw width n : Nat) {y : F32} (hy : AtMostOne y) (hneg : n ≤ width → F32.neg y = false) :
    AtMostOne (pulseNext draw width a c n y) := by
  have hq := atMostOne_mul32 draw ha.atMostOne hy
  unfold pulseNext
  split
  · exact hq
  · split
    · next h => exact atMostOne_residual draw (fromZeroToOne_mul32 draw ha ⟨hneg h.le, hy⟩) hc
    · split
      · exact atMostOne_zero
      · exact hq

end Pulse

theorem Rrs.fresh.coeffs {f : Rrs} {width : Nat} {eps : F32} (h : f.fresh width eps) (he : inUnit eps) :
    FromZeroToOne f.a ∧ FromZeroToOne f.c := by
  obtain ⟨_, _, _, ha, hc, _, _⟩ := h
  have ha' : FromZeroToOne f.a := ha ▸ fromZeroToOne_rrsCoeffA he
  exact ⟨ha', hc ▸ ha'.pow width⟩

section Impulse

variable {f g : Rrs} {width k : Nat} {eps : F32} {ys : List F32} (he : inUnit eps) (hf : f.fresh width eps)
  (h : f.Fed (impulse k) ys g)
include he hf h

theorem impulseResponse_first (hw : 1 ≤ width) : ys[0]? = some 0x3F800000 := by
  obtain ⟨ha, hc⟩ := hf.coeffs he
  obtain ⟨draw, hy⟩ := h.recurrence hf (n := 0) (by simp [impulse])
  rw [hy, impulse_getD, delayed_impulse, if_pos rfl, if_neg (by omega)]
  exact congrArg some (rrsSample_first ha hc draw)

theorem impulseResponse_next (draw : Nat) {n : Nat} {y : F32} (hn : n + 1 ≤ k) (hprev : ys[n]? = some y)
    (hy : AtMostOne y) (hneg : n < width → F32.neg y = false) :
    ys[n + 1]? = some (pulseNext draw width f.a f.c (n + 1) y) := by
  obtain ⟨ha, hc⟩ := hf.coeffs he
  obtain ⟨draw', hnext⟩ := h.recurrence hf (n := n + 1) (by simp [impulse]; omega)
  have hdelay : delayed ys 1 (n + 1) = y := by simp [delayed, List.getD_eq_getElem?_getD, hprev]
  rw [hnext, impulse_getD, delayed_impulse, hdelay, if_neg (Nat.succ_ne_zero n),
    rrsSample_eq_pulseNext ha hc draw' width (n + 1) hy hneg, pulseNext_draw ha hc draw' draw width (n + 1) hy]

/-- Every sample of the impulse response is at most 1 in magnitude, and up to sample `width` none is negative. -/
theorem impulseResponse_bounded (hw : 1 ≤ width) {n : Nat} (hn : n ≤ k) :
    ∃ y, ys[n]? = some y ∧ AtMostOne y ∧ (n < width → F32.neg y = false) := by
  obtain ⟨ha, hc⟩ := hf.coeffs he
  induction n with
  | zero => exact ⟨_, impulseResponse_first he hf h hw, Nat.le_refl _, fun _ => by decide⟩
  | succ n ih =>
    obtain ⟨y, hprev, hy, hneg⟩ := ih (by omega)
    exact ⟨_, impulseResponse_next he hf h 0 hn hprev hy hneg, atMostOne_pulseNext ha hc 0 width (n + 1) hy hneg,
      fun hlt => (fromZeroToOne_pulseNext 0 ha f.c ⟨hneg (by omega), hy⟩ hlt).nonneg⟩

end Impulse

/-- Settles O19: the recurrence on the impulse, sample by sample. -/
theorem impulseResponseIsAPulse : Obligations.ImpulseResponseIsAPulse := by
  unfold Obligations.ImpulseResponseIsAPulse
  intro s t width k eps ys hw he hf hist
  have h : s.rrs.Fed (impulse k) ys t.rrs := hist.fed hf.1
  refine ⟨by simpa [impulse] using h.length_eq, impulseResponse_first he hf h hw, fun d n y hn hk hprev => ?_⟩
  obtain ⟨m, rfl⟩ : ∃ m, n = m + 1 := ⟨n - 1, by omega⟩
  obtain ⟨y', hprev', hy, hneg⟩ := impulseResponse_bounded he hf h hw (n := m) (by omega)
  obtain rfl : y' = y := Option.some.inj (hprev'.symm.trans hprev)
  exact impulseResponse_next he hf h d hk hprev hy hneg

end Sys2Proof.Machine
end

section
/-!
PROOFS. 42_hadamard_mixer.md R180-R182: what HAD.MIX answers, that `rneInvSqrt` rounds the real reciprocal root once (for
every argument below `2^40`, so for the factors of 43_dvn_convolver.md R196 too), and the matrix that the butterflies are
with exact arithmetic.
-/

namespace Sys2Proof.Machine

/-! ## HAD.MIX (R180) -/

/-- The frame that HAD.MIX reads at its port. -/
def State.mixFrame (s : State) : List F32 := takeVec s.draws 0 0 s.hadIn.n.toNat s.hadIn.frame

theorem exec_hadMix (s : State) :
    exec .hadMix s = s.failOr .had (hadError s.hadIn.n.toNat)
      (s.putHad (.frame (hadamard s.draws s.hadIn.n.toNat s.mixFrame))) := rfl

theorem fails_hadMix {s : State} {e : Err} (h : hadError s.hadIn.n.toNat = some e) : fails .hadMix s e :=
  fails_of_failAt (by rw [exec_hadMix, h]; rfl)

theorem exec_hadMix_ok {s : State} (h : hadError s.hadIn.n.toNat = none) :
    exec .hadMix s = .next (s.putHad (.frame (hadamard s.draws s.hadIn.n.toNat s.mixFrame))) := by
  rw [exec_hadMix, h]
  rfl

/-- The test for a power of two, on the word that holds the frame size. -/
theorem isPow2_toNat_iff {w : Word} : isPow2 w.toNat = true ↔ w ≠ 0 ∧ w &&& (w - 1) = 0 := by
  have toNat_zero (v : Word) : v.toNat = 0 ↔ v = 0 := BitVec.toNat_inj (y := 0)
  by_cases hw : w = 0
  · simp [isPow2, hw]
  · have hsub : (w - 1).toNat = w.toNat - 1 := by
      have := (toNat_zero w).not.mpr hw
      bv_omega
    have hand : w.toNat &&& (w.toNat - 1) = 0 ↔ w &&& (w - 1) = 0 := by
      rw [← hsub, ← BitVec.toNat_and, toNat_zero]
    simp only [isPow2, ne_eq, toNat_zero, hand, Bool.and_eq_true, decide_eq_true_eq]

theorem hadError_notPow2 {n : Nat} (h : isPow2 n = false) : hadError n = some .notPow2 := if_pos h

theorem hadError_capacity {n : Nat} (h : isPow2 n = true) (hn : Config.hadNmax < n) : hadError n = some .capacity := by
  rw [hadError, if_neg (by simp [h]), if_pos hn]

/-- Settles O20: one clause for each outcome of `hadError`; the transform's stages are those of `mixed`. -/
theorem hadMixTransformsTheFrame : Obligations.HadMixTransformsTheFrame := by
  unfold Obligations.HadMixTransformsTheFrame
  refine fun s => ⟨fun h => ?_, fun h0 hand h => ?_, fun h0 hand h => ?_⟩
  · refine fails_hadMix (hadError_notPow2 (Bool.eq_false_iff.mpr fun hp => ?_))
    obtain ⟨h0, hand⟩ := isPow2_toNat_iff.mp hp
    exact h.elim h0 fun hne => hne hand
  · exact fails_hadMix (hadError_capacity (isPow2_toNat_iff.mpr ⟨h0, hand⟩) h)
  · have hp := isPow2_toNat_iff.mpr ⟨h0, hand⟩
    exact ⟨_, s.mixFrame, takeVec_operandVec _ _ _ _, exec_hadMix_ok (hadError_none.mpr ⟨hp, h⟩), onlyHad_put s _, rfl,
      mixed_hadamard s.draws hp (takeVec_length _ _ _ _ _)⟩

/-! ## Rounding a real number (R11) -/

/-- `m` are the magnitude bits nearest to the real number of `x` units of `2^-149`: the midpoints to smaller and to larger
magnitudes are on their sides of `x`. -/
def NearestBits (x : ℝ) (m : Nat) : Prop :=
  (∀ l, l < m → (magUnits l + magUnits m : ℝ) ≤ 2 * x) ∧ ∀ l, m < l → 2 * x ≤ magUnits l + magUnits m

/-- The nearest magnitude bits are the nearest value of the format, negative ones included. -/
theorem NearestBits.pack_isNearest {x : ℝ} {m : Nat} (h : NearestBits x m) (hx : 0 ≤ x) (hm : m < 2 ^ 31) (y : F32) :
    |(F32.toRat (F32.pack false m) : ℝ) - x / 2 ^ 149| ≤ |(F32.toRat y : ℝ) - x / 2 ^ 149| := by
  obtain ⟨hbelow, habove⟩ := h
  have scaled (z : F32) : |(F32.toRat z : ℝ) - x / 2 ^ 149| = |(F32.signedUnits z : ℝ) - x| / 2 ^ 149 := by
    rw [F32.toRat, Rat.cast_div, Rat.cast_intCast, Rat.cast_pow, Rat.cast_ofNat, ← sub_div, abs_div,
      abs_of_pos (by positivity : (0 : ℝ) < 2 ^ 149)]
  have hpack : F32.signedUnits (F32.pack false m) = magUnits m := by
    rw [F32.signedUnits, F32.neg_pack _ hm, units_eq_magUnits, F32.mag_pack _ hm]
    rfl
  have hfar (l : Nat) : |(magUnits m : ℝ) - x| ≤ |(magUnits l : ℝ) - x| := by
    rcases Nat.lt_trichotomy l m with hl | rfl | hl
    · have hu : (magUnits l : ℝ) < magUnits m := by exact_mod_cast magUnits_strictMono hl
      have hmid := hbelow l hl
      exact (abs_le.mpr ⟨by linarith, by linarith⟩).trans (neg_le_abs _)
    · exact le_rfl
    · have hu : (magUnits m : ℝ) < magUnits l := by exact_mod_cast magUnits_strictMono hl
      have hmid := habove l hl
      exact (abs_le.mpr ⟨by linarith, by linarith⟩).trans (le_abs_self _)
  rw [scaled, scaled, hpack, F32.signedUnits, units_eq_magUnits]
  refine div_le_div_of_nonneg_right ?_ (by positivity)
  cases F32.neg y with
  | false => simpa using hfar (F32.mag y)
  | true =>
    have hzero : |(magUnits 0 : ℝ) - x| = x := by simp [magUnits, abs_of_nonneg hx]
    have hu : (0 : ℝ) ≤ magUnits (F32.mag y) := Nat.cast_nonneg _
    simp only [if_true, Int.cast_neg, Int.cast_natCast]
    calc |(magUnits m : ℝ) - x| ≤ x := (hfar 0).trans_eq hzero
      _ ≤ -(-(magUnits (F32.mag y) : ℝ) - x) := by linarith
      _ ≤ |-(magUnits (F32.mag y) : ℝ) - x| := neg_le_abs _

/-- Rounding a quotient takes its nearest magnitude bits. -/
theorem nearestBits_nearestMag (n : Nat) {d : Nat} (hd : 0 < d) : NearestBits (n / d) (nearestMag n d) := by
  have hd' : (0 : ℝ) < d := by exact_mod_cast hd
  refine ⟨fun l hl => ?_, fun l hl => ?_⟩
  · rw [mul_div_assoc', le_div_iff₀ hd', add_mul]
    exact_mod_cast (midpoint_le_of_lt_nearestMag hd hl).1
  · rw [mul_div_assoc', div_le_iff₀ hd', add_mul, add_comm]
    exact_mod_cast (le_midpoint_of_nearestMag_lt hd hl).1

/-! ## Integer square roots -/

theorem isqrtFrom_eq_sqrt_of_between {k n r : Nat} (hlo : r * r ≤ n) (hhi : n < (r + 2 ^ k) * (r + 2 ^ k)) :
    isqrtFrom k n r = Nat.sqrt n := by
  induction k generalizing r with
  | zero =>
    rw [isqrtFrom]
    exact Nat.eq_sqrt.mpr ⟨hlo, by simpa using hhi⟩
  | succ k ih =>
    rw [isqrtFrom]
    split
    · next h => exact ih h (by rwa [Nat.add_assoc, ← Nat.two_mul, ← Nat.pow_succ'])
    · next h => exact ih hlo (by omega)

theorem isqrtFrom_eq_sqrt {k n : Nat} (h : n < 2 ^ k * 2 ^ k) : isqrtFrom k n 0 = Nat.sqrt n :=
  isqrtFrom_eq_sqrt_of_between (Nat.zero_le n) (by simpa using h)

/-- The fraction of `rneInvSqrt` in units of `2^-80` is the reciprocal root, cut off. -/
theorem sqrt_div_between {q : Nat} (hq : 1 ≤ q) :
    (Nat.sqrt (2 ^ 160 / q) : ℝ) ≤ 2 ^ 80 / √q ∧ 2 ^ 80 / √q < Nat.sqrt (2 ^ 160 / q) + 1 := by
  have hlo := (Nat.le_div_iff_mul_le hq).mp (Nat.sqrt_le (2 ^ 160 / q))
  have hhi := (Nat.div_lt_iff_lt_mul hq).mp (Nat.lt_succ_sqrt (2 ^ 160 / q))
  generalize Nat.sqrt (2 ^ 160 / q) = f at hlo hhi
  have hroot : 0 < √(q : ℝ) := Real.sqrt_pos.mpr (by exact_mod_cast hq)
  have hsq : √(q : ℝ) ^ 2 = q := Real.sq_sqrt (Nat.cast_nonneg q)
  rw [le_div_iff₀ hroot, div_lt_iff₀ hroot, ← sq_le_sq₀ (by positivity) (by positivity),
    ← sq_lt_sq₀ (by positivity) (by positivity), mul_pow, mul_pow, hsq, ← pow_mul, sq, sq]
  exact ⟨by exact_mod_cast hlo, by exact_mod_cast hhi⟩

theorem sqrt_div_bounds {q : Nat} (h1 : 1 ≤ q) (h : q < 2 ^ 40) :
    2 ^ 60 ≤ Nat.sqrt (2 ^ 160 / q) ∧ Nat.sqrt (2 ^ 160 / q) ≤ 2 ^ 80 :=
  ⟨Nat.le_sqrt.mpr ((Nat.le_div_iff_mul_le h1).mpr (by omega)),
    Nat.le_of_lt_succ (Nat.sqrt_lt.mpr ((Nat.div_le_self _ q).trans_lt (by norm_num)))⟩

/-! ## `rneInvSqrt` (R182, 43_dvn_convolver.md R196) -/

/-- From `2^-56` on, the values of the format are multiples of `2^-79`. -/
theorem two_pow_dvd_magUnits {m : Nat} (h : 71 * 2 ^ 23 ≤ m) : 2 ^ 70 ∣ magUnits m := by
  rw [magUnits, if_neg (by omega), Nat.shiftLeft_eq]
  exact Dvd.dvd.mul_left (pow_dvd_pow 2 (by omega)) _

theorem lt_nearestMag_of_cell {f : Nat} (hf : 2 ^ 60 ≤ f) :
    71 * 2 ^ 23 < nearestMag ((2 * f + 1) * 2 ^ 149) (2 ^ 81) := by
  by_contra hR
  have hmid := (le_midpoint_of_nearestMag_lt (n := (2 * f + 1) * 2 ^ 149) (m := 72 * 2 ^ 23) (d := 2 ^ 81)
    (by positivity) (by omega)).1
  have hu := magUnits_strictMono.monotone (by omega :
    nearestMag ((2 * f + 1) * 2 ^ 149) (2 ^ 81) ≤ 72 * 2 ^ 23)
  have hM : magUnits (72 * 2 ^ 23) = 2 ^ 94 := by decide +kernel
  rw [hM] at hmid hu
  omega

/-- The midpoint of `f / 2^80` and `(f + 1) / 2^80` rounds as every number between the two does: the midpoints of the
format's values there are multiples of `2^-80`. -/
theorem nearestBits_of_cell {f : Nat} (hf : 2 ^ 60 ≤ f) {z : ℝ} (hlo : f ≤ z) (hhi : z < f + 1) :
    NearestBits (z * 2 ^ 69) (nearestMag ((2 * f + 1) * 2 ^ 149) (2 ^ 81)) := by
  have hR := lt_nearestMag_of_cell hf
  have hbelow {l : Nat} := midpoint_le_of_lt_nearestMag (n := (2 * f + 1) * 2 ^ 149) (d := 2 ^ 81) (m := l) (by positivity)
  have habove {l : Nat} := le_midpoint_of_nearestMag_lt (n := (2 * f + 1) * 2 ^ 149) (d := 2 ^ 81) (m := l) (by positivity)
  generalize nearestMag ((2 * f + 1) * 2 ^ 149) (2 ^ 81) = R at hR hbelow habove
  obtain ⟨b, hb⟩ := two_pow_dvd_magUnits hR.le
  refine ⟨fun l hl => ?_, fun l hl => ?_⟩
  · obtain ⟨a, ha⟩ := two_pow_dvd_magUnits (m := R - 1) (by omega)
    have hmid := (hbelow (l := R - 1) (by omega)).1
    have hl' := magUnits_strictMono.monotone (by omega : l ≤ R - 1)
    have h : magUnits l + magUnits R ≤ 2 ^ 70 * f := by omega
    have h' : (magUnits l + magUnits R : ℝ) ≤ 2 ^ 70 * f := by exact_mod_cast h
    linarith
  · obtain ⟨a, ha⟩ := two_pow_dvd_magUnits (m := R + 1) (by omega)
    have hmid := (habove (l := R + 1) (by omega)).1
    have hl' := magUnits_strictMono.monotone (by omega : R + 1 ≤ l)
    have h : 2 ^ 70 * (f + 1) ≤ magUnits l + magUnits R := by omega
    have h' : (2 ^ 70 * (f + 1) : ℝ) ≤ magUnits l + magUnits R := by exact_mod_cast h
    linarith

theorem rneInvSqrt_of_square {r : Nat} (h : r * r < 2 ^ 40) :
    rneInvSqrt (r * r) = F32.pack false (roundMag (2 ^ 149) r) := by
  rw [rneInvSqrt, isqrtFrom_eq_sqrt (by omega), Nat.sqrt_eq]
  exact if_pos rfl

theorem two_le_of_not_square {q : Nat} (hq : Nat.sqrt q * Nat.sqrt q ≠ q) : 2 ≤ q := by
  by_contra hlt
  obtain rfl | rfl : q = 0 ∨ q = 1 := by omega
  · simp at hq
  · simp at hq

theorem rneInvSqrt_of_not_square {q : Nat} (h : q < 2 ^ 40) (hq : Nat.sqrt q * Nat.sqrt q ≠ q) :
    rneInvSqrt q = F32.pack false (roundMag ((2 * Nat.sqrt (2 ^ 160 / q) + 1) * 2 ^ 149) (2 ^ 81)) := by
  have hdiv : 2 ^ 160 / q < 2 ^ 80 * 2 ^ 80 :=
    lt_of_le_of_lt (Nat.div_le_div_left (two_le_of_not_square hq) two_pos) (by norm_num)
  rw [rneInvSqrt, isqrtFrom_eq_sqrt (by omega), isqrtFrom_eq_sqrt hdiv]
  exact if_neg hq

/-- The magnitude bits of `rneInvSqrt q` are those nearest to `1 / √q`. -/
theorem rneInvSqrt_eq_pack {q : Nat} (h1 : 1 ≤ q) (h : q < 2 ^ 40) :
    ∃ m, m < F32.infMag ∧ rneInvSqrt q = F32.pack false m ∧ NearestBits (2 ^ 149 / √q) m := by
  by_cases hq : Nat.sqrt q * Nat.sqrt q = q
  · generalize Nat.sqrt q = r at hq
    subst hq
    have hr : 0 < r := Nat.pos_of_mul_pos_right h1
    obtain ⟨e, hfin⟩ := roundMag_eq_nearestMag (n := 2 ^ 149) hr (by omega)
    have hroot : √((r * r : Nat) : ℝ) = r := by rw [Nat.cast_mul, Real.sqrt_mul_self (Nat.cast_nonneg r)]
    refine ⟨_, hfin, by rw [rneInvSqrt_of_square h, e], ?_⟩
    rw [hroot]
    exact_mod_cast nearestBits_nearestMag (2 ^ 149) hr
  · obtain ⟨hlo, hhi⟩ := sqrt_div_between h1
    obtain ⟨hlarge, hsmall⟩ := sqrt_div_bounds h1 h
    obtain ⟨e, hfin⟩ := roundMag_eq_nearestMag (n := (2 * Nat.sqrt (2 ^ 160 / q) + 1) * 2 ^ 149) (d := 2 ^ 81)
      (by positivity) (by omega)
    refine ⟨_, hfin, by rw [rneInvSqrt_of_not_square h hq, e], ?_⟩
    have hscale : (2 : ℝ) ^ 149 / √q = 2 ^ 80 / √q * 2 ^ 69 := by ring
    rw [hscale]
    exact nearestBits_of_cell hlarge hlo hhi

/-- `rneInvSqrt q` is the value of the format nearest to `1 / √q`. -/
theorem rneInvSqrt_isNearest {q : Nat} (h1 : 1 ≤ q) (h : q < 2 ^ 40) :
    F32.isFinite (rneInvSqrt q) = true ∧
      ∀ y, |(F32.toRat (rneInvSqrt q) : ℝ) - 1 / √q| ≤ |(F32.toRat y : ℝ) - 1 / √q| := by
  obtain ⟨m, hfin, e, hm⟩ := rneInvSqrt_eq_pack h1 h
  have hm' : m < 2 ^ 31 := hfin.trans (by decide)
  have hx : (1 : ℝ) / √q = 2 ^ 149 / √q / 2 ^ 149 := by ring
  rw [e, hx]
  exact ⟨by rwa [F32.isFinite_iff, F32.mag_pack _ hm'], hm.pack_isNearest (by positivity) hm'⟩

/-- Settles O21: rounding the cut-off root at the middle of its cell rounds the root; the table is `rneInvSqrt` computed. -/
theorem hadScalesAreTheRoundedRoots : Obligations.HadScalesAreTheRoundedRoots := by
  unfold Obligations.HadScalesAreTheRoundedRoots
  refine ⟨fun k hk => ?_, by decide +kernel⟩
  have hlt : 2 ^ k < 2 ^ 40 := Nat.pow_lt_pow_right (by decide) (by omega)
  obtain ⟨hfin, hnear⟩ := rneInvSqrt_isNearest Nat.one_le_two_pow hlt
  push_cast at hnear
  exact ⟨hfin, fun y _ => hnear y⟩

/-! ## The butterflies are the Sylvester matrix (R181) -/

/-- The entry of the Sylvester Hadamard matrix in natural order (R181). -/
def sylvester (i j : Nat) : Int := (-1) ^ (Nat.bits (i &&& j)).count true

theorem sylvester_comm (i j : Nat) : sylvester i j = sylvester j i := by rw [sylvester, sylvester, Nat.land_comm]

theorem count_bits_bit (b : Bool) (n : Nat) :
    (Nat.bits (Nat.bit b n)).count true = (Nat.bits n).count true + b.toNat := by
  by_cases h : n = 0 → b = true
  · rw [Nat.bits_append_bit n b h]
    cases b <;> simp
  · obtain ⟨rfl, hb⟩ : n = 0 ∧ b = false := by simpa using h
    simp [hb]

/-- One bit above all others adds one to the count. -/
theorem count_bits_add_two_pow {k n : Nat} (h : n < 2 ^ k) :
    (Nat.bits (n + 2 ^ k)).count true = (Nat.bits n).count true + 1 := by
  induction k generalizing n with
  | zero =>
    obtain rfl : n = 0 := by omega
    simp
  | succ k ih =>
    rw [← Nat.bit_bodd_div2 n] at h ⊢
    generalize n.bodd = b at h ⊢
    generalize n.div2 = m at h ⊢
    have hm : m < 2 ^ k := by cases b <;> simp [Nat.bit_val] at h <;> omega
    have e : Nat.bit b m + 2 ^ (k + 1) = Nat.bit b (m + 2 ^ k) := by rw [Nat.bit_val, Nat.bit_val]; ring
    rw [e, count_bits_bit, count_bits_bit, ih hm]
    ring

theorem add_two_pow_eq_lor {k n : Nat} (h : n < 2 ^ k) : n + 2 ^ k = 2 ^ k ||| n := by
  simpa [Nat.add_comm] using Nat.two_pow_add_eq_or_of_lt h 1

theorem land_add_two_pow {k i j : Nat} (hi : i < 2 ^ k) (hj : j < 2 ^ k) : i &&& (j + 2 ^ k) = i &&& j := by
  rw [add_two_pow_eq_lor hj, Nat.and_or_distrib_left, Nat.and_two_pow, Nat.testBit_lt_two_pow hi]
  simp

theorem add_two_pow_land_add_two_pow {k i j : Nat} (hi : i < 2 ^ k) (hj : j < 2 ^ k) :
    (i + 2 ^ k) &&& (j + 2 ^ k) = (i &&& j) + 2 ^ k := by
  rw [add_two_pow_eq_lor hi, add_two_pow_eq_lor hj, add_two_pow_eq_lor (Nat.and_le_left.trans_lt hi),
    Nat.or_and_distrib_left]

/-- The matrix of order `2^(k+1)` has that of order `2^k` in its four quarters, negated in the last. -/
theorem sylvester_right {k i j : Nat} (hi : i < 2 ^ k) (hj : j < 2 ^ k) : sylvester i (j + 2 ^ k) = sylvester i j := by
  rw [sylvester, land_add_two_pow hi hj, sylvester]

theorem sylvester_both {k i j : Nat} (hi : i < 2 ^ k) (hj : j < 2 ^ k) :
    sylvester (i + 2 ^ k) (j + 2 ^ k) = -sylvester i j := by
  rw [sylvester, add_two_pow_land_add_two_pow hi hj, count_bits_add_two_pow (Nat.and_le_left.trans_lt hi), pow_succ,
    mul_neg_one, sylvester]

/-- A row of the matrix of order `2^k`, applied to the values `w`. -/
def sylvesterRow (k i : Nat) (w : Nat → Int) : Int := ∑ j ∈ Finset.range (2 ^ k), sylvester i j * w j

theorem sylvesterRow_eq_sum_map (k i : Nat) (w : Nat → Int) :
    sylvesterRow k i w = ((List.range (2 ^ k)).map (fun j => (-1) ^ (Nat.bits (i &&& j)).count true * w j)).sum := rfl

theorem sylvesterRow_zero (w : Nat → Int) : sylvesterRow 0 0 w = w 0 := by simp [sylvesterRow, sylvester]

theorem sylvesterRow_succ_upper {k i : Nat} (hi : i < 2 ^ k) (w : Nat → Int) :
    sylvesterRow (k + 1) i w = sylvesterRow k i w + sylvesterRow k i (fun j => w (j + 2 ^ k)) := by
  rw [sylvesterRow, pow_succ, Nat.mul_two, Finset.sum_range_add, sylvesterRow, sylvesterRow]
  refine congrArg _ (Finset.sum_congr rfl fun j hj => ?_)
  rw [Nat.add_comm, sylvester_right hi (Finset.mem_range.mp hj)]

theorem sylvesterRow_succ_lower {k i : Nat} (hi : i < 2 ^ k) (w : Nat → Int) :
    sylvesterRow (k + 1) (i + 2 ^ k) w = sylvesterRow k i w - sylvesterRow k i (fun j => w (j + 2 ^ k)) := by
  rw [sylvesterRow, pow_succ, Nat.mul_two, Finset.sum_range_add, sylvesterRow, sylvesterRow, sub_eq_add_neg,
    ← Finset.sum_neg_distrib]
  refine congrArg₂ _ (Finset.sum_congr rfl fun j hj => ?_) (Finset.sum_congr rfl fun j hj => ?_)
  · rw [sylvester_comm, sylvester_right (Finset.mem_range.mp hj) hi, sylvester_comm]
  · rw [Nat.add_comm _ j, sylvester_both hi (Finset.mem_range.mp hj), neg_mul]

theorem sylvesterRow_congr {k : Nat} (i : Nat) {w w' : Nat → Int} (h : ∀ j, j < 2 ^ k → w j = w' j) :
    sylvesterRow k i w = sylvesterRow k i w' :=
  Finset.sum_congr rfl fun j hj => by rw [h j (Finset.mem_range.mp hj)]

theorem sylvesterRow_add (k i : Nat) (w w' : Nat → Int) :
    sylvesterRow k i (fun j => w j + w' j) = sylvesterRow k i w + sylvesterRow k i w' := by
  simp only [sylvesterRow, mul_add, Finset.sum_add_distrib]

theorem sylvesterRow_sub (k i : Nat) (w w' : Nat → Int) :
    sylvesterRow k i (fun j => w j - w' j) = sylvesterRow k i w - sylvesterRow k i w' := by
  simp only [sylvesterRow, mul_sub, Finset.sum_sub_distrib]

/-- An index of `k + 1` bits, by its top bit. -/
theorem lt_two_pow_succ_cases {k i : Nat} (h : i < 2 ^ (k + 1)) : i < 2 ^ k ∨ ∃ j, j < 2 ^ k ∧ i = j + 2 ^ k := by
  rcases Nat.lt_or_ge i (2 ^ k) with hlt | hge
  · exact .inl hlt
  · exact .inr ⟨i - 2 ^ k, by omega, by omega⟩

/-- The square of the matrix of order `2^k` is `2^k` times the identity. -/
theorem sylvesterRow_sylvesterRow {k i : Nat} (hi : i < 2 ^ k) (w : Nat → Int) :
    sylvesterRow k i (fun j => sylvesterRow k j w) = 2 ^ k * w i := by
  induction k generalizing i w with
  | zero =>
    obtain rfl : i = 0 := by omega
    simp [sylvesterRow_zero]
  | succ k ih =>
    have upper : ∀ j, j < 2 ^ k → sylvesterRow (k + 1) j w = _ := fun j hj => sylvesterRow_succ_upper hj w
    have lower : ∀ j, j < 2 ^ k → sylvesterRow (k + 1) (j + 2 ^ k) w = _ := fun j hj => sylvesterRow_succ_lower hj w
    rcases lt_two_pow_succ_cases hi with h | ⟨i, h, rfl⟩
    · rw [sylvesterRow_succ_upper h, sylvesterRow_congr i upper, sylvesterRow_congr i lower, sylvesterRow_add,
        sylvesterRow_sub, ih h, ih h]
      ring
    · rw [sylvesterRow_succ_lower h, sylvesterRow_congr i upper, sylvesterRow_congr i lower, sylvesterRow_add,
        sylvesterRow_sub, ih h, ih h]
      ring

theorem add_mul_two_pow_div {k r : Nat} (h : r < 2 ^ k) (a : Nat) : (r + a * 2 ^ k) / 2 ^ k = a := by
  rw [Nat.add_mul_div_right _ _ (by positivity), Nat.div_eq_of_lt h, Nat.zero_add]

/-- Before stage `k` each group of `2^k` values has gone through the matrix of order `2^k`. -/
theorem stage_eq_sylvesterRow {m : Nat} {v : Nat → Nat → Int}
    (hv : ∀ k j, k < m → j < 2 ^ m →
      v (k + 1) j = if j / 2 ^ k % 2 = 0 then v k j + v k (j + 2 ^ k) else v k (j - 2 ^ k) - v k j)
    {k d a r : Nat} (hm : k + d = m) (ha : a < 2 ^ d) (hr : r < 2 ^ k) :
    v k (r + a * 2 ^ k) = sylvesterRow k r (fun i => v 0 (i + a * 2 ^ k)) := by
  induction k generalizing d a r with
  | zero =>
    obtain rfl : r = 0 := by omega
    rw [sylvesterRow_zero]
  | succ k ih =>
    have ha' : 2 * a + 1 < 2 ^ (d + 1) := by rw [pow_succ]; omega
    have upper {r : Nat} (h : r < 2 ^ k) := ih (d := d + 1) (a := 2 * a) (by omega) (by omega) h
    have lower {r : Nat} (h : r < 2 ^ k) := ih (d := d + 1) (a := 2 * a + 1) (by omega) ha' h
    have e (n : Nat) : n + 2 ^ k + 2 * a * 2 ^ k = n + (2 * a + 1) * 2 ^ k := by ring
    have hlt {r : Nat} (h : r < 2 ^ k) : r + (2 * a + 1) * 2 ^ k < 2 ^ m := by
      calc r + (2 * a + 1) * 2 ^ k < (2 * a + 2) * 2 ^ k := by linarith
        _ ≤ 2 ^ (d + 1) * 2 ^ k := Nat.mul_le_mul_right _ ha'
        _ = 2 ^ m := by rw [← pow_add, ← hm]; ring_nf
    rw [show a * 2 ^ (k + 1) = 2 * a * 2 ^ k by ring]
    rcases lt_two_pow_succ_cases hr with h | ⟨r, h, rfl⟩
    · have hlt' : r + 2 * a * 2 ^ k < 2 ^ m :=
        (Nat.add_le_add_left (Nat.mul_le_mul_right _ (Nat.le_succ _)) r).trans_lt (hlt h)
      have even : (r + 2 * a * 2 ^ k) / 2 ^ k % 2 = 0 := by rw [add_mul_two_pow_div h]; omega
      rw [hv k _ (by omega) hlt', if_pos even, sylvesterRow_succ_upper h, upper h, Nat.add_right_comm, e, lower h]
      simp only [e]
    · have odd : ¬ (r + (2 * a + 1) * 2 ^ k) / 2 ^ k % 2 = 0 := by rw [add_mul_two_pow_div h]; omega
      rw [e, hv k _ (by omega) (hlt h), if_neg odd, sylvesterRow_succ_lower h, lower h, ← e, Nat.add_right_comm,
        Nat.add_sub_cancel, upper h]
      simp only [e]

/-- The butterflies over the integers, value by value. -/
theorem butterflies_eq_sylvesterRow {k i : Nat} {v : List Int} (hl : v.length = 2 ^ k) (hi : i < 2 ^ k) :
    (butterflies (· + ·) (· - ·) (2 ^ k) k 1 v)[i]? = some (sylvesterRow k i (fun j => v.getD j 0)) := by
  obtain ⟨w, hstart, hstep, hend⟩ := butterflies_get (· + ·) (· - ·) k 0 v (by rw [hl, Nat.zero_add])
  simp only [Nat.zero_add, pow_zero] at hstart hstep hend
  have hrow := stage_eq_sylvesterRow (fun k j hk hj => hstep k j (Nat.zero_le k) hk hj) (Nat.add_zero k) Nat.one_pos hi
  simp only [Nat.zero_mul, Nat.add_zero] at hrow
  rw [hend i hi, hrow]
  exact congrArg some (sylvesterRow_congr i fun j hj => by simp [hstart j hj])

/-- Settles O22: the stages are the rows of the matrix by induction on the stage; its square is by induction on the order. -/
theorem butterfliesAreTheSylvesterMatrix : Obligations.ButterfliesAreTheSylvesterMatrix := by
  unfold Obligations.ButterfliesAreTheSylvesterMatrix
  intro k v hl
  refine ⟨fun i hi => ?_, List.ext_getElem? fun i => ?_⟩
  · rw [butterflies_eq_sylvesterRow hl hi, sylvesterRow_eq_sum_map]
  · have hl' := butterflies_length (· + ·) (· - ·) (2 ^ k) k 1 v hl
    rcases Nat.lt_or_ge i (2 ^ k) with hi | hi
    · have hrow : ∀ j, j < 2 ^ k → (butterflies (· + ·) (· - ·) (2 ^ k) k 1 v).getD j 0 = _ := fun j hj => by
        rw [List.getD_eq_getElem?_getD, butterflies_eq_sylvesterRow hl hj, Option.getD_some]
      rw [butterflies_eq_sylvesterRow hl' hi, sylvesterRow_congr i hrow, sylvesterRow_sylvesterRow hi]
      simp [List.getElem?_eq_getElem (hl ▸ hi : i < v.length)]
    · rw [List.getElem?_eq_none (by rw [butterflies_length _ _ _ _ _ _ hl']; exact hi),
        List.getElem?_eq_none (by rw [List.length_map, hl]; exact hi)]

end Sys2Proof.Machine
end

section
/-!
PROOFS. 43_dvn_convolver.md R190-R199, R210-R212: what each DVN and DIFF command answers. DIFF.CFG makes the checks of
DVN.CFG with another count of draws, so they are said once for `DvnArgs`; a channel of DIFF.PROCB is a zip entry, so that
its convolver and its input alone decide it.
-/

namespace Sys2Proof.Machine

/-! ## Pulses (R191) -/

/-- The rules of R191 name one width and one position, those the model computes. -/
theorem Pulse.madeOf.eq_generated {q : Pulse} {td m : Nat} {u1 u2 u3 : Draw} (h : q.madeOf td m u1 u2 u3) :
    q.w = pulseWidth (td / 2) td u1 ∧ q.k = pulsePos td m q.w u2 := by
  obtain ⟨hw, hk, _⟩ := h
  exact ⟨by rw [pulseWidth, ← hw, Int.toNat_natCast], by rw [pulsePos, ← hk, Int.toNat_natCast]⟩

/-- Settles O24, by the ranges of the width and of the position; a width is at least 1. -/
theorem pulsesStayInTheirCells : Obligations.PulsesStayInTheirCells := by
  unfold Obligations.PulsesStayInTheirCells
  intro td m u1 u2 u3 q htd hq
  obtain ⟨hw, hk⟩ := hq.eq_generated
  have hwidth := pulseWidth_range (Nat.div_le_self td 2) u1
  rw [← hw] at hwidth
  have hpos := pulsePos_range (m := m) hwidth.2 u2
  rw [← hk] at hpos
  have hcell : (m + 1) * td = m * td + td := Nat.succ_mul m td
  omega

/-! ## The checks of DVN.CFG (R195) -/

/-- The arguments pass every check of R195 before the capacity checks. -/
structure DvnArgs.InRange (a : DvnArgs) (draws need : Nat) : Prop where
  rho : a.rho ≠ 0
  maxblk : a.maxblk ≠ 0
  eps : inUnit a.eps
  td : 2 ≤ a.td
  draws : need ≤ draws

/-- Two samples of grid spacing take a sample rate. -/
theorem DvnArgs.InRange.fs {a : DvnArgs} {draws need : Nat} (h : a.InRange draws need) : a.fs ≠ 0 := fun h0 => by
  have htd := h.td
  rw [DvnArgs.td, h0, Nat.zero_div] at htd
  omega

theorem DvnArgs.error_invalidArg {a : DvnArgs} {draws need : Nat}
    (h : a.rho = 0 ∨ a.fs = 0 ∨ a.maxblk = 0 ∨ ¬ inUnit a.eps ∨ a.td < 2 ∨ draws < need) :
    a.error draws need = some .invalidArg := by
  rw [← epsOk_eq_false_iff] at h
  unfold DvnArgs.error
  split_ifs with h1 h2 h3 h4
  · rfl
  · rfl
  · rfl
  · rfl
  all_goals
    simp only [h2, reduceCtorEq, false_or] at h
    omega

theorem DvnArgs.InRange.error_capacity {a : DvnArgs} {draws need : Nat} (h : a.InRange draws need)
    (hfits : ¬ dvnFits a.p a.td a.maxblk) : a.error draws need = some .capacity := by
  have hfs := h.fs
  obtain ⟨hrho, hmaxblk, heps, htd, hdraws⟩ := h
  rw [dvnFits_iff] at hfits
  rw [DvnArgs.error, if_neg (by omega), if_neg (by rwa [epsOk_eq_false_iff, not_not]), if_neg (by omega),
    if_neg (by omega), if_pos (by omega)]

theorem DvnArgs.InRange.error_none {a : DvnArgs} {draws need : Nat} (h : a.InRange draws need)
    (hfits : dvnFits a.p a.td a.maxblk) : a.error draws need = none := by
  have hfs := h.fs
  obtain ⟨hrho, hmaxblk, heps, htd, hdraws⟩ := h
  exact DvnArgs.error_none.mpr ⟨Nat.pos_of_ne_zero hrho, Nat.pos_of_ne_zero hfs, Nat.pos_of_ne_zero hmaxblk,
    (epsOk_iff _).mpr heps, htd, hdraws, hfits⟩

/-! ## DVN.CFG -/

/-- A convolver takes the first `3·P` draws of its stream and no others (R191, R195). -/
theorem Dvn.fresh_build (prm : Params) {a : DvnArgs} {rnd stream : List Draw} (he : inUnit a.eps)
    (hlen : 3 * a.p ≤ rnd.length) (hrnd : ∀ i, i < 3 * a.p → rnd[i]? = stream[i]?) :
    (Dvn.build prm a rnd).fresh prm a.p a.rho a.fs a.maxblk a.eps stream := by
  refine ⟨rfl, rfl, rfl, rfl, rfl, rfl, rfl, rfl, rfl, rfl, rfl, genPulses_length _ _ _ _ hlen, fun m hm => ?_,
    ⟨kmax (genPulses a.td 0 a.p rnd), fun q hq => le_kmax hq, kmax_attained _, Dl.fresh_build _ _ _⟩, ?_, fun b hb => ?_⟩
  · obtain ⟨u1, u2, u3, h1, h2, h3, hget⟩ := genPulses_get a.td 0 a.p m rnd hlen hm
    rw [Nat.zero_add] at hget
    exact ⟨_, u1, u2, u3, hget, (hrnd (3 * m) (by omega)).symm.trans h1, (hrnd (3 * m + 1) (by omega)).symm.trans h2,
      (hrnd (3 * m + 2) (by omega)).symm.trans h3, genPulse_madeOf _ _ _ _ _⟩
  · simp [Dvn.build]
  · refine ⟨_, ?_, Rrs.fresh_build (a.td / 2 + b) he⟩
    have hb' : b < a.td - a.td / 2 + 1 := hb
    simp only [Dvn.build, List.getElem?_map, List.getElem?_range hb', Option.map_some]

theorem exec_dvnCfg (s : State) :
    exec .dvnCfg s = s.failOr .dvn ((dvnPortArgs s.dvnIn).error s.dvnIn.rnd.length (3 * s.dvnIn.p.toNat))
      (s.putDvn (.build s.params (dvnPortArgs s.dvnIn) s.dvnIn.rnd) (.done s.draws)) := rfl

theorem fails_dvnCfg {s : State} {e : Err}
    (h : (dvnPortArgs s.dvnIn).error s.dvnIn.rnd.length (3 * s.dvnIn.p.toNat) = some e) : fails .dvnCfg s e :=
  fails_of_failAt (by rw [exec_dvnCfg, h]; rfl)

theorem exec_dvnCfg_ok {s : State}
    (h : (dvnPortArgs s.dvnIn).error s.dvnIn.rnd.length (3 * s.dvnIn.p.toNat) = none) :
    exec .dvnCfg s = .next (s.putDvn (.build s.params (dvnPortArgs s.dvnIn) s.dvnIn.rnd) (.done s.draws)) := by
  rw [exec_dvnCfg, h]
  rfl

theorem toNat_eq_zero {v : Word} (h : v = 0) : v.toNat = 0 := congrArg BitVec.toNat h

/-- Settles O23: one clause for each outcome of `DvnArgs.error`. -/
theorem dvnCfgBuildsTheConvolver : Obligations.DvnCfgBuildsTheConvolver := by
  unfold Obligations.DvnCfgBuildsTheConvolver
  rintro s _ _ rfl rfl
  have inRange : s.dvnIn.rho ≠ 0 → s.dvnIn.maxblk ≠ 0 → inUnit (s.dvnIn.eps.getD 0x39800000) →
      2 ≤ s.dvnIn.fs.toNat / s.dvnIn.rho.toNat → 3 * s.dvnIn.p.toNat ≤ s.dvnIn.rnd.length →
      (dvnPortArgs s.dvnIn).InRange s.dvnIn.rnd.length (3 * s.dvnIn.p.toNat) := fun hrho hmaxblk he htd hdraws =>
    ⟨toNat_ne_zero hrho, toNat_ne_zero hmaxblk, he, htd, hdraws⟩
  refine ⟨fun h => ?_, fun hrho hmaxblk he htd hdraws hfits => ?_, fun hrho hmaxblk he htd hdraws hfits => ?_⟩
  · exact fails_dvnCfg (DvnArgs.error_invalidArg
      (h.imp toNat_eq_zero (Or.imp toNat_eq_zero (Or.imp_left toNat_eq_zero))))
  · exact fails_dvnCfg ((inRange hrho hmaxblk he htd hdraws).error_capacity hfits)
  · have hok := (inRange hrho hmaxblk he htd hdraws).error_none hfits
    exact ⟨_, exec_dvnCfg_ok hok, onlyDvn_put s _ _, rfl,
      Dvn.fresh_build s.params (a := dvnPortArgs s.dvnIn) he hdraws fun _ _ => rfl⟩

/-! ## The other commands on a configured convolver -/

/-- The block that DVN.PROCB reads at its port. -/
def State.dvnBlock (s : State) : List F32 := takeVec s.draws 0 0 s.dvnIn.n.toNat s.dvnIn.blk

section Configured

variable {s : State} (hc : s.dvn.cfg = true)
include hc

theorem dvn_not_unconfigured : ¬ s.dvn.cfg = false := by simp [hc]

theorem exec_dvnProcb (h : s.dvnIn.n.toNat ≤ s.dvn.maxblk) :
    exec .dvnProcb s = .next
      (s.putDvn (s.dvn.block s.draws s.dvnIn.n.toNat s.dvnBlock).2
        (.block s.draws (s.dvn.block s.draws s.dvnIn.n.toNat s.dvnBlock).1)) := by
  rw [exec, execDvnProcb, if_neg (dvn_not_unconfigured hc), if_neg (by omega)]
  rfl

theorem fails_dvnProcb (h : s.dvn.maxblk < s.dvnIn.n.toNat) : fails .dvnProcb s .bounds :=
  fails_of_failAt (by rw [exec, execDvnProcb, if_neg (dvn_not_unconfigured hc), if_pos h]; rfl)

theorem exec_dvnPulse (h : s.dvnIn.i.toNat < s.dvn.p) :
    exec .dvnPulse s = .next (s.putDvn s.dvn (s.dvn.pulseResult s.draws s.dvnIn.i.toNat)) := by
  rw [exec, execDvnPulse, if_neg (dvn_not_unconfigured hc), if_neg (by omega)]

theorem fails_dvnPulse (h : s.dvn.p ≤ s.dvnIn.i.toNat) : fails .dvnPulse s .bounds :=
  fails_of_failAt (by rw [exec, execDvnPulse, if_neg (dvn_not_unconfigured hc), if_pos h]; rfl)

end Configured

/-- Settles O25: `Dvn.block` is the block of R197. -/
theorem dvnProcbConvolves : Obligations.DvnProcbConvolves := by
  unfold Obligations.DvnProcbConvolves
  exact fun s hc => ⟨fails_dvnProcb hc, fun hwf hn => ⟨_, s.dvnBlock, takeVec_operandVec _ _ _ _, exec_dvnProcb hc hn,
    onlyDvn_put s _ _, rfl, Dvn.convolved_block hwf hc _ _ _⟩⟩

/-- What a convolver holds of a pulse fits the result fields (R192, R195). -/
theorem Dvn.wf.pulse_lt {d : Dvn} (h : d.wf) (hc : d.cfg = true) {q : Pulse} (hq : q ∈ d.pulses) :
    q.k < 2 ^ 32 ∧ q.w < 2 ^ 32 := by
  obtain ⟨_, _, _, _, _, _, _, htd, _, hwmax, _, _, _, hpulses, hsd, _⟩ := h hc
  obtain ⟨_, hw, hk⟩ := hpulses q hq
  obtain ⟨hcfg, _, _, hsdwf⟩ := hsd
  obtain ⟨_, _, _, hb, hcap, _⟩ := hsdwf hcfg
  simp only [Config.tdMax, Config.dlCap] at htd hcap
  omega

theorem Dvn.pulseResult_of_get {d : Dvn} {i : Nat} {q : Pulse} (h : d.pulses[i]? = some q) (draw : Nat) :
    d.pulseResult draw i = .pulse draw q := by
  unfold Dvn.pulseResult
  rw [h]

/-- Settles O26: a pulse's position and width are below `2^32`, so that the fields hold them whole. -/
theorem dvnPulseReadsBack : Obligations.DvnPulseReadsBack := by
  unfold Obligations.DvnPulseReadsBack
  refine fun s hc => ⟨fails_dvnPulse hc, fun hwf hi => ?_⟩
  obtain ⟨_, _, _, _, _, _, _, _, _, _, _, _, hlen, _⟩ := hwf hc
  have hget : s.dvn.pulses[s.dvnIn.i.toNat]? = some s.dvn.pulses[s.dvnIn.i.toNat] :=
    List.getElem?_eq_getElem (by omega)
  obtain ⟨hk, hw⟩ := hwf.pulse_lt hc (List.mem_of_getElem? hget)
  refine ⟨_, _, hget, exec_dvnPulse hc hi, onlyDvn_put s _ _, rfl, ?_⟩
  rw [Dvn.pulseResult_of_get hget]
  exact ⟨rfl, Nat.mod_eq_of_lt hk, Nat.mod_eq_of_lt hw, rfl⟩

/-! ## Convolvers without pulses (R199) -/

/-- A filter that has seen only zeros; its coefficients are finite and carry no minus sign, so that it returns `+0.0`. -/
def Rrs.Silent (f : Rrs) : Prop :=
  F32.isFinite f.a = true ∧ F32.neg f.a = false ∧ F32.isFinite f.c = true ∧ F32.neg f.c = false ∧
    ∀ j, f.xl.ring.read j = 0 ∧ f.yl.ring.read j = 0

theorem Dvn.quiet_iff (d : Dvn) : d.quiet ↔ d.p = 0 ∧ d.pulses = [] ∧ ∀ f ∈ d.rrs, f.Silent := Iff.rfl

theorem Rrs.silent_build (width : Nat) {eps : F32} (he : inUnit eps) : (Rrs.build width eps).Silent := by
  obtain ⟨ha, hc⟩ := (Rrs.fresh_build width he).coeffs he
  exact ⟨ha.atMostOne.isFinite, ha.nonneg, hc.atMostOne.isFinite, hc.nonneg, fun _ => ⟨rfl, rfl⟩⟩

theorem mul32_zero_of_nonneg (draw : Nat) {x : F32} (hx : F32.isFinite x = true) (hneg : F32.neg x = false) :
    mul32 draw x 0 = 0 := by
  rw [mul32_of_eq_zero draw hx (by decide) (by rw [toRat_zero, mul_zero]), hneg]
  rfl

theorem Dl.read_push_zero {d : Dl} (h : ∀ j, d.ring.read j = 0) (j : Nat) : (d.push 0).ring.read j = 0 := by
  rw [Dl.push_ring, Ring.read_write, h j, ite_self]

theorem Rrs.Silent.out_zero {f : Rrs} (h : f.Silent) (draw : Nat) : f.out draw 0 = 0 := by
  obtain ⟨ha, hna, hc, hnc, hread⟩ := h
  have hxl : (f.xl.push 0).age f.width = 0 := Dl.read_push_zero (fun j => (hread j).1) _
  have hyl : f.yl.age 0 = 0 := (hread _).2
  rw [Rrs.out, hxl, hyl, mul32_zero_of_nonneg draw ha hna, mul32_zero_of_nonneg draw hc hnc,
    sub32_zero_left draw (by decide), if_pos rfl, add32_zero_right draw (by decide), if_neg (by decide)]

theorem Rrs.Silent.push_zero {f : Rrs} (h : f.Silent) (draw : Nat) : (f.push draw 0).Silent := by
  have hout := h.out_zero draw
  obtain ⟨ha, hna, hc, hnc, hread⟩ := h
  refine ⟨ha, hna, hc, hnc, fun j => ⟨Dl.read_push_zero (fun j => (hread j).1) j, ?_⟩⟩
  rw [Rrs.push, hout]
  exact Dl.read_push_zero (fun j => (hread j).2) j

theorem Rrs.Silent.block_zeros {f : Rrs} (h : f.Silent) (draw n : Nat) :
    (f.block draw (List.replicate n 0)).2.Silent := by
  induction n generalizing f with
  | zero => exact h
  | succ n ih => exact ih (h.push_zero draw)

theorem Dvn.scratch_of_no_pulses {d : Dvn} (h : d.pulses = []) (draw : Nat) (sd : Dl) (n b : Nat) :
    d.scratch draw sd n b = List.replicate n 0 := by rw [Dvn.scratch, h]; rfl

/-- The filters of a convolver without pulses are fed zeros only (R197, R199). -/
theorem Dvn.quiet.block {d : Dvn} (h : d.quiet) (draw n : Nat) (xs : List F32) : (d.block draw n xs).2.quiet := by
  obtain ⟨hp, hpulses, hsilent⟩ := d.quiet_iff.mp h
  refine (Dvn.quiet_iff _).mpr ⟨hp, hpulses, fun g hg => ?_⟩
  obtain ⟨k, hk⟩ := List.getElem?_of_mem hg
  simp only [Dvn.block, Dvn.buckets_get, Option.map_eq_some_iff, Dvn.scratch_of_no_pulses hpulses] at hk
  obtain ⟨f, hf, rfl⟩ := hk
  exact (hsilent f (List.mem_of_getElem? hf)).block_zeros draw n

/-- Without pulses every output sample is `+0.0`, whatever the factor (R196, R199; log 31). -/
theorem Dvn.block_of_no_pulses {d : Dvn} (h : d.p = 0) (draw n : Nat) (xs : List F32) :
    (d.block draw n xs).1 = List.replicate n 0 := by
  refine List.eq_replicate_iff.mpr ⟨Dvn.block_length _ _ _ _, fun y hy => ?_⟩
  obtain ⟨v, _, rfl⟩ := List.mem_map.mp hy
  exact if_pos h

theorem Dvn.quiet_build (prm : Params) {a : DvnArgs} (hp : a.p = 0) (he : inUnit a.eps) (rnd : List Draw) :
    (Dvn.build prm a rnd).quiet := by
  refine (Dvn.quiet_iff _).mpr ⟨hp, ?_, fun f hf => ?_⟩
  · simp [Dvn.build, hp, genPulses]
  · obtain ⟨b, _, rfl⟩ := List.mem_map.mp hf
    exact Rrs.silent_build _ he

/-- What a successful DVN.CFG leaves (R195). -/
theorem dvn_of_dvnCfg {s t : State} (h : exec .dvnCfg s = .next t) (herr : t.dvnOut.err = 0) :
    inUnit (dvnPortArgs s.dvnIn).eps ∧ t.dvn = Dvn.build s.params (dvnPortArgs s.dvnIn) s.dvnIn.rnd := by
  cases hchk : (dvnPortArgs s.dvnIn).error s.dvnIn.rnd.length (3 * s.dvnIn.p.toNat) with
  | some e => exact absurd herr ((fails_dvnCfg hchk).portErr_ne_zero h)
  | none =>
    obtain ⟨_, _, _, heps, _⟩ := DvnArgs.error_none.mp hchk
    obtain rfl := Host.Outcome.next.inj ((exec_dvnCfg_ok hchk).symm.trans h)
    exact ⟨(epsOk_iff _).mp heps, rfl⟩

/-- Settles O27: with `P = 0` the output of `Dvn.scaled` is `+0.0`, and the scratch blocks are zeros. -/
theorem noPulsesNoOutput : Obligations.NoPulsesNoOutput := by
  unfold Obligations.NoPulsesNoOutput
  refine ⟨fun s t hp h herr => ?_, fun s hc hp hn => ?_⟩
  · obtain ⟨he, hbuilt⟩ := dvn_of_dvnCfg h herr
    rw [hbuilt]
    exact Dvn.quiet_build _ (toNat_eq_zero hp) he _
  · exact ⟨_, exec_dvnProcb hc hn, rfl, Dvn.block_of_no_pulses hp _ _ _, hp, fun hq => hq.block _ _ _⟩

/-! ## DIFF.CFG (R210) -/

theorem Diff.cfgError_zero (a : DvnArgs) (draws : Nat) : Diff.cfgError 0 a draws = some .invalidArg := if_pos rfl

theorem Diff.cfgError_large {ch : Nat} (h : Config.diffNmax < ch) (a : DvnArgs) (draws : Nat) :
    Diff.cfgError ch a draws = some .capacity := by rw [Diff.cfgError, if_neg (by omega), if_pos h]

theorem Diff.cfgError_eq {ch : Nat} (h0 : ch ≠ 0) (h : ch ≤ Config.diffNmax) (a : DvnArgs) (draws : Nat) :
    Diff.cfgError ch a draws = a.error draws (3 * a.p * ch) := by
  rw [Diff.cfgError, if_neg h0, if_neg (by omega)]

/-- Convolver `c` is built from the `3·P` draws from number `3·P·c` on. -/
theorem buildConvs_get (prm : Params) (a : DvnArgs) {ch c : Nat} (rnd : List Draw) (hc : c < ch) :
    (buildConvs prm a ch rnd)[c]? = some (Dvn.build prm a ((rnd.drop (3 * a.p * c)).take (3 * a.p))) := by
  induction ch generalizing c rnd with
  | zero => omega
  | succ ch ih =>
    cases c with
    | zero => rfl
    | succ c =>
      rw [buildConvs, List.getElem?_cons_succ, ih _ (by omega), List.drop_drop, Nat.mul_succ, Nat.add_comm]

theorem Diff.fresh_build (prm : Params) {a : DvnArgs} {ch : Nat} {rnd : List Draw} (he : inUnit a.eps)
    (hlen : 3 * a.p * ch ≤ rnd.length) :
    (Diff.build prm ch a rnd).fresh prm ch a.p a.rho a.fs a.maxblk a.eps rnd := by
  refine ⟨rfl, rfl, rfl, buildConvs_length _ _ _ _, fun c hc => ⟨_, buildConvs_get prm a rnd hc, ?_⟩⟩
  have hpiece : 3 * a.p * (c + 1) ≤ 3 * a.p * ch := Nat.mul_le_mul_left _ hc
  rw [Nat.mul_succ] at hpiece
  refine Dvn.fresh_build prm he ?_ fun i hi => List.getElem?_take_of_lt hi
  rw [List.length_take, List.length_drop]
  omega

theorem exec_diffCfg (s : State) :
    exec .diffCfg s = s.failOr .diff (Diff.cfgError s.diffIn.ch.toNat (diffPortArgs s.diffIn) s.diffIn.rnd.length)
      (s.putDiff (.build s.params s.diffIn.ch.toNat (diffPortArgs s.diffIn) s.diffIn.rnd) (.done s.draws)) := rfl

theorem fails_diffCfg {s : State} {e : Err}
    (h : Diff.cfgError s.diffIn.ch.toNat (diffPortArgs s.diffIn) s.diffIn.rnd.length = some e) : fails .diffCfg s e :=
  fails_of_failAt (by rw [exec_diffCfg, h]; rfl)

theorem exec_diffCfg_ok {s : State}
    (h : Diff.cfgError s.diffIn.ch.toNat (diffPortArgs s.diffIn) s.diffIn.rnd.length = none) :
    exec .diffCfg s = .next
      (s.putDiff (.build s.params s.diffIn.ch.toNat (diffPortArgs s.diffIn) s.diffIn.rnd) (.done s.draws)) := by
  rw [exec_diffCfg, h]
  rfl

/-- Settles O28: the channel count's checks, and then one clause for each outcome of `DvnArgs.error`. -/
theorem diffCfgBuildsTheConvolvers : Obligations.DiffCfgBuildsTheConvolvers := by
  unfold Obligations.DiffCfgBuildsTheConvolvers
  rintro s _ _ rfl rfl
  refine ⟨fun h => ?_, fun h => fails_diffCfg (Diff.cfgError_large h _ _), fun h0 h h' => ?_,
    fun h0 h hrho hmaxblk he htd hdraws => ?_⟩
  · exact fails_diffCfg (toNat_eq_zero h ▸ Diff.cfgError_zero _ _)
  · have hchk := Diff.cfgError_eq (toNat_ne_zero h0) h (diffPortArgs s.diffIn) s.diffIn.rnd.length
    exact fails_diffCfg (hchk.trans (DvnArgs.error_invalidArg
      (h'.imp toNat_eq_zero (Or.imp toNat_eq_zero (Or.imp_left toNat_eq_zero)))))
  · have hchk := Diff.cfgError_eq (toNat_ne_zero h0) h (diffPortArgs s.diffIn) s.diffIn.rnd.length
    have hin : (diffPortArgs s.diffIn).InRange s.diffIn.rnd.length (3 * s.diffIn.p.toNat * s.diffIn.ch.toNat) :=
      ⟨toNat_ne_zero hrho, toNat_ne_zero hmaxblk, he, htd, hdraws⟩
    exact ⟨fun hfits => fails_diffCfg (hchk.trans (hin.error_capacity hfits)), fun hfits =>
      ⟨_, exec_diffCfg_ok (hchk.trans (hin.error_none hfits)), onlyDiff_put s _ _, rfl,
        Diff.fresh_build s.params (a := diffPortArgs s.diffIn) he hdraws⟩⟩

/-! ## DIFF.PROCB (R211, R212) -/

/-- The channels that DIFF.PROCB reads at its port. -/
def State.diffChans (s : State) : List (List F32) :=
  takeChannels s.draws s.diffIn.n.toNat 0 s.diff.ch s.diffIn.blk

theorem fails_diffProcb_unconfigured {s : State} (h : s.diff.cfg = false) : fails .diffProcb s .notConfigured :=
  fails_of_failAt (by rw [exec, execDiffProcb, if_pos h]; rfl)

section Configured

variable {s : State} (hc : s.diff.cfg = true)
include hc

theorem diff_not_unconfigured : ¬ s.diff.cfg = false := by simp [hc]

theorem exec_diffProcb (h : s.diffIn.n.toNat ≤ s.diff.maxblk) :
    exec .diffProcb s = .next
      (s.putDiff (s.diff.block s.draws s.diffIn.n.toNat s.diffChans).2
        (.block (s.diff.block s.draws s.diffIn.n.toNat s.diffChans).1)) := by
  rw [exec, execDiffProcb, if_neg (diff_not_unconfigured hc), if_neg (by omega)]
  rfl

theorem fails_diffProcb (h : s.diff.maxblk < s.diffIn.n.toNat) : fails .diffProcb s .bounds :=
  fails_of_failAt (by rw [exec, execDiffProcb, if_neg (diff_not_unconfigured hc), if_pos h]; rfl)

end Configured

/-- A channel of a diffuser's block is the block of its convolver. -/
theorem Diff.block_get (draw : Nat) {d : Diff} (n : Nat) {chans : List (List F32)} {c : Nat} {v : Dvn} {x : List F32}
    (hv : d.conv[c]? = some v) (hx : chans[c]? = some x) :
    (d.block draw n chans).1[c]? = some (v.block draw n x).1 ∧
      (d.block draw n chans).2.conv[c]? = some (v.block draw n x).2 := by
  simp only [Diff.block, List.getElem?_map, List.getElem?_zipWith, hv, hx]
  exact ⟨rfl, rfl⟩

/-- Settles O29: a channel of the diffuser's block, taken whole by DVN.PROCB. -/
theorem diffProcbConvolvesEachChannel : Obligations.DiffProcbConvolvesEachChannel := by
  unfold Obligations.DiffProcbConvolvesEachChannel
  refine fun s hc => ⟨fails_diffProcb hc, fun hwf hn => ?_⟩
  obtain ⟨_, _, hlen, hconv⟩ := hwf hc
  have hchans : s.diffChans.length = s.diff.ch := takeChannels_length _ _ _ _ _
  refine ⟨_, s.diffChans, takeChannels_operandChans _ _ _ _, exec_diffProcb hc hn, onlyDiff_put s _ _, rfl, rfl,
    by simp [Diff.block, hlen, hchans], by simp [BlockResult.block, hlen, hchans], fun c hlt => ?_⟩
  have hv : s.diff.conv[c]? = some s.diff.conv[c] := List.getElem?_eq_getElem (by omega)
  have hx : s.diffChans[c]? = some s.diffChans[c] := List.getElem?_eq_getElem (by omega)
  obtain ⟨hcfg, hmaxblk, _⟩ := hconv _ (List.getElem_mem (by omega : c < s.diff.conv.length))
  have hxlen : s.diffChans[c].length = s.diffIn.n.toNat := takeChannels_mem (List.getElem_mem _)
  obtain ⟨hout, hafter⟩ := Diff.block_get s.draws s.diffIn.n.toNat hv hx
  have hexec := exec_dvnProcb
    (s := { s with dvn := s.diff.conv[c], dvnIn := { s.dvnIn with n := s.diffIn.n, blk := s.diffChans[c] } })
    hcfg (hmaxblk ▸ hn)
  dsimp only [State.dvnBlock] at hexec
  rw [← hxlen, takeVec_of_length, hxlen] at hexec
  exact ⟨_, _, _, hv, hx, hexec, rfl, hafter, hout⟩

/-- What a successful DIFF.PROCB returns and leaves (R212). -/
theorem diff_of_diffProcb {s t : State} (h : exec .diffProcb s = .next t) (herr : t.diffOut.err = 0) :
    t.diffOut.blkOut = (s.diff.block s.draws s.diffIn.n.toNat s.diffChans).1 ∧
      t.diff = (s.diff.block s.draws s.diffIn.n.toNat s.diffChans).2 := by
  by_cases hc : s.diff.cfg = true
  · by_cases hn : s.diffIn.n.toNat ≤ s.diff.maxblk
    · obtain rfl := Host.Outcome.next.inj ((exec_diffProcb hc hn).symm.trans h)
      exact ⟨rfl, rfl⟩
    · exact absurd herr ((fails_diffProcb hc (not_le.mp hn)).portErr_ne_zero h)
  · exact absurd herr ((fails_diffProcb_unconfigured (Bool.eq_false_iff.mpr hc)).portErr_ne_zero h)

/-- Settles O30: the two commands give channel `c` one convolver and one input block. -/
theorem diffChannelsAreIndependent : Obligations.DiffChannelsAreIndependent := by
  unfold Obligations.DiffChannelsAreIndependent
  intro s s' t t' c v x h h' herr herr' hdraws hn hc hc' hv hv' hx hx'
  have chan : ∀ s : State, c < s.diff.ch → s.diffIn.blk[c]? = some x →
      s.diffChans[c]? = some (takeVec s.draws c 0 s.diffIn.n.toNat x) := fun s hc hx => by
    rw [State.diffChans, takeChannels_get _ _ _ _ _ _ hc, Nat.zero_add, List.getD_eq_getElem?_getD, hx]
    rfl
  obtain ⟨hout, hafter⟩ := diff_of_diffProcb h herr
  obtain ⟨hout', hafter'⟩ := diff_of_diffProcb h' herr'
  obtain ⟨hb, ha⟩ := Diff.block_get s.draws s.diffIn.n.toNat hv (chan s hc hx)
  obtain ⟨hb', ha'⟩ := Diff.block_get s'.draws s'.diffIn.n.toNat hv' (chan s' hc' hx')
  rw [hout, hout', hafter, hafter', hb, hb', ha, ha', hdraws, hn]
  exact ⟨rfl, rfl⟩

end Sys2Proof.Machine
end

section
/-!
PROOFS. 43_dvn_convolver.md R196, 44_fdn.md R231: the defaults of the two coefficient parameters. `DVN_NORM` is `rneInvSqrt`.
For `ONEPOLE_ALPHA` each of the model's bounds of `e = 1 - exp(-2π·fc/fs)` is compared with `e` itself: the fixed-point
series adds at most one unit of error for each term, the quotient and the integer part of `π · 2^256` a little more, and the
sum is a small part of `e`. Where the exponent is large both bounds round to 1.0, and so does all between them.
-/

namespace Sys2Proof.Machine

/-! ## DVN_NORM (R196) -/

theorem dvnNorm_of_nil {prm : Params} (h : prm.dvnNorm = []) (p nw : Nat) :
    dvnNorm prm p nw = if p = 0 then 0x3F800000 else rneInvSqrt (p * nw) := by rw [dvnNorm, h]; rfl

/-- For counts in range the factor is the value nearest to the real reciprocal root. -/
theorem dvnNorm_isNearest {prm : Params} (h : prm.dvnNorm = []) {p nw : Nat} (hp : 1 ≤ p) (hp' : p ≤ 4096)
    (hnw : 1 ≤ nw) (hnw' : nw ≤ 4096) :
    F32.isFinite (dvnNorm prm p nw) = true ∧
      ∀ y, |(F32.toRat (dvnNorm prm p nw) : ℝ) - 1 / √(p * nw)| ≤ |(F32.toRat y : ℝ) - 1 / √(p * nw)| := by
  have hlt : p * nw < 2 ^ 40 := lt_of_le_of_lt (Nat.mul_le_mul hp' hnw') (by norm_num)
  rw [dvnNorm_of_nil h, if_neg (by omega), ← Nat.cast_mul]
  exact rneInvSqrt_isNearest (Nat.mul_pos hp hnw) hlt

/-! ## The exponential series -/

/-- The first `n` terms of the series of `exp x`. -/
noncomputable def expSum (x : ℝ) (n : Nat) : ℝ := ∑ i ∈ Finset.range n, x ^ i / i.factorial

theorem expSum_succ (x : ℝ) (n : Nat) : expSum x (n + 1) = expSum x n + x ^ n / n.factorial :=
  Finset.sum_range_succ _ _

theorem expSum_le_exp {x : ℝ} (hx : 0 ≤ x) (n : Nat) : expSum x n ≤ Real.exp x := Real.sum_le_exp_of_nonneg hx n

/-- The recursion of the rounding error of a term: the factor of the next term multiplies it, and one unit comes on top. -/
theorem expSum_mul_add_one_le {x : ℝ} (hx : 0 ≤ x) (n : Nat) : expSum x n * (x / (n + 1)) + 1 ≤ expSum x (n + 1) := by
  have hterm : ∀ i ∈ Finset.range n, x ^ i / i.factorial * (x / (n + 1)) ≤ x ^ (i + 1) / (i + 1).factorial := by
    intro i hi
    have hin : (i : ℝ) ≤ n := by exact_mod_cast (Finset.mem_range.mp hi).le
    rw [div_mul_div_comm, ← pow_succ, Nat.factorial_succ, Nat.cast_mul, mul_comm, Nat.cast_add_one]
    gcongr
  rw [expSum, expSum, Finset.sum_mul, Finset.sum_range_succ']
  simpa using Finset.sum_le_sum hterm

/-- For every exponent that comes up the terms from number 240 on are below a unit of `2^-256`, and so is all that
follows. -/
theorem pow_div_factorial_le {x : ℝ} (h0 : 0 ≤ x) (h : x ≤ 33) : x ^ 240 / (240 : Nat).factorial ≤ 1 / 2 ^ 256 := by
  have hnat : 33 ^ 240 * 2 ^ 256 ≤ (240 : Nat).factorial := by decide +kernel
  rw [div_le_div_iff₀ (by positivity) (by positivity), one_mul]
  calc x ^ 240 * 2 ^ 256 ≤ 33 ^ 240 * 2 ^ 256 := by gcongr
    _ ≤ ((240 : Nat).factorial : ℝ) := by exact_mod_cast hnat

theorem abs_exp_sub_expSum_le {x : ℝ} (h0 : 0 ≤ x) (h : x ≤ 33) : |Real.exp x - expSum x 241| ≤ 1 / 2 ^ 256 := by
  have hnorm : ‖(x : ℂ)‖ = x := by rw [Complex.norm_real, Real.norm_of_nonneg h0]
  have hbound := Complex.exp_bound' (x := x) (n := 241) (by rw [hnorm]; norm_num; linarith)
  rw [hnorm] at hbound
  have hreal : |Real.exp x - expSum x 241| ≤ x ^ 241 / (241 : Nat).factorial * 2 := by
    rw [← Real.norm_eq_abs, ← Complex.norm_real, expSum]
    push_cast
    exact hbound
  refine hreal.trans (le_trans (le_of_eq ?_) ((mul_le_mul_of_nonneg_right (pow_div_factorial_le h0 h)
    (by positivity : 0 ≤ x / 241 * 2)).trans ?_))
  · have hfact : (241 : Nat).factorial = 241 * (240 : Nat).factorial := by decide +kernel
    rw [hfact, Nat.cast_mul]
    push_cast
    ring
  · exact mul_le_of_le_one_right (by positivity) (by linarith)

/-! ## The series in fixed point -/

/-- The common form of `fxExpLower` and `fxExpUpper` for a scale `F`: each term is cut off and raised by `c`. It returns
the sum and the last term. -/
def fxSeries (F c x : Nat) : (fuel n t acc : Nat) → Nat × Nat
  | 0, _, t, acc => (acc, t)
  | k + 1, n, t, acc => fxSeries F c x k (n + 1) (t * x / ((n + 1) * F) + c) (acc + (t * x / ((n + 1) * F) + c))

/-- One step of `fxExpLower`. Stated of functions: applied to values, the kernel would compute with the scale's digits. -/
theorem fxExpLower_succ (x k : Nat) :
    fxExpLower x (k + 1) = fun n t acc =>
      fxExpLower x k (n + 1) (t * x / ((n + 1) * fxOne)) (acc + t * x / ((n + 1) * fxOne)) := rfl

theorem fxExpUpper_succ (x k : Nat) :
    fxExpUpper x (k + 1) = fun n t acc =>
      fxExpUpper x k (n + 1) (t * x / ((n + 1) * fxOne) + 1) (acc + (t * x / ((n + 1) * fxOne) + 1)) := rfl

theorem fxExpLower_eq (x k n t acc : Nat) : fxExpLower x k n t acc = (fxSeries fxOne 0 x k n t acc).1 := by
  induction k generalizing n t acc with
  | zero => rfl
  | succ k ih => rw [fxExpLower_succ, fxSeries, Nat.add_zero (t * x / ((n + 1) * fxOne)), ← ih]

theorem fxExpUpper_eq (x k n t acc : Nat) :
    fxExpUpper x k n t acc = (fxSeries fxOne 1 x k n t acc).1 + 2 * (fxSeries fxOne 1 x k n t acc).2 := by
  induction k generalizing n t acc with
  | zero => rfl
  | succ k ih => rw [fxExpUpper_succ, fxSeries, ← ih]

/-- A quotient of natural numbers, cut off and raised by at most 1, is within 1 of the real quotient. -/
theorem abs_natDiv_add_sub_le (a b : Nat) {c : Nat} (hc : c ≤ 1) : |((a / b + c : Nat) : ℝ) - a / b| ≤ 1 := by
  have hlo : ((a / b : Nat) : ℝ) ≤ a / b := Nat.cast_div_le
  have hhi : (a / b : ℝ) < (a / b : Nat) + 1 := by
    rw [← Nat.floor_div_eq_div (K := ℝ)]
    exact Nat.lt_floor_add_one _
  have hc0 : (0 : ℝ) ≤ c := Nat.cast_nonneg c
  have hc1 : (c : ℝ) ≤ 1 := by exact_mod_cast hc
  rw [Nat.cast_add, abs_le]
  constructor <;> linarith

section Series

variable {F c X : Nat}

theorem le_fxSeries (k n t acc : Nat) : acc ≤ (fxSeries F c X k n t acc).1 := by
  induction k generalizing n t acc with
  | zero => exact le_rfl
  | succ k ih => exact (Nat.le_add_right _ _).trans (ih _ _ _)

/-- `t` is term `n` of the series of `exp x`, in units of `1 / F`, with the rounding errors of the terms up to it. -/
def IsFxTerm (F : Nat) (x : ℝ) (n t : Nat) : Prop := |(t : ℝ) - F * (x ^ n / n.factorial)| ≤ expSum x n

theorem isFxTerm_zero (x : ℝ) : IsFxTerm F x 0 F := by simp [IsFxTerm, expSum]

theorem IsFxTerm.next (hF : 0 < F) {n t : Nat} (h : IsFxTerm F (X / F) n t) (hc : c ≤ 1) :
    IsFxTerm F (X / F) (n + 1) (t * X / ((n + 1) * F) + c) := by
  have hF' : (0 : ℝ) < F := by exact_mod_cast hF
  have hx : (0 : ℝ) ≤ X / F := by positivity
  have hround := abs_natDiv_add_sub_le (t * X) ((n + 1) * F) hc
  have hq : ((t * X : Nat) : ℝ) / ((n + 1) * F : Nat) = t * (X / F / (n + 1)) := by
    push_cast
    field_simp
  rw [hq] at hround
  generalize (X : ℝ) / F = x at h hx hround
  have hexact : F * (x ^ (n + 1) / (n + 1).factorial) = F * (x ^ n / n.factorial) * (x / (n + 1)) := by
    rw [Nat.factorial_succ]
    push_cast
    field_simp
    ring
  calc |((t * X / ((n + 1) * F) + c : Nat) : ℝ) - F * (x ^ (n + 1) / (n + 1).factorial)|
      ≤ 1 + |t - F * (x ^ n / n.factorial)| * (x / (n + 1)) := by
        rw [hexact]
        refine (abs_sub_le _ _ _).trans (add_le_add hround (le_of_eq ?_))
        rw [← sub_mul, abs_mul, abs_of_nonneg (a := x / (n + 1)) (by positivity)]
    _ ≤ 1 + expSum x n * (x / (n + 1)) := by gcongr; exact h
    _ ≤ expSum x (n + 1) := by linarith [expSum_mul_add_one_le hx n]

/-- `k` more terms add at most `k` errors, each at most `exp x`. -/
theorem fxSeries_near (hF : 0 < F) (hc : c ≤ 1) {n t : Nat} (h : IsFxTerm F (X / F) n t) (k acc : Nat) :
    |((fxSeries F c X k n t acc).1 : ℝ) - (acc + F * (expSum (X / F) (n + 1 + k) - expSum (X / F) (n + 1)))|
        ≤ k * Real.exp (X / F) ∧
      IsFxTerm F (X / F) (n + k) (fxSeries F c X k n t acc).2 := by
  induction k generalizing n t acc with
  | zero => simpa [fxSeries] using h
  | succ k ih =>
    have hnext := h.next hF hc
    obtain ⟨hsum, hlast⟩ := ih hnext (acc + (t * X / ((n + 1) * F) + c))
    have herr := hnext.trans (expSum_le_exp (by positivity) _)
    have hterm := expSum_succ (X / F : ℝ) (n + 1)
    rw [fxSeries, show n + (k + 1) = n + 1 + k by omega, show n + 1 + (k + 1) = n + 1 + 1 + k by omega]
    refine ⟨?_, hlast⟩
    rw [abs_le] at hsum herr ⊢
    push_cast at hsum herr ⊢
    rw [hterm] at hsum
    constructor <;> linarith

/-- 240 terms after the first: the sum is `exp x` up to the rounding errors, and the last term is small. -/
theorem fxSeries_near_exp (hF : 0 < F) (hF' : (F : ℝ) ≤ 2 ^ 256) (hc : c ≤ 1) (hx : (X / F : ℝ) ≤ 33) :
    |((fxSeries F c X 240 0 F F).1 : ℝ) - F * Real.exp (X / F)| ≤ 241 * Real.exp (X / F) ∧
      ((fxSeries F c X 240 0 F F).2 : ℝ) ≤ 2 * Real.exp (X / F) := by
  have hx0 : (0 : ℝ) ≤ X / F := by positivity
  obtain ⟨hsum, hlast⟩ := fxSeries_near hF hc (isFxTerm_zero (X / F)) 240 F
  generalize fxSeries F c X 240 0 F F = r at hsum hlast
  have hunit : (F : ℝ) * (1 / 2 ^ 256) ≤ 1 := by rw [mul_one_div]; exact (div_le_one (by positivity)).mpr hF'
  have hone : 1 ≤ Real.exp (X / F) := Real.one_le_exp hx0
  have hterms : |F * expSum (X / F) 241 - F * Real.exp (X / F)| ≤ 1 := by
    rw [← mul_sub, abs_mul, abs_sub_comm, Nat.abs_cast]
    exact (mul_le_mul_of_nonneg_left (abs_exp_sub_expSum_le hx0 hx) (Nat.cast_nonneg F)).trans hunit
  have htail := (mul_le_mul_of_nonneg_left (pow_div_factorial_le hx0 hx) (Nat.cast_nonneg F)).trans hunit
  have hfirst : expSum (X / F) (0 + 1) = 1 := by simp [expSum]
  have herr := hlast.trans (expSum_le_exp hx0 _)
  norm_num only at hsum hfirst herr
  rw [hfirst] at hsum
  rw [abs_le] at hsum hterms herr ⊢
  refine ⟨⟨?_, ?_⟩, ?_⟩ <;> linarith

/-- One minus the reciprocal of a sum that is near to `exp x`. -/
theorem fxOneSub_near {E : Nat} {x : ℝ} (hF : 0 < F) (hE : F ≤ E) (hc : c ≤ 1)
    (h : |(E : ℝ) - F * Real.exp x| ≤ 256 * Real.exp x) :
    |((F - (F * F / E + c) : Nat) : ℝ) / F - (1 - Real.exp (-x))| ≤ 258 / F := by
  have hF' : (0 : ℝ) < F := by exact_mod_cast hF
  have hE' : (F : ℝ) ≤ E := by exact_mod_cast hE
  have hE0 : (0 : ℝ) < E := hF'.trans_le hE'
  have hround := abs_natDiv_add_sub_le (F * F) E hc
  have hcut : F * F / E ≤ F := Nat.div_le_of_le_mul (Nat.mul_le_mul_right F hE)
  have hsub : |((F - (F * F / E + c) : Nat) : ℝ) - (F - (F * F / E + c : Nat))| ≤ 1 := by
    have hnat : |((F - (F * F / E + c) : Nat) : ℤ) - (F - (F * F / E + c : Nat))| ≤ 1 := by
      generalize F * F / E = q at hcut
      rw [abs_le]
      omega
    exact_mod_cast hnat
  have hquot : |((F * F : Nat) : ℝ) / E - F * Real.exp (-x)| ≤ 256 := by
    have e : ((F * F : Nat) : ℝ) / E - F * Real.exp (-x) = F / E * (Real.exp (-x) * (F * Real.exp x - E)) := by
      rw [mul_sub, mul_left_comm, ← Real.exp_add, neg_add_cancel, Real.exp_zero, Nat.cast_mul]
      field_simp
    calc |((F * F : Nat) : ℝ) / E - F * Real.exp (-x)|
        = F / E * (Real.exp (-x) * |(E : ℝ) - F * Real.exp x|) := by
          rw [e, abs_mul, abs_mul, Real.abs_exp, abs_sub_comm (E : ℝ), abs_of_nonneg (a := (F / E : ℝ)) (by positivity)]
      _ ≤ 1 * (Real.exp (-x) * (256 * Real.exp x)) := by
          gcongr
          exact (div_le_one hE0).mpr hE'
      _ = 256 := by
          rw [one_mul, mul_left_comm, ← Real.exp_add, neg_add_cancel, Real.exp_zero, mul_one]
  have hnum : |((F - (F * F / E + c) : Nat) : ℝ) - F * (1 - Real.exp (-x))| ≤ 258 := by
    rw [abs_le] at hround hsub hquot ⊢
    constructor <;> linarith
  rwa [← mul_div_cancel_left₀ (1 - Real.exp (-x)) hF'.ne', ← sub_div, abs_div, Nat.abs_cast,
    div_le_div_iff_of_pos_right hF']

end Series

/-! ## The exponent -/

theorem fxOne_pos : 0 < fxOne := Nat.two_pow_pos 256

theorem fxOne_cast : (fxOne : ℝ) = 2 ^ 256 := by rw [fxOne, Nat.cast_pow, Nat.cast_ofNat]

/-- 20 of its digits are enough of `π`. -/
theorem fxPi_near {c : Nat} (hc : c ≤ 1) : |((fxPi + c : Nat) : ℝ) / fxOne - Real.pi| ≤ 1 / 10 ^ 20 := by
  have hlo := Real.pi_gt_d20
  have hhi := Real.pi_lt_d20
  have hc0 : (0 : ℝ) ≤ c := Nat.cast_nonneg c
  have hc1 : (c : ℝ) ≤ 1 := by exact_mod_cast hc
  have hq : (3.14159265358979323846 : ℝ) ≤ ((fxPi + c : Nat) : ℝ) / fxOne ∧
      ((fxPi + c : Nat) : ℝ) / fxOne ≤ 3.14159265358979323847 := by
    rw [fxOne_cast, Nat.cast_add, fxPi, le_div_iff₀ (by positivity), div_le_iff₀ (by positivity)]
    constructor <;> norm_num <;> linarith
  rw [abs_le]
  constructor <;> linarith

/-- The exponent in fixed point against `2π·r`, for the quotient `r = fc/fs`. -/
theorem fxExponent_near {c u fs : Nat} (hc : c ≤ 1) {r : ℝ} (hr : r = (u / 2 ^ 149 : ℝ) / fs) :
    |((2 * (fxPi + c) * u / (2 ^ 149 * fs) + c : Nat) : ℝ) / fxOne - 2 * Real.pi * r| ≤
      r * (2 / 10 ^ 20) + 1 / fxOne := by
  have hF : (0 : ℝ) < fxOne := by exact_mod_cast fxOne_pos
  have hr0 : 0 ≤ r := by rw [hr]; positivity
  have hround := abs_natDiv_add_sub_le (2 * (fxPi + c) * u) (2 ^ 149 * fs) hc
  have hexact : ((2 * (fxPi + c) * u : Nat) : ℝ) / (2 ^ 149 * fs : Nat) = 2 * r * (fxPi + c : Nat) := by
    rw [hr]
    simp only [Nat.cast_mul, Nat.cast_pow, Nat.cast_ofNat]
    ring
  rw [hexact] at hround
  generalize 2 * (fxPi + c) * u / (2 ^ 149 * fs) + c = X at hround
  have hpi := mul_le_mul_of_nonneg_left (fxPi_near hc) (by positivity : 0 ≤ 2 * r)
  generalize ((fxPi + c : Nat) : ℝ) = p at hround hpi
  have hdiv : |(X : ℝ) / fxOne - 2 * r * (p / fxOne)| ≤ 1 / fxOne := by
    rw [← mul_div_assoc, ← sub_div, abs_div, abs_of_pos hF]
    exact div_le_div_of_nonneg_right hround hF.le
  have hpi' : |2 * r * (p / fxOne) - 2 * Real.pi * r| ≤ r * (2 / 10 ^ 20) := by
    have e : 2 * r * (p / fxOne) - 2 * Real.pi * r = 2 * r * (p / fxOne - Real.pi) := by ring
    rw [e, abs_mul, abs_of_nonneg (a := 2 * r) (by positivity)]
    linarith
  linarith [abs_sub_le ((X : ℝ) / fxOne) (2 * r * (p / fxOne)) (2 * Real.pi * r)]

/-! ## The real coefficient -/

theorem abs_exp_neg_sub_le {a b : ℝ} (ha : 0 ≤ a) (hb : 0 ≤ b) : |Real.exp (-a) - Real.exp (-b)| ≤ |a - b| := by
  wlog hab : a ≤ b generalizing a b
  · rw [abs_sub_comm, abs_sub_comm a]
    exact this hb ha (le_of_not_ge hab)
  have hle : Real.exp (-b) ≤ Real.exp (-a) := Real.exp_le_exp.mpr (by linarith)
  rw [abs_of_nonneg (sub_nonneg.mpr hle), abs_sub_comm, abs_of_nonneg (sub_nonneg.mpr hab)]
  have hone : Real.exp (-a) ≤ 1 := Real.exp_le_one_iff.mpr (by linarith)
  have hstep : Real.exp (-a) * (1 - (b - a)) ≤ Real.exp (-b) := by
    calc Real.exp (-a) * (1 - (b - a)) ≤ Real.exp (-a) * Real.exp (-(b - a)) := by
          gcongr
          exact Real.one_sub_le_exp_neg _
      _ = Real.exp (-b) := by rw [← Real.exp_add]; ring_nf
  nlinarith

theorem div_le_one_sub_exp_neg {x : ℝ} (hx : 0 ≤ x) : x / (1 + x) ≤ 1 - Real.exp (-x) := by
  have hinv : Real.exp (-x) ≤ 1 / (1 + x) := by
    rw [Real.exp_neg, ← one_div]
    exact one_div_le_one_div_of_le (by linarith) (by linarith [Real.add_one_le_exp x])
  have e : x / (1 + x) = 1 - 1 / (1 + x) := by field_simp; ring
  linarith

/-- An error of a bound that is small against the coefficient: the bound's own roundings and those of its exponent. -/
theorem bound_near {X E c : Nat} {r : ℝ} (hr : 1 / 2 ^ 28 ≤ r) (h33 : 2 * Real.pi * r ≤ 33)
    (hX : |(X / fxOne : ℝ) - 2 * Real.pi * r| ≤ r * (2 / 10 ^ 20) + 1 / fxOne) (hE : fxOne ≤ E) (hc : c ≤ 1)
    (h : |(E : ℝ) - fxOne * Real.exp (X / fxOne)| ≤ 256 * Real.exp (X / fxOne)) :
    |((fxOne - (fxOne * fxOne / E + c) : Nat) : ℝ) / fxOne - (1 - Real.exp (-(2 * Real.pi * r)))| ≤
      (1 - Real.exp (-(2 * Real.pi * r))) / 2 ^ 61 := by
  have hpi : 3 * r ≤ Real.pi * r := by
    have := Real.pi_gt_three
    gcongr
  have hx0 : 0 ≤ 2 * Real.pi * r := by linarith [div_pos one_pos (by positivity : (0 : ℝ) < 2 ^ 28)]
  have hquot := fxOneSub_near fxOne_pos hE hc h
  have hexp := abs_exp_neg_sub_le (by positivity : (0 : ℝ) ≤ X / fxOne) hx0
  have he : 6 * r / 34 ≤ 1 - Real.exp (-(2 * Real.pi * r)) := by
    refine le_trans ?_ (div_le_one_sub_exp_neg hx0)
    rw [div_le_div_iff₀ (by norm_num) (by linarith)]
    nlinarith
  have htri := abs_sub_le (((fxOne - (fxOne * fxOne / E + c) : Nat) : ℝ) / fxOne) (1 - Real.exp (-(X / fxOne : ℝ)))
    (1 - Real.exp (-(2 * Real.pi * r)))
  rw [sub_sub_sub_cancel_left, abs_sub_comm (Real.exp _)] at htri
  rw [fxOne_cast] at htri hquot hexp hX ⊢
  linarith

/-! ## Rounding the bounds -/

theorem fromZeroToOne_rneFx {v : Nat} (hv : v ≤ fxOne) : FromZeroToOne (rneFx v) :=
  ⟨F32.neg_pack _ (roundMag_lt_two_pow _ _),
    atMostOne_pack _ fxOne_pos (by rw [Nat.mul_comm]; exact Nat.mul_le_mul_left _ hv)⟩

/-- `rneFx v` is the value nearest to `v / 2^256`. -/
theorem rneFx_isNearest {v : Nat} (hv : v ≤ fxOne) (y : F32) :
    |(F32.toRat (rneFx v) : ℝ) - v / fxOne| ≤ |(F32.toRat y : ℝ) - v / fxOne| := by
  have hF := fxOne_pos
  obtain ⟨e, hfin⟩ := roundMag_eq_nearestMag (n := v * 2 ^ 149) hF (by omega)
  have hnear := nearestBits_nearestMag (v * 2 ^ 149) hF
  have hv' : (v : ℝ) / fxOne = ((v * 2 ^ 149 : Nat) : ℝ) / fxOne / 2 ^ 149 := by
    rw [Nat.cast_mul, Nat.cast_pow, Nat.cast_ofNat, mul_div_right_comm, mul_div_assoc, div_self (by positivity), mul_one]
  rw [rneFx, e, hv']
  exact hnear.pack_isNearest (by positivity) (hfin.trans (by decide)) y

/-- A coefficient from 0 to 1 that no value is nearer to `e` than by `e / 2^60` (R231, log 16). -/
structure NearlyRounds (e : ℝ) (a : F32) : Prop where
  range : FromZeroToOne a
  nearest : ∀ y : F32, |(F32.toRat a : ℝ) - e| ≤ |(F32.toRat y : ℝ) - e| + e / 2 ^ 60

theorem nearlyRounds_rneFx {v : Nat} {e : ℝ} (hv : v ≤ fxOne) (h : |(v / fxOne : ℝ) - e| ≤ e / 2 ^ 61) :
    NearlyRounds e (rneFx v) := by
  refine ⟨fromZeroToOne_rneFx hv, fun y => ?_⟩
  have hround := abs_sub_le (F32.toRat (rneFx v) : ℝ) (v / fxOne) e
  have hnear := rneFx_isNearest hv y
  have hback := abs_sub_le (F32.toRat y : ℝ) e (v / fxOne)
  rw [abs_sub_comm e] at hback
  linarith

/-- A point that is nearest at both ends of an interval is nearest in all of it. -/
theorem abs_sub_le_of_between {a y lo hi e : ℝ} (hlo : |a - lo| ≤ |y - lo|) (hhi : |a - hi| ≤ |y - hi|) (h1 : lo ≤ e)
    (h2 : e ≤ hi) : |a - e| ≤ |y - e| := by
  rw [← sq_le_sq] at hlo hhi ⊢
  rcases le_total a y with h | h
  · nlinarith [mul_nonneg (sub_nonneg.mpr h) (sub_nonneg.mpr h2)]
  · nlinarith [mul_nonneg (sub_nonneg.mpr h) (sub_nonneg.mpr h1)]

/-- The two bounds of a large exponent round to 1.0. -/
theorem rneFx_large : rneFx (fxOne - 2 ^ 210) = 0x3F800000 ∧ rneFx fxOne = 0x3F800000 := by decide +kernel

theorem nearlyRounds_one {e : ℝ} (h1 : 1 - 1 / 2 ^ 46 ≤ e) (h2 : e ≤ 1) : NearlyRounds e 0x3F800000 := by
  obtain ⟨elo, ehi⟩ := rneFx_large
  have hlo : ((fxOne - 2 ^ 210 : Nat) : ℝ) / fxOne ≤ e := by
    have hsub : 2 ^ 210 ≤ fxOne := Nat.pow_le_pow_right (by decide) (by decide)
    rw [Nat.cast_sub hsub, fxOne_cast, Nat.cast_pow, Nat.cast_ofNat]
    norm_num at h1 ⊢
    linarith
  have hhi : e ≤ (fxOne : ℝ) / fxOne := by
    rwa [div_self (by exact_mod_cast fxOne_pos.ne')]
  refine ⟨ehi ▸ fromZeroToOne_rneFx le_rfl, fun y => ?_⟩
  have hnear := abs_sub_le_of_between (elo ▸ rneFx_isNearest (Nat.sub_le _ _) y) (ehi ▸ rneFx_isNearest le_rfl y) hlo hhi
  have he : 0 ≤ e / 2 ^ 60 := by
    have : (1 : ℝ) / 2 ^ 46 ≤ 1 := by norm_num
    have : 0 ≤ e := by linarith
    positivity
  linarith

/-- The coefficient is not 0: the value `2^-40` is nearer to `e`. -/
theorem NearlyRounds.pos {e : ℝ} {a : F32} (h : NearlyRounds e a) (h1 : 1 / 2 ^ 30 ≤ e) (h2 : e ≤ 1) :
    0 < F32.toRat a := by
  refine lt_of_le_of_ne h.range.toRat.1 fun h0 => ?_
  have hnear := h.nearest 0x2B800000
  have hy : F32.toRat 0x2B800000 = 1 / 2 ^ 40 := by decide +kernel
  rw [← h0, hy, Rat.cast_zero, zero_sub, abs_neg] at hnear
  push_cast at hnear
  norm_num at h1 hnear
  rw [abs_of_nonneg (by linarith), abs_of_nonpos (by linarith)] at hnear
  linarith

/-! ## ONEPOLE_ALPHA (R231) -/

theorem onepoleAlpha_of_nil {prm : Params} (h : prm.onepoleAlpha = []) (fc : F32) (fs : Nat) :
    onepoleAlpha prm fc fs = onepoleDefault fc fs := by
  rw [onepoleAlpha, h, List.lookup_nil, Option.getD_none]

theorem onepoleDefault_eq (fc : F32) (fs : Nat) :
    onepoleDefault fc fs =
      if rneFx (onepoleBounds fc fs).1 = rneFx (onepoleBounds fc fs).2 then rneFx (onepoleBounds fc fs).1
      else if Config.onepoleUpper fc fs then rneFx (onepoleBounds fc fs).2 else rneFx (onepoleBounds fc fs).1 := rfl

/-- What holds of the roundings of both bounds holds of the default (log 16). -/
theorem onepoleDefault_of_bounds {P : F32 → Prop} {fc : F32} {fs lo hi : Nat} (h : onepoleBounds fc fs = (lo, hi))
    (hlo : P (rneFx lo)) (hhi : P (rneFx hi)) : P (onepoleDefault fc fs) := by
  rw [onepoleDefault_eq, h]
  split_ifs
  · exact hlo
  · exact hhi
  · exact hlo

/-- The fixed-point exponents of the two bounds, `c = 0` for the lower and `c = 1` for the upper one. -/
def fxExponent (c : Nat) (fc : F32) (fs : Nat) : Nat := 2 * (fxPi + c) * F32.units fc / (2 ^ 149 * fs) + c

theorem onepoleBounds_eq (fc : F32) (fs : Nat) :
    onepoleBounds fc fs =
      if 32 * fxOne ≤ fxExponent 0 fc fs then (fxOne - 2 ^ 210, fxOne)
      else
        (fxOne - (fxOne * fxOne / fxExpLower (fxExponent 0 fc fs) 240 0 fxOne fxOne + 1),
          fxOne - (fxOne * fxOne / fxExpUpper (fxExponent 1 fc fs) 240 0 fxOne fxOne + 0)) := by
  rw [fxExponent, fxExponent, Nat.add_zero fxPi, Nat.add_zero (_ / _), Nat.add_zero (_ / _)]
  rfl

theorem fxExpLower_near {X : Nat} (hX : (X / fxOne : ℝ) ≤ 33) :
    |(fxExpLower X 240 0 fxOne fxOne : ℝ) - fxOne * Real.exp (X / fxOne)| ≤ 256 * Real.exp (X / fxOne) := by
  obtain ⟨hsum, _⟩ := fxSeries_near_exp (c := 0) fxOne_pos fxOne_cast.le (Nat.zero_le 1) hX
  rw [fxExpLower_eq]
  linarith [Real.exp_pos (X / fxOne : ℝ)]

theorem fxExpUpper_near {X : Nat} (hX : (X / fxOne : ℝ) ≤ 33) :
    |(fxExpUpper X 240 0 fxOne fxOne : ℝ) - fxOne * Real.exp (X / fxOne)| ≤ 256 * Real.exp (X / fxOne) := by
  obtain ⟨hsum, hlast⟩ := fxSeries_near_exp (c := 1) fxOne_pos fxOne_cast.le le_rfl hX
  rw [fxExpUpper_eq]
  generalize fxSeries fxOne 1 X 240 0 fxOne fxOne = r at hsum hlast
  have hpos := Real.exp_pos (X / fxOne : ℝ)
  have hlast0 : (0 : ℝ) ≤ r.2 := Nat.cast_nonneg _
  rw [abs_le] at hsum ⊢
  push_cast
  constructor <;> linarith

theorem fxOne_le_fxExpLower (X : Nat) : fxOne ≤ fxExpLower X 240 0 fxOne fxOne := by
  rw [fxExpLower_eq]
  exact le_fxSeries _ _ _ _

theorem fxOne_le_fxExpUpper (X : Nat) : fxOne ≤ fxExpUpper X 240 0 fxOne fxOne := by
  rw [fxExpUpper_eq]
  exact Nat.le_add_right_of_le (le_fxSeries _ _ _ _)

/-- Where the exponent is large, `e` is next to 1. -/
theorem one_sub_exp_neg_large {x : ℝ} (h : 31.9 ≤ x) : 1 - 1 / 2 ^ 46 ≤ 1 - Real.exp (-x) := by
  have hlog := Real.log_two_lt_d9
  have hpow : (2 : ℝ) ^ 46 ≤ Real.exp x := by
    rw [← Real.exp_log (two_pos (α := ℝ)), ← Real.exp_nat_mul]
    refine Real.exp_le_exp.mpr ?_
    push_cast
    linarith
  rw [Real.exp_neg, ← one_div]
  exact sub_le_sub_left (one_div_le_one_div_of_le (by positivity) hpow) 1

section Default

variable {fc : F32} {fs : Nat} {r : ℝ} (hr : r = (F32.units fc / 2 ^ 149 : ℝ) / fs) (hlo : 1 / 2 ^ 28 ≤ r)
include hr hlo

/-- An exponent below 32: both bounds are near to `e`. -/
theorem nearlyRounds_onepoleDefault_small (h : fxExponent 0 fc fs < 32 * fxOne) :
    NearlyRounds (1 - Real.exp (-(2 * Real.pi * r))) (onepoleDefault fc fs) := by
  have hF : (0 : ℝ) < fxOne := by exact_mod_cast fxOne_pos
  have hX0 := fxExponent_near (c := 0) (Nat.zero_le 1) hr
  have hX1 := fxExponent_near (c := 1) le_rfl hr
  rw [← fxExponent] at hX0 hX1
  have hsmall : (fxExponent 0 fc fs / fxOne : ℝ) ≤ 32 := by
    rw [div_le_iff₀ hF]
    exact_mod_cast h.le
  have hpi : 3 * r ≤ Real.pi * r := by
    have := Real.pi_gt_three
    gcongr
  have hunit : (1 / fxOne : ℝ) ≤ 1 / 10 ^ 20 := by rw [fxOne_cast]; norm_num
  have hx : 2 * Real.pi * r ≤ 32.5 ∧ (fxExponent 1 fc fs / fxOne : ℝ) ≤ 33 := by
    rw [abs_le] at hX0 hX1
    constructor <;> linarith
  obtain ⟨hx, hx1⟩ := hx
  have h33 : 2 * Real.pi * r ≤ 33 := by linarith
  refine onepoleDefault_of_bounds ((onepoleBounds_eq fc fs).trans (if_neg (not_le.mpr h)))
    (nearlyRounds_rneFx (Nat.sub_le _ _) ?_) (nearlyRounds_rneFx (Nat.sub_le _ _) ?_)
  · exact bound_near hlo h33 hX0 (fxOne_le_fxExpLower _) le_rfl (fxExpLower_near (by linarith))
  · exact bound_near hlo h33 hX1 (fxOne_le_fxExpUpper _) (Nat.zero_le 1) (fxExpUpper_near hx1)

omit hlo in
/-- An exponent from 32 up: both bounds round to 1.0. -/
theorem nearlyRounds_onepoleDefault_large (hhi : r ≤ 20000) (h : 32 * fxOne ≤ fxExponent 0 fc fs) :
    NearlyRounds (1 - Real.exp (-(2 * Real.pi * r))) (onepoleDefault fc fs) := by
  have hF : (0 : ℝ) < fxOne := by exact_mod_cast fxOne_pos
  have hX0 := fxExponent_near (c := 0) (Nat.zero_le 1) hr
  rw [← fxExponent] at hX0
  have hlarge : (32 : ℝ) ≤ fxExponent 0 fc fs / fxOne := by
    rw [le_div_iff₀ hF]
    exact_mod_cast h
  have hunit : (1 / fxOne : ℝ) ≤ 1 / 10 ^ 20 := by rw [fxOne_cast]; norm_num
  have hx : 31.9 ≤ 2 * Real.pi * r := by
    rw [abs_le] at hX0
    linarith
  have hone := nearlyRounds_one (one_sub_exp_neg_large hx) (sub_le_self 1 (Real.exp_pos _).le)
  obtain ⟨elo, ehi⟩ := rneFx_large
  exact onepoleDefault_of_bounds ((onepoleBounds_eq fc fs).trans (if_pos h)) (elo.symm ▸ hone) (ehi.symm ▸ hone)

theorem nearlyRounds_onepoleDefault (hhi : r ≤ 20000) :
    NearlyRounds (1 - Real.exp (-(2 * Real.pi * r))) (onepoleDefault fc fs) := by
  rcases Nat.lt_or_ge (fxExponent 0 fc fs) (32 * fxOne) with h | h
  · exact nearlyRounds_onepoleDefault_small hr hlo h
  · exact nearlyRounds_onepoleDefault_large hr hhi h

end Default

theorem toRat_eq_units_div {x : F32} (h : 0 < F32.toRat x) : F32.toRat x = F32.units x / 2 ^ 149 := by
  cases hneg : F32.neg x with
  | false => simp [F32.toRat, F32.signedUnits, hneg]
  | true =>
    refine absurd h (not_lt.mpr ?_)
    rw [F32.toRat, F32.signedUnits, hneg, if_pos rfl]
    exact div_nonpos_of_nonpos_of_nonneg (by simp) (by positivity)

/-- The coefficient at a cutoff and a sample rate in their ranges (R231). -/
theorem onepoleDefault_nearlyRounds {fc : F32} {fs : Nat} (h20 : 20 ≤ F32.toRat fc) (h20k : F32.toRat fc ≤ 20000)
    (hfs : 1 ≤ fs) (hfs' : fs < 2 ^ 32) {e : ℝ}
    (he : e = 1 - Real.exp (-(2 * Real.pi * (F32.toRat fc : ℝ) / fs))) :
    NearlyRounds e (onepoleDefault fc fs) ∧ 1 / 2 ^ 30 ≤ e ∧ e ≤ 1 := by
  have hfs1 : (1 : ℝ) ≤ fs := by exact_mod_cast hfs
  have hfs2 : (fs : ℝ) ≤ 2 ^ 32 := by exact_mod_cast hfs'.le
  have hfc1 : (20 : ℝ) ≤ F32.toRat fc := by exact_mod_cast h20
  have hfc2 : (F32.toRat fc : ℝ) ≤ 20000 := by exact_mod_cast h20k
  have hr : (F32.toRat fc : ℝ) / fs = (F32.units fc / 2 ^ 149 : ℝ) / fs := by
    rw [toRat_eq_units_div (lt_of_lt_of_le (by norm_num) h20)]
    push_cast
    rfl
  have hlo : 1 / 2 ^ 28 ≤ (F32.toRat fc : ℝ) / fs := by
    rw [div_le_div_iff₀ (by positivity) (by linarith)]
    linarith
  have hhi : (F32.toRat fc : ℝ) / fs ≤ 20000 := (div_le_self (by linarith) hfs1).trans hfc2
  rw [mul_div_assoc] at he
  generalize (F32.toRat fc : ℝ) / fs = r at hr hlo hhi he
  have hx : 1 / 2 ^ 28 ≤ 2 * Real.pi * r := by
    have hpi : 3 * r ≤ Real.pi * r := by
      have := Real.pi_gt_three
      gcongr
    linarith
  have hx0 := (by positivity : (0 : ℝ) < 1 / 2 ^ 28).trans_le hx
  rw [he]
  refine ⟨nearlyRounds_onepoleDefault hr hlo hhi, le_trans ?_ (div_le_one_sub_exp_neg hx0.le),
    sub_le_self 1 (Real.exp_pos _).le⟩
  rw [div_le_div_iff₀ (by positivity) (by linarith)]
  linarith

theorem onepoleDefault_table :
    onepoleDefault 0x41A00000 48000 = 0x3B2B5934 ∧ onepoleDefault 0x447A0000 48000 = 0x3DFB471D ∧
    onepoleDefault 0x459C4000 48000 = 0x3EF5E989 ∧ onepoleDefault 0x469C4000 48000 = 0x3F6D5336 ∧
    onepoleDefault 0x41A00000 2000 = 0x3D7970D8 ∧ onepoleDefault 0x459C4000 2000 = 0x3F7FFFFD ∧
    onepoleDefault 0x469C4000 2000 = 0x3F800000 := by decide +kernel

/-- Settles O47: `rneInvSqrt` rounds the real root, both bounds of `e` are within `e / 2^61` of it or round to 1.0 with it,
and the table is `onepoleDefault` computed. -/
theorem coefficientDefaultsAreAsStated : Obligations.CoefficientDefaultsAreAsStated := by
  unfold Obligations.CoefficientDefaultsAreAsStated
  refine ⟨fun prm p nw h => ⟨fun hp => ?_, fun hp hp' hnw hnw' => ?_⟩, fun prm fc fs h _ h20 h20k hfs hfs' => ?_,
    fun prm h => ?_⟩
  · rw [dvnNorm_of_nil h, if_pos hp]
  · obtain ⟨hfin, hnear⟩ := dvnNorm_isNearest h hp hp' hnw hnw'
    exact ⟨hfin, fun y _ => hnear y⟩
  · rw [onepoleAlpha_of_nil h]
    obtain ⟨hnear, he1, he2⟩ := onepoleDefault_nearlyRounds h20 h20k hfs hfs' rfl
    refine ⟨hnear.range.atMostOne.isFinite, hnear.pos he1 he2, hnear.range.toRat.2, ?_⟩
    rintro e y rfl _
    exact hnear.nearest y
  · simp only [onepoleAlpha_of_nil h]
    exact onepoleDefault_table

end Sys2Proof.Machine
end

section
/-!
PROOFS. 44_fdn.md R230-R241: what FDN.CFG and FDN.PROCB answer, the range of a room-scaled delay, and why the first
block after FDN.CFG is silent: each loop step makes every stored sample one step older, so a line that holds only zeros
delivers zeros until a sample written during the block has reached its delay.
-/

namespace Sys2Proof.Machine

/-! ## The room-scaled delay (R232, R238) -/

theorem toRat_le_of_not_below {x y : F32} (hx : F32.isNaN x = false) (hy : F32.isNaN y = false) (h : ¬ below x y) :
    F32.toRat y ≤ F32.toRat x :=
  not_lt.mp fun hlt => h ((F32.lt_iff_below x y).mp (by simp [F32.lt, hx, hy, F32.toRat_lt_iff.mp hlt]))

/-- A clamped value lies between its bounds; a NaN goes to the lower one (R13). -/
theorem toRat_clamp_bounds {lo hi : F32} (hlo : F32.isNaN lo = false) (hhi : F32.isNaN hi = false)
    (h : F32.toRat lo ≤ F32.toRat hi) (x : F32) :
    F32.toRat lo ≤ F32.toRat (clamp x lo hi) ∧ F32.toRat (clamp x lo hi) ≤ F32.toRat hi := by
  by_cases hlow : F32.isNaN x = true ∨ below x lo
  · rw [clamp_of_below hlow]
    exact ⟨le_rfl, h⟩
  · obtain ⟨hnan, hnotLow⟩ := not_or.mp hlow
    rw [Bool.not_eq_true] at hnan
    rw [clamp_of_not_below hnan hnotLow]
    split_ifs with hhigh
    · exact ⟨h, le_rfl⟩
    · rw [F32.lt_iff_below] at hhigh
      exact ⟨toRat_le_of_not_below hnan hlo hnotLow, toRat_le_of_not_below hhi hnan hhigh⟩

theorem roomBounds_toRat : 0 ≤ F32.toRat roomLo ∧ F32.toRat roomLo ≤ F32.toRat roomHi ∧ F32.toRat roomHi = 2 := by
  decide +kernel

/-- The room size that a block uses is between 0 and 2, whatever the operand (R232). -/
theorem toRat_clampedRoom (room : F32) :
    0 ≤ F32.toRat (clamp room roomLo roomHi) ∧ F32.toRat (clamp room roomLo roomHi) ≤ 2 := by
  obtain ⟨hzero, hle, htwo⟩ := roomBounds_toRat
  obtain ⟨hlow, hhigh⟩ := toRat_clamp_bounds (by decide) (by decide) hle room
  exact ⟨hzero.trans hlow, htwo ▸ hhigh⟩

theorem roomDelayOf_clampedRoom (len : Nat) (room : F32) :
    roomDelayOf len (clamp room roomLo roomHi) (roomDelay len (clamp room roomLo roomHi)) :=
  roomDelayOf_roomDelay _ _ (toRat_clampedRoom room).1

theorem roomDelay_le (len : Nat) (room : F32) : roomDelay len (clamp room roomLo roomHi) ≤ 2 * len := by
  obtain ⟨hlow, hhigh⟩ := toRat_clampedRoom room
  have hlen : (0 : Rat) ≤ len := Nat.cast_nonneg len
  have hscaled : (len : Rat) * F32.toRat (clamp room roomLo roomHi) ≤ ((2 * len : Nat) : Rat) := by
    push_cast
    linarith [mul_le_mul_of_nonneg_left hhigh hlen]
  have hround := roundAway_mono (mul_nonneg hlen hlow) hscaled
  rw [roundAway_natCast] at hround
  exact Int.toNat_le.mpr hround

/-- Settles O34: a clamped room size is at most 2, and rounding is monotone and keeps `2·L`. -/
theorem roomDelayIsInBounds : Obligations.RoomDelayIsInBounds := by
  unfold Obligations.RoomDelayIsInBounds
  exact fun len room => ⟨_, roomDelayOf_clampedRoom len room, roomDelay_le len room⟩

/-! ## The checks of FDN.CFG (R237) -/

theorem isPow2_iff {n : Nat} : isPow2 n = true ↔ n ≠ 0 ∧ n &&& (n - 1) = 0 := by simp [isPow2]

/-- The capacity checks on the base length, on the natural numbers that FDN.CFG computes. -/
theorem fdnFits_iff (prm : Params) (lb mb : Nat) :
    fdnFits prm lb mb ↔
      lineLengthMax prm lb ≤ Config.lMax ∧ line0Len prm lb ≤ Config.lMax ∧
        2 * max (lineLengthMax prm lb) (line0Len prm lb) + mb ≤ Config.dlCap := by
  have hmax : (lineLengthMax prm lb : Int) = max 1 (roundAway ((lb : Rat) * prm.jitHi)) :=
    Int.toNat_of_nonneg (le_trans (by norm_num) (le_max_left _ _))
  simp only [fdnFits, Int.cast_natCast, Int.toNat_natCast, ← hmax, Config.lMax, Config.dlCap]
  constructor
  · intro h
    have hfit := h _ _ rfl rfl
    omega
  · rintro h _ _ rfl rfl
    omega

section CfgError

variable {prm : Params} {n lb fs maxblk draws : Nat}

theorem Fdn.cfgError_zero (h : n = 0 ∨ lb = 0 ∨ fs = 0 ∨ maxblk = 0) :
    Fdn.cfgError prm n lb fs maxblk draws = some .invalidArg := if_pos h

theorem Fdn.cfgError_notPow2 (hz : ¬ (n = 0 ∨ lb = 0 ∨ fs = 0 ∨ maxblk = 0)) (hp : isPow2 n = false) :
    Fdn.cfgError prm n lb fs maxblk draws = some .notPow2 := by
  have hand : n &&& (n - 1) ≠ 0 := fun h => Bool.eq_false_iff.mp hp (isPow2_iff.mpr ⟨fun h0 => hz (.inl h0), h⟩)
  rw [Fdn.cfgError, if_neg hz, if_pos hand]

theorem Fdn.cfgError_draws (hz : ¬ (n = 0 ∨ lb = 0 ∨ fs = 0 ∨ maxblk = 0)) (hp : isPow2 n = true)
    (h : draws < 2 * n - 1) : Fdn.cfgError prm n lb fs maxblk draws = some .invalidArg := by
  rw [Fdn.cfgError, if_neg hz, if_neg (not_not.mpr (isPow2_iff.mp hp).2), if_pos h]

theorem Fdn.cfgError_capacity (hz : ¬ (n = 0 ∨ lb = 0 ∨ fs = 0 ∨ maxblk = 0)) (hp : isPow2 n = true)
    (hdraws : 2 * n - 1 ≤ draws)
    (h : Config.fdnNmax < n ∨ Config.maxblkCap < maxblk ∨ ¬ fdnFits prm lb maxblk) :
    Fdn.cfgError prm n lb fs maxblk draws = some .capacity := by
  rw [fdnFits_iff] at h
  rw [Fdn.cfgError, if_neg hz, if_neg (not_not.mpr (isPow2_iff.mp hp).2), if_neg (by omega), if_pos (by omega)]

theorem Fdn.cfgError_of_fits (hz : ¬ (n = 0 ∨ lb = 0 ∨ fs = 0 ∨ maxblk = 0)) (hp : isPow2 n = true)
    (hdraws : 2 * n - 1 ≤ draws) (hn : n ≤ Config.fdnNmax) (hmaxblk : maxblk ≤ Config.maxblkCap)
    (hfits : fdnFits prm lb maxblk) : Fdn.cfgError prm n lb fs maxblk draws = none :=
  Fdn.cfgError_none.mpr ⟨by omega, by omega, by omega, hp, hdraws, hn, hmaxblk, (fdnFits_iff prm lb maxblk).mp hfits⟩

end CfgError

/-! ## FDN.CFG -/

/-- The check of R237 on the operands at the port. -/
def State.fdnCfgError (s : State) : Option Err :=
  Fdn.cfgError s.params s.fdnIn.lines.toNat s.fdnIn.lbase.toNat s.fdnIn.fs.toNat s.fdnIn.maxblk.toNat s.fdnIn.rnd.length

/-- The network that the operands at the port describe. -/
def State.fdnBuilt (s : State) : Fdn :=
  .build s.params s.fdnIn.lines.toNat s.fdnIn.lbase.toNat s.fdnIn.fs.toNat s.fdnIn.maxblk.toNat s.fdnIn.rnd

theorem exec_fdnCfg (s : State) :
    exec .fdnCfg s = s.failOr .fdn s.fdnCfgError (s.putFdn s.fdnBuilt (.done s.draws)) := rfl

theorem fails_fdnCfg {s : State} {e : Err} (h : s.fdnCfgError = some e) : fails .fdnCfg s e :=
  fails_of_failAt (by rw [exec_fdnCfg, h]; rfl)

theorem exec_fdnCfg_ok {s : State} (h : s.fdnCfgError = none) :
    exec .fdnCfg s = .next (s.putFdn s.fdnBuilt (.done s.draws)) := by
  rw [exec_fdnCfg, h]
  rfl

theorem line0Len_of_nil {prm : Params} (h : prm.line0Len = []) (lb : Nat) : line0Len prm lb = lb := by
  rw [line0Len, h]
  rfl

/-- Settles O31: one clause for each outcome of `Fdn.cfgError`, and `Fdn.fresh_build` for the network. -/
theorem fdnCfgBuildsTheNetwork : Obligations.FdnCfgBuildsTheNetwork := by
  unfold Obligations.FdnCfgBuildsTheNetwork
  refine fun s => ⟨fun h => ?_, fun hlines hlbase hfs hmaxblk => ?_, line0Len_of_nil⟩
  · exact fails_fdnCfg (Fdn.cfgError_zero
      (h.imp toNat_eq_zero (Or.imp toNat_eq_zero (Or.imp toNat_eq_zero toNat_eq_zero))))
  · have hn := toNat_ne_zero hlines
    have hz : ¬ (s.fdnIn.lines.toNat = 0 ∨ s.fdnIn.lbase.toNat = 0 ∨ s.fdnIn.fs.toNat = 0 ∨
        s.fdnIn.maxblk.toNat = 0) := by
      simp only [not_or]
      exact ⟨hn, toNat_ne_zero hlbase, toNat_ne_zero hfs, toNat_ne_zero hmaxblk⟩
    have pow2 : s.fdnIn.lines &&& (s.fdnIn.lines - 1) = 0 → isPow2 s.fdnIn.lines.toNat = true := fun hand =>
      isPow2_toNat_iff.mpr ⟨hlines, hand⟩
    refine ⟨fun hand => ?_, fun hand h => ?_, fun hand hdraws h => ?_, fun hand hdraws hlines' hmaxblk' hfits => ?_⟩
    · exact fails_fdnCfg (Fdn.cfgError_notPow2 hz (Bool.eq_false_iff.mpr fun hp => hand (isPow2_toNat_iff.mp hp).2))
    · exact fails_fdnCfg (Fdn.cfgError_draws hz (pow2 hand) h)
    · exact fails_fdnCfg (Fdn.cfgError_capacity hz (pow2 hand) hdraws h)
    · have hok := Fdn.cfgError_of_fits hz (pow2 hand) hdraws hlines' hmaxblk' hfits
      have hfresh := Fdn.fresh_build s.params _ s.fdnIn.lbase.toNat s.fdnIn.fs.toNat s.fdnIn.maxblk.toNat s.fdnIn.rnd
        (Nat.pos_of_ne_zero hn) hdraws
      refine ⟨_, exec_fdnCfg_ok hok, onlyFdn_put s _ _, rfl, hfresh, fun hdefault => ?_⟩
      obtain ⟨_, _, _, _, _, _, ⟨l, _, hl, _, hlen, _⟩, _⟩ := hfresh
      exact ⟨l, hl, hlen.trans (line0Len_of_nil hdefault _)⟩

/-! ## FDN.PROCB -/

/-- The channels that FDN.PROCB reads at its port. -/
def State.fdnChans (s : State) : List (List F32) := takeChannels s.draws s.fdnIn.n.toNat 0 s.fdn.n s.fdnIn.blk

/-- The output block that FDN.PROCB computes, and the network after it. -/
def State.fdnRun (s : State) : List (List F32) × Fdn :=
  s.fdn.block s.draws s.params s.fdnIn.n.toNat s.fdnChans s.fdnIn.damp s.fdnIn.room

section Configured

variable {s : State} (hc : s.fdn.cfg = true)
include hc

theorem fdn_not_unconfigured : ¬ s.fdn.cfg = false := by simp [hc]

theorem exec_fdnProcb (h : s.fdnIn.n.toNat ≤ s.fdn.maxblk) :
    exec .fdnProcb s = .next (s.putFdn s.fdnRun.2 (.block s.fdnRun.1)) := by
  rw [exec, execFdnProcb, if_neg (fdn_not_unconfigured hc), if_neg (by omega)]
  rfl

theorem fails_fdnProcb (h : s.fdn.maxblk < s.fdnIn.n.toNat) : fails .fdnProcb s .bounds :=
  fails_of_failAt (by rw [exec, execFdnProcb, if_neg (fdn_not_unconfigured hc), if_pos h]; rfl)

/-- What a successful FDN.PROCB returns (R239). -/
theorem blkOut_of_fdnProcb {t : State} (h : exec .fdnProcb s = .next t) (herr : t.fdnOut.err = 0) :
    t.fdnOut.blkOut = s.fdnRun.1 := by
  by_cases hn : s.fdnIn.n.toNat ≤ s.fdn.maxblk
  · obtain rfl := Host.Outcome.next.inj ((exec_fdnProcb hc hn).symm.trans h)
    rfl
  · exact absurd herr ((fails_fdnProcb hc (not_le.mp hn)).portErr_ne_zero h)

end Configured

/-- Settles O32: `Fdn.block` is the block of R239, at the room-scaled delays of R238. -/
theorem fdnProcbRunsTheLoop : Obligations.FdnProcbRunsTheLoop := by
  unfold Obligations.FdnProcbRunsTheLoop
  refine fun s hc => ⟨fails_fdnProcb hc, fun hwf hn => ?_⟩
  have hran := Fdn.ran_block hwf hc s.draws s.params s.fdnIn.n.toNat s.fdnChans (takeChannels_length _ _ _ _ _)
    s.fdnIn.damp s.fdnIn.room
  refine ⟨_, s.fdnChans, _, takeChannels_operandChans _ _ _ _, exec_fdnProcb hc hn, onlyFdn_put s _ _, rfl, rfl,
    fun i l hl => ?_, hran⟩
  exact ⟨_, by rw [List.getElem?_map, hl, Option.map_some], roomDelayOf_clampedRoom l.len s.fdnIn.room⟩

/-! ## Silence until the shortest loop delay (R240, R241) -/

/-- The next `k` samples that the line delivers at the delay `tau` are `+0.0`, whatever is written meanwhile. -/
structure Dl.SilentFor (d : Dl) (tau k : Nat) : Prop where
  cursor : d.w < d.b
  delay : tau < d.b
  steps : k ≤ tau + 1
  zeros : ∀ j, j < k → d.age (tau - j) = 0

theorem Dl.silentFor_of_zeros {d : Dl} {tau k : Nat} (hw : d.w < d.b) (htau : tau < d.b) (hk : k ≤ tau + 1)
    (h : ∀ j, d.ring.read j = 0) : d.SilentFor tau k := ⟨hw, htau, hk, fun _ _ => h _⟩

theorem Dl.SilentFor.age_eq_zero {d : Dl} {tau k : Nat} (h : d.SilentFor tau (k + 1)) : d.age tau = 0 :=
  h.zeros 0 k.succ_pos

theorem Dl.SilentFor.pred {d : Dl} {tau k : Nat} (h : d.SilentFor tau (k + 1)) : d.SilentFor tau k :=
  ⟨h.cursor, h.delay, Nat.le_of_succ_le h.steps, fun j hj => h.zeros j (Nat.lt_succ_of_lt hj)⟩

/-- A write makes the zeros one step older, and its own sample is younger than the reads to come. -/
theorem Dl.SilentFor.push {d : Dl} {tau k : Nat} (h : d.SilentFor tau (k + 1)) (x : F32) :
    (d.push x).SilentFor tau k := by
  obtain ⟨hw, htau, hk, hzeros⟩ := h
  have hb : (d.push x).b = d.b := Dl.push_b d x
  refine ⟨?_, hb ▸ htau, by omega, fun j hj => ?_⟩
  · rw [hb, Dl.push_w]
    exact Nat.mod_lt _ (by omega)
  · have hage : tau - j = tau - (j + 1) + 1 := by omega
    rw [hage, Dl.age_push_succ hw x (by omega)]
    exact hzeros (j + 1) (by omega)

theorem lineRead_eq_zero {l : FdnLine} {tau k : Nat} (h : l.line.SilentFor tau (k + 1)) (mode : Line0Mode) (i : Nat) :
    lineRead mode i l tau = 0 := by
  unfold lineRead
  split_ifs
  · rfl
  · exact h.age_eq_zero

theorem silentFor_lineFeed {l : FdnLine} {tau k : Nat} (h : l.line.SilentFor tau (k + 1)) (draw : Nat)
    (mode : Line0Mode) (alpha : F32) (i : Nat) (m x : F32) :
    (lineFeed draw mode alpha i l m x).line.SilentFor tau k := by
  unfold lineFeed
  split_ifs
  · exact h.pred
  · exact h.push _

/-- Every line, at its delay, is silent for `k` steps. -/
def SilentLines (ls : List FdnLine) (taus : List Nat) (k : Nat) : Prop :=
  ∀ p ∈ ls.zip taus, p.1.line.SilentFor p.2 k

theorem silentLines_cons {l : FdnLine} {ls : List FdnLine} {tau : Nat} {taus : List Nat} {k : Nat} :
    SilentLines (l :: ls) (tau :: taus) k ↔ l.line.SilentFor tau k ∧ SilentLines ls taus k := by
  simp [SilentLines]

/-- A step of silent lines delivers a frame of `+0.0`. -/
theorem SilentLines.readLines_eq_zero {ls : List FdnLine} {taus : List Nat} {k : Nat}
    (h : SilentLines ls taus (k + 1)) (mode : Line0Mode) (i : Nat) : ∀ y ∈ readLines mode i ls taus, y = 0 := by
  induction ls generalizing i taus with
  | nil => simp [readLines]
  | cons l ls ih =>
    cases taus with
    | nil => simp [readLines]
    | cons tau taus =>
      obtain ⟨hl, hls⟩ := silentLines_cons.mp h
      exact List.forall_mem_cons.mpr ⟨lineRead_eq_zero hl mode i, ih hls (i + 1)⟩

/-- Silent lines are silent for one step less after a step, whatever the frame and the input. -/
theorem SilentLines.pred_feedLines {ls : List FdnLine} {taus : List Nat} {k : Nat} (h : SilentLines ls taus (k + 1))
    (draw : Nat) (mode : Line0Mode) (alpha : F32) (i : Nat) (ms xs : List F32) :
    SilentLines (feedLines draw mode alpha i ls ms xs) taus k := by
  induction ls generalizing i taus ms xs with
  | nil => simp [SilentLines, feedLines]
  | cons l ls ih =>
    match taus, ms, xs with
    | [], _, _ => simp [SilentLines]
    | _ :: _, [], _ => simp [SilentLines, feedLines]
    | _ :: _, _ :: _, [] => simp [SilentLines, feedLines]
    | tau :: taus, m :: ms, x :: xs =>
      obtain ⟨hl, hls⟩ := silentLines_cons.mp h
      exact silentLines_cons.mpr ⟨silentFor_lineFeed hl draw mode alpha i m x, ih hls (i + 1) ms xs⟩

/-- Lines silent for as many steps as the block has frames deliver nothing but `+0.0`. -/
theorem SilentLines.fdnLoop_eq_zero {ls : List FdnLine} {taus : List Nat} {xs : List (List F32)}
    (h : SilentLines ls taus xs.length) (draw : Nat) (mode : Line0Mode) (alpha : F32) (n : Nat) :
    ∀ d ∈ (fdnLoop draw mode alpha n taus ls xs).1, ∀ y ∈ d, y = 0 := by
  induction xs generalizing ls with
  | nil => simp [fdnLoop]
  | cons x xs ih =>
    exact List.forall_mem_cons.mpr ⟨h.readLines_eq_zero mode 0, ih (h.pred_feedLines draw mode alpha 0 _ x)⟩

/-- A network whose lines are silent for the whole block returns a block of `+0.0`. -/
theorem Fdn.block_of_silent {f : Fdn} {n : Nat} {room : F32}
    (h : SilentLines f.lines (f.lines.map (fun l => roomDelay l.len (clamp room roomLo roomHi))) n) (draw : Nat)
    (prm : Params) (chans : List (List F32)) (damp : F32) :
    (f.block draw prm n chans damp room).1 = List.replicate f.n (List.replicate n 0) := by
  refine List.eq_replicate_iff.mpr ⟨Fdn.block_length .., fun c hc => ?_⟩
  refine List.eq_replicate_iff.mpr ⟨Fdn.block_mem hc, fun y hy => ?_⟩
  obtain ⟨i, _, rfl⟩ := List.mem_map.mp hc
  obtain ⟨d, hd, rfl⟩ := List.mem_map.mp hy
  rw [← framesOf_length n chans] at h
  have hzero := h.fdnLoop_eq_zero _ _ _ _ d hd
  rw [List.getD_eq_getElem?_getD]
  cases hi : d[i]? with
  | none => rfl
  | some y => exact hzero y (List.mem_of_getElem? hi)

/-- The lines of a well-formed network that hold only zeros are silent up to their delays, which the rings hold (R238,
R240). -/
theorem Fdn.wf.silentLines {f : Fdn} (hwf : f.wf) (hc : f.cfg = true)
    (hzeros : ∀ l ∈ f.lines, ∀ j, l.line.ring.read j = 0) {n : Nat} {room : F32}
    (hn : ∀ l ∈ f.lines, n ≤ roomDelay l.len (clamp room roomLo roomHi) + 1) :
    SilentLines f.lines (f.lines.map (fun l => roomDelay l.len (clamp room roomLo roomHi))) n := by
  obtain ⟨_, _, _, _, _, _, _, hlines⟩ := hwf hc
  intro p hp
  rw [← List.map_prod_left_eq_zip] at hp
  obtain ⟨l, hl, rfl⟩ := List.mem_map.mp hp
  obtain ⟨_, hcfg, hm, _, hline⟩ := hlines l hl
  obtain ⟨hw, hmb, _⟩ := hline.bounds hcfg
  exact Dl.silentFor_of_zeros hw ((roomDelay_le l.len room).trans_lt (hm ▸ hmb)) (hn l hl) (hzeros l hl)

/-- Settles O33: each line is silent for `tau + 1` steps, which is no less than the block. -/
theorem fdnFirstBlockIsSilent : Obligations.FdnFirstBlockIsSilent := by
  unfold Obligations.FdnFirstBlockIsSilent
  intro s t hc hwf hzeros hn h herr
  rw [blkOut_of_fdnProcb hc h herr]
  exact Fdn.block_of_silent
    (hwf.silentLines hc hzeros fun l hl => hn l hl _ (roomDelayOf_clampedRoom l.len s.fdnIn.room)) _ _ _ _

end Sys2Proof.Machine
end

section
/-!
PROOFS. 45_reverb_top.md R261-R264: REV.NOP, the random source and REV.SETUP. A setup draws from one run of the
source, of which each stage takes a piece; a stage built from its piece is as built from the stream that starts there. The
inner checks of a setup can report CAPACITY alone, which `CapacityUnless` says of each of them and of their sequence.
-/

namespace Sys2Proof.Machine

/-! ## REV.NOP (R261) -/

theorem exec_revNop (s : State) : exec .revNop s = .next (s.finishRev s.rev s.iobuf) := rfl

/-- Settles O35: REV.NOP has no check, and the end of a command clears BUSY alone. -/
theorem revNopChangesOnlyBusy : Obligations.RevNopChangesOnlyBusy := by
  unfold Obligations.RevNopChangesOnlyBusy
  exact ⟨by decide, fun s => ⟨_, exec_revNop s, onlyRev_finish s _ _, sameMemory_of rfl rfl, rfl⟩⟩

/-! ## The random source (R262) -/

/-- A bit of `x <<< k` is 0 or a lower bit of `x`, so a word that the shift keeps has no lowest 1. -/
theorem eq_zero_of_shiftLeft_eq_self {w k : Nat} (hk : 0 < k) {x : BitVec w} (h : x <<< k = x) : x = 0 := by
  have bits : ∀ i, x.getLsbD i = false := fun i => by
    induction i using Nat.strong_induction_on with
    | _ i ih =>
      rw [← h, BitVec.getLsbD_shiftLeft]
      by_cases hi : i < k
      · simp [hi]
      · simp [ih (i - k) (by omega)]
  exact BitVec.eq_of_getLsbD_eq fun i _ => by simp [bits i]

theorem eq_zero_of_ushiftRight_eq_self {w k : Nat} (hk : 0 < k) {x : BitVec w} (h : x >>> k = x) : x = 0 := by
  have hdiv : x.toNat / 2 ^ k = x.toNat := by rw [← Nat.shiftRight_eq_div_pow, ← BitVec.toNat_ushiftRight, h]
  by_contra hx
  have hpos : 0 < x.toNat := Nat.pos_of_ne_zero fun h0 => hx (BitVec.eq_of_toNat_eq (by simpa using h0))
  exact absurd hdiv (Nat.div_lt_self hpos (Nat.one_lt_two_pow (by omega))).ne

theorem xor_shiftLeft_ne_zero {w k : Nat} (hk : 0 < k) {x : BitVec w} (hx : x ≠ 0) : x ^^^ (x <<< k) ≠ 0 :=
  fun h => hx (eq_zero_of_shiftLeft_eq_self hk (BitVec.xor_eq_zero_iff.mp h).symm)

theorem xor_ushiftRight_ne_zero {w k : Nat} (hk : 0 < k) {x : BitVec w} (hx : x ≠ 0) : x ^^^ (x >>> k) ≠ 0 :=
  fun h => hx (eq_zero_of_ushiftRight_eq_self hk (BitVec.xor_eq_zero_iff.mp h).symm)

theorem xorshift_ne_zero {x : Word} (hx : x ≠ 0) : xorshift x ≠ 0 :=
  xor_shiftLeft_ne_zero (by decide) (xor_ushiftRight_ne_zero (by decide) (xor_shiftLeft_ne_zero (by decide) hx))

theorem rngDraw_toNat (x : Word) : (rngDraw x).toNat = x.toNat / 2 ^ 8 := by
  rw [rngDraw, BitVec.extractLsb'_toNat, Nat.shiftRight_eq_div_pow]
  omega

theorem rngDraws_get {n k : Nat} (h : k < n) (x : Word) :
    (rngDraws n x).1[k]? = some (rngDraw (xorshift^[k + 1] x)) := by
  induction n generalizing k x with
  | zero => omega
  | succ n ih =>
    cases k with
    | zero => rfl
    | succ k => exact ih (by omega) (xorshift x)

theorem rngDraws_snd (n : Nat) (x : Word) : (rngDraws n x).2 = xorshift^[n] x := by
  induction n generalizing x with
  | zero => rfl
  | succ n ih => exact ih (xorshift x)

/-- Settles O36: a word is not its own shift unless it is 0; the draws by induction on their number. -/
theorem randomSource : Obligations.RandomSource := by
  unfold Obligations.RandomSource
  refine ⟨fun _ => rfl, fun _ => xorshift_ne_zero, ?_, rngDraw_toNat, fun _ _ x h => rngDraws_get h x, rngDraws_snd,
    by decide⟩
  rintro x _ _ rfl rfl
  rfl

/-! ## The checks of REV.SETUP (R263) -/

/-- The check passes where `p` holds, and reports CAPACITY where it does not. -/
structure CapacityUnless (p : Prop) (err : Option Err) : Prop where
  passes : p → err = none
  refuses : ¬ p → err = some .capacity

/-- Two such checks, one after the other. -/
theorem CapacityUnless.or {p q : Prop} {err err' : Option Err} (h : CapacityUnless p err) (h' : CapacityUnless q err') :
    CapacityUnless (p ∧ q) (err.or err') := by
  refine ⟨fun ⟨hp, hq⟩ => by rw [h.passes hp, h'.passes hq, Option.or_none], fun hpq => ?_⟩
  by_cases hp : p
  · rw [h.passes hp, Option.none_or]
    exact h'.refuses fun hq => hpq ⟨hp, hq⟩
  · rw [h.refuses hp, Option.some_or]

theorem inUnit_rrsEps : inUnit Config.rrsEps := (epsOk_iff _).mp (by decide)

/-- The stage draws from an endless source, and its grid is at least 2 samples: only its capacity is left to check. -/
theorem stageDiffError_capacityUnless {sp : StageParams} {fs mb : Nat} (hmb : mb ≠ 0) (htd : 2 ≤ fs / sp.rho) :
    CapacityUnless (dvnFits sp.p (fs / sp.rho) mb) (stageDiffError sp fs mb) := by
  have hrho : sp.rho ≠ 0 := fun h0 => by
    rw [h0, Nat.div_zero] at htd
    omega
  have hin : (stageArgs sp fs mb).InRange (diffDraws sp) (3 * sp.p * Config.nInt) :=
    ⟨hrho, hmb, inUnit_rrsEps, htd, le_rfl⟩
  have hchk : stageDiffError sp fs mb = (stageArgs sp fs mb).error (diffDraws sp) (3 * sp.p * Config.nInt) :=
    Diff.cfgError_eq (by decide) (by decide) _ _
  exact ⟨fun h => hchk.trans (hin.error_none h), fun h => hchk.trans (hin.error_capacity h)⟩

/-- The base length is at least 1, so that it is the natural number the stage is built with. -/
theorem stageFdnError_capacityUnless {prm : Params} {ms : Rat} {fs mb : Nat} (hfs : fs ≠ 0) (hmb : mb ≠ 0)
    (hcap : mb ≤ Config.maxblkCap) (hbase : 1 ≤ setupBase ms fs) :
    CapacityUnless (fdnFits prm (setupBase ms fs) mb) (stageFdnError prm ms fs mb) := by
  have hcast : ((baseLength ms fs).toNat : Int) = setupBase ms fs := Int.toNat_of_nonneg (zero_le_one.trans hbase)
  have hz : ¬ (Config.nInt = 0 ∨ (baseLength ms fs).toNat = 0 ∨ fs = 0 ∨ mb = 0) := by
    have hlines : Config.nInt ≠ 0 := by decide
    omega
  rw [← hcast]
  exact ⟨Fdn.cfgError_of_fits hz (by decide) le_rfl (by decide) hcap,
    fun h => Fdn.cfgError_capacity hz (by decide) le_rfl (.inr (.inr h))⟩

section SetupError

variable {prm : Params} {fs mb : Nat}

theorem Rev.setupError_zero (h : fs = 0 ∨ mb = 0) : Rev.setupError prm fs mb = some .invalidArg := if_pos h

theorem Rev.setupError_large (hfs : fs ≠ 0) (hmb : mb ≠ 0) (h : Config.fsMax < fs ∨ Config.maxblkCap < mb) :
    Rev.setupError prm fs mb = some .capacity := by rw [Rev.setupError, if_neg (by omega), if_pos h]

/-- FS and MAXBLK are nonzero and within the limits of REV.SETUP. -/
structure SetupRange (fs mb : Nat) : Prop where
  fs_ne_zero : fs ≠ 0
  maxblk_ne_zero : mb ≠ 0
  fs_le : fs ≤ Config.fsMax
  maxblk_le : mb ≤ Config.maxblkCap

theorem SetupRange.setupError_grids (h : SetupRange fs mb) (hgrids : ¬ setupGridsOk prm fs) :
    Rev.setupError prm fs mb = some .invalidArg := by
  obtain ⟨hfs, hmb, hfsMax, hcap⟩ := h
  rw [Rev.setupError, if_neg (by omega), if_neg (by omega)]
  split_ifs with htd hbase
  · rfl
  · rfl
  · obtain ⟨hbase1, hbase2⟩ := not_or.mp hbase
    exact absurd ⟨by omega, by omega, by omega, not_lt.mp hbase1, not_lt.mp hbase2⟩ hgrids

/-- Past the grid checks, a setup can fail by the capacity of an inner CFG alone. -/
theorem SetupRange.setupError_capacityUnless (h : SetupRange fs mb) (hgrids : setupGridsOk prm fs) :
    CapacityUnless (setupFits prm fs mb) (Rev.setupError prm fs mb) := by
  obtain ⟨hfs, hmb, hfsMax, hcap⟩ := h
  obtain ⟨htd1, htd2, htd3, hbase1, hbase2⟩ := hgrids
  have hbases : ¬ (baseLength prm.fdnBaseMs1 fs < 1 ∨ baseLength prm.fdnBaseMs2 fs < 1) :=
    not_or.mpr ⟨not_lt.mpr hbase1, not_lt.mpr hbase2⟩
  rw [Rev.setupError, if_neg (by omega), if_neg (by omega), if_neg (by omega), if_neg hbases]
  exact (stageDiffError_capacityUnless hmb htd1).or
    ((stageFdnError_capacityUnless hfs hmb hcap hbase1).or
      ((stageDiffError_capacityUnless hmb htd2).or
        ((stageFdnError_capacityUnless hfs hmb hcap hbase2).or (stageDiffError_capacityUnless hmb htd3))))

end SetupError

/-! ## The default parameters pass (R263) -/

theorem setupBase_range {ms : Rat} {fs : Nat} (hlo : 40 ≤ ms) (hhi : ms ≤ 80) (hfs : 2000 ≤ fs)
    (hfsMax : fs ≤ Config.fsMax) : 80 ≤ setupBase ms fs ∧ setupBase ms fs ≤ 15360 := by
  have hfs' : (2000 : Rat) ≤ fs := by exact_mod_cast hfs
  have hfsMax' : (fs : Rat) ≤ 192000 := by exact_mod_cast hfsMax
  have low : ((80 : Nat) : Rat) ≤ ms * fs / 1000 := by push_cast; nlinarith
  have high : ms * fs / 1000 ≤ ((15360 : Nat) : Rat) := by push_cast; nlinarith
  have hlow := roundAway_mono (Nat.cast_nonneg 80) low
  have hhigh := roundAway_mono (le_trans (Nat.cast_nonneg 80) low) high
  rw [roundAway_natCast] at hlow hhigh
  exact ⟨hlow, hhigh⟩

theorem fdnFits_default {lb : Int} {mb : Nat} (hlo : 0 ≤ lb) (hhi : lb ≤ 15360) (hcap : mb ≤ Config.maxblkCap) :
    fdnFits .default lb mb := by
  rintro hi l0 rfl rfl
  have hlo' : (0 : Rat) ≤ lb := by exact_mod_cast hlo
  have hhi' : (lb : Rat) ≤ 15360 := by exact_mod_cast hhi
  have hjit : Params.default.jitHi = 5 / 4 := rfl
  have hround : roundAway ((lb : Rat) * (5 / 4)) ≤ 19200 := by
    have hle := roundAway_mono (mul_nonneg hlo' (by norm_num : (0 : Rat) ≤ 5 / 4))
      (show (lb : Rat) * (5 / 4) ≤ (19200 : Nat) by push_cast; linarith)
    rwa [roundAway_natCast] at hle
  unfold Config.maxblkCap at hcap
  rw [line0Len_of_nil rfl, hjit]
  omega

theorem dvnFits_default {fs mb : Nat} (hfsMax : fs ≤ Config.fsMax) (hcap : mb ≤ Config.maxblkCap) :
    dvnFits 16 (fs / 1000) mb := by
  unfold dvnFits
  unfold Config.fsMax at hfsMax
  unfold Config.maxblkCap at hcap
  omega

theorem setup_default_passes {fs mb : Nat} (hfs : 2000 ≤ fs) (hfsMax : fs ≤ Config.fsMax)
    (hcap : mb ≤ Config.maxblkCap) : setupGridsOk .default fs ∧ setupFits .default fs mb := by
  have hgrid : 2 ≤ fs / 1000 := by omega
  have hdvn := dvnFits_default hfsMax hcap
  have base : ∀ ms : Rat, 40 ≤ ms → ms ≤ 80 → 80 ≤ setupBase ms fs ∧ setupBase ms fs ≤ 15360 := fun _ hlo hhi =>
    setupBase_range hlo hhi hfs hfsMax
  obtain ⟨hlo1, hhi1⟩ := base Params.default.fdnBaseMs1 (by decide +kernel) (by decide +kernel)
  obtain ⟨hlo2, hhi2⟩ := base Params.default.fdnBaseMs2 (by decide +kernel) (by decide +kernel)
  exact ⟨⟨hgrid, hgrid, hgrid, by omega, by omega⟩, hdvn, fdnFits_default (by omega) hhi1 hcap, hdvn,
    fdnFits_default (by omega) hhi2 hcap, hdvn⟩

/-! ## REV.SETUP -/

/-- The check of R263 on the registers. -/
def State.setupError (s : State) : Option Err := Rev.setupError s.params s.rev.fs.toNat s.rev.maxblk.toNat

/-- The state after a REV.SETUP whose checks pass. -/
def State.setUp (s : State) : State := s.finishRev (s.rev.setup s.params) s.iobuf

theorem exec_revSetup (s : State) : exec .revSetup s = s.failOr .rev s.setupError s.setUp := rfl

theorem fails_revSetup {s : State} {e : Err} (h : s.setupError = some e) : fails .revSetup s e :=
  fails_of_failAt (by rw [exec_revSetup, h]; rfl)

theorem exec_revSetup_ok {s : State} (h : s.setupError = none) : exec .revSetup s = .next s.setUp := by
  rw [exec_revSetup, h, State.failOr]

theorem predelayMaxSamples_cast (fs : Nat) :
    (predelayMaxSamples fs : Int) = max 1 (roundAway (F32.toRat Config.predelayMax * fs)) :=
  Int.toNat_of_nonneg (le_trans (by norm_num) (le_max_left _ _))

/-- Settles O37: one clause for each outcome of `Rev.setupError`; a setup keeps what `RevEnd.setup` says. -/
theorem revSetupChecksAndLatches : Obligations.RevSetupChecksAndLatches := by
  unfold Obligations.RevSetupChecksAndLatches
  rintro s _ _ rfl rfl
  refine ⟨fun h => fails_revSetup (Rev.setupError_zero h),
    fun hfs hmb h => fails_revSetup (Rev.setupError_large hfs hmb h), fun hfs hmb hfsMax hcap => ?_⟩
  have hrange : SetupRange s.rev.fs.toNat s.rev.maxblk.toNat := ⟨hfs, hmb, hfsMax, hcap⟩
  refine ⟨fun hgrids => fails_revSetup (hrange.setupError_grids hgrids),
    fun hgrids hfits => fails_revSetup ((hrange.setupError_capacityUnless hgrids).refuses hfits),
    fun hgrids hfits => ?_, fun hprm hlow => hprm ▸ setup_default_passes hlow hfsMax hcap⟩
  have hok : s.setupError = none := (hrange.setupError_capacityUnless hgrids).passes hfits
  exact ⟨s.setUp, exec_revSetup_ok hok, onlyRev_finish s _ _, sameMemory_of rfl rfl, (RevEnd.setup hok).hostRegs, rfl,
    rfl, rfl, rfl, rfl, rfl, rfl, rfl, rfl, rfl, predelayMaxSamples_cast _⟩

/-! ## The five stages (R264) -/

theorem rngDraws_snd_snd (m n : Nat) (x : Word) : (rngDraws n (rngDraws m x).2).2 = (rngDraws (m + n) x).2 := by
  rw [rngDraws_add]

/-- The `n` draws after the first `m` begin the stream from draw `m` on. -/
theorem rngDraws_isPrefix_drop {m n total : Nat} (h : m + n ≤ total) (x : Word) :
    (rngDraws n (rngDraws m x).2).1 <+: (rngDraws total x).1.drop m := by
  obtain ⟨k, rfl⟩ := Nat.exists_eq_add_of_le h
  have hdrop : (rngDraws (m + (n + k)) x).1.drop m = (rngDraws (n + k) (rngDraws m x).2).1 := by
    rw [rngDraws_add]
    exact List.drop_left' (rngDraws_length m x)
  rw [Nat.add_assoc, hdrop, rngDraws_add]
  exact ⟨_, rfl⟩

/-- The draws that a setup takes before stage `i`, and in all for `i = 5` (R264). -/
def drawsBefore (prm : Params) : (i : Nat) → Nat
  | 0 => 0
  | 1 => diffDraws prm.diff1
  | 2 => diffDraws prm.diff1 + fdnDraws
  | 3 => diffDraws prm.diff1 + fdnDraws + diffDraws prm.diff2
  | 4 => diffDraws prm.diff1 + fdnDraws + diffDraws prm.diff2 + fdnDraws
  | _ => diffDraws prm.diff1 + fdnDraws + diffDraws prm.diff2 + fdnDraws + diffDraws prm.diff3

/-- The `n` draws that the random source gives once the stages before stage `i` have drawn. -/
def stageDraws (prm : Params) (seed : Word) (i n : Nat) : List Draw :=
  (rngDraws n (rngDraws (drawsBefore prm i) (rngSeed seed)).2).1

/-- All the draws of a setup, in order. -/
def setupStream (prm : Params) (seed : Word) : List Draw := (rngDraws (drawsBefore prm 5) (rngSeed seed)).1

theorem stageDraws_length (prm : Params) (seed : Word) (i n : Nat) : (stageDraws prm seed i n).length = n :=
  rngDraws_length _ _

theorem stageDraws_isPrefix {prm : Params} {i n : Nat} (h : drawsBefore prm i + n ≤ drawsBefore prm 5) (seed : Word) :
    stageDraws prm seed i n <+: (setupStream prm seed).drop (drawsBefore prm i) := rngDraws_isPrefix_drop h _

theorem getElem?_of_isPrefix {α : Type} {l m : List α} (h : l <+: m) {i : Nat} {x : α} (hx : l[i]? = some x) :
    m[i]? = some x := by
  obtain ⟨tail, rfl⟩ := h
  obtain ⟨hi, _⟩ := List.getElem?_eq_some_iff.mp hx
  rw [List.getElem?_append_left hi, hx]

/-- A convolver built from a stream is as built from any longer one. -/
theorem Dvn.fresh.of_isPrefix {d : Dvn} {prm : Params} {p rho fs maxblk : Nat} {eps : F32} {rnd stream : List Draw}
    (h : d.fresh prm p rho fs maxblk eps rnd) (hpre : rnd <+: stream) : d.fresh prm p rho fs maxblk eps stream := by
  obtain ⟨h1, h2, h3, h4, h5, h6, h7, h8, h9, h10, h11, h12, hpulses, hrest⟩ := h
  refine ⟨h1, h2, h3, h4, h5, h6, h7, h8, h9, h10, h11, h12, fun m hm => ?_, hrest⟩
  obtain ⟨q, u1, u2, u3, hq, hu1, hu2, hu3, hmade⟩ := hpulses m hm
  exact ⟨q, u1, u2, u3, hq, getElem?_of_isPrefix hpre hu1, getElem?_of_isPrefix hpre hu2,
    getElem?_of_isPrefix hpre hu3, hmade⟩

theorem Diff.fresh.of_isPrefix {d : Diff} {prm : Params} {ch p rho fs maxblk : Nat} {eps : F32} {rnd stream : List Draw}
    (h : d.fresh prm ch p rho fs maxblk eps rnd) (hpre : rnd <+: stream) :
    d.fresh prm ch p rho fs maxblk eps stream := by
  obtain ⟨hcfg, hch, hmaxblk, hlen, hconv⟩ := h
  refine ⟨hcfg, hch, hmaxblk, hlen, fun c hc => ?_⟩
  obtain ⟨v, hv, hfresh⟩ := hconv c hc
  exact ⟨v, hv, hfresh.of_isPrefix (hpre.drop _)⟩

theorem Fdn.fresh.of_isPrefix {f : Fdn} {prm : Params} {n lb fs maxblk : Nat} {rnd stream : List Draw}
    (h : f.fresh prm n lb fs maxblk rnd) (hpre : rnd <+: stream) : f.fresh prm n lb fs maxblk stream := by
  obtain ⟨hcfg, hn, hlb, hfs, hmaxblk, hlen, ⟨l, u, hl, hu, hline⟩, hlines⟩ := h
  refine ⟨hcfg, hn, hlb, hfs, hmaxblk, hlen, ⟨l, u, hl, getElem?_of_isPrefix hpre hu, hline⟩, fun i h1 hi => ?_⟩
  obtain ⟨l, uj, ug, hl, hj, hg, hline⟩ := hlines i h1 hi
  exact ⟨l, uj, ug, hl, getElem?_of_isPrefix hpre hj, getElem?_of_isPrefix hpre hg, hline⟩

/-- A diffuser stage built from its piece of a stream. -/
theorem Diff.fresh_stage {prm : Params} {sp : StageParams} {i : Nat}
    (h : drawsBefore prm i + diffDraws sp ≤ drawsBefore prm 5) (seed : Word) (fs mb : Nat) :
    (Diff.build prm Config.nInt (stageArgs sp fs mb) (stageDraws prm seed i (diffDraws sp))).fresh prm 8 sp.p sp.rho fs
      mb 0x39800000 ((setupStream prm seed).drop (drawsBefore prm i)) :=
  (Diff.fresh_build prm (a := stageArgs sp fs mb) inUnit_rrsEps (stageDraws_length _ _ _ _).ge).of_isPrefix
    (stageDraws_isPrefix h seed)

/-- A network stage built from its piece of a stream. -/
theorem Fdn.fresh_stage {prm : Params} {i : Nat} (h : drawsBefore prm i + fdnDraws ≤ drawsBefore prm 5) (seed : Word)
    (lb fs mb : Nat) :
    (Fdn.build prm Config.nInt lb fs mb (stageDraws prm seed i fdnDraws)).fresh prm 8 lb fs mb
      ((setupStream prm seed).drop (drawsBefore prm i)) :=
  (Fdn.fresh_build prm _ lb fs mb _ (by decide) (stageDraws_length _ _ _ _).ge).of_isPrefix (stageDraws_isPrefix h seed)

section SetupStages

variable (prm : Params) (r : Rev)

theorem Rev.setup_d1 :
    (r.setup prm).d1 = .build prm Config.nInt (stageArgs prm.diff1 r.fs.toNat r.maxblk.toNat)
      (stageDraws prm r.seed 0 (diffDraws prm.diff1)) := rfl

theorem Rev.setup_f1 :
    (r.setup prm).f1 = .build prm Config.nInt (baseLength prm.fdnBaseMs1 r.fs.toNat).toNat r.fs.toNat r.maxblk.toNat
      (stageDraws prm r.seed 1 fdnDraws) := rfl

theorem Rev.setup_d2 :
    (r.setup prm).d2 = .build prm Config.nInt (stageArgs prm.diff2 r.fs.toNat r.maxblk.toNat)
      (stageDraws prm r.seed 2 (diffDraws prm.diff2)) := by
  simp only [stageDraws, drawsBefore, ← rngDraws_snd_snd]
  rfl

theorem Rev.setup_f2 :
    (r.setup prm).f2 = .build prm Config.nInt (baseLength prm.fdnBaseMs2 r.fs.toNat).toNat r.fs.toNat r.maxblk.toNat
      (stageDraws prm r.seed 3 fdnDraws) := by
  simp only [stageDraws, drawsBefore, ← rngDraws_snd_snd]
  rfl

theorem Rev.setup_d3 :
    (r.setup prm).d3 = .build prm Config.nInt (stageArgs prm.diff3 r.fs.toNat r.maxblk.toNat)
      (stageDraws prm r.seed 4 (diffDraws prm.diff3)) := by
  simp only [stageDraws, drawsBefore, ← rngDraws_snd_snd]
  rfl

theorem Rev.setup_rng : (r.setup prm).rng = xorshift^[drawsBefore prm 5] (rngSeed r.seed) := by
  rw [← rngDraws_snd]
  simp only [drawsBefore, ← rngDraws_snd_snd]
  rfl

/-- The stages of a setup and the draws each is built from (R264). -/
theorem Rev.setup_stages :
    (r.setup prm).d1.fresh prm 8 prm.diff1.p prm.diff1.rho r.fs.toNat r.maxblk.toNat 0x39800000
        ((setupStream prm r.seed).drop (drawsBefore prm 0)) ∧
      (r.setup prm).f1.fresh prm 8 (setupBase prm.fdnBaseMs1 r.fs.toNat).toNat r.fs.toNat r.maxblk.toNat
        ((setupStream prm r.seed).drop (drawsBefore prm 1)) ∧
      (r.setup prm).d2.fresh prm 8 prm.diff2.p prm.diff2.rho r.fs.toNat r.maxblk.toNat 0x39800000
        ((setupStream prm r.seed).drop (drawsBefore prm 2)) ∧
      (r.setup prm).f2.fresh prm 8 (setupBase prm.fdnBaseMs2 r.fs.toNat).toNat r.fs.toNat r.maxblk.toNat
        ((setupStream prm r.seed).drop (drawsBefore prm 3)) ∧
      (r.setup prm).d3.fresh prm 8 prm.diff3.p prm.diff3.rho r.fs.toNat r.maxblk.toNat 0x39800000
        ((setupStream prm r.seed).drop (drawsBefore prm 4)) := by
  rw [Rev.setup_d1, Rev.setup_f1, Rev.setup_d2, Rev.setup_f2, Rev.setup_d3]
  refine ⟨Diff.fresh_stage ?_ _ _ _, Fdn.fresh_stage ?_ _ _ _ _, Diff.fresh_stage ?_ _ _ _, Fdn.fresh_stage ?_ _ _ _ _,
    Diff.fresh_stage ?_ _ _ _⟩
  all_goals
    simp only [drawsBefore]
    omega

end SetupStages

/-- Settles O38: the draws of the five stages are consecutive pieces of one run of the source. -/
theorem revSetupBuildsTheStages : Obligations.RevSetupBuildsTheStages := by
  unfold Obligations.RevSetupBuildsTheStages
  rintro s _ _ rfl rfl hfs hmb hfsMax hcap hgrids hfits
  have hrange : SetupRange s.rev.fs.toNat s.rev.maxblk.toNat := ⟨hfs, hmb, hfsMax, hcap⟩
  have hok : s.setupError = none := (hrange.setupError_capacityUnless hgrids).passes hfits
  have hcount : ∀ sp : StageParams, diffDraws sp = 24 * sp.p := fun sp => by
    simp only [diffDraws, Config.nInt]
    omega
  obtain ⟨hd1, hf1, hd2, hf2, hd3⟩ := Rev.setup_stages s.params s.rev
  refine ⟨s.setUp, setupStream s.params s.rev.seed, _, _, _, exec_revSetup_ok hok, hcount _, hcount _, hcount _,
    rngDraws_length _ _, fun k u hu => ?_, Rev.setup_rng _ _, hd1, hf1, hd2, hf2, hd3⟩
  obtain ⟨hk, _⟩ := List.getElem?_eq_some_iff.mp hu
  rw [setupStream, rngDraws_length] at hk
  exact Option.some.inj (hu.symm.trans (rngDraws_get hk _))

end Sys2Proof.Machine
end

section
/-!
PROOFS. 45_reverb_top.md R265-R275: the steps of REV.PROCESS. The block that the command computes is cut at its
intermediate blocks (`State.blocks`); each step is then one lemma about one of them: a channel's tone filters, its pre-delay
line, a stage as the command of its module, and a sample of the output.
-/

namespace Sys2Proof.Machine

/-! ## The intermediate blocks -/

/-- The channels after the tone filters, with the filter states (R270). -/
def State.tones (s : State) : List ToneOut :=
  toneChannels s.draws (onepoleAlpha s.params s.rev.controls.highpass s.rev.cfgFs.toNat)
    (onepoleAlpha s.params s.rev.controls.lowpass s.rev.cfgFs.toNat) s.rev.hs s.rev.ls 0 s.processInput

/-- The pre-delay in samples (R271). -/
def State.predelaySamples (s : State) : Nat :=
  (roundAway (F32.toRat s.rev.controls.initdelay * s.rev.cfgFs.toNat)).toNat

/-- The channels after the pre-delay, with the lines (R267, R271). -/
def State.predelayed (s : State) : List (List F32 × Dl) :=
  List.zipWith (predelay s.predelaySamples s.rev.nlen.toNat) (s.rev.predelayLines s.processInput.length)
    (s.tones.map ToneOut.out)

/-- What a diffuser stage gives and leaves (R273). -/
def State.diffRun (s : State) (d : Diff) (xs : List (List F32)) : List (List F32) × Diff :=
  d.block s.draws s.rev.nlen.toNat xs

/-- What a network stage gives and leaves, at the clamped controls (R266, R273). -/
def State.netRun (s : State) (f : Fdn) (xs : List (List F32)) : List (List F32) × Fdn :=
  f.block s.draws s.params s.rev.nlen.toNat xs s.rev.controls.dampening s.rev.controls.roomsize

/-- The first diffuser, on the upscaled channels (R272, R273). -/
def State.run1 (s : State) : List (List F32) × Diff := s.diffRun s.rev.d1 (upscale (s.predelayed.map Prod.fst))

/-- The first network (R273). -/
def State.run2 (s : State) : List (List F32) × Fdn := s.netRun s.rev.f1 s.run1.1

/-- The second diffuser (R273). -/
def State.run3 (s : State) : List (List F32) × Diff := s.diffRun s.rev.d2 s.run2.1

/-- The second network (R273). -/
def State.run4 (s : State) : List (List F32) × Fdn := s.netRun s.rev.f2 s.run3.1

/-- The third diffuser, whose output is the wet signal (R273). -/
def State.run5 (s : State) : List (List F32) × Diff := s.diffRun s.rev.d3 s.run4.1

/-- The intermediate blocks of the pending REV.PROCESS (R265). -/
def State.blocks (s : State) : RevBlock where
  tone := s.tones.map ToneOut.out
  pre := s.predelayed.map Prod.fst
  b1 := s.run1.1
  b2 := s.run2.1
  b3 := s.run3.1
  b4 := s.run4.1
  b5 := s.run5.1

/-- The output block: the last stage's host channels, widened and blended (R274, R275). -/
theorem State.processOut_fst (s : State) :
    s.processOut.1 = blendChannels s.draws s.rev.controls.mix s.processInput
      (widen s.draws s.rev.controls.width (s.run5.1.take s.processInput.length)) := rfl

theorem processed_hs (s : State) :
    s.processed.rev.hs = s.tones.map ToneOut.h ++ s.rev.hs.drop s.processInput.length := rfl

theorem processed_ls (s : State) :
    s.processed.rev.ls = s.tones.map ToneOut.l ++ s.rev.ls.drop s.processInput.length := rfl

theorem processed_pd (s : State) : s.processed.rev.pd = s.predelayed.map Prod.snd := rfl

/-- A REV.PROCESS that passes its checks, on a well-formed REV. -/
structure State.CanProcess (s : State) : Prop where
  wf : s.rev.wf
  configured : s.rev.configured = true
  channels_pos : 1 ≤ s.rev.nch.toNat
  channels_le : s.rev.nch.toNat ≤ 8
  length_le : s.rev.nlen.toNat ≤ s.rev.cfgMaxblk.toNat

theorem State.CanProcess.exec {s : State} (h : s.CanProcess) : exec .revProcess s = .next s.processed :=
  exec_revProcess_ok (Rev.processError_eq_none h.configured h.channels_pos h.channels_le h.length_le)

/-! ## The tone filters (R268, R270) -/

/-- Channel `c` of the input block. -/
theorem processInput_get (s : State) {c : Nat} (hc : c < s.rev.nch.toNat) :
    s.processInput[c]? = some ((List.range s.rev.nlen.toNat).map (s.iobufWord c)) := by
  rw [State.processInput, readBlocks_get _ _ _ _ _ _ hc, Nat.zero_add]
  rfl

@[simp] theorem State.tones_length (s : State) : s.tones.length = s.rev.nch.toNat :=
  (toneChannels_length _ _ _ _ _ _ _).trans s.processInput_length

/-- The channel of the tone filters that the states `h`, `l` and the input block of channel `c` give. -/
def State.toneOut (s : State) (c : Nat) : ToneOut :=
  toneChannel s.draws (onepoleAlpha s.params s.rev.controls.highpass s.rev.cfgFs.toNat)
    (onepoleAlpha s.params s.rev.controls.lowpass s.rev.cfgFs.toNat) (s.rev.hs.getD c 0) (s.rev.ls.getD c 0)
    ((List.range s.rev.nlen.toNat).map (s.iobufWord c))

theorem State.tones_get (s : State) {c : Nat} (hc : c < s.rev.nch.toNat) : s.tones[c]? = some (s.toneOut c) := by
  rw [State.tones, toneChannels_get _ _ _ _ _ _ _ _ (processInput_get s hc), Nat.zero_add]
  rfl

theorem getElem?_eq_some_getD {α : Type} {l : List α} {i : Nat} (h : i < l.length) (d : α) :
    l[i]? = some (l.getD i d) := by
  rw [List.getD_eq_getElem?_getD, List.getElem?_eq_getElem h, Option.getD_some]

/-- The filter states of the first channels are new, those of the others as they were. -/
theorem getElem?_map_append_drop {α β : Type} (f : α → β) {xs : List α} (l : List β) {k : Nat} (hk : xs.length = k)
    (c : Nat) :
    (∀ x, xs[c]? = some x → (xs.map f ++ l.drop k)[c]? = some (f x)) ∧
      (k ≤ c → (xs.map f ++ l.drop k)[c]? = l[c]?) := by
  subst hk
  refine ⟨fun x hx => ?_, fun hc => ?_⟩
  · obtain ⟨hlt, _⟩ := List.getElem?_eq_some_iff.mp hx
    rw [List.getElem?_append_left (by simpa using hlt), List.getElem?_map, hx, Option.map_some]
  · rw [List.getElem?_append_right (by simpa using hc), List.length_map, List.getElem?_drop, Nat.add_sub_cancel' hc]

theorem State.CanProcess.toneOk {s : State} (h : s.CanProcess) {c : Nat} (hc : c < s.rev.nch.toNat) :
    s.blocks.toneOk s s.processed c := by
  obtain ⟨_, _, hhs, hls, _⟩ := h.wf
  have hc8 : c < Config.nInt := hc.trans_le h.channels_le
  have htone := s.tones_get hc
  have hlen : ((List.range s.rev.nlen.toNat).map (s.iobufWord c)).length = s.rev.nlen.toNat := by simp
  obtain ⟨hf, lf, h0, l0, hn, ln, steps⟩ := toneChannel_spec s.draws
    (onepoleAlpha s.params s.rev.controls.highpass s.rev.cfgFs.toNat)
    (onepoleAlpha s.params s.rev.controls.lowpass s.rev.cfgFs.toNat) (s.rev.hs.getD c 0) (s.rev.ls.getD c 0)
    ((List.range s.rev.nlen.toNat).map (s.iobufWord c))
  rw [hlen] at hn ln
  refine ⟨hf, lf, (s.toneOut c).out, ?_, (toneChannel_length _ _ _ _ _ _).trans hlen, ?_, ?_, ?_, ?_, fun i hi => ?_⟩
  · rw [State.blocks, List.getElem?_map, htone, Option.map_some]
  · rw [h0]
    exact getElem?_eq_some_getD (hhs ▸ hc8) 0
  · rw [l0]
    exact getElem?_eq_some_getD (hls ▸ hc8) 0
  · rw [hn, processed_hs, s.processInput_length]
    exact (getElem?_map_append_drop _ _ s.tones_length c).1 _ htone
  · rw [ln, processed_ls, s.processInput_length]
    exact (getElem?_map_append_drop _ _ s.tones_length c).1 _ htone
  · exact steps i _ (by rw [List.getElem?_map, List.getElem?_range hi, Option.map_some])

/-- The filters of the other channels are as they were. -/
theorem processed_tones_other (s : State) {c : Nat} (hc : s.rev.nch.toNat ≤ c) :
    s.processed.rev.hs[c]? = s.rev.hs[c]? ∧ s.processed.rev.ls[c]? = s.rev.ls[c]? := by
  rw [processed_hs, processed_ls, s.processInput_length]
  exact ⟨(getElem?_map_append_drop _ _ s.tones_length c).2 hc, (getElem?_map_append_drop _ _ s.tones_length c).2 hc⟩

/-! ## The pre-delay (R267, R271) -/

/-- The pre-delay is not negative, whatever INITDELAY holds (R266). -/
theorem predelaySamples_cast (s : State) :
    (s.predelaySamples : Int) = roundAway (F32.toRat s.rev.controls.initdelay * s.rev.cfgFs.toNat) := by
  have hmax : F32.toRat 0 ≤ F32.toRat Config.predelayMax := by decide +kernel
  obtain ⟨hlo, _⟩ := toRat_clamp_bounds (by decide) (by decide) hmax s.rev.initdelay
  rw [toRat_zero] at hlo
  exact Int.toNat_of_nonneg (roundAway_nonneg (mul_nonneg hlo (Nat.cast_nonneg _)))

/-- The line of channel `c`: kept, or fresh where the channel count has changed (R267). -/
theorem Rev.predelayLines_get {r : Rev} {k c : Nat} {d : Dl} (h : (r.predelayLines k)[c]? = some d) :
    if k = r.cprev then r.pd[c]? = some d else d.fresh r.mpd r.cfgMaxblk.toNat 0 := by
  unfold Rev.predelayLines at h
  split_ifs at h ⊢ with hk
  · exact h
  · obtain rfl := List.eq_of_mem_replicate (List.mem_of_getElem? h)
    exact Dl.fresh_build _ _ _

theorem State.CanProcess.predelayed_length {s : State} (h : s.CanProcess) :
    s.predelayed.length = s.rev.nch.toNat := by
  obtain ⟨hlen, _⟩ := Rev.predelayLines_spec h.wf h.configured s.processInput.length
  rw [State.predelayed, List.length_zipWith, hlen, List.length_map, s.processInput_length, s.tones_length, Nat.min_self]

theorem State.CanProcess.preOk {s : State} (h : s.CanProcess) {c : Nat} (hc : c < s.rev.nch.toNat) :
    s.blocks.preOk s s.processed c := by
  obtain ⟨hlen, hsized⟩ := Rev.predelayLines_spec h.wf h.configured s.processInput.length
  rw [s.processInput_length] at hlen hsized
  have hd : (s.rev.predelayLines s.rev.nch.toNat)[c]? = some (s.rev.predelayLines s.rev.nch.toNat)[c] :=
    List.getElem?_eq_getElem (by omega)
  generalize (s.rev.predelayLines s.rev.nch.toNat)[c] = d at hd
  obtain ⟨hcfg, hm, hmb, hdwf⟩ := hsized d (List.mem_of_getElem? hd)
  obtain ⟨hw, _⟩ := hdwf.bounds hcfg
  have htone : (s.tones.map ToneOut.out)[c]? = some (s.toneOut c).out := by
    rw [List.getElem?_map, s.tones_get hc, Option.map_some]
  have hpre : s.predelayed[c]? = some (predelay s.predelaySamples s.rev.nlen.toNat d (s.toneOut c).out) := by
    rw [State.predelayed, s.processInput_length, List.getElem?_zipWith, hd, htone]
  have hb : 0 < (d.writeBlock (s.toneOut c).out).b := hw.pos
  refine ⟨d, d.writeBlock (s.toneOut c).out, (s.toneOut c).out, _, s.predelaySamples, htone, ?_, ?_,
    Rev.predelayLines_get hd, Dl.wroteAll_writeBlock hw _, predelaySamples_cast s, Dl.holds_readBlock hb _ _⟩
  · rw [State.blocks, List.getElem?_map, hpre]
    rfl
  · rw [processed_pd, List.getElem?_map, hpre]
    rfl

/-! ## The stages (R272, R273) -/

/-- Eight channels of the block's length, as a stage of REV takes and gives them. -/
structure State.EightBlocks (s : State) (xs : List (List F32)) : Prop where
  channels : xs.length = Config.nInt
  samples : ∀ x ∈ xs, x.length = s.rev.nlen.toNat

theorem takeChannels_eightBlocks {s : State} {xs : List (List F32)} (h : s.EightBlocks xs) :
    takeChannels s.draws s.rev.nlen.toNat 0 Config.nInt xs = xs := by
  rw [← h.channels]
  exact takeChannels_of_shape _ _ _ _ h.samples

section Stage

variable {s : State} {xs : List (List F32)} (hxs : s.EightBlocks xs) (hn : s.rev.nlen.toNat ≤ s.rev.cfgMaxblk.toNat)
include hxs

theorem diffRun_eightBlocks {d : Diff} (hd : d.stage s.rev.cfgMaxblk.toNat) : s.EightBlocks (s.diffRun d xs).1 :=
  ⟨(Diff.stage_block hd _ _ hxs.channels).2, fun _ => Diff.block_mem⟩

theorem netRun_eightBlocks {f : Fdn} (hf : f.stage s.rev.cfgFs.toNat s.rev.cfgMaxblk.toNat) :
    s.EightBlocks (s.netRun f xs).1 :=
  ⟨(Fdn.stage_block hf _ _ _ hxs.channels _ _).2, fun _ => Fdn.block_mem⟩

include hn

/-- A diffuser stage is DIFF.PROCB on a block that the command takes whole. -/
theorem diffStage_diffRun {d : Diff} (hd : d.stage s.rev.cfgMaxblk.toNat) :
    diffStage s d (s.diffRun d xs).2 xs (s.diffRun d xs).1 := by
  obtain ⟨hcfg, hch, hmaxblk, _⟩ := hd
  have hexec := exec_diffProcb (s := { s with diff := d, diffIn := { s.diffIn with n := s.rev.nlen, blk := xs } }) hcfg
    (hmaxblk ▸ hn)
  dsimp only [State.diffChans] at hexec
  rw [hch, takeChannels_eightBlocks hxs] at hexec
  exact ⟨_, hexec, rfl, rfl, rfl⟩

/-- A network stage is FDN.PROCB on a block that the command takes whole. -/
theorem fdnStage_netRun {f : Fdn} (hf : f.stage s.rev.cfgFs.toNat s.rev.cfgMaxblk.toNat) :
    fdnStage s f (s.netRun f xs).2 xs (s.netRun f xs).1 := by
  obtain ⟨hcfg, hlines, _, hmaxblk, _⟩ := hf
  have hexec := exec_fdnProcb
    (s := { s with
      fdn := f
      fdnIn := { s.fdnIn with
        n := s.rev.nlen
        blk := xs
        damp := s.rev.controls.dampening
        room := s.rev.controls.roomsize } }) hcfg (hmaxblk ▸ hn)
  dsimp only [State.fdnRun, State.fdnChans] at hexec
  rw [hlines, takeChannels_eightBlocks hxs] at hexec
  exact ⟨_, hexec, rfl, rfl, rfl⟩

end Stage

/-- The channels up to 8 are copies of the last one (R272). -/
theorem upscale_get {bufs : List (List F32)} (h0 : 1 ≤ bufs.length) {c : Nat} (hc : c < Config.nInt) :
    (upscale bufs)[c]? = bufs[min c (bufs.length - 1)]? := by
  rw [upscale]
  rcases Nat.lt_or_ge c bufs.length with hlt | hge
  · rw [List.getElem?_append_left hlt, Nat.min_eq_left (by omega)]
  · rw [List.getElem?_append_right hge, List.getElem?_replicate_of_lt (by omega), Nat.min_eq_right (by omega),
      List.getLastD_eq_getLast?, List.getLast?_eq_getElem?, List.getElem?_eq_getElem (by omega), Option.getD_some]

theorem State.CanProcess.predelayed_channels {s : State} (h : s.CanProcess) :
    (s.predelayed.map Prod.fst).length = s.rev.nch.toNat := by rw [List.length_map, h.predelayed_length]

theorem predelayed_mem_length {s : State} : ∀ b ∈ s.predelayed.map Prod.fst, b.length = s.rev.nlen.toNat := by
  intro b hb
  obtain ⟨p, hp, rfl⟩ := List.mem_map.mp hb
  obtain ⟨i, hi, rfl⟩ := List.mem_iff_getElem.mp hp
  simp [State.predelayed, predelay]

theorem State.CanProcess.upscale_eightBlocks {s : State} (h : s.CanProcess) :
    s.EightBlocks (upscale (s.predelayed.map Prod.fst)) := by
  have hlen := h.predelayed_channels
  have h1 := h.channels_pos
  have h8 := h.channels_le
  have hup : (upscale (s.predelayed.map Prod.fst)).length = Config.nInt := upscale_length (hlen.trans_le h8)
  refine ⟨hup, fun x hx => ?_⟩
  obtain ⟨c, hget⟩ := List.mem_iff_getElem?.mp hx
  obtain ⟨hc, _⟩ := List.getElem?_eq_some_iff.mp hget
  rw [upscale_get (by omega) (by omega)] at hget
  exact predelayed_mem_length x (List.mem_of_getElem? hget)

/-- Every stage takes and gives eight blocks, and is the command of its module. -/
theorem State.CanProcess.chainOk {s : State} (h : s.CanProcess) :
    s.blocks.chainOk s s.processed ∧ s.EightBlocks s.run5.1 := by
  obtain ⟨_, _, _, _, _, hranges⟩ := h.wf
  obtain ⟨_, _, _, _, _, _, hd1, hf1, hd2, hf2, hd3⟩ := hranges h.configured
  have hn := h.length_le
  have hlen := h.predelayed_channels
  have e0 := h.upscale_eightBlocks
  have e1 : s.EightBlocks s.run1.1 := diffRun_eightBlocks e0 hd1
  have e2 : s.EightBlocks s.run2.1 := netRun_eightBlocks e1 hf1
  have e3 : s.EightBlocks s.run3.1 := diffRun_eightBlocks e2 hd2
  have e4 : s.EightBlocks s.run4.1 := netRun_eightBlocks e3 hf2
  refine ⟨⟨⟨_, e0.channels, fun c hc => ?_, diffStage_diffRun e0 hn hd1⟩, fdnStage_netRun e1 hn hf1,
    diffStage_diffRun e2 hn hd2, fdnStage_netRun e3 hn hf2, diffStage_diffRun e4 hn hd3⟩, diffRun_eightBlocks e4 hd3⟩
  rw [upscale_get (hlen ▸ h.channels_pos) hc, hlen]
  rfl

/-! ## The output (R274, R275) -/

/-- Sample `i` of channel `c` of a block, if there is one. -/
def sampleAt (bufs : List (List F32)) (c i : Nat) : Option F32 := bufs[c]?.bind fun xs => xs[i]?

theorem sampleAt_eq_some {bufs : List (List F32)} {c i : Nat} {x : F32} :
    sampleAt bufs c i = some x ↔ ∃ xs, bufs[c]? = some xs ∧ xs[i]? = some x := Option.bind_eq_some_iff

theorem sampleAt_take {bufs : List (List F32)} {k c : Nat} (h : c < k) (i : Nat) :
    sampleAt (bufs.take k) c i = sampleAt bufs c i := by rw [sampleAt, List.getElem?_take_of_lt h, sampleAt]

/-- The first two channels are blended, sample by sample. -/
theorem sampleAt_blendChannels_lt (draw : Nat) (mix : F32) {dry wet : List (List F32)} {c i : Nat} {x y : F32}
    (hc : c < 2) (hx : sampleAt dry c i = some x) (hy : sampleAt wet c i = some y) :
    sampleAt (blendChannels draw mix dry wet) c i = some (blended draw mix x y) := by
  obtain ⟨xs, hxs, hx⟩ := sampleAt_eq_some.mp hx
  obtain ⟨ys, hys, hy⟩ := sampleAt_eq_some.mp hy
  obtain ⟨hdry, _⟩ := List.getElem?_eq_some_iff.mp hxs
  obtain ⟨hwet, _⟩ := List.getElem?_eq_some_iff.mp hys
  refine sampleAt_eq_some.mpr ⟨List.zipWith (blend draw mix) xs ys, ?_, ?_⟩
  · rw [blendChannels, List.getElem?_append_left (by simp only [List.length_zipWith, List.length_take]; omega),
      List.getElem?_zipWith, List.getElem?_take_of_lt hc, List.getElem?_take_of_lt hc, hxs, hys]
  · rw [List.getElem?_zipWith, hx, hy]
    rfl

/-- The other channels are the wet signal. -/
theorem sampleAt_blendChannels_ge (draw : Nat) (mix : F32) {dry wet : List (List F32)} {c : Nat} (hc : 2 ≤ c)
    (hdry : 2 ≤ dry.length) (hwet : 2 ≤ wet.length) (i : Nat) :
    sampleAt (blendChannels draw mix dry wet) c i = sampleAt wet c i := by
  have hlen : (List.zipWith (List.zipWith (blend draw mix)) (dry.take 2) (wet.take 2)).length = 2 := by
    simp only [List.length_zipWith, List.length_take]
    omega
  rw [sampleAt, blendChannels, List.getElem?_append_right (by omega), hlen, List.getElem?_drop, Nat.add_sub_cancel' hc,
    sampleAt]

/-- Sample `i` of channel `c` of two channels of a wider signal. -/
theorem sampleAt_widen_two (draw : Nat) (width : F32) {bufs : List (List F32)} (hb : bufs.length = 2) {c i : Nat}
    {l r : F32} (hc : c < 2) (hl : sampleAt bufs 0 i = some l) (hr : sampleAt bufs 1 i = some r) :
    sampleAt (widen draw width bufs) c i =
      some (if c = 0 then (stereoWidth draw width l r).1 else (stereoWidth draw width l r).2) := by
  obtain ⟨ls, rs, rfl⟩ := List.length_eq_two.mp hb
  have hl' : ls[i]? = some l := hl
  have hr' : rs[i]? = some r := hr
  obtain rfl | rfl : c = 0 ∨ c = 1 := by omega
  · simp [sampleAt, widen, List.getElem?_zipWith, hl', hr']
  · simp [sampleAt, widen, List.getElem?_zipWith, hl', hr']

theorem widen_of_length_ne {bufs : List (List F32)} (h : bufs.length ≠ 2) (draw : Nat) (width : F32) :
    widen draw width bufs = bufs := by
  unfold widen
  split
  · exact absurd rfl h
  · rfl

theorem readWord_writeChannels_sampleAt (epoch : Nat) (m : Memory) {bufs : List (List F32)} {c i : Nat} {x : F32}
    (h : sampleAt bufs c i = some x) (hi : i < Config.maxblkCap) :
    (m.writeChannels 0 bufs).readWord epoch (iobufOffset c i) = x := by
  obtain ⟨xs, hxs, hx⟩ := sampleAt_eq_some.mp h
  have hread := Memory.readWord_writeChannels epoch m 0 bufs c i hxs hx hi
  rwa [Nat.zero_add] at hread

section Output

variable {s : State} {c i : Nat} (h : s.CanProcess) (hc : c < s.rev.nch.toNat) (hi : i < s.rev.nlen.toNat)
include h

/-- The host channels of the last stage, after the stereo width (R274). -/
theorem State.CanProcess.widen_length :
    (widen s.draws s.rev.controls.width (s.run5.1.take s.processInput.length)).length = s.rev.nch.toNat := by
  have h8 := h.channels_le
  rw [Machine.widen_length, List.length_take, h.chainOk.2.channels, s.processInput_length, Config.nInt]
  omega

include hi

theorem State.CanProcess.sampleAt_run5 {k : Nat} (hk : k < s.rev.nch.toNat) :
    ∃ b, sampleAt s.run5.1 k i = some b := by
  have h8 : k < Config.nInt := hk.trans_le h.channels_le
  obtain ⟨hlen, hsamples⟩ := h.chainOk.2
  have hxs := List.getElem?_eq_getElem (hlen ▸ h8 : k < s.run5.1.length)
  have hx := hsamples _ (List.getElem_mem (hlen ▸ h8 : k < s.run5.1.length))
  exact ⟨_, sampleAt_eq_some.mpr ⟨_, hxs, List.getElem?_eq_getElem (hx ▸ hi)⟩⟩

include hc

/-- The word that REV.PROCESS leaves, from the wet sample `w` (R275). -/
theorem State.CanProcess.iobufWord_processed {w : F32}
    (hw : sampleAt (widen s.draws s.rev.controls.width (s.run5.1.take s.processInput.length)) c i = some w) :
    s.processed.iobufWord c i =
      if c < 2 then blended s.draws s.rev.controls.mix (s.iobufWord c i) w else w := by
  obtain ⟨_, _, _, _, _, hranges⟩ := h.wf
  obtain ⟨_, _, _, hmb, _⟩ := hranges h.configured
  have hcap : i < Config.maxblkCap := (hi.trans_le h.length_le).trans_le hmb
  have hdry : sampleAt s.processInput c i = some (s.iobufWord c i) :=
    sampleAt_eq_some.mpr ⟨_, processInput_get s hc, by rw [List.getElem?_map, List.getElem?_range hi, Option.map_some]⟩
  refine readWord_writeChannels_sampleAt s.epoch s.iobuf ?_ hcap
  rw [s.processOut_fst]
  split_ifs with hlt
  · exact sampleAt_blendChannels_lt _ _ hlt hdry hw
  · have hdryLen : 2 ≤ s.processInput.length := by
      rw [s.processInput_length]
      omega
    rw [sampleAt_blendChannels_ge _ _ (not_lt.mp hlt) hdryLen (by rw [h.widen_length]; omega), hw]

theorem State.CanProcess.outOk : s.blocks.outOk s s.processed c i := by
  obtain ⟨b, hb⟩ := h.sampleAt_run5 hi hc
  obtain ⟨bs, hbs, hbi⟩ := sampleAt_eq_some.mp hb
  by_cases h2 : s.rev.nch.toNat = 2
  · obtain ⟨l, hl⟩ := h.sampleAt_run5 hi (k := 0) (by omega)
    obtain ⟨r, hr⟩ := h.sampleAt_run5 hi (k := 1) (by omega)
    obtain ⟨ls, hls, hli⟩ := sampleAt_eq_some.mp hl
    obtain ⟨rs, hrs, hri⟩ := sampleAt_eq_some.mp hr
    have htake : (s.run5.1.take s.processInput.length).length = 2 := by
      rw [← h2, ← h.widen_length, Machine.widen_length]
    have hw := sampleAt_widen_two s.draws s.rev.controls.width htake (h2 ▸ hc)
      ((sampleAt_take (by rw [s.processInput_length]; omega) i).trans hl)
      ((sampleAt_take (by rw [s.processInput_length]; omega) i).trans hr)
    refine ⟨b, _, bs, hbs, hbi, ?_, h.iobufWord_processed hc hi hw⟩
    rw [if_pos h2]
    exact ⟨ls, rs, l, r, _, _, hls, hrs, hli, hri, rfl, rfl, rfl⟩
  · have hne : (s.run5.1.take s.processInput.length).length ≠ 2 := by
      rwa [← h.widen_length, Machine.widen_length] at h2
    have hw : sampleAt (widen s.draws s.rev.controls.width (s.run5.1.take s.processInput.length)) c i = some b := by
      rw [widen_of_length_ne hne, sampleAt_take (by rwa [s.processInput_length]), hb]
    refine ⟨b, b, bs, hbs, hbi, ?_, h.iobufWord_processed hc hi hw⟩
    rw [if_neg h2]

end Output

/-- Settles O41: one lemma for each step, on the intermediate blocks of the model's own run. -/
theorem revProcessComputesTheBlock : Obligations.RevProcessComputesTheBlock := by
  unfold Obligations.RevProcessComputesTheBlock
  intro s hwf hcfg h1 h8 hn
  have h : s.CanProcess := ⟨hwf, hcfg, h1, h8, hn⟩
  refine ⟨s.processed, s.blocks, h.exec, rfl, s.processInput_length, ?_, fun c hc => ⟨h.toneOk hc, h.preOk hc⟩,
    fun c hc => processed_tones_other s hc, h.chainOk.1, fun c i hc hi => h.outOk hc hi⟩
  rw [processed_pd, List.length_map, h.predelayed_length]

end Sys2Proof.Machine
end

section
/-!
PROOFS. 45_reverb_top.md R275: the two ends of the blend. At an end one factor is 1.0 and the other a zero: the product
with 1.0 is the sample itself, an infinite one too, and the product of a finite sample with a zero is a zero, whose addition
changes `-0.0` alone.
-/

namespace Sys2Proof.Machine

/-! ## The factors -/

theorem isFinite_of_mag_zero {x : F32} (h : F32.mag x = 0) : F32.isFinite x = true :=
  (F32.isFinite_iff x).mpr (h ▸ by decide)

theorem sub32_one_of_mag_zero (n : Nat) {x : F32} (h : F32.mag x = 0) : sub32 n 0x3F800000 x = 0x3F800000 := by
  rw [sub32, addAs_of_finite n .sub x (by decide) (by simpa using isFinite_of_mag_zero h)]
  rcases eq_zero_or_negZero h with rfl | rfl <;> decide +kernel

theorem sub32_one_one (n : Nat) : sub32 n 0x3F800000 0x3F800000 = 0 := by
  rw [sub32, addAs_of_finite n .sub _ (by decide) (by decide)]
  decide +kernel

/-! ## The products -/

theorem isFinite_or_isInf {x : F32} (h : F32.isNaN x = false) : F32.isFinite x = true ∨ F32.isInf x = true := by
  simp only [F32.isNaN, F32.isFinite, F32.isInf, decide_eq_true_eq, decide_eq_false_iff_not] at h ⊢
  omega

/-- A factor 1.0 gives the sample back, an infinite one too. -/
theorem mul32_one_of_not_nan (n : Nat) {x : F32} (h : F32.isNaN x = false) : mul32 n x 0x3F800000 = x := by
  rcases isFinite_or_isInf h with hfin | hinf
  · exact mul32_one_right n hfin
  · have hmag := mag_of_isInf hinf
    rw [mul32_inf n (.inl hinf) h (by decide) (by rw [hmag]; decide) (by decide), F32.ext_iff', hmag]
    cases F32.neg x <;> decide

theorem mag_mul32_zero (n : Nat) {x z : F32} (hx : F32.isFinite x = true) (hz : F32.mag z = 0) :
    F32.mag (mul32 n x z) = 0 := by
  rw [mul32_of_finite n hx (isFinite_of_mag_zero hz), F32.units_eq_zero.mpr hz, Nat.mul_zero, roundMag_zero,
    F32.mag_pack _ (by decide)]

/-! ## The sum -/

/-- `y` is `x`, but that `-0.0` may have become `+0.0`. -/
def KeptButZero (x y : F32) : Prop := y = x ∨ x = 0x80000000 ∧ y = 0x00000000

theorem keptButZero_addFinite {x z : F32} (hx : F32.isFinite x = true) (hz : F32.mag z = 0) :
    KeptButZero x (addFinite x z) := by
  by_cases hmag : F32.mag x = 0
  · rcases eq_zero_or_negZero hmag with rfl | rfl <;> rcases eq_zero_or_negZero hz with rfl | rfl <;>
      simp only [KeptButZero] <;> decide
  · have hu : F32.signedUnits x ≠ 0 := by rwa [← Int.natAbs_ne_zero, natAbs_signedUnits, Ne, F32.units_eq_zero]
    have hzu : F32.signedUnits z = 0 := by rw [← Int.natAbs_eq_zero, natAbs_signedUnits, F32.units_eq_zero, hz]
    left
    rw [addFinite, hzu, add_zero, if_neg hu, decide_signedUnits_neg hmag, natAbs_signedUnits, roundMag_units hx,
      F32.pack_self]

/-- Adding a zero on either side, to an infinity too. -/
theorem keptButZero_add32 (n : Nat) {x z : F32} (hx : F32.isNaN x = false) (hz : F32.mag z = 0) :
    KeptButZero x (add32 n x z) ∧ KeptButZero x (add32 n z x) := by
  have hfinZ := isFinite_of_mag_zero hz
  rcases isFinite_or_isInf hx with hfin | hinf
  · rw [add32, add32, addAs_of_finite n .add z hfin hfinZ, addAs_of_finite n .add x hfinZ hfin, addFinite_comm z x]
    exact ⟨keptButZero_addFinite hfin hz, keptButZero_addFinite hfin hz⟩
  · exact ⟨.inl (addAs_inf_left n .add z hinf hfinZ), .inl (addAs_inf_right n .add x hfinZ hinf)⟩

/-! ## The ends of the blend -/

/-- Settles O42: the sample that is kept has the factor 1.0, and a zero is added to it. -/
theorem blendEndsAreDryAndWet : Obligations.BlendEndsAreDryAndWet := by
  unfold Obligations.BlendEndsAreDryAndWet
  refine fun n mix dry wet => ⟨fun hmix hwet hdry => ?_, fun _ _ hdry => ?_, ?_, ?_⟩
  · rw [blended, sub32_one_of_mag_zero n hmix, mul32_one_of_not_nan n hdry]
    exact (keptButZero_add32 n hdry (mag_mul32_zero n hwet hmix)).1
  · exact isNaN_addAs n .add _ (.inl (isNaN_mul32 n (.inl hdry)))
  · rintro rfl hdry hwet
    rw [blended, sub32_one_one, mul32_one_of_not_nan n hwet]
    exact (keptButZero_add32 n hwet (mag_mul32_zero n hdry (by decide))).2
  · rintro rfl _ hwet
    exact isNaN_addAs n .add _ (.inr (isNaN_mul32 n (.inl hwet)))

end Sys2Proof.Machine
end

section
/-!
PROOFS. 60_exceptions.md R301, R305: a command on an unconfigured module. Its first check is the same in every module, so
the five configurable modules share one lemma over the command.
-/

namespace Sys2Proof.Machine

/-- The command that configures the module behind a class's port; HAD holds no state, and REV is set up on the host bus. -/
def cfgInstrOf : Class → Option Instr
  | .dl => some .dlCfg
  | .rrs => some .rrsCfg
  | .dvn => some .dvnCfg
  | .diff => some .diffCfg
  | .fdn => some .fdnCfg
  | .had | .rev => none

/-- The state's record that the module of a class has been configured; HAD needs no configuration. -/
def State.configuredAt (s : State) : Class → Bool
  | .dl => s.dl.cfg
  | .rrs => s.rrs.cfg
  | .had => true
  | .dvn => s.dvn.cfg
  | .diff => s.diff.cfg
  | .fdn => s.fdn.cfg
  | .rev => s.rev.configured

/-- A command whose first check is that its module is configured. -/
theorem fails_of_cfg_check {i : Instr} {s : State} {o : Out}
    (hexec : exec i s =
      if s.configuredAt i.cls = false then .next (s.failAt .notConfigured i.cls) else o)
    (hcfg : s.configuredAt i.cls = false) : fails i s .notConfigured :=
  fails_of_failAt (hexec.trans (if_pos hcfg))

/-- Every command of a module's port but the one that configures the module checks the configuration first. -/
theorem fails_of_unconfigured {i cfg : Instr} {s : State} {c : Class} (hcls : i.cls = c)
    (hcfgInstr : cfgInstrOf c = some cfg) (hne : i ≠ cfg) (hcfg : s.configuredAt c = false) :
    fails i s .notConfigured := by
  subst hcls
  cases i with
  | dlCfg | rrsCfg | dvnCfg | diffCfg | fdnCfg => exact absurd (Option.some.inj hcfgInstr) hne
  | hadMix | revNop | revSetup | revProcess => cases hcfgInstr
  | dlRd | dlRdm | dlWr | dlProc | dlRdb | dlWrb | dlProcb | rrsSeteps | rrsProc | rrsProcb | dvnProcb | dvnPulse
  | diffProcb | fdnProcb => exact fails_of_cfg_check rfl hcfg

theorem fails_revProcess_unconfigured {s : State} (hcfg : s.rev.configured = false) :
    fails .revProcess s .notConfigured :=
  fails_revProcess (if_pos hcfg)

/-- Settles O5: `fails_of_unconfigured` at the five modules, and the first check of REV.PROCESS. -/
theorem unconfiguredCommandsFail : Obligations.UnconfiguredCommandsFail := by
  unfold Obligations.UnconfiguredCommandsFail
  refine ⟨?dl, ?rrs, ?dvn, ?diff, ?fdn, fun _ => fails_revProcess_unconfigured⟩
  case dl | rrs | dvn | diff | fdn => exact fun _ _ hcfg hcls hne => fails_of_unconfigured hcls rfl hne hcfg

end Sys2Proof.Machine
end
